-- ==== Sys2Proof/Word.lean ====
section
/-! DEFINITION. The word types of the model (R10: little-endian fields, bit 0 least significant). -/
namespace Sys2Proof

/-- One byte. -/
abbrev Byte := BitVec 8
/-- A 16-bit field. -/
abbrev U16 := BitVec 16
/-- A 32-bit field, or the bits of an FP32 value. -/
abbrev U32 := BitVec 32
/-- A 64-bit field or address. -/
abbrev U64 := BitVec 64

/-- A sparse table: keys strictly rising, no value equal to what an unlisted key reads as. -/
abbrev SMap (α : Type) := List (Nat × α)

end Sys2Proof
end

