-- ==== Sys2Proof/Syntax.lean ====
section
/-! DEFINITION. The commands of the block: one constructor of Instr per row of spec/opcode_table.json, with the operands a
sender (the chip, a PHY, a debugger, a timer, an internal arbiter) supplies. -/
namespace Sys2Proof

/-- One of the two ring links (Table 15.3): u upstream, d downstream. -/
inductive LinkSide where
  | up | down
  deriving DecidableEq, Repr

/-- The three requesters of the setup space (chapter "Setup Register Map"). -/
inductive Requester where
  | host | keeper | drover
  deriving DecidableEq, Repr

/-- The three park conditions of R515. -/
inductive ParkCause where
  | absent | isolation | reset
  deriving DecidableEq, Repr

/-- What an error-correcting decoder reports of one read (R25, R543). -/
inductive Ecc where
  | ok | single | double
  deriving DecidableEq, Repr

/-- What the error-correcting decoders of the fold report of the reads of one delivery (R154): nothing, an error in the pen's
directory entry, in its n-th record (pen cache), or in the item-table entry of its n-th record; double: uncorrectable. -/
inductive FoldUpset where
  | none
  | directory (double : Bool)
  | record (n : Nat) (double : Bool)
  | item (n : Nat) (double : Bool)
  deriving DecidableEq, Repr

/-- What the error-correcting decoders report of the reads of one bundle that is issued (R543): nothing, an error in a register file that its
vector slots read, or in the instruction cache; double: uncorrectable. -/
inductive BundleUpset where
  | none
  | register (double : Bool)
  | code (double : Bool)
  deriving DecidableEq, Repr

/-- What the parts of the firmware verification that rest on Xethaward's key and on SHA-384 report (R551, R552 steps 3, 4). -/
inductive CryptoVerdict where
  | ok | badSignature | badDigest | readError
  deriving DecidableEq, Repr

/-- A received word of one lane (R497): its word type (0 data, 1 alignment, 2 member-absent, 3 reserved) and its bits [7:0]. -/
structure LaneWord where
  type   : BitVec 2
  number : Byte
  deriving DecidableEq, Repr

/-- A 512-B flit (R198, Table 6.3): header fields, the 496 payload bytes (bytes 12 to 507), and the CRC as carried. -/
structure Flit where
  flitType : BitVec 4
  seq      : U16
  ackSeq   : U16
  nak      : Bool
  poison   : Bool
  credCtrl : BitVec 7
  credData : BitVec 8
  payloadLen : BitVec 9
  dataKind : BitVec 2
  handoffId : U32
  payload  : List Byte
  crc      : U32
  deriving DecidableEq, Repr

/-- A request on an EPP channel (Table 15.5), with the write-data beats that follow it (Table 15.6: byte enables and data). -/
structure EppRequest where
  opcode   : BitVec 3
  beatsM1  : BitVec 4
  tag      : BitVec 11
  asid     : BitVec 20
  address  : U64
  byteEn   : U64
  data     : BitVec 512
  deriving DecidableEq, Repr

/-- One response beat (Table 15.7). -/
structure EppBeat where
  last   : Bool
  poison : Bool
  code   : BitVec 3
  dir    : Bool
  tag    : BitVec 11
  data   : BitVec 512
  deriving DecidableEq, Repr

/-- A response beat at a memory port. -/
structure PortBeat where
  port : BitVec 5
  beat : EppBeat
  deriving DecidableEq, Repr

/-- The group in a slot of a core. -/
structure GroupRef where
  core : BitVec 8
  slot : BitVec 4
  deriving DecidableEq, Repr

/-- A fold slice, and what the error-correcting decoder reports of its read of a pen's directory entry (R154). -/
structure SliceRead where
  slice : BitVec 2
  ecc   : Ecc
  deriving DecidableEq, Repr

/-- What a WRAPPER_SHIFT pulse of mld_wrck does (IEEE 1500 control signals of Table 15.4). -/
inductive WrapperPhase where
  | capture | shift | update
  deriving DecidableEq, Repr

/-- The commands. One constructor per row of spec/opcode_table.json.
`now` is the value of mld_time at the command, `agents` the bytes other agents of the chip have written to memory before it
(key: asid × 2^64 + address), `upsets` the store lines in which bits have flipped since (true: beyond correction). -/
inductive Instr where
  -- boundary events: reset, park, supplies
  | resetAssert
  | resetRelease
  | parkEnter (cause : ParkCause)
  | parkExit (cause : ParkCause)
  | parkResponse (req : EppRequest)
  | supplyWarningFall (now : U64)
  | supplyWarningRise (now : U64)
  | throttleRecoveryEnd (now : U64)
  | dutyStop (core : BitVec 8) (ran : Nat)
  | dutyRun (core : BitVec 8) (stopped : Nat)
  -- ring links
  | linkTrainedRise (l : LinkSide) (now : U64)
  | linkTrainedFall (l : LinkSide)
  | linkBringupTimeout (l : LinkSide) (now : U64)
  | ringLinkClockStop (l : LinkSide)
  | alignmentWordReceive (l : LinkSide) (lanes : List LaneWord) (skew : Nat) (now : U64)
  | alignmentWordSend (l : LinkSide)
  | memberAbsentReceive (l : LinkSide)
  | idleFlitReceive (l : LinkSide) (f : Flit) (now : U64)
  | ackFlitReceive (l : LinkSide) (f : Flit) (now : U64)
  | handoffDataReceive (l : LinkSide) (f : Flit) (now : U64)
  | handoverDataReceive (l : LinkSide) (f : Flit) (now : U64)
  | marginFlitReceive (l : LinkSide) (f : Flit) (now : U64)
  | ackTimeoutReplay (l : LinkSide) (now : U64)
  | ackReturnTimer (l : LinkSide) (now : U64)
  | marginIntervalSend (l : LinkSide) (margins : List U16) (now : U64)
  -- ring control messages and their timers
  | census1 (l : LinkSide) (f : Flit) (now : U64)
  | census2 (l : LinkSide) (f : Flit) (now : U64)
  | censusTimeout (now : U64)
  | handoffReady (l : LinkSide) (f : Flit) (now : U64)
  | handoffEnd (l : LinkSide) (f : Flit) (now : U64)
  | handoffRecvDone (pass : Byte) (now : U64)
  | handoffAck (l : LinkSide) (f : Flit) (now : U64)
  | handoffAbort (l : LinkSide) (f : Flit) (now : U64)
  | handoffTimeout (pass : Byte) (now : U64)
  | epochVote (l : LinkSide) (f : Flit) (now : U64)
  | epochHandover (l : LinkSide) (f : Flit) (now : U64)
  | epochCommit (l : LinkSide) (f : Flit) (now : U64)
  | epochAbort (l : LinkSide) (f : Flit) (now : U64)
  | epochDrained (now : U64)
  | epochTimeout (now : U64)
  | handoverBegin (l : LinkSide) (f : Flit) (now : U64)
  | handoverEnd (l : LinkSide) (f : Flit) (now : U64)
  | handoverWritesDone (now : U64)
  | handoverAck (l : LinkSide) (f : Flit) (now : U64)
  | ringDown (l : LinkSide) (f : Flit) (now : U64)
  -- setup space, Keeper mailbox, bring-up, debug
  | registerWrite (by_ : Requester) (offset : BitVec 20) (wide : Bool) (value : U64)
  | completerAddrErr (req : EppRequest)
  | ctxCommit (ctx : BitVec 12) (agents : List (Nat × Byte))
  | ctxCommitDeferred
  | kmBoot (image : U64) (agents : List (Nat × Byte)) (now : U64)
  | firmwareVerified (verdict : CryptoVerdict) (now : U64)
  | quadrantRelease (lineFail : Option (Byte × BitVec 14 × BitVec 7)) (now : U64)
  | bootTimeout (now : U64)
  | droverReadyTimeout (now : U64)
  | ctxWrite (ctx : U64) (entry : U64) (agents : List (Nat × Byte))
  | ctxRetire (ctx : U64)
  | msgSet (n : U64) (addr : U64) (data : U64) (wire : U64)
  | debugAuth (ctx : U64) (enable : U64)
  | govLimit (watts : U64)
  | droverRestart (now : U64)
  | kmRequestUnknown (code : U16)
  | halt (by_ : Requester)
  | debugHaltTaken
  | debugStep (by_ : Requester)
  | debugResume (by_ : Requester)
  | snap (by_ : Requester) (now : U64)
  | censusStart (now : U64)
  -- doorbells, rings, descriptors
  | index (ctx : BitVec 12) (ring : BitVec 4) (asid : BitVec 20) (value : U32) (agents : List (Nat × Byte))
  | setup (ctx : BitVec 12) (ring : BitVec 4) (asid : BitVec 20) (value : U32) (agents : List (Nat × Byte))
  | teardown (ctx : BitVec 12) (ring : BitVec 4) (asid : BitVec 20) (value : U32)
  | ringTeardownComplete (ctx : BitVec 12) (ring : BitVec 4)
  | doorbellDiscard (offset : BitVec 22) (bytes : Nat) (asid : BitVec 20) (value : U32)
  | descriptorFetch (ctx : BitVec 12) (ring : BitVec 4) (now : U64)
  | nop (ctx : BitVec 12) (ring : BitVec 4)
  | fence (ctx : BitVec 12) (ring : BitVec 4)
  | fenceRelease (pass : Byte)
  | barrierCounter (ctx : BitVec 12) (ring : BitVec 4) (now : U64)
  | barrierPoll (pass : Byte) (now : U64)
  | barrierTimeout (pass : Byte) (now : U64)
  | barrierHandoff (ctx : BitVec 12) (ring : BitVec 4) (now : U64)
  | epoch (ctx : BitVec 12) (ring : BitVec 4)
  -- passes
  | xfer (ctx : BitVec 12) (ring : BitVec 4)
  | scatter (ctx : BitVec 12) (ring : BitVec 4)
  | build (ctx : BitVec 12) (ring : BitVec 4)
  | search (ctx : BitVec 12) (ring : BitVec 4)
  | trace (ctx : BitVec 12) (ring : BitVec 4)
  | renderFwd (ctx : BitVec 12) (ring : BitVec 4)
  | renderBwd (ctx : BitVec 12) (ring : BitVec 4)
  | kernel (ctx : BitVec 12) (ring : BitVec 4)
  | calibSetup (ctx : BitVec 12) (ring : BitVec 4)
  | calibExport (ctx : BitVec 12) (ring : BitVec 4)
  | calibPropose (ctx : BitVec 12) (ring : BitVec 4)
  | calibCommit (ctx : BitVec 12) (ring : BitVec 4)
  | calibSave (ctx : BitVec 12) (ring : BitVec 4)
  | calibRestore (ctx : BitVec 12) (ring : BitVec 4)
  | calibDisable (ctx : BitVec 12) (ring : BitVec 4)
  | cancelPass (ctx : BitVec 12) (ring : BitVec 4) (now : U64)
  | cancelRing (ctx : BitVec 12) (ring : BitVec 4) (now : U64)
  | cancelComplete (pass : Byte) (now : U64)
  | cancelTimeout (pass : Byte) (now : U64)
  | passCompletion (pass : Byte) (now : U64)
  | completionRingSpace (pass : Byte) (now : U64)
  | messageWrite (ctx : BitVec 12) (ring : BitVec 4) (now : U64)
  -- the fold
  | batchAdmit (pass : Byte)
  | recordAccept (read : SliceRead) (now : U64)
  | penAgeLimit (slice : BitVec 2) (now : U64)
  | penRequest (group : GroupRef) (upset : FoldUpset) (now : U64)
  | settleUpdate
  | runningBestMax
  | candidateAppend
  | queryPlacement (pass : Byte)
  -- walker cores
  | herdLaunch (pass : Byte) (core : BitVec 8) (now : U64)
  | flockLaunch (pass : Byte) (flock : BitVec 5) (now : U64)
  | br (core : BitVec 8) (slot : BitVec 4)
  | brnone (core : BitVec 8) (slot : BitVec 4)
  | ifMask (core : BitVec 8) (slot : BitVec 4)
  | elseMask (core : BitVec 8) (slot : BitVec 4)
  | endifMask (core : BitVec 8) (slot : BitVec 4)
  | barH (core : BitVec 8) (slot : BitVec 4)
  | barF (core : BitVec 8) (slot : BitVec 4)
  | endGroup (core : BitVec 8) (slot : BitVec 4)
  | mma (core : BitVec 8) (slot : BitVec 4)
  | fetch (group : GroupRef) (upsets : List (Nat × Bool))
  | wait (core : BitVec 8) (slot : BitVec 4)
  | kernelFence (core : BitVec 8) (slot : BitVec 4)
  | ldL (core : BitVec 8) (slot : BitVec 4) (ecc : Ecc)
  | stL (core : BitVec 8) (slot : BitVec 4)
  | ldF (core : BitVec 8) (slot : BitVec 4)
  | stF (core : BitVec 8) (slot : BitVec 4)
  | ldG (core : BitVec 8) (slot : BitVec 4)
  | stG (core : BitVec 8) (slot : BitVec 4)
  | atG (core : BitVec 8) (slot : BitVec 4)
  | atfG (core : BitVec 8) (slot : BitVec 4)
  | boundTest (core : BitVec 8) (slot : BitVec 4)
  | primitiveTest (core : BitVec 8) (slot : BitVec 4)
  | vectorAlu (core : BitVec 8) (slot : BitVec 4) (upset : BundleUpset)
  | scalarAlu (core : BitVec 8) (slot : BitVec 4)
  | tagComplete (core : BitVec 8) (slot : BitVec 4) (tag : BitVec 6)
  | timeBound (core : BitVec 8) (slot : BitVec 4) (waited : Nat)
  | contextDrained (ctx : BitVec 12) (now : U64)
  | drainStalled (ctx : BitVec 12) (now : U64)
  -- ports, store
  | portReadGrant (port : BitVec 5)
  | portWriteGrant (port : BitVec 5)
  | mergeWindowExpire (port : BitVec 5)
  | eppResponse (at_ : PortBeat) (ecc : Ecc) (now : U64)
  | scrubLine (upsets : List (Nat × Bool))
  | awlWindow
  | sweepStart (now : U64)
  | sampleComplete
  -- raster
  | primitiveBin (pass : Byte)
  | tileStart (unit : BitVec 3) (ecc : Ecc)
  -- Drover and engine reach
  | droverReport (now : U64)
  | droverWatchdog (now : U64)
  | droverSandboxViolation (addr : U64)
  | droverNote (code : Byte) (payload : List Byte)
  | engineFatal (code : Byte) (addr : U64)
  -- test access
  | wsBypass
  | wsExtest
  | wsPreload
  | wsIntestScan
  | wsClamp
  | mldIdcode
  | mldIjtag
  | wrapperReset
  | bistStart (sib : BitVec 4)
  | txTake (l : LinkSide)
  | ringLinkClockStart (l : LinkSide)
  | powerUp
  | powerDown
  | bistDone (sib : BitVec 4) (fails : U32) (firstBank : Byte) (firstLine : BitVec 14) (firstBit : BitVec 7) (mask : BitVec 512)
  | governorLimiting (limiting : Bool)
  | wrapperShift (phase : WrapperPhase) (wsi : Bool)
  deriving DecidableEq, Repr

end Sys2Proof
end

