-- ==== Sys2Proof/Decode.lean ====
section
/-! DEFINITION. The command a word of spec/opcode_table.json spells: every row of that table gives its command no bits, so no
word spells one. -/
namespace Sys2Proof

/-- The command that an nbits-wide word w spells by the table's bits: none, as the table gives no row any bit. -/
def decodeTableWord (_nbits _w : Nat) : Option Instr := none

end Sys2Proof
end

