-- ==== Sys2Proof/Bundle.lean ====
section
/-! DEFINITION. The walker-core bundle of R225 to R228, decoded: eight slots, each with its operation and operand field.
The manual numbers the C and X operations (Table 7.7) and the M operations (Table 9.2); for the V, B, P and S slots it names
operation classes only (Table 8.1), so those slots hold the operation itself. -/
namespace Sys2Proof

/-- A source operand (Table 7.6). -/
inductive Src where
  | vec (r : BitVec 8)
  | scl (r : BitVec 7)
  | imm
  deriving DecidableEq, Repr

/-- Predication fields common to every slot (Table 7.3). -/
structure Pred where
  en   : Bool
  inv  : Bool
  sreg : BitVec 7
  deriving DecidableEq, Repr

/-- Rounding of a floating-point operation: to nearest even, toward +∞, toward −∞ (R409, R411). -/
inductive Rm where
  | rn | ru | rd
  deriving DecidableEq, Repr

/-- The eight numeric formats of R402. -/
inductive NumFmt where
  | fp32 | bf16 | fp16 | e4m3 | e5m2 | int8 | ue8 | uq8
  deriving DecidableEq, Repr

/-- Comparison of a compare operation. -/
inductive Cmp where
  | eq | lt | le
  deriving DecidableEq, Repr

/-- How a compare reads its operands. -/
inductive CmpType where
  | signed | unsigned | fp32
  deriving DecidableEq, Repr

/-- V0 and V1 operations, one per operation of the classes of Table 8.1. -/
inductive VOp where
  | iadd | iand | ior | ixor | shl | shr | sar | mov | select
  | fadd (f : NumFmt) (m : Rm) | fmul (f : NumFmt) (m : Rm) | fma (f : NumFmt) (m : Rm)
  | fmin (f : NumFmt) | fmax (f : NumFmt)
  | cvt (dst src : NumFmt)
  | recip (m : Rm) | div (m : Rm) | sqrt (m : Rm)
  | cmp (k : Cmp) (t : CmpType)
  | permute
  deriving DecidableEq, Repr

/-- S-slot operations of Table 8.1. -/
inductive SOp where
  | iadd | iand | ior | ixor | shl | shr | mov
  | fadd (m : Rm) | fmul (m : Rm) | fmin | fmax
  deriving DecidableEq, Repr

/-- B-slot operations (Table 8.1): a ray–box test or an inner-product bound of 8 children. -/
inductive BOp where
  | rayBox
  | innerProduct (dims8 : BitVec 4)
  deriving DecidableEq, Repr

/-- P-slot operations: a primitive test of one kind (R136 to R145). -/
inductive POp where
  | triangle | ellipsoid | point
  deriving DecidableEq, Repr

/-- M-slot operations (Table 9.2). -/
inductive MOp where
  | ldL | stL | ldF | stF | ldG | stG | atG | atfG
  deriving DecidableEq, Repr

/-- C-slot operations (Table 7.7). -/
inductive COp where
  | br | ifm | elsem | endifm | brnone | barH | barF | endg
  deriving DecidableEq, Repr

/-- X-slot operations (Table 7.7 and R298). -/
inductive XOp where
  | mma | fetch | wait | fence
  deriving DecidableEq, Repr

/-- A V0 or V1 slot (Table 7.4). -/
structure VSlot where
  pred : Pred
  op   : VOp
  dst  : BitVec 8
  a    : Src
  b    : Src
  c    : Src
  imm  : U32
  deriving DecidableEq, Repr

/-- A B slot (Table 7.4). -/
structure BSlot where
  pred : Pred
  op   : BOp
  dst  : BitVec 8
  a    : Src
  b    : Src
  c    : Src
  addr : BitVec 7
  imm  : U32
  deriving DecidableEq, Repr

/-- A P slot (Table 7.4). -/
structure PSlot where
  pred : Pred
  op   : POp
  dst  : BitVec 8
  a    : Src
  b    : Src
  c    : Src
  addr : BitVec 7
  imm  : U32
  deriving DecidableEq, Repr

/-- An M slot (Tables 7.4 and 9.3). -/
structure MSlot where
  pred   : Pred
  op     : MOp
  size   : BitVec 2
  atomic : BitVec 4
  scope  : BitVec 2
  dst    : BitVec 8
  a      : Src
  b      : Src
  c      : Src
  addr   : BitVec 7
  tag    : BitVec 6
  imm    : U32
  deriving DecidableEq, Repr

/-- An S slot (Table 7.5). -/
structure SSlot where
  pred : Pred
  op   : SOp
  dst  : BitVec 7
  a    : Src
  b    : Src
  imm  : U64
  deriving DecidableEq, Repr

/-- A C slot (Tables 7.5 and 7.7); inv is modifier bit 0. -/
structure CSlot where
  pred : Pred
  op   : COp
  a    : Src
  inv  : Bool
  imm  : U64
  deriving DecidableEq, Repr

/-- An X slot (Table 7.5); scope is modifier bits [1:0] of a FENCE. -/
structure XSlot where
  pred  : Pred
  op    : XOp
  dst   : BitVec 7
  a     : Src
  b     : Src
  tag   : BitVec 6
  imm   : U64
  lead  : Bool
  scope : BitVec 2
  deriving DecidableEq, Repr

/-- A bundle: eight slots (R225); none is the opcode 0x000. -/
structure Bundle where
  v0 : Option VSlot
  v1 : Option VSlot
  b  : Option BSlot
  p  : Option PSlot
  m  : Option MSlot
  s  : Option SSlot
  c  : Option CSlot
  x  : Option XSlot
  deriving DecidableEq, Repr

/-- The bundle whose eight slots hold no operation. -/
def Bundle.empty : Bundle := ⟨none, none, none, none, none, none, none, none⟩

end Sys2Proof
end

