-- ==== Sys2Proof/Config.lean ====
section
/-! DEFINITION. What the manual leaves open, as constants without a body (each named in notes/assumptions), and what one
engine fixes. Nothing in Lean can prove a value of the opaque constants. -/
namespace Sys2Proof

/-- A fresh value the manual does not state, indexed by the counter State.freeCtr (log entry 3). -/
opaque Config.freeValue : Nat → U64

/-- Which of the threads of one bundle whose stores share a byte stores first, from the addresses that they name (log entry 15). -/
opaque Config.storeFirst : List Nat → Nat

/-- dF_c that a reverse kernel's packet gives for a fragment which the reverse walk does not reach, from what is known of the fragment and
its pixel (log entry 24). -/
opaque Config.deadGrad : List Nat → Nat → U32

/-- Which V0/V1 operation an opcode and its modifiers name: the manual numbers none (log entry 4). -/
opaque Config.vDecode : BitVec 10 → BitVec 8 → Option VOp

/-- Which S operation an opcode and its modifiers name (log entry 4). -/
opaque Config.sDecode : BitVec 10 → BitVec 8 → Option SOp

/-- Which B operation an opcode and its modifiers name (log entry 4). -/
opaque Config.bDecode : BitVec 10 → BitVec 8 → Option BOp

/-- Which P operation an opcode and its modifiers name (log entry 4). -/
opaque Config.pDecode : BitVec 10 → BitVec 8 → Option POp

/-- Whether F1 defines an opcode of slot n (0 V0 … 7 X): the F1 opcode set is not in the manual (R258, log entry 4). -/
opaque Config.f1Defines : Nat → BitVec 10 → Bool

/-- The correctly rounded e^x where 512 fraction bits do not decide it (R336, R419; log entry 5). -/
opaque Config.expUndecided : U32 → U32

/-- The correctly rounded ln x where 512 fraction bits do not decide it (R427; log entry 5). -/
opaque Config.lnUndecided : U32 → U32

/-- The values on the input pins of the wrapper boundary register at its n-th capture (log entry 6). -/
opaque Config.boundaryPins : Nat → List Bool

/-- What instrument n of the 1687 network captures, its length with it, at its k-th capture (log entry 6). -/
opaque Config.instrumentBits : Nat → Nat → List Bool

/-- The value of a shift by 32 or more (by 64 or more in the S slot): the manual states none (log entry 4). -/
opaque Config.shiftWide : U64 → U64 → U64

/-- A UQ8 code read as a number: the manual reads UQ8 only against a frame (R402; log entry 4). -/
opaque Config.uq8Widen : Byte → U32

/-- The chunks, less one, into which a BUILD of n keys or primitives is divided for its groups (R474; log entry 98). -/
opaque Config.buildChunks : Nat → Nat

/-- The group time bound, in core cycles, of the stock kernel of internal number n, carried in the firmware image (R474; log entry 21). -/
opaque Config.stockBound : Nat → Nat

end Sys2Proof
end

