-- ==== Sys2Proof/Machine/Bits.lean ====
section
/-! DEFINITION. Bit fields, little-endian bytes, CRC-32 and sparse tables: the helpers every family uses (R10, R199). -/
namespace Sys2Proof.Machine

/-- Bits [hi:lo] of n, both ends included (R10). -/
def bitsOf (n hi lo : Nat) : Nat := (n >>> lo) % 2 ^ (hi + 1 - lo)

/-- Bit i of n. -/
def bitOf (n i : Nat) : Bool := n.testBit i

/-- Bytes of l from offset o, n of them; a byte beyond the end reads as zero. -/
def slice (l : List Byte) (o n : Nat) : List Byte := (List.range n).map fun i => l.getD (o + i) 0

/-- The little-endian value of a byte list (R10). -/
def leNat : List Byte → Nat
  | [] => 0
  | b :: r => b.toNat + 256 * leNat r

/-- The n little-endian bytes of v (R10). -/
def natLe : Nat → Nat → List Byte
  | 0, _ => []
  | n + 1, v => BitVec.ofNat 8 v :: natLe n (v / 256)

/-- The little-endian field of n bytes at offset o. -/
def field (l : List Byte) (o n : Nat) : Nat := leNat (slice l o n)

/-- v with n bytes taken as a two's-complement integer. -/
def toSigned (n v : Nat) : Int := if v < 2 ^ (8 * n - 1) then (v : Int) else (v : Int) - (2 ^ (8 * n) : Nat)

/-- The integer i as an unsigned value of n bytes. -/
def ofSigned (n : Nat) (i : Int) : Nat := (i % ((2 ^ (8 * n) : Nat) : Int)).toNat

/-- Whether every one of the bytes is zero (R14). -/
def allZero (l : List Byte) : Bool := l.all (· == 0)

/-- ⌈a / b⌉. -/
def ceilDiv (a b : Nat) : Nat := (a + b - 1) / b

/-- One bit step of the reflected CRC-32. -/
def crcBit (c : Nat) : Nat := if c % 2 = 1 then (c / 2) ^^^ 0xEDB88320 else c / 2

/-- One byte of the CRC-32. -/
def crcByte (c : Nat) (b : Byte) : Nat :=
  crcBit (crcBit (crcBit (crcBit (crcBit (crcBit (crcBit (crcBit (c ^^^ b.toNat))))))))

/-- The IEEE 802.3 CRC-32 of a byte list (R199). -/
def crc32 (l : List Byte) : U32 := BitVec.ofNat 32 ((l.foldl crcByte 0xFFFFFFFF) ^^^ 0xFFFFFFFF)

/-- The value a sparse table holds at a key; d is what an unlisted key reads as. -/
def smGet {α : Type} (d : α) : List (Nat × α) → Nat → α
  | [], _ => d
  | (k, v) :: r, key => if key = k then v else if key < k then d else smGet d r key

/-- The value a sparse table holds at a key, when it lists one. -/
def smFind {α : Type} : List (Nat × α) → Nat → Option α
  | [], _ => none
  | (k, v) :: r, key => if key = k then some v else if key < k then none else smFind r key

/-- A table with a key removed. -/
def smErase {α : Type} : List (Nat × α) → Nat → List (Nat × α)
  | [], _ => []
  | (k, v) :: r, key => if key = k then r else if key < k then (k, v) :: r else (k, v) :: smErase r key

/-- A table with a key listed at v. -/
def smPut {α : Type} : List (Nat × α) → Nat → α → List (Nat × α)
  | [], key, v => [(key, v)]
  | (k, w) :: r, key, v =>
    if key = k then (k, v) :: r else if key < k then (key, v) :: (k, w) :: r else (k, w) :: smPut r key v

/-- A table written at a key: the value an unlisted key reads as removes the entry, so equal tables are equal data. -/
def smSet {α : Type} [DecidableEq α] (d : α) (m : List (Nat × α)) (key : Nat) (v : α) : List (Nat × α) :=
  if v = d then smErase m key else smPut m key v

/-- Whether every key of a table is above b. -/
def smAbove {α : Type} (b : Nat) (m : List (Nat × α)) : Bool := m.all fun kv => b < kv.1

/-- The canonical form: keys strictly rising and no value equal to what an unlisted key reads as. -/
def smWf {α : Type} [DecidableEq α] (d : α) : List (Nat × α) → Bool
  | [] => true
  | (k, v) :: r => smAbove k r && decide (v ≠ d) && smWf d r

/-- A sorted list of numbers with n in it. -/
def setAdd : List Nat → Nat → List Nat
  | [], n => [n]
  | a :: r, n => if n = a then a :: r else if n < a then n :: a :: r else a :: setAdd r n

/-- A list of numbers with every n removed. -/
def setDel (l : List Nat) (n : Nat) : List Nat := l.filter (· != n)

/-- The list with its element at position i replaced by f of it. -/
def modAt {α : Type} : List α → Nat → (α → α) → List α
  | [], _, _ => []
  | a :: r, 0, f => f a :: r
  | a :: r, n + 1, f => a :: modAt r n f

/-- The first element that satisfies p replaced by f of it. -/
def modFirst {α : Type} (p : α → Bool) (f : α → α) : List α → List α
  | [] => []
  | a :: r => if p a then f a :: r else a :: modFirst p f r

/-- The list without its first element that satisfies p. -/
def dropFirst {α : Type} (p : α → Bool) : List α → List α
  | [] => []
  | a :: r => if p a then r else a :: dropFirst p r

/-- Insertion into a list kept in the order le. -/
def insertBy {α : Type} (le : α → α → Bool) (a : α) : List α → List α
  | [] => [a]
  | b :: r => if le a b then a :: b :: r else b :: insertBy le a r

/-- A span cut at multiples of g: (address, offset within the span, length). -/
def pieces (g a n : Nat) : List (Nat × Nat × Nat) :=
  if n = 0 then [] else (List.range ((a % g + n - 1) / g + 1)).map fun i =>
    let lo := max a ((a / g + i) * g)
    let hi := min (a + n) ((a / g + i + 1) * g)
    (lo, lo - a, hi - lo)

/-- Stable sort by le: elements that le does not separate keep their order. -/
def sortBy {α : Type} (le : α → α → Bool) : List α → List α
  | [] => []
  | a :: r => insertBy le a (sortBy le r)

/-- The first element for which no other is strictly better, under better. -/
def bestBy {α : Type} (better : α → α → Bool) : List α → Option α
  | [] => none
  | a :: r => match bestBy better r with
    | none => some a
    | some b => if better b a then some b else some a

end Sys2Proof.Machine
end

