-- ==== Sys2Proof/Machine/Float.lean ====
section
/-! DEFINITION. The number formats and roundings of the manual (R402 to R413): every operation is formed exactly and
rounded once. A finite FP32 value is the integer k of its value k × 2^−149. -/
namespace Sys2Proof.Machine

/-- A binary format: p significant bits, the exponent of its smallest quantum (negated), the code of +∞. -/
structure FloatFmt where
  p    : Nat
  qmin : Nat
  inf  : Nat
  deriving DecidableEq, Repr

/-- binary32 (Table 12.1). -/
def fmt32 : FloatFmt := ⟨24, 149, 0x7F800000⟩
/-- BF16 (Table 12.1). -/
def fmtBf16 : FloatFmt := ⟨8, 133, 0x7F80⟩
/-- binary16 (Table 12.1). -/
def fmt16 : FloatFmt := ⟨11, 24, 0x7C00⟩

/-- ⌊num / den × 2^s⌋ and whether the remainder is non-zero and where it lies: 0 exact, 1 below half, 2 half, 3 above. -/
def scaledDiv (num den : Nat) (s : Int) : Nat × Nat :=
  let n := if 0 ≤ s then num <<< s.toNat else num
  let d := if 0 ≤ s then den else den <<< (-s).toNat
  let q := n / d
  let r := n % d
  (q, if r = 0 then 0 else if 2 * r < d then 1 else if 2 * r = d then 2 else 3)

/-- Whether a magnitude with quotient n and remainder class c is rounded away from zero (R411, round to nearest even). -/
def roundsUp (m : Rm) (neg : Bool) (n c : Nat) : Bool :=
  match m with
  | .rn => c = 3 || (c = 2 && n % 2 = 1)
  | .ru => c != 0 && !neg
  | .rd => c != 0 && neg

/-- The magnitude code of num / den rounded once into a format, before overflow is settled. -/
def roundCode (f : FloatFmt) (m : Rm) (neg : Bool) (num den : Nat) : Nat :=
  if num = 0 then 0 else
    let l : Int := (num.log2 : Int) - den.log2
    let ge : Bool := if 0 ≤ l then den <<< l.toNat ≤ num else den ≤ num <<< (-l).toNat
    let e := if ge then l else l - 1
    let q := max (e - (f.p - 1 : Nat)) (-(f.qmin : Int))
    let qc := scaledDiv num den (-q)
    (q + f.qmin).toNat * 2 ^ (f.p - 1) + qc.1 + (if roundsUp m neg qc.1 qc.2 then 1 else 0)

/-- The magnitude code of num / den in a format, an overflow going to ∞ or to the largest finite value (R411). -/
def roundQ (f : FloatFmt) (m : Rm) (neg : Bool) (num den : Nat) : Nat :=
  let c := roundCode f m neg num den
  if c < f.inf then c else
    match m with
    | .rn => f.inf
    | .ru => if neg then f.inf - 1 else f.inf
    | .rd => if neg then f.inf else f.inf - 1

/-- The canonical quiet NaN of FP32 (R408). -/
def nan32 : U32 := 0x7FC00000
/-- +∞ of FP32. -/
def inf32 : U32 := 0x7F800000
/-- −∞ of FP32. -/
def ninf32 : U32 := 0xFF800000

/-- The magnitude bits of an FP32 value. -/
def magOf (a : U32) : Nat := a.toNat % 2 ^ 31
/-- The sign of an FP32 value: true when negative. -/
def negOf (a : U32) : Bool := a.toNat ≥ 2 ^ 31
/-- Whether an FP32 value is a NaN. -/
def isNan (a : U32) : Bool := magOf a > 0x7F800000
/-- Whether an FP32 value is ±∞. -/
def isInf (a : U32) : Bool := magOf a = 0x7F800000
/-- Whether an FP32 value is neither infinite nor a NaN. -/
def isFin (a : U32) : Bool := magOf a < 0x7F800000
/-- Whether an FP32 value is ±0. -/
def isZero (a : U32) : Bool := magOf a = 0

/-- The FP32 bits with a sign and a magnitude code. -/
def packF (neg : Bool) (mag : Nat) : U32 := BitVec.ofNat 32 (mag + if neg then 2 ^ 31 else 0)

/-- |a| × 2^149 of a finite FP32 value. -/
def magFx (a : U32) : Nat :=
  let m := magOf a
  let e := m / 2 ^ 23
  if e = 0 then m else (2 ^ 23 + m % 2 ^ 23) <<< (e - 1)

/-- a × 2^149 of a finite FP32 value. -/
def fx (a : U32) : Int := if negOf a then -(magFx a : Int) else (magFx a : Int)

/-- The FP32 value nearest under m to i × 2^−s; an exact zero takes the sign zneg. -/
def ofFx (m : Rm) (i : Int) (s : Nat) (zneg : Bool) : U32 :=
  if i = 0 then packF zneg 0 else packF (decide (i < 0)) (roundQ fmt32 m (decide (i < 0)) i.natAbs (2 ^ s))

/-- Addition, rounded once under m. -/
def fadd (m : Rm) (a b : U32) : U32 :=
  if isNan a || isNan b then nan32
  else if isInf a then (if isInf b && negOf a != negOf b then nan32 else a)
  else if isInf b then b
  else
    let zneg := if isZero a && isZero b && negOf a == negOf b then negOf a else decide (m = .rd)
    ofFx m (fx a + fx b) 149 zneg

/-- The value with its sign reversed. -/
def fneg (a : U32) : U32 := a ^^^ 0x80000000

/-- The value with its sign clear. -/
def fabs (a : U32) : U32 := a &&& 0x7FFFFFFF

/-- Subtraction, rounded once under m. -/
def fsub (m : Rm) (a b : U32) : U32 := if isNan b then nan32 else fadd m a (fneg b)

/-- Multiplication, rounded once under m. -/
def fmul (m : Rm) (a b : U32) : U32 :=
  let s := negOf a != negOf b
  if isNan a || isNan b then nan32
  else if isInf a || isInf b then (if isZero a || isZero b then nan32 else packF s 0x7F800000)
  else packF s (roundQ fmt32 m s (magFx a * magFx b) (2 ^ 298))

/-- RN(a × b + c) and its directed forms: rounded once from the exact value (R341, R409). -/
def ffma (m : Rm) (a b c : U32) : U32 :=
  let s := negOf a != negOf b
  if isNan a || isNan b || isNan c then nan32
  else if isInf a || isInf b then
    (if isZero a || isZero b then nan32
     else if isInf c && negOf c != s then nan32 else packF s 0x7F800000)
  else if isInf c then c
  else
    let i := fx a * fx b + fx c * (2 ^ 149 : Nat)
    let zneg := if (isZero a || isZero b) && isZero c && negOf c == s then s else decide (m = .rd)
    ofFx m i 298 zneg

/-- Division, correctly rounded under m (R409). -/
def fdiv (m : Rm) (a b : U32) : U32 :=
  let s := negOf a != negOf b
  if isNan a || isNan b then nan32
  else if isInf a then (if isInf b then nan32 else packF s 0x7F800000)
  else if isInf b then packF s 0
  else if isZero b then (if isZero a then nan32 else packF s 0x7F800000)
  else packF s (roundQ fmt32 m s (magFx a) (magFx b))

/-- One step of the bitwise integer square root: tries bit i. -/
def sqrtBit (n r i : Nat) : Nat := if (r + 2 ^ i) * (r + 2 ^ i) ≤ n then r + 2 ^ i else r

/-- ⌊√n⌋ of an n below 2^(2k), from its highest bit down. -/
def isqrt (n : Nat) : Nat → Nat → Nat
  | 0, r => r
  | k + 1, r => isqrt n k (sqrtBit n r k)

/-- Square root, correctly rounded under m (R409): the root is bracketed by a dyadic pair with a sticky bit. -/
def fsqrt (m : Rm) (a : U32) : U32 :=
  if isNan a then nan32
  else if isZero a then a
  else if negOf a then nan32
  else if isInf a then a
  else
    let n := magFx a <<< 151
    let r := isqrt n 220 0
    let sticky := if r * r = n then 0 else 1
    packF false (roundQ fmt32 m false (2 * r + sticky) (2 ^ 151))

/-- The integer that orders non-NaN values, −0 below +0 (R409, chapter "Last Nodes": ord). -/
def ordKey (a : U32) : Nat := if negOf a then 2 ^ 32 - 1 - a.toNat else a.toNat + 2 ^ 31

/-- Minimum, −0 below +0, the canonical NaN when either operand is a NaN (R409). -/
def fmin (a b : U32) : U32 := if isNan a || isNan b then nan32 else if ordKey a ≤ ordKey b then a else b

/-- Maximum, −0 below +0, the canonical NaN when either operand is a NaN (R409). -/
def fmax (a b : U32) : U32 := if isNan a || isNan b then nan32 else if ordKey a ≤ ordKey b then b else a

/-- The order of real values: ±0 are equal, −∞ and +∞ at the ends. -/
def realKey (a : U32) : Int := if negOf a then -(magOf a : Int) else (magOf a : Int)

/-- a < b as real values; false when either is a NaN. -/
def flt (a b : U32) : Bool := !isNan a && !isNan b && decide (realKey a < realKey b)

/-- a ≤ b as real values; false when either is a NaN. -/
def fle (a b : U32) : Bool := !isNan a && !isNan b && decide (realKey a ≤ realKey b)

/-- a = b as real values; false when either is a NaN. -/
def feq (a b : U32) : Bool := !isNan a && !isNan b && decide (realKey a = realKey b)

/-- s + d ≥ b in exact arithmetic, with IEEE rules for ±∞ (R66, R68, R412). -/
def exactGe (s d b : U32) : Bool :=
  if isNan s || isNan d || isNan b then false
  else if d = inf32 then true
  else if s = inf32 then true
  else if s = ninf32 then b = ninf32
  else if d = ninf32 then b = ninf32
  else if b = inf32 then false
  else if b = ninf32 then true
  else decide (fx s + fx d ≥ fx b)

/-- An integer as FP32 under m: i × 2^e. -/
def ofIntExp (m : Rm) (i : Int) (e : Int) : U32 :=
  if 0 ≤ e then ofFx m (i * (2 ^ e.toNat : Nat)) 0 false else ofFx m i (-e).toNat false

/-- 2^e rounded to FP32: the power of two a UE8 code stands for (R410); a code of 0xFF is handled by the caller. -/
def pow2F (e : Int) : U32 := ofIntExp .rn 1 e

/-! ## Widening and narrowing -/

/-- Widening of a BF16 value, exact (R404). -/
def ofBf16 (b : U16) : U32 :=
  let a : U32 := b.setWidth 32 <<< 16
  if isNan a then nan32 else a

/-- Widening of a small format with sign, eb exponent bits, fb fraction bits and bias; top: the all-ones exponent is finite. -/
def widenSmall (eb fb bias : Nat) (v : Nat) : U32 :=
  let s := v.testBit (eb + fb)
  let e := (v >>> fb) % 2 ^ eb
  let f := v % 2 ^ fb
  let m := if e = 0 then f else 2 ^ fb + f
  let x : Int := (if e = 0 then 1 else e : Nat) - (bias + fb : Nat)
  let r := ofIntExp .rn m x
  packF s (magOf r)

/-- Widening of an FP16 value, exact (R404). -/
def ofFp16 (b : U16) : U32 :=
  let v := b.toNat
  if (v >>> 10) % 32 = 31 then
    (if v % 1024 = 0 then packF (v.testBit 15) 0x7F800000 else nan32)
  else widenSmall 5 10 15 v

/-- Widening of an E4M3 value, exact (R404, Table 12.1). -/
def ofE4m3 (b : Byte) : U32 := if b.toNat % 128 = 127 then nan32 else widenSmall 4 3 7 b.toNat

/-- Widening of an E5M2 value, exact (R404, Table 12.1). -/
def ofE5m2 (b : Byte) : U32 :=
  let v := b.toNat
  if (v >>> 2) % 32 = 31 then (if v % 4 = 0 then packF (v.testBit 7) 0x7F800000 else nan32)
  else widenSmall 5 2 15 v

/-- Narrowing to a 16-bit format, to nearest even, overflow to ±∞ (R405). -/
def narrow16 (f : FloatFmt) (nan : Nat) (a : U32) : U16 :=
  if isNan a then BitVec.ofNat 16 nan
  else
    let s := if negOf a then 2 ^ 15 else 0
    if isInf a then BitVec.ofNat 16 (f.inf + s) else BitVec.ofNat 16 (roundQ f .rn (negOf a) (magFx a) (2 ^ 149) + s)

/-- Narrowing to BF16 (R405). -/
def toBf16 (a : U32) : U16 := narrow16 fmtBf16 0x7FC0 a
/-- Narrowing to FP16 (R405). -/
def toFp16 (a : U32) : U16 := narrow16 fmt16 0x7E00 a

/-- Narrowing to E4M3 with saturation (R406). -/
def toE4m3 (a : U32) : Byte :=
  if isNan a then 0x7F
  else
    let s := if negOf a then 2 ^ 7 else 0
    let c := if isInf a then 0x7E else roundCode ⟨4, 9, 0x7F⟩ .rn (negOf a) (magFx a) (2 ^ 149)
    BitVec.ofNat 8 (min c 0x7E + s)

/-- Narrowing to E5M2 with saturation of finite values (R406). -/
def toE5m2 (a : U32) : Byte :=
  if isNan a then 0x7E
  else
    let s := if negOf a then 2 ^ 7 else 0
    let c := if isInf a then 0x7C else min 0x7B (roundCode ⟨3, 16, 0x7C⟩ .rn (negOf a) (magFx a) (2 ^ 149))
    BitVec.ofNat 8 (c + s)

/-- Narrowing to INT8: nearest even, clamped to −127 to 127, a NaN becomes 0 (R406). -/
def toInt8 (a : U32) : Byte :=
  if isNan a then 0
  else
    let q := scaledDiv (if isInf a then 2 ^ 200 else magFx a) (2 ^ 149) 0
    let n := min 127 (q.1 + if roundsUp .rn false q.1 q.2 then 1 else 0)
    if negOf a then BitVec.ofNat 8 (256 - n) else BitVec.ofNat 8 n

/-- Conversion to UE8 (R407). -/
def toUe8 (a : U32) : Byte := BitVec.ofNat 8 (magOf a / 2 ^ 23)

/-- Widening of INT8 as a conversion. -/
def ofInt8 (b : Byte) : U32 := ofIntExp .rn (toSigned 1 b.toNat) 0

/-- Widening of UE8: 2^(e − 127), 0xFF a NaN (R402, R410). -/
def ofUe8 (b : Byte) : U32 := if b = 0xFF then nan32 else pow2F ((b.toNat : Int) - 127)

/-- An element of an array in one of the formats 0 FP32, 1 BF16, 2 FP16, widened exactly (R404). -/
def widenElem (fmt : Nat) (bytes : List Byte) : U32 :=
  if fmt = 0 then BitVec.ofNat 32 (leNat bytes)
  else if fmt = 1 then ofBf16 (BitVec.ofNat 16 (leNat bytes))
  else ofFp16 (BitVec.ofNat 16 (leNat bytes))

/-- The element size of formats 0 FP32, 1 BF16, 2 FP16. -/
def elemSize (fmt : Nat) : Nat := if fmt = 0 then 4 else 2

/-- The bytes of an FP32 value narrowed to format 0, 1 or 2 (R405). -/
def narrowElem (fmt : Nat) (a : U32) : List Byte :=
  if fmt = 0 then natLe 4 a.toNat else if fmt = 1 then natLe 2 (toBf16 a).toNat else natLe 2 (toFp16 a).toNat

/-! ## Exponential and logarithm, correctly rounded -/

/-- Terms of the Taylor sum of e^r in fixed point of pb bits: (lower term, upper term, lower sum, upper sum). -/
def expTerm (pb rlo rhi : Nat) (t : Nat × Nat × Nat × Nat) (i : Nat) : Nat × Nat × Nat × Nat :=
  let lo := t.1 * rlo / ((i + 1) <<< pb)
  let hi := t.2.1 * rhi / ((i + 1) <<< pb) + 1
  (lo, hi, t.2.2.1 + lo, t.2.2.2 + hi)

/-- A fixed-point interval that holds e^(num / 2^sh), for 0 ≤ num / 2^sh < 128. -/
def expBracket (pb num sh : Nat) : Nat × Nat :=
  let rlo := (num <<< pb) >>> (sh + 8)
  let rhi := rlo + 1
  let one := 2 ^ pb
  let t := (List.range (pb / 5)).foldl (expTerm pb rlo rhi) (one, one, one, one)
  let lo0 := t.2.2.1
  let hi0 := t.2.2.2 + t.2.1 + 1
  (List.range 8).foldl (fun p _ => ((p.1 * p.1) >>> pb, ((p.2 * p.2) >>> pb) + 1)) (lo0, hi0)

/-- The correctly rounded e^±(num / 2^sh) at a precision, when its interval decides it. -/
def expAt (pb : Nat) (neg : Bool) (num sh : Nat) : Option Nat :=
  let b := expBracket pb num sh
  let lo := if neg then roundQ fmt32 .rn false (2 ^ pb) b.2 else roundQ fmt32 .rn false b.1 (2 ^ pb)
  let hi := if neg then roundQ fmt32 .rn false (2 ^ pb) b.1 else roundQ fmt32 .rn false b.2 (2 ^ pb)
  if lo = hi then some lo else none

/-- e^x correctly rounded to FP32, for x = ±num / 2^sh; x itself is handed on where 512 bits do not decide (log entry 5). -/
def expQ (neg : Bool) (num sh : Nat) (x : U32) : U32 :=
  if num = 0 then 0x3F800000
  else if neg && 104 * 2 ^ sh ≤ num then 0
  else if !neg && 89 * 2 ^ sh ≤ num then inf32
  else match expAt 256 neg num sh with
    | some c => packF false c
    | none => match expAt 512 neg num sh with
      | some c => packF false c
      | none => Config.expUndecided x

/-- E(x) = e^x correctly rounded, with E(−∞) = +0 (R419). -/
def expF (x : U32) : U32 :=
  if isNan x then nan32
  else if isInf x then (if negOf x then 0 else inf32)
  else expQ (negOf x) (magFx x) 149 x

/-- E(m) = e^(−m/2) correctly rounded (R336), for m neither a NaN nor negative. -/
def expHalf (m : U32) : U32 :=
  if isNan m then nan32 else if isInf m then 0 else expQ true (magFx m) 150 m

/-- Terms of atanh z in fixed point: (power lower, power upper, sum lower, sum upper). -/
def atanhTerm (pb z2lo z2hi : Nat) (t : Nat × Nat × Nat × Nat) (i : Nat) : Nat × Nat × Nat × Nat :=
  let lo := (t.1 * z2lo) >>> pb
  let hi := ((t.2.1 * z2hi) >>> pb) + 1
  (lo, hi, t.2.2.1 + lo / (2 * i + 3), t.2.2.2 + hi / (2 * i + 3) + 1)

/-- An interval that holds 2 × atanh(num / den), for 0 ≤ num / den ≤ 1/3. -/
def atanh2 (pb num den : Nat) : Nat × Nat :=
  let zlo := (num <<< pb) / den
  let zhi := zlo + 1
  let z2lo := (zlo * zlo) >>> pb
  let z2hi := ((zhi * zhi) >>> pb) + 1
  let t := (List.range (pb / 3)).foldl (atanhTerm pb z2lo z2hi) (zlo, zhi, zlo, zhi)
  (2 * t.2.2.1, 2 * (t.2.2.2 + t.2.1 + 1))

/-- An interval, as integers over 2^pb, that holds ln(k × 2^−149), k > 0. -/
def lnBracket (pb k : Nat) : Int × Int :=
  let l := k.log2
  let e : Int := (l : Int) - 149
  let m := atanh2 pb (k - 2 ^ l) (k + 2 ^ l)
  let l2 := atanh2 pb 1 3
  let lo := if 0 ≤ e then e * l2.1 else e * l2.2
  let hi := if 0 ≤ e then e * l2.2 else e * l2.1
  (lo + m.1, hi + m.2)

/-- L(x) = ln x correctly rounded (R427). -/
def lnF (x : U32) : U32 :=
  if isNan x then nan32
  else if isZero x then ninf32
  else if negOf x then nan32
  else if isInf x then inf32
  else if x = 0x3F800000 then 0
  else
    let a := lnBracket 256 (magFx x)
    if ofFx .rn a.1 256 false = ofFx .rn a.2 256 false then ofFx .rn a.1 256 false
    else
      let b := lnBracket 512 (magFx x)
      if ofFx .rn b.1 512 false = ofFx .rn b.2 512 false then ofFx .rn b.1 512 false
      else Config.lnUndecided x

/-! ## Reductions -/

/-- One level of a pairwise sum: element 2m + element 2m + 1 (R57 step 3, R61 step 2); a last element without partner passes. -/
def pairUp (f : U32 → U32 → U32) : List U32 → List U32
  | a :: b :: r => f a b :: pairUp f r
  | l => l

/-- A pairwise tree of n levels over a list. -/
def pairTree (f : U32 → U32 → U32) : Nat → List U32 → List U32
  | 0, l => l
  | n + 1, l => pairTree f n (pairUp f l)

/-- The root of a pairwise tree of n levels over 2^n elements. -/
def treeSum (m : Rm) (levels : Nat) (l : List U32) : U32 := (pairTree (fadd m) levels l).headD 0

end Sys2Proof.Machine
end

