-- ==== Sys2Proof/Machine/State.lean ====
section
/-! DEFINITION. The state of one XW-MLD2 engine as plain data, with the queue of waiting commands; the faults and refusals;
the state right after reset. Each structure cites the rules that name what it holds. -/
namespace Sys2Proof.Machine

/-! ## Boundary -/

/-- The static straps (Table 15.1, R485). -/
structure Straps where
  present     : Bool
  engineId    : BitVec 2
  ringOrigin  : Bool
  irqEn       : Bool
  parkCmdMode : Bool
  parkIrq     : Bool
  parkRlU     : Bool
  parkRlD     : Bool
  deriving DecidableEq, Repr

/-- The pins and rails as they stand, whether the outputs are at their park values (R484, R515), and whether isolation rose out of
reset and no reset has followed (R518). -/
structure Pins where
  straps   : Straps
  powered  : Bool
  isoEn    : Bool
  rstN     : Bool
  pwrWarnN : Bool
  parked   : Bool
  unsound  : Bool
  deriving DecidableEq, Repr

/-- The supply-warning throttle (R511 to R513) and the governor's state (R526). duty: 0 full, 1 reduced, 2 recovery. -/
structure Throttle where
  warn        : Bool
  duty        : BitVec 2
  fellAt      : U64
  roseAt      : U64
  ran0        : Nat
  govLimiting : Bool
  deriving DecidableEq, Repr

/-- Bring-up (Table 15.14), firmware boot (Table 16.12) and store initialisation (Table 16.5). cold: power has come up and no reset
release has followed (R510); sampled: the straps have been sampled since (R485). -/
structure Bringup where
  step          : Nat
  held          : Bool
  scanOwed      : Bool
  scanZeroed    : Bool
  bootWritten   : Bool
  bootAddr      : U64
  bootState     : BitVec 2
  failCode      : Byte
  bootAt        : U64
  buildId       : U64
  keeperLocked  : Bool
  storePart     : U32
  partUsed      : U32
  partRejected  : Bool
  initDone      : Bool
  initFail      : Bool
  failBank      : Byte
  failLine      : BitVec 14
  released      : Bool
  fatal         : Bool
  cold          : Bool
  sampled       : Bool
  deriving DecidableEq, Repr

/-! ## Registers -/

/-- The setup registers that are plain parameters (Tables 16.3, 16.4, 16.6, 16.9, 16.10). -/
structure Regs where
  coreFreq        : BitVec 11
  govLimit        : BitVec 9
  ctxBase         : U64
  commitCtx       : BitVec 12
  commitBusy      : Bool
  commitResult    : BitVec 3
  commitLast      : BitVec 12
  msgAddr         : SMap U64
  msgData         : SMap U64
  msgWire         : SMap U64
  ageLimit        : U16
  highWater       : BitVec 3
  holdFill        : BitVec 7
  bgSlotMax       : BitVec 12
  streamSlotMax   : BitVec 13
  cancelTimeout   : BitVec 14
  dlFlockMask     : U32
  dlLead          : BitVec 17
  bgFlockMax      : BitVec 6
  dlPassSlots     : BitVec 7
  replayLimit     : BitVec 7
  linkAckTimeout  : BitVec 10
  marginInterval  : BitVec 10
  handoffTimeout  : BitVec 14
  censusTimeout   : BitVec 10
  epochTimeout    : BitVec 17
  barrierPoll     : BitVec 10
  barrierTimeout  : BitVec 17
  awlRate         : BitVec 5
  awlStoreCap     : BitVec 5
  awlTarget       : U32
  awlGp           : U32
  awlGi           : U32
  awlILimit       : U32
  awlStep         : U32
  awlDMin         : U32
  awlDMax         : U32
  awlMinSamples   : U16
  logPageHost     : BitVec 4
  logPageKeeper   : BitVec 4
  logPageDrover   : BitVec 4
  dbgCtx          : BitVec 12
  dbgEnabled      : Bool
  dbgCore         : BitVec 8
  dbgSlot         : BitVec 4
  dbgRefused      : Bool
  dbgBusy         : Bool
  dbgVsel         : BitVec 8
  snapMode        : Bool
  snapTime        : U64
  kmArgs          : SMap U64
  kmRequest       : U16
  kmResult        : Byte
  kmBusy          : Bool
  kmData          : SMap U64
  deriving DecidableEq, Repr

/-- A trouble-log entry (Table 17.2); payload is bytes 24 to 59. -/
structure LogEntry where
  time       : U64
  seq        : U32
  kind       : Byte
  code       : Byte
  engineId   : BitVec 2
  fromDrover : Bool
  engineWide : Bool
  drainIncomplete : Bool
  halted     : Bool
  context    : Option (BitVec 12)
  ring       : Byte
  opcode     : Byte
  passId     : U32
  payload    : List Byte
  deriving DecidableEq, Repr

/-- The trouble log (R549, Table 16.8): entries by index, head, count, seq; checkOk is the CRC of the control words (R510). -/
structure TroubleLog where
  entries : List (Nat × LogEntry)
  head    : BitVec 12
  count   : Nat
  seq     : U64
  cleared : Bool
  checkOk : Bool
  deriving DecidableEq, Repr

/-- Drover as Keeper sees it (R552, R556). -/
structure Drover where
  running   : Bool
  ready     : Bool
  startedAt : U64
  reportAt  : U64
  deriving DecidableEq, Repr

/-! ## Contexts and rings -/

/-- A calibration area in force (R414): where it lies, E and B. Its contents lie in the store. -/
structure CalibArea where
  addr : Nat
  entries : Nat
  capacity : Nat
  deriving DecidableEq, Repr

/-- A fault being drained (R544): the status, the payload of its event, the faulting pass (256: none), detection time; all: every pass
of the context meets it (R220, R548). -/
structure FaultRec where
  status  : Byte
  payload : List Byte
  pass    : Nat
  ring    : Byte
  since   : U64
  all     : Bool
  deriving DecidableEq, Repr

/-- A context in force (Table 13.1) with its halt, its commit that waits and its calibration area. -/
structure Ctx where
  valid         : Bool
  ringContext   : Bool
  mgmtAllowed   : Bool
  engineEvents  : Bool
  memModel      : BitVec 2
  asid          : BitVec 20
  ringAllow     : U16
  msgVector     : List Byte
  windows       : BitVec 512
  headerAddr    : List U64
  halted        : Bool
  fault         : Option FaultRec
  commitWaits   : Bool
  calib         : Option CalibArea
  deriving DecidableEq, Repr

/-- A descriptor fetched and not yet admitted: its v2 form, its address, its parameter block and that block's address. -/
structure Fetched where
  desc  : List Byte
  addr  : U64
  block : List Byte
  blockAddr : U64
  v1    : Bool
  deriving DecidableEq, Repr

/-- One ring (Table 13.3, R439 to R445). producer and consumer count modulo 2N. -/
structure Ring where
  active      : Bool
  kind        : Byte
  version     : Byte
  sizeLog2    : Byte
  compRing    : Byte
  eventRing   : Byte
  engineEvents : Bool
  msgEn       : Bool
  msgHoldoff  : U16
  baseAddr    : U64
  headerAddr  : U64
  producer    : Nat
  consumer    : Nat
  writtenIndex : Nat
  lostEvents  : U32
  tearing     : Bool
  head        : Option Fetched
  lastMsg     : Option U64
  msgOwed     : Bool
  doorbell    : U32
  deriving DecidableEq, Repr

/-! ## Requests at the memory ports -/

/-- What a request is (Table 15.5). -/
inductive ReqKind where
  | read | write | atomic
  deriving DecidableEq, Repr

/-- Where the data or the acknowledgement of a request goes. load: byte off of the destination from register reg of a thread;
atomicRet: the list of R309 (thread, operand a, operand b), its values returned to reg when ret; fetchRow: local offset of the
first byte in herd herd; storeTag: scope of a GLOBAL store (Table 9.1) and its thread. -/
inductive Consumer where
  | output
  | load (core slot tag thread reg off : Nat) (install : Bool)
  | atomicRet (core slot tag reg : Nat) (ret : Bool) (scope : Nat) (threads : List (Nat × U64 × U64))
  | fetchRow (core slot tag herd offset : Nat)
  | storeTag (core slot tag : Nat) (scope thread : Nat)
  | xferRead (elem dst : Nat)
  | xferWrite (elem : Nat)
  deriving DecidableEq, Repr

/-- One request of a stream (R369, R489). -/
structure Req where
  kind    : ReqKind
  asid    : BitVec 20
  ctx     : Nat
  addr    : Nat
  len     : Nat
  data    : List Byte
  poison  : Bool
  cls     : BitVec 2
  stream  : Nat
  quad    : Nat
  pass    : Nat
  formed  : Nat
  sink    : Consumer
  atomicOp : BitVec 4
  wide    : Bool
  opA     : U64
  opB     : U64
  deriving DecidableEq, Repr

/-- The request and write-data channels of a requester port (R486 to R491): the request beat last presented, and the write-data beats that
follow it in their order. A beat stays presented until the port's next one (log entry 94). -/
structure Channel where
  req : Option (BitVec 256)
  wd  : List (BitVec 592)
  deriving DecidableEq, Repr

/-- The completer's answer (Table 15.7); tag none: the tag of the request, which the command does not carry. -/
structure Answer where
  code : BitVec 3
  dir  : Bool
  tag  : Option (BitVec 11)
  data : BitVec 512
  deriving DecidableEq, Repr

/-- Requests joined in a merge stage (R378). -/
structure Burst where
  parts : List Req
  addr  : Nat
  len   : Nat
  deriving DecidableEq, Repr

/-- A request in flight: its first tag, its beats, the tags not yet returned, the bytes got and the beats that are poisoned;
whether an error response came, its bytes are to be dropped, its tags are orphaned (R546); and the bytes that a request issued
later has already written (R492); errored: its error response has been counted (R390). -/
structure Flight where
  tag     : Nat
  beats   : Nat
  left    : List Nat
  got     : List (Nat × Byte)
  bad     : List Nat
  burst   : Burst
  failed  : Bool
  dropped : Bool
  orphan  : Bool
  masked  : List Nat
  errored : Bool
  deriving DecidableEq, Repr

/-- One memory port (R371, R374, R377, R378). cycle is the fabric cycle of its last read grant. -/
structure Port where
  mergeRd : List Burst
  mergeWr : List Burst
  readyRd : List Burst
  readyWr : List Burst
  outRd   : List Flight
  outWr   : List Flight
  cycle   : Nat
  chan    : Channel
  deriving DecidableEq, Repr

/-- A staging slot in use (R368): the pass and the context it is marked with, the read it was reserved by (its port and first tag), the
bytes it is to hold. What has come into it, with a poison bit for each beat, stands in that read's Flight. -/
structure StagingSlot where
  pass  : Nat
  ctx   : Nat
  port  : Nat
  tag   : Nat
  bytes : Nat
  deriving DecidableEq, Repr

/-- An open read stream of a fetch engine (R369, R372, R375): its staging slots in use, and in taken the (fabric cycle, bytes) its
consumer took. -/
structure Stream where
  quad     : Nat
  number   : Nat
  pass     : Nat
  cls      : BitVec 2
  slots    : List StagingSlot
  taken    : List (Nat × Nat)
  deriving DecidableEq, Repr

/-! ## Passes -/

/-- The SEARCH parameters (Tables 2.1 and 13.8). -/
structure SearchParams where
  treeAddr : Nat
  qLocAddr : Nat
  qResAddr : Nat
  qFullAddr : Nat
  keyAddr : Nat
  bestInAddr : Nat
  bestOutAddr : Nat
  hitAddr : Nat
  segAddr : Nat
  hitCapacity : Nat
  segSize : Nat
  causalOffset : Int
  queryCount : Nat
  snapshot : U32
  marginIndex : Nat
  kMaxM1 : Nat
  delta : U32
  sigma : U32
  tau : U32
  keyDims : Nat
  locDims : Nat
  scoreOut : Bool
  wideIndex : Bool
  causalEn : Bool
  literal : Bool
  qlocBf16 : Bool
  keyFormat : Nat
  threshold : Bool
  keyInStore : Bool
  treeInStore : Bool
  deriving DecidableEq, Repr

/-- The tree header read at admission (Table 3.2 or Table 3.6). -/
structure TreeRoot where
  geometric : Bool
  dims      : Nat
  rangeExp  : Int
  keySpan   : Nat
  keyBase   : Nat
  leafCount : Nat
  firstLeaf : Nat
  nodeCount : Nat
  primKind  : Nat
  primCount : Nat
  deriving DecidableEq, Repr

/-- A batch: its items are first to first + count − 1 (R156, R172); order numbers its admission. -/
structure Batch where
  first : Nat
  count : Nat
  gen   : U16
  order : Nat
  deriving DecidableEq, Repr

/-- A candidate: index, score or reported distance, aux word and side bit (R34, R66, R146). -/
structure Cand where
  key  : Nat
  val  : U32
  aux  : U32
  side : Bool
  deriving DecidableEq, Repr

/-- A retired item waiting for its place (R78). -/
structure Retired where
  index   : Nat
  entries : List Cand
  capped  : Bool
  best    : U32
  any     : Bool
  deriving DecidableEq, Repr

/-- What SEARCH and TRACE share while their items are admitted, retired and placed. -/
structure Walk where
  count     : Nat
  next      : Nat
  evicted   : List Batch
  batches   : List Batch
  gen       : U16
  retired   : List Retired
  placed    : Nat
  total     : Nat
  written   : Nat
  cappedN   : Nat
  anyN      : Nat
  anyByte   : Byte
  deriving DecidableEq, Repr

/-- A SEARCH in flight. -/
structure SearchBody where
  par   : SearchParams
  root  : TreeRoot
  delta : U32
  walk  : Walk
  deriving DecidableEq, Repr

/-- The TRACE parameters (Tables 4.1 and 13.9). -/
structure TraceParams where
  rayAddr : Nat
  treeAddr : Nat
  primAddr : Nat
  outAddr : Nat
  hitAddr : Nat
  hitCapacity : Nat
  segAddr : Nat
  segSize : Nat
  rayCount : Nat
  hitCapM1 : Nat
  rayMask : Byte
  query : Nat
  treeInStore : Bool
  primInStore : Bool
  deriving DecidableEq, Repr

/-- A TRACE in flight. -/
structure TraceBody where
  par  : TraceParams
  root : TreeRoot
  walk : Walk
  deriving DecidableEq, Repr

/-- The XFER parameters (Table 11.4). -/
structure XferParams where
  srcAddr : Nat
  dstAddr : Nat
  elemBytes : Nat
  dims : Nat
  srcStore : Bool
  dstStore : Bool
  counts : List Nat
  srcStride : List Int
  dstStride : List Int
  deriving DecidableEq, Repr

/-- An XFER in flight: bytes of each element not yet delivered, the lowest element that met a translation fault, and, where
destinations overlap, the destination ranges already filled (R387). -/
structure XferBody where
  par     : XferParams
  left    : List (Nat × Nat)
  faulted : Option (Nat × Nat × Bool × Nat)
  overlap : Bool
  filled  : List (Nat × Nat)
  deriving DecidableEq, Repr

/-- The render parameters (Tables 10.1 and 13.11). -/
structure RenderParams where
  bwd : Bool
  primAddr : Nat
  featAddr : Nat
  bgAddr : Nat
  targetAddr : Nat
  metaAddr : Nat
  stateAddr : Nat
  depthAddr : Nat
  saveAddr : Nat
  saveSize : Nat
  shaderAddr : Nat
  shaderArgs : Nat
  atlasAddr : Nat
  resMapAddr : Nat
  fallbackAddr : Nat
  missAddr : Nat
  gradPixAddr : Nat
  gradPrimAddr : Nat
  scratchAddr : Nat
  scratchSize : Nat
  watchAddr : Nat
  primCount : Nat
  width : Nat
  height : Nat
  atlasWidth : Nat
  atlasHeight : Nat
  missCapacity : Nat
  alphaMin : U32
  alphaMax : U32
  tFloor : U32
  depthClear : U32
  channels : Nat
  tilesHint : Nat
  compress : Bool
  depthTest : Bool
  organisation : Nat
  mode : Nat
  primKind : Nat
  watchDisable : Bool
  accumulate : Bool
  atlasFmt : Nat
  targetFmt : Nat
  featFmt : Nat
  watchFrac : Nat
  watchPasses : Nat
  deriving DecidableEq, Repr

/-- The compositing state of one pixel (R341, R349): T (or the depth so far), n, last position, F_c or B_c, and of each channel whether
a value that was not finite went into it (R413). -/
structure PixelState where
  t    : U32
  n    : Nat
  last : Nat
  acc  : List U32
  wild : List Bool
  deriving DecidableEq, Repr

/-- One fragment (R336 to R338). -/
structure Fragment where
  x : Nat
  y : Nat
  pos : Nat
  alpha : U32
  alphaRaw : U32
  clamped : Bool
  m : U32
  b1 : U32
  b2 : U32
  z : U32
  dx : U32
  dy : U32
  gx : U32
  gy : U32
  opacity : U32
  em : U32
  feats : List U32
  samp : List U32
  deriving DecidableEq, Repr

/-- A fragment packet of a shaded pass (Table 10.4): which tile, which fragments, their values on entry and, once its group has
ended, the values read back; state 0 waiting, 1 with its group, 2 read back, 3 used. -/
structure Packet where
  tile  : Nat
  frags : List Fragment
  vals  : List (List U32)
  state : Nat
  deriving DecidableEq, Repr

/-- One gradient contribution (R350, R352): element and value. -/
structure Contribution where
  elem : Nat
  val  : U32
  deriving DecidableEq, Repr

/-- A kernel image, decoded (R255). -/
structure Image where
  addr : Nat
  gen : Nat
  cls : Nat
  width : Nat
  groups : Nat
  flockHerds : Nat
  lsSplit : Nat
  lsHerd : Nat
  vregs : Nat
  argSregs : Nat
  entry : Nat
  timeBound : U32
  shader : Bool
  crc : U32
  code : List Bundle
  deriving DecidableEq, Repr

/-- A render pass in flight. cursor counts the primitives binned, binned the tiles of the one at work; lists: tile lists (Table
10.6); overflowing: an overflow is under way (R356); asked: tiles whose packets are formed; saved: tiles whose state lies in the save
area, with the wild marks of their pixels; codes: block codes (R359); contribs: what finished tiles contribute, reduced of them summed
into the running sums in memory (R352); wilds: elements into which a value that was not finite went. -/
structure RenderBody where
  par       : RenderParams
  tiled     : Bool
  tilesX    : Nat
  tilesY    : Nat
  cursor    : Nat
  binned    : Nat
  lists     : List (Nat × List Nat)
  overflowing : Bool
  saved     : List (Nat × List (List Bool))
  done      : List Nat
  culled    : Nat
  overflows : Nat
  frags     : Nat
  misses    : List Nat
  shader    : Option Image
  args      : List U64
  packets   : List Packet
  asked     : List Nat
  herds     : Nat
  contribs  : List (Nat × List Contribution)
  reduced   : Nat
  wilds     : List Nat
  codes     : List (Nat × Nat)
  deriving DecidableEq, Repr

/-- A KERNEL in flight (R238, R246). -/
structure KernelBody where
  image  : Image
  args   : List U64
  herds  : Nat
  next   : Nat
  live   : Nat
  groupsLaunched : Nat
  deriving DecidableEq, Repr

/-- The work of a stock kernel for a BUILD (number 3) or a stock KERNEL (number 4), found at admission: the units of work that no group has
taken yet (R474), the writes that follow the last of them, by space (true: the store), and what the pass then shows. -/
structure StockWork where
  number : Nat
  left   : Nat
  outs   : List (Bool × List (Nat × List Byte))
  lastWrites : List (Nat × List Byte)
  lastStore  : List (Nat × List Byte)
  truncated  : Bool
  detail0    : U64
  detail1    : U64
  detail2    : U64
  deriving DecidableEq, Repr

/-- One half of a handoff (R189, R190): not asked for; waiting for its match, or to send READY; READY sent for so many bytes; bytes
arriving; HANDOFF_END sent or received; done. -/
inductive Half where
  | off | waiting | ready (recvLen : Nat) | moving | ended | done
  deriving DecidableEq, Repr

/-- A HANDOFF BARRIER in flight (Table 6.1); bad is the status that a half of it ended with when that was not OK. -/
structure HandoffBody where
  epoch : U32
  step  : U32
  sendAddr : Nat
  sendLen  : Nat
  recvAddr : Nat
  recvLen  : Nat
  send  : Half
  recv  : Half
  readySent : Bool
  sent  : Nat
  got   : Nat
  since : U64
  limit : Nat
  bad   : Option Byte
  deriving DecidableEq, Repr

/-- What a pass in flight is doing. -/
inductive Body where
  | plain
  | fence
  | barrier (addr : Nat) (arrive wait : U64) (arrived : Bool) (since : U64) (limit : Nat) (read : Option (U64 × Nat))
  | handoff (h : HandoffBody)
  | epoch
  | xfer (b : XferBody)
  | stock (w : StockWork)
  | search (b : SearchBody)
  | trace (b : TraceBody)
  | render (b : RenderBody)
  | kernel (b : KernelBody)
  | cancel (named : List Nat)
  deriving DecidableEq, Repr

/-- The four conditions of DEGRADED (Table 13.13 byte 7). -/
structure Degrade where
  poison : Bool
  tree   : Bool
  input  : Bool
  moved  : Bool
  deriving DecidableEq, Repr

/-- A pass in flight (R35 to R39). status none: still at work. writesOut counts its writes formed and not acknowledged; wrote: some write
of it has been issued or made (R566);
lastWrites are formed once those are acknowledged, and lastStore is then written to the store (R77, R109, R328). -/
structure Pass where
  slot      : Nat
  ctx       : Nat
  ring      : Nat
  opcode    : Byte
  cls       : BitVec 2
  passId    : U32
  deadline  : U64
  order     : Nat
  body      : Body
  status    : Option Byte
  truncated : Bool
  degrade   : Degrade
  cancelAt  : Option U64
  refused   : Bool
  writesOut : Nat
  wrote     : Bool
  lastWrites : List (Nat × List Byte)
  lastStore : List (Nat × List Byte)
  posted    : Bool
  dropped   : Bool
  held      : Bool
  heldSeq   : Nat
  late      : Bool
  preEvents : List (Byte × List Byte)
  detail0   : U64
  detail1   : U64
  detail2   : U64
  deriving DecidableEq, Repr

/-! ## The fold -/

/-- A traversal record (Table 5.2); settle names the settle update it belongs to while it travels. -/
structure Record where
  valueHi  : U32
  valueLo  : U32
  entryRef : Nat
  item     : Nat
  target   : Nat
  number   : Nat
  pass     : Nat
  inMemory : Bool
  trace    : Bool
  leaf     : Bool
  primsM1  : Nat
  gen      : U16
  settle   : Nat
  poison   : Bool
  deriving DecidableEq, Repr

/-- A block of a pen (R152): its number in its slice's share, and the records it holds, each at its place of 32 B. -/
structure Block where
  number : Nat
  recs   : List (Nat × Record)
  deriving DecidableEq, Repr

/-- A pen (R157, R158): key, directory position, opening time, whether its age has reached age_limit (R164), its block list. -/
structure Pen where
  ctx      : Nat
  inMemory : Bool
  trace    : Bool
  cls      : BitVec 2
  target   : Nat
  number   : Nat
  leaf     : Bool
  position : Nat
  openedAt : U64
  aged     : Bool
  blocks   : List Block
  deriving DecidableEq, Repr

/-- One fold slice (Table 5.1): directory of open pens oldest first, ready list, the blocks in the pen cache by number, most
recently written first, and those written out to the store. -/
structure Slice where
  openPens : List Pen
  ready    : List Pen
  cache    : List Nat
  spilled  : List Nat
  deriving DecidableEq, Repr

/-- An item: state entry in hit staging and entry in the item table (Tables 5.3, 1.4, 1.5). words holds the locator and
residual norm (SEARCH) or the ray record (TRACE). best is the running best or the CLOSEST limit. -/
structure Item where
  ref    : Nat
  units  : Nat
  pass   : Nat
  index  : Nat
  gen    : U16
  words  : List U32
  poison : Bool
  inert  : Bool
  count  : Int
  best   : U32
  cands  : List Cand
  capped : Bool
  ranked : Option U32
  stop   : Bool
  deriving DecidableEq, Repr

/-- A settle update (R161): what it settles and how much must still be accepted before it is sent. -/
structure Settle where
  id      : Nat
  pass    : Nat
  item    : Nat
  gen     : U16
  emitted : Nat
  waiting : Nat
  deriving DecidableEq, Repr

/-- A scored key or hit on its way to hit staging (R41, R66, R127). -/
structure Scored where
  pass   : Nat
  item   : Nat
  gen    : U16
  cand   : Cand
  raised : Bool
  settle : Nat
  deriving DecidableEq, Repr

/-- The fold: four slices, the item table, records on their way, settle updates, scored keys. -/
structure Fold where
  slices   : List Slice
  items    : List Item
  arrivals : List Record
  settles  : List Settle
  scored   : List Scored
  nextSettle : Nat
  deriving DecidableEq, Repr

/-! ## Walker cores -/

/-- A fixed-latency result on its way (R260); a scalar one writes the bits of its mask (R232, R262). -/
inductive Due where
  | vreg (reg : Nat) (vals : List (Nat × U32))
  | sreg (reg : Nat) (mask val : U64)
  | local (bytes : List (Nat × Byte))
  deriving DecidableEq, Repr

/-- A result and its visibility point. -/
structure Pending where
  vis : Nat
  due : Due
  deriving DecidableEq, Repr

/-- What an asynchronous operation does when it completes (R270): fetchStore rows are (store address, local offset, length),
fetchMem the local ranges written and the lines that took poison, loadF (thread, member, offset), storeF (thread, member, offset, byte);
remote operations complete with their port requests. -/
inductive AsyncOp where
  | mma (a b c : Nat) (shape : U64)
  | fetchStore (rows : List (Nat × Nat × Nat))
  | fetchMem (rows : List (Nat × Nat)) (bad : List Nat)
  | loadF (reg bytes : Nat) (threads : List (Nat × Nat × Nat))
  | storeF (bytes : List (Nat × Nat × Nat × Byte))
  | remote
  deriving DecidableEq, Repr

/-- The bytes that R253 and R274 are about, of an asynchronous operation: the spans of the herd's local store that it writes and that it
reads, and the source registers (thread, register) of a store. -/
structure Spans where
  writes : List (Nat × Nat)
  reads  : List (Nat × Nat)
  srcs   : List (Nat × Nat)
  deriving DecidableEq, Repr

/-- An outstanding tag: the requests it still waits for, its bytes, and those of them that the herd has touched since the operation was
issued (R253, R274). -/
structure TagOp where
  tag   : BitVec 6
  left  : Nat
  op    : AsyncOp
  spans : Spans
  mixed : List Nat
  deriving DecidableEq, Repr

/-- What holds a group (R223). -/
inductive Hold where
  | none
  | tag (t : BitVec 6)
  | barH (k : Nat)
  | barF (k : Nat)
  | fence (scope : Nat)
  deriving DecidableEq, Repr

/-- What a group of the firmware's kernels works on: a pen's records, an awl chunk, or nothing (a user kernel). -/
inductive Stock where
  | user
  | walk (held : List Record)
  | builder
  | awl
  deriving DecidableEq, Repr

/-- A resident group (R221 to R232, R260 to R284). hold is a barrier it has reached, wait a WAIT or a FENCE; pendRegs lists
(register, tag) of pending registers (R273). -/
structure Group where
  slot   : Nat
  pass   : Nat
  ctx    : Nat
  herd   : Nat
  number : Nat
  member : Nat
  width  : Nat
  vregsR : Nat
  f1     : Bool
  code   : List Bundle
  next   : Nat
  issue  : Nat
  exec   : U64
  stack  : List U64
  vregs  : SMap U32
  sregs  : SMap U64
  pend   : List Pending
  tags   : List TagOp
  pendRegs : List (Nat × Nat)
  hold   : Hold
  wait   : Hold
  cycles : Nat
  bound  : U32
  ended  : Bool
  stopping : Bool
  halted : Bool
  haltAsked : Bool
  haltByHost : Bool
  stepAsked : Bool
  stock  : Stock
  packet : Option Nat
  deriving DecidableEq, Repr

/-- A herd resident on a core: its local store, the poisoned 64-B lines, its place in its flock launch (R234, R239, R245). -/
structure Herd where
  pass    : Nat
  number  : Nat
  member  : Nat
  launch  : Nat
  size    : Nat
  groups  : Nat
  granules : Nat
  blocks  : Nat
  live    : Nat
  mem     : List (Nat × Byte)
  marks   : List Nat
  deriving DecidableEq, Repr

/-- A completion that waits at its crossing into a core whose clock is stopped (R281). -/
inductive Crossing where
  | read (f : Flight) (r : Req)
  | atomic (f : Flight) (r : Req) (old : Nat)
  | tag (slot tag : Nat)
  deriving DecidableEq, Repr

/-- A walker core (R221, R230, R233, R257, R303, R511). icache lists (context × 2^64 + image address, code_crc, 16 × first segment +
segments), least recently launched first; ranFor is the length of the last run at reduced duty; boundBusy the core cycles for which its
bound unit is still occupied (Table 8.2); crossing what waits for its clock, oldest first. -/
structure Core where
  groups  : List Group
  herds   : List Herd
  lsSplit : Nat
  l0      : List (Nat × Byte)
  icache  : List (Nat × U32 × Nat)
  lastPass : Option Nat
  ran      : List Nat
  lastSlot : Nat
  clockOn : Bool
  ranFor  : Nat
  boundBusy : Nat
  crossing : List Crossing
  deriving DecidableEq, Repr

/-- A flock: the context it serves and its barrier counters in use (R45, R240). -/
structure Flock where
  ctx    : Option Nat
  counters : Nat
  deriving DecidableEq, Repr

/-! ## Ring port -/

/-- A control message or data flit waiting to be sent; held names the link whose receive buffer it still occupies when it is
relayed (R183, R202). -/
structure OutFlit where
  ctrl     : Bool
  poison   : Bool
  dataKind : BitVec 2
  handoffId : U32
  payloadLen : Nat
  payload  : List Byte
  held     : Option LinkSide
  deriving DecidableEq, Repr

/-- What the engine presents to the PHY (R496 to R498). -/
inductive Present where
  | idleElectrical | alignment | flit (f : Flit) | absent
  deriving DecidableEq, Repr

/-- One ring link (R198 to R204, R498, R501). status: 0 down, 1 awaiting trained, 2 aligning, 3 up. -/
structure Link where
  clockOn   : Bool
  trained   : Bool
  status    : BitVec 2
  elecIdle  : Bool
  retrain   : Bool
  upSince   : U64
  aligned   : Nat
  neighbourAbsent : Bool
  txSeq     : U16
  lastAck   : U16
  replay    : List Flit
  resend    : List Flit
  rxSeq     : U16
  rxDrop    : Bool
  nakOwed   : Bool
  credCtrl  : Nat
  credData  : Nat
  owedCtrl  : Nat
  owedData  : Nat
  grants    : Nat
  unacked   : Nat
  ackOwed   : Bool
  ackSentAt : U64
  ackLimit  : Nat
  ackAt     : U64
  fruitless : Nat
  outCtrl   : List OutFlit
  outData   : List OutFlit
  marginOwed : Option (List U16)
  marginSentAt : U64
  alignErrs : List U16
  words     : Nat
  present   : Present
  deriving DecidableEq, Repr

/-- Epoch states of one engine (Table 6.7). -/
inductive EpochState where
  | stable | draining | voted | handover
  deriving DecidableEq, Repr

/-- What lap the origin has under way (R207, R215); broken: a census lap that the loss of a link has ended (Table 15.15). -/
inductive Lap where
  | none | census1 | census2 | vote | handover | commit | abort | broken
  deriving DecidableEq, Repr

/-- A handover entry open at its source (R214): entry number, bytes sent; open at the destination: range and bytes got. -/
structure HandoverOpen where
  epoch  : U32
  source : U16
  entry  : U16
  addr   : Nat
  len    : Nat
  got    : Nat
  ended  : Bool
  ok     : Bool
  deriving DecidableEq, Repr

/-- The ring as this engine knows it (Table 16.7, Table 6.7). members is the member map of the epoch in force;
shards and newShards hold log2 S; an entry is (source address, length, destination position, destination address). -/
structure RingNet where
  censusState   : BitVec 2
  censusId      : U32
  absent        : Bool
  position      : U16
  positionCount : Nat
  lastAssigned  : U16
  epoch         : U32
  members       : List Nat
  shards        : Option Nat
  state         : EpochState
  newEpoch      : U32
  newMembers    : List Nat
  newShards     : Nat
  digest        : U32
  epochPass     : Option Nat
  heldVote      : Option Flit
  lap           : Lap
  lapAt         : U64
  lapLimit      : Nat
  voteSince     : U64
  voteLimit     : Nat
  entries       : List (Nat × Nat × U16 × Nat)
  entryNo       : Nat
  failedIn      : Bool
  openIn        : Option HandoverOpen
  heldMsgs      : List (LinkSide × List Byte)
  downSeen      : Bool
  deriving DecidableEq, Repr

/-! ## Awl, store, chip memory, test access -/

/-- A sampled query on its way to a sample record (R418 to R421). -/
structure Sample where
  ctx    : Nat
  pass   : Nat
  margin : U16
  keyBase : Nat
  query  : Nat
  passId : U32
  snapshot : U32
  sweep  : Option (U32 × U32 × Bool)
  narrow : Option (U32 × U32)
  deriving DecidableEq, Repr

/-- A sweep at work: the flock of its groups and the number of its stream (R565), the chunks of 4096 keys whose group has been launched
(R424), and the lines of the store, or 512-B blocks of memory, of its keys that are still to be read (R425). -/
structure SweepRun where
  flock  : Nat
  stream : Nat
  placed : Nat
  left   : Nat
  deriving DecidableEq, Repr

/-- A sweep of the queue: its entry, up to 64 queries of one pass (R423), and how far it is once it has started. -/
structure Sweep where
  entry   : Nat
  pass    : Nat
  ctx     : Nat
  queries : List Nat
  run     : Option SweepRun
  deriving DecidableEq, Repr

/-- The awl's queue, samples and per-hub line budget of the present window (R423, R425). -/
structure Awl where
  sweeps  : List Sweep
  samples : List Sample
  budget  : List Nat
  deriving DecidableEq, Repr

/-- The store (R23 to R30): bytes, poisoned 128-B lines, the scrubber's next line, and the lines in which bits have flipped and that
no read has met since (true: more than one bit of a word). -/
structure Store where
  bytes  : List Host.Cell
  poison : List Nat
  scrub  : Nat
  flips  : SMap Bool
  deriving DecidableEq, Repr

/-- The chip's memory as this engine's requests reach it. Keys: asid × 2^64 + address; pages and beats by key / 4096, key / 64. -/
structure Chip where
  bytes    : List Host.Cell
  unmapped : List Nat
  poison   : List Nat
  errors   : List Nat
  deriving DecidableEq, Repr

/-- A BIST instrument (Table 15.10); mask is the bond test's. -/
structure Bist where
  running : Bool
  done    : Bool
  fails   : U32
  bank    : Byte
  line    : BitVec 14
  bit     : BitVec 7
  mask    : BitVec 512
  deriving DecidableEq, Repr

/-- The IEEE 1500 wrapper and the IEEE 1687 network (R502 to R504). boundary and latched are the shift and the update stage of the
boundary register, cell nearest mld_wsi first (cells not listed are 0); idShift and chain are the other registers likewise; sibs says
which instruments are in the path, lens how many cells each of them had when it was last captured. -/
structure Wrapper where
  wir      : BitVec 4
  bypass   : Bool
  boundary : List Bool
  latched  : List Bool
  driving  : Bool
  idShift  : List Bool
  chain    : List Bool
  sibs     : List Bool
  lens     : List Nat
  bists    : List Bist
  ignored  : Nat
  wso      : Bool
  deriving DecidableEq, Repr

/-! ## The machine -/

/-- The whole engine. answer is the beat last presented on mld_cmdc's response channel (R494, R516), cmdChan what mld_cmd presents,
fabric counts the fabric cycles in which some port chose a read (R374, R375). freeCtr is the model's own counter for free values (log entry 3); formed numbers requests and
admissions in order. -/
structure State where
  pending : List Instr
  time    : U64
  pins    : Pins
  straps  : Straps
  thr     : Throttle
  bring   : Bringup
  regs    : Regs
  log     : TroubleLog
  drover  : Drover
  ctxs    : List (Nat × Ctx)
  rings   : List (Nat × Ring)
  passes  : List Pass
  ports   : List Port
  streams : List Stream
  fold    : Fold
  cores   : List (Nat × Core)
  flocks  : List Flock
  links   : List Link
  net     : RingNet
  awl     : Awl
  store   : Store
  chip    : Chip
  counters : SMap U64
  image   : SMap U64
  ctxCounters : SMap U64
  wrapper : Wrapper
  answer  : Option Answer
  cmdChan : Channel
  fabric  : Nat
  freeCtr : Nat
  formed  : Nat
  deriving DecidableEq, Repr

/-- Reasons a command stops with a fault. -/
inductive Fault where
  /-- No command of this model stops with it; the engine reports its own faults as events and statuses. Safe. -/
  | none
  deriving DecidableEq, Repr

/-- Reasons a command has no meaning. -/
inductive Refusal where
  /-- An arm of exec whose meaning is not written yet, by its mnemonic. Safe. -/
  | notModelled (mnemonic : String)
  deriving DecidableEq, Repr

/-! ## The state right after reset -/

/-- The straps of log entry 1: the engine present, every other strap 0. -/
def Straps.default : Straps := ⟨true, 0, false, false, false, false, false, false⟩

/-- The pins once mld_rst_n has risen in the order of Table 15.13. -/
def Pins.reset : Pins := ⟨.default, true, false, true, true, false, false⟩

/-- No dip, full duty (Table 16.3). -/
def Throttle.reset : Throttle := ⟨false, 0, 0, 0, 0, false⟩

/-- Step 1 of Table 15.14 complete; MLD_STORE_PART at its reset value 0x0202_0418 (Table 16.5). -/
def Bringup.reset : Bringup :=
  ⟨1, false, false, false, false, 0, 0, 0, 0, 0, false, 0x02020418, 0, false, false, false, 0, 0, false, false, false, true⟩

/-- The parameters at the Reset column of Tables 16.3, 16.4, 16.6, 16.9, 16.10 and 16.12. -/
def Regs.reset : Regs :=
  { coreFreq := 0x640, govLimit := 0x12C, ctxBase := 0, commitCtx := 0, commitBusy := false, commitResult := 0,
    commitLast := 0, msgAddr := [], msgData := [], msgWire := [], ageLimit := 0x190, highWater := 7, holdFill := 16,
    bgSlotMax := 0x200, streamSlotMax := 0x200, cancelTimeout := 0x64, dlFlockMask := 0x01010101, dlLead := 0x3E8,
    bgFlockMax := 4, dlPassSlots := 16, replayLimit := 8, linkAckTimeout := 0x14, marginInterval := 0xA,
    handoffTimeout := 0x64, censusTimeout := 0x32, epochTimeout := 0x3E8, barrierPoll := 0x19, barrierTimeout := 0x64,
    awlRate := 0xC, awlStoreCap := 3, awlTarget := 0x3F7FBE77, awlGp := 0x3F000000, awlGi := 0x3D4CCCCD,
    awlILimit := 0x42800000, awlStep := 0x3F800000, awlDMin := 0, awlDMax := 0x42800000, awlMinSamples := 0x10,
    logPageHost := 0, logPageKeeper := 0, logPageDrover := 0, dbgCtx := 0, dbgEnabled := false, dbgCore := 0,
    dbgSlot := 0, dbgRefused := false, dbgBusy := false, dbgVsel := 0, snapMode := false,
    snapTime := 0, kmArgs := [], kmRequest := 0, kmResult := 0, kmBusy := false, kmData := [] }

/-- An empty log whose check value holds. -/
def TroubleLog.reset : TroubleLog := ⟨[], 0, 0, 0, false, true⟩

/-- A port with no request. -/
def Port.reset : Port := ⟨[], [], [], [], [], [], 0, ⟨none, []⟩⟩

/-- A slice with no pen. -/
def Slice.reset : Slice := ⟨[], [], [], []⟩

/-- The fold with nothing in it. -/
def Fold.reset : Fold :=
  ⟨[.reset, .reset, .reset, .reset], [], [], [], [], 0⟩

/-- A core with no resident herd; an unlisted core of State.cores is this one. -/
def Core.reset : Core := ⟨[], [], 0, [], [], none, [], 0, true, 0, 0, []⟩

/-- A ring link before quadrant release: down (R568), electrical idle (R498). Its clock runs (log entry 1). -/
def Link.reset : Link :=
  { clockOn := true, trained := false, status := 0, elecIdle := true, retrain := false, upSince := 0, aligned := 0,
    neighbourAbsent := false, txSeq := 0, lastAck := 0xFFFF,
    replay := [], resend := [], rxSeq := 0, rxDrop := false, nakOwed := false, credCtrl := 0, credData := 0,
    owedCtrl := 0, owedData := 0, grants := 0, unacked := 0, ackOwed := false, ackSentAt := 0, ackLimit := 0, ackAt := 0,
    fruitless := 0, outCtrl := [], outData := [], marginOwed := none, marginSentAt := 0, alignErrs := [], words := 0,
    present := .idleElectrical }

/-- The ring as it is before any census: not ready, every field of Table 16.7 zero. -/
def RingNet.reset : RingNet :=
  { censusState := 0, censusId := 0, absent := false, position := 0, positionCount := 0, lastAssigned := 0, epoch := 0,
    members := [], shards := none, state := .stable, newEpoch := 0, newMembers := [],
    newShards := 0, digest := 0, epochPass := none, heldVote := none, lap := .none,
    lapAt := 0, lapLimit := 0, voteSince := 0, voteLimit := 0, entries := [], entryNo := 0, failedIn := false,
    openIn := none, heldMsgs := [], downSeen := false }

/-- A BIST instrument that has not run. -/
def Bist.reset : Bist := ⟨false, false, 0, 0, 0, 0, 0⟩

/-- The wrapper with WS_BYPASS in its WIR and every register zero. -/
def Wrapper.reset : Wrapper :=
  ⟨0, false, [], [], false, [], [], List.replicate 10 false, List.replicate 10 0, List.replicate 10 .reset, 0, false⟩

/-- The machine right after reset (R519 step 1), no command waiting, memory with nothing listed. -/
def State.reset : State :=
  { pending := [], time := 0, pins := .reset, straps := .default, thr := .reset, bring := .reset, regs := .reset,
    log := .reset, drover := ⟨false, false, 0, 0⟩, ctxs := [], rings := [], passes := [],
    ports := List.replicate 32 .reset, streams := [], fold := .reset, cores := [],
    flocks := List.replicate 32 ⟨none, 0⟩, links := [.reset, .reset], net := .reset, awl := ⟨[], [], [0, 0, 0, 0]⟩,
    store := ⟨[], [], 0, []⟩, chip := ⟨[], [], [], []⟩, counters := [], image := [], ctxCounters := [], wrapper := .reset,
    answer := none, cmdChan := ⟨none, []⟩, fabric := 0, freeCtr := 0, formed := 0 }

end Sys2Proof.Machine
end

