-- ==== Sys2Proof/Machine/Operands.lean ====
section
/-! DEFINITION. Operand forms: how the bytes of descriptors, parameter blocks, context entries, ring headers, doorbells,
flits, control messages and port payloads are read and laid out, each from the table of spec/ it cites. -/
namespace Sys2Proof.Machine

/-! ## Layout -/

/-- A byte list with bytes put at offset o. -/
def putAt (l : List Byte) (o : Nat) (b : List Byte) : List Byte := l.take o ++ b ++ l.drop (o + b.length)

/-- A record of len bytes, zero but for its fields (offset, bytes, value), each little-endian (R10). -/
def layout (len : Nat) (fs : List (Nat × Nat × Nat)) : List Byte :=
  fs.foldl (fun l f => putAt l f.1 (natLe f.2.1 f.2.2)) (List.replicate len 0)

/-- 1 or 0. -/
def bit (b : Bool) : Nat := if b then 1 else 0

/-- Whether every byte of each range (offset, length) is zero. -/
def zeroAt (l : List Byte) (rs : List (Nat × Nat)) : Bool := rs.all fun r => allZero (slice l r.1 r.2)

/-- The first offset of the ranges whose byte is not zero, or 0. -/
def firstNonzero (l : List Byte) (rs : List (Nat × Nat)) : Nat :=
  ((rs.flatMap fun r => (List.range r.2).map (r.1 + ·)).find? fun o => l.getD o 0 != 0).getD 0

/-! ## Statuses (Table 13.15) -/

def stOk : Byte := 0x00
def stCancelled : Byte := 0x01
def stTruncated : Byte := 0x02
def stDegraded : Byte := 0x03
def stDesc : Byte := 0x10
def stVersion : Byte := 0x11
def stPermission : Byte := 0x12
def stXlate : Byte := 0x20
def stPoison : Byte := 0x21
def stContract : Byte := 0x22
def stTimeout : Byte := 0x23
def stLinkLost : Byte := 0x24
def evDeadline : Byte := 0x30
def evSilent : Byte := 0x31
def evThrottle : Byte := 0x32
def evResidency : Byte := 0x33
def evCalib : Byte := 0x34

/-- A check that fails: the status, and the value R562 names (where, offset, address). -/
structure Deny where
  status : Byte
  loc    : Nat
  off    : Nat
  addr   : Nat
  deriving DecidableEq, Repr

/-- The first failing check of a list (R451: the first check that fails decides). -/
def firstDeny : List (Bool × Deny) → Option Deny
  | [] => none
  | (b, d) :: r => if b then some d else firstDeny r

/-- The payload of a DESC_ERROR, VERSION_ERROR or PERMISSION event (Table 13.14, R562); bytes 16 to 63 of the record. -/
def denyPayload (d : Deny) : List Byte := layout 48 [(0, 1, d.loc), (2, 2, d.off), (8, 8, d.addr)]

/-- The payload of TRANSLATION_FAULT: stream, side, address, cursor. -/
def xlatePayload (stream : Nat) (write : Bool) (addr : Nat) (cursor : List Nat) : List Byte :=
  putAt (layout 48 [(0, 2, stream), (2, 1, bit write), (8, 8, addr)]) 16 (((List.range 5).map fun k => natLe 4 (cursor.getD k 0)).flatten)

/-- The payload of POISON_CONSUMED: stream, source, address. -/
def poisonPayload (stream source addr : Nat) : List Byte := layout 48 [(0, 2, stream), (2, 1, source), (8, 8, addr)]

/-- The payload of TIMEOUT: cause, epoch and step or counter address, elapsed time. -/
def timeoutPayload (cause info elapsed : Nat) : List Byte := layout 48 [(0, 1, cause), (8, 8, info), (16, 8, elapsed)]

/-- The payload of LINK_LOST: detecting position, cause, link. -/
def linkLostPayload (position cause link : Nat) : List Byte := layout 48 [(0, 2, position), (2, 1, cause), (3, 1, link)]

/-- The payload of CONTRACT_FAULT (R286): kind, slot, core, group slot, group in herd, detail, herd, bundle, issue count. -/
def contractPayload (kind slot core gslot group detail herd bundle issue : Nat) : List Byte :=
  layout 48 [(0, 1, kind), (1, 1, slot), (2, 2, core), (4, 1, gslot), (5, 1, group), (8, 4, detail), (12, 4, herd),
    (16, 4, bundle), (20, 8, issue)]

/-- The payload of THROTTLE (R513): when the warning began, its duration, cycles run by core 0 at reduced duty. -/
def throttlePayload (fell dur ran : Nat) : List Byte := layout 48 [(8, 8, fell), (16, 8, dur), (24, 4, ran)]

/-! ## Records -/

/-- An event record (R458). -/
def eventRecord (time : U64) (code opcode : Byte) (phase engineWide : Bool) (ring passId : Nat) (payload : List Byte) :
    List Byte :=
  layout 16 [(0, 8, time.toNat), (8, 1, code.toNat), (9, 1, opcode.toNat), (10, 1, bit phase + 2 * bit engineWide),
    (11, 1, ring), (12, 4, passId)] ++ slice payload 0 48

/-- Byte 7 of a completion record without the ring: the degrade bits (Table 13.13). -/
def degradeBits (d : Degrade) : Nat := 16 * bit d.poison + 32 * bit d.tree + 64 * bit d.input + 128 * bit d.moved

/-- A completion record (R457). -/
def completionRecord (passId : U32) (status opcode : Byte) (halted dropped posted phase : Bool) (d : Degrade) (ring : Nat)
    (d0 d1 d2 : U64) : List Byte :=
  layout 32 [(0, 4, passId.toNat), (4, 1, status.toNat), (5, 1, opcode.toNat),
    (6, 1, bit phase + 2 * bit posted + 4 * bit dropped + 8 * bit halted), (7, 1, degradeBits d + ring % 16),
    (8, 8, d0.toNat), (16, 8, d1.toNat), (24, 8, d2.toNat)]

/-- Bytes 0 to 59 of a trouble-log entry (Table 17.2). -/
def logBody (e : LogEntry) : List Byte :=
  layout 24 [(0, 8, e.time.toNat), (8, 4, e.seq.toNat), (12, 1, e.kind.toNat), (13, 1, e.code.toNat),
    (14, 1, e.engineId.toNat),
    (15, 1, 8 * bit e.fromDrover + 4 * bit e.engineWide + 2 * bit e.drainIncomplete + bit e.halted),
    (16, 2, match e.context with | some c => c.toNat | none => 0x8000), (18, 1, e.ring.toNat), (19, 1, e.opcode.toNat),
    (20, 4, e.passId.toNat)] ++ slice e.payload 0 36

/-- A trouble-log entry, its CRC over bytes 0 to 59 last (Table 17.2). -/
def logBytes (e : LogEntry) : List Byte := logBody e ++ natLe 4 (crc32 (logBody e)).toNat

/-! ## Context entries (Table 13.1) -/

/-- A context entry read from its 256 bytes. -/
def parseCtx (b : List Byte) : Ctx :=
  let w := field b 0 4
  { valid := bitOf w 0, ringContext := bitOf w 3, mgmtAllowed := bitOf w 4, engineEvents := bitOf w 5,
    memModel := BitVec.ofNat 2 (bitsOf w 2 1), asid := BitVec.ofNat 20 (field b 4 4), ringAllow := BitVec.ofNat 16 (field b 8 2),
    msgVector := slice b 16 16, windows := BitVec.ofNat 512 (field b 64 64),
    headerAddr := (List.range 16).map fun r => BitVec.ofNat 64 (field b (128 + 8 * r) 8),
    halted := false, fault := none, commitWaits := false, calib := none }

/-- Whether an entry holds a reserved field that is non-zero or a reserved encoding (R434, result 1); node is the node-store
size in force, in MiB. -/
def ctxReserved (b : List Byte) (node : Nat) : Bool :=
  bitsOf (field b 0 4) 31 6 != 0 || bitsOf (field b 4 4) 31 20 != 0 || !zeroAt b [(10, 6), (32, 32)] ||
  bitsOf (field b 0 4) 2 1 ≥ 2 || (slice b 16 16).any (fun v => 64 ≤ v.toNat && v.toNat != 0xFF) ||
  (field b 64 64) >>> node != 0 || (List.range 16).any fun r => field b (128 + 8 * r) 8 % 64 != 0

/-! ## Ring headers (Table 13.3) -/

/-- The size of an entry of a ring (Table 13.2). -/
def entrySize (kind version : Nat) : Nat := if kind = 0 then (if version = 1 then 32 else 64) else if kind = 1 then 32 else 64

/-- A ring set up from its 64-byte header, its indices at 0. -/
def parseRing (b : List Byte) (header : U64) : Ring :=
  { active := true, kind := BitVec.ofNat 8 (field b 2 1), version := BitVec.ofNat 8 (field b 3 1),
    sizeLog2 := BitVec.ofNat 8 (field b 4 1), compRing := BitVec.ofNat 8 (field b 5 1), eventRing := BitVec.ofNat 8 (field b 6 1),
    engineEvents := bitOf (field b 7 1) 1, msgEn := bitOf (field b 7 1) 0, msgHoldoff := BitVec.ofNat 16 (field b 8 2),
    baseAddr := BitVec.ofNat 64 (field b 16 8), headerAddr := header, producer := 0, consumer := 0, writtenIndex := 0,
    lostEvents := 0, tearing := false, head := none, lastMsg := none, msgOwed := false, doorbell := 0 }

/-- A ring never set up. -/
def Ring.idle : Ring :=
  { active := false, kind := 0, version := 0, sizeLog2 := 0, compRing := 0, eventRing := 0xFF, engineEvents := false,
    msgEn := false, msgHoldoff := 0, baseAddr := 0, headerAddr := 0, producer := 0, consumer := 0, writtenIndex := 0,
    lostEvents := 0, tearing := false, head := none, lastMsg := none, msgOwed := false, doorbell := 0 }

/-- N, the entries of a ring. -/
def Ring.size (r : Ring) : Nat := 2 ^ r.sizeLog2.toNat

/-- The number of entries a ring holds (R441). -/
def Ring.fill (r : Ring) : Nat := (r.producer + 2 * r.size - r.consumer) % (2 * r.size)

/-- The address of entry i of a ring (R441). -/
def Ring.slotAddr (r : Ring) (i : Nat) : Nat :=
  r.baseAddr.toNat + (i % r.size) * entrySize r.kind.toNat r.version.toNat

/-- The phase bit at index p (R443): 1 when ⌊p / N⌋ is even. -/
def Ring.phase (r : Ring) (p : Nat) : Bool := (p / r.size) % 2 == 0

/-- The index after i, modulo 2N (R441). -/
def Ring.bump (r : Ring) (i : Nat) : Nat := (i + 1) % (2 * r.size)

/-! ## Doorbells (Table 13.4) -/

def doorbellOp (v : U32) : Nat := bitsOf v.toNat 31 30
def doorbellReserved (v : U32) : Nat := bitsOf v.toNat 29 17
def doorbellIndex (v : U32) : Nat := bitsOf v.toNat 16 0

/-! ## Descriptors (Tables 13.5, 13.6, 13.17) -/

def dOpcode (d : List Byte) : Byte := d.getD 0 0
def dClass (d : List Byte) : BitVec 2 := BitVec.ofNat 2 (bitsOf (field d 1 1) 1 0)
def dPassId (d : List Byte) : U32 := BitVec.ofNat 32 (field d 4 4)
def dDeadline (d : List Byte) : U64 := BitVec.ofNat 64 (field d 8 8)
/-- The param_addr of a v2 descriptor: an XFER holds it at 32, every other opcode at 16. -/
def dParam (d : List Byte) : Nat := if dOpcode d = 0x10 then field d 32 8 else field d 16 8

def opNop : Byte := 0x00
def opFence : Byte := 0x01
def opBarrier : Byte := 0x02
def opEpoch : Byte := 0x03
def opXfer : Byte := 0x10
def opScatter : Byte := 0x11
def opBuild : Byte := 0x20
def opSearch : Byte := 0x21
def opTrace : Byte := 0x22
def opRenderFwd : Byte := 0x30
def opRenderBwd : Byte := 0x31
def opKernel : Byte := 0x40
def opCalib : Byte := 0x50
def opCancel : Byte := 0x51

/-- The opcodes of Table 13.12. -/
def opDefined (o : Byte) : Bool :=
  o ∈ [opNop, opFence, opBarrier, opEpoch, opXfer, opScatter, opBuild, opSearch, opTrace, opRenderFwd, opRenderBwd, opKernel,
    opCalib, opCancel]

/-- Whether an opcode names a parameter block (Table 13.6). -/
def opHasBlock (o : Byte) : Bool := o ∈ [opXfer, opScatter, opBuild, opSearch, opTrace, opRenderFwd, opRenderBwd]

/-- The size of an opcode's parameter block (R453). -/
def blockSize (o : Byte) : Nat := if o = opRenderFwd || o = opRenderBwd then 256 else 128

/-- The classes that accept an opcode (Table 14.1). -/
def classAccepts (c : BitVec 2) (o : Byte) : Bool :=
  if c = 0 then true
  else if c = 1 then o ∈ [opXfer, opScatter, opBuild, opSearch, opTrace, opRenderFwd, opRenderBwd, opKernel]
  else if c = 2 then o ∈ [opXfer, opBuild, opKernel]
  else o ∈ [opXfer, opKernel]

/-- The opcodes a v1 ring accepts (R465). -/
def v1Accepts (o : Byte) : Bool := !(o ∈ [opEpoch, opRenderFwd, opRenderBwd, opCalib])

/-- The v2 form of a v1 descriptor (Table 13.17): class BULK, deadline 0 (R465). -/
def v1ToV2 (d : List Byte) : List Byte :=
  let o := dOpcode d
  let head := slice d 0 1 ++ List.replicate 3 0 ++ slice d 4 4 ++ List.replicate 8 0
  let body :=
    if o = opBarrier then
      layout 48 [(8, 8, field d 8 8), (16, 8, field d 16 8), (24, 8, field d 24 8)]
    else if o = opScatter || o = opBuild || o = opSearch || o = opTrace then layout 48 [(0, 8, field d 8 8)]
    else if o = opXfer then
      layout 48 [(0, 8, field d 8 8), (8, 8, field d 16 8), (24, 4, bitsOf (field d 24 4) 23 0),
        (28, 1, 1 + 8 * bit (bitOf (field d 24 4) 24) + 16 * bit (bitOf (field d 24 4) 25))]
    else if o = opKernel then layout 48 [(0, 8, field d 8 8), (8, 8, field d 16 8), (16, 4, field d 24 4)]
    else if o = opCancel then layout 48 [(4, 4, field d 8 4)]
    else List.replicate 48 0
  head ++ body

/-- The XFER block a v1 XFER stands for: count[0] from bytes 28 to 31, both strides equal to elem_bytes (Table 13.17). -/
def v1XferBlock (d : List Byte) : List Byte :=
  layout 128 [(0, 4, field d 28 4), (24, 8, bitsOf (field d 24 4) 23 0), (64, 8, bitsOf (field d 24 4) 23 0)]

/-- The reserved byte ranges of a v1 descriptor: bytes Table 13.17 does not list (log entry 12). -/
def v1Reserved (o : Byte) : List (Nat × Nat) :=
  if o = opBarrier then [(1, 3)]
  else if o = opScatter || o = opBuild || o = opSearch || o = opTrace then [(1, 3), (16, 16)]
  else if o = opXfer then [(1, 3)]
  else if o = opKernel then [(1, 3), (28, 4)]
  else if o = opCancel then [(1, 3), (12, 20)]
  else [(1, 3), (8, 24)]

/-- The reserved byte ranges of a v2 descriptor's body (Table 13.6); scope is byte 16 of a BARRIER. -/
def v2Reserved (o : Byte) (scope : Nat) : List (Nat × Nat) :=
  if o = opNop || o = opFence then [(2, 2), (16, 48)]
  else if o = opBarrier then (if scope = 0 then [(2, 2), (17, 7), (48, 16)] else [(2, 2), (18, 2), (28, 4)])
  else if o = opEpoch then [(2, 2), (40, 24)]
  else if o = opXfer then [(2, 2), (45, 19)]
  else if o = opKernel then [(2, 2), (38, 26)]
  else if o = opCalib then [(2, 2), (17, 3), (52, 12)]
  else if o = opCancel then [(2, 2), (18, 2), (24, 40)]
  else [(2, 2), (24, 40)]

/-- Where a field at v2 offset o of a v1 descriptor lies within its 32 bytes (Table 13.17). -/
def v1Offset (op : Byte) (o : Nat) : Nat :=
  if op = opBarrier then o - 16
  else if op = opXfer then (if o = 40 then 24 else if o = 44 then 27 else o - 8)
  else if op = opCancel then (if o = 20 then 8 else o)
  else if o ≥ 16 then o - 8 else o

/-! ## Flits (R198, Table 6.3) -/

/-- Bytes 0 to 11 of a flit. -/
def flitHeader (f : Flit) : List Byte :=
  natLe 12 (f.handoffId.toNat + f.dataKind.toNat * 2 ^ 32 + f.payloadLen.toNat * 2 ^ 34 + f.credData.toNat * 2 ^ 43 +
    f.credCtrl.toNat * 2 ^ 51 + bit f.poison * 2 ^ 58 + bit f.nak * 2 ^ 59 + f.ackSeq.toNat * 2 ^ 60 + f.seq.toNat * 2 ^ 76 +
    f.flitType.toNat * 2 ^ 92)

/-- Bytes 0 to 507 of a flit. -/
def flitBody (f : Flit) : List Byte := flitHeader f ++ slice f.payload 0 496

/-- The CRC a flit should carry (R199). -/
def flitCrc (f : Flit) : U32 := crc32 (flitBody f)

/-- The 512 bytes of a flit. -/
def flitBytes (f : Flit) : List Byte := flitBody f ++ natLe 4 f.crc.toNat

/-- A flit read from its 512 bytes. -/
def parseFlit (b : List Byte) : Flit :=
  let h := field b 0 12
  { flitType := BitVec.ofNat 4 (h / 2 ^ 92), seq := BitVec.ofNat 16 (h / 2 ^ 76), ackSeq := BitVec.ofNat 16 (h / 2 ^ 60),
    nak := bitOf h 59, poison := bitOf h 58, credCtrl := BitVec.ofNat 7 (h / 2 ^ 51), credData := BitVec.ofNat 8 (h / 2 ^ 43),
    payloadLen := BitVec.ofNat 9 (h / 2 ^ 34), dataKind := BitVec.ofNat 2 (h / 2 ^ 32), handoffId := BitVec.ofNat 32 h,
    payload := slice b 12 496, crc := BitVec.ofNat 32 (field b 508 4) }

/-! ## Control messages (R206, Table 6.5); offsets are within the payload, so byte 18 of the flit is offset 6 -/

def msgCode (p : List Byte) : Nat := field p 0 2
def msgSrc (p : List Byte) : Nat := field p 2 2
def msgDst (p : List Byte) : Nat := field p 4 2
/-- The field of n bytes at offset o after byte 18. -/
def msgField (p : List Byte) (o n : Nat) : Nat := field p (6 + o) n

def cCensus1 : Nat := 0x01
def cCensus2 : Nat := 0x02
def cReady : Nat := 0x10
def cEnd : Nat := 0x11
def cAck : Nat := 0x12
def cAbort : Nat := 0x13
def cVote : Nat := 0x20
def cHandover : Nat := 0x21
def cCommit : Nat := 0x22
def cEpochAbort : Nat := 0x23
def cHoBegin : Nat := 0x24
def cHoEnd : Nat := 0x25
def cHoAck : Nat := 0x26
def cRingDown : Nat := 0x30

/-- The codes Table 6.5 defines. -/
def msgDefined (c : Nat) : Bool :=
  c ∈ [cCensus1, cCensus2, cReady, cEnd, cAck, cAbort, cVote, cHandover, cCommit, cEpochAbort, cHoBegin, cHoEnd, cHoAck, cRingDown]

/-- A message's payload: code, source, destination, then its fields (bytes, value) in order. -/
def mkMsg (code src dst : Nat) (fs : List (Nat × Nat)) : List Byte :=
  natLe 2 code ++ natLe 2 src ++ natLe 2 dst ++ (fs.map fun f => natLe f.1 f.2).flatten

/-- The destination of a lap message. -/
def lapDst : Nat := 0xFFFF

/-! ## Port payloads (Tables 15.5 to 15.7) -/

/-- The 256-bit request payload of Table 15.5. -/
def eppRequestWord (opcode tag asid addr beatsM1 cls atomicOp : Nat) (untranslated wide : Bool) (opA opB : Nat) : BitVec 256 :=
  BitVec.ofNat 256 (addr + asid * 2 ^ 64 + tag * 2 ^ 84 + opcode * 2 ^ 96 + bit untranslated * 2 ^ 99 + beatsM1 * 2 ^ 100 +
    cls * 2 ^ 104 + atomicOp * 2 ^ 106 + bit wide * 2 ^ 110 + opA * 2 ^ 128 + opB * 2 ^ 192)

/-- The 592-bit write-data payload of Table 15.6. -/
def eppWriteWord (tag byteEn data : Nat) (last poison : Bool) : BitVec 592 :=
  BitVec.ofNat 592 (data + byteEn * 2 ^ 512 + tag * 2 ^ 576 + bit last * 2 ^ 587 + bit poison * 2 ^ 588)

/-- The write-data beats of a request for n bytes from a, in beat order (R488): get gives the byte of an address and whether it is
poisoned, none where none is written. -/
def writeBeats (tag a n : Nat) (get : Nat → Option (Byte × Bool)) : List (BitVec 592) :=
  let k := if n = 0 then 0 else (a % 64 + n - 1) / 64 + 1
  (List.range k).map fun i =>
    let bs := (List.range 64).map fun j => get ((a / 64 + i) * 64 + j)
    eppWriteWord tag (bs.zipIdx.map fun x => if x.1.isSome then 2 ^ x.2 else 0).sum
      (leNat (bs.map fun x => (x.map (·.1)).getD 0)) (i + 1 == k) (bs.any fun x => (x.map (·.2)).getD false)

/-- The 536-bit response payload of Table 15.7. -/
def eppResponseWord (b : EppBeat) : BitVec 536 :=
  BitVec.ofNat 536 (b.data.toNat + b.tag.toNat * 2 ^ 512 + bit b.dir * 2 ^ 523 + b.code.toNat * 2 ^ 524 +
    bit b.poison * 2 ^ 527 + bit b.last * 2 ^ 528)

/-- A response beat read from its payload. -/
def parseResponse (w : BitVec 536) : EppBeat :=
  { last := bitOf w.toNat 528, poison := bitOf w.toNat 527, code := BitVec.ofNat 3 (w.toNat / 2 ^ 524), dir := bitOf w.toNat 523,
    tag := BitVec.ofNat 11 (w.toNat / 2 ^ 512), data := BitVec.ofNat 512 w.toNat }

/-! ## Parameter blocks (Tables 13.8 to 13.11) -/

/-- The SEARCH block (Table 13.8). -/
def parseSearch (b : List Byte) : SearchParams :=
  let f := field b 123 1
  { treeAddr := field b 0 8, qLocAddr := field b 8 8, qResAddr := field b 16 8, qFullAddr := field b 24 8,
    keyAddr := field b 32 8, bestInAddr := field b 40 8, bestOutAddr := field b 48 8, hitAddr := field b 56 8,
    segAddr := field b 64 8, hitCapacity := field b 72 8, segSize := field b 80 8, causalOffset := toSigned 8 (field b 88 8),
    queryCount := field b 96 4, snapshot := BitVec.ofNat 32 (field b 100 4), marginIndex := field b 104 2,
    kMaxM1 := field b 106 2, delta := BitVec.ofNat 32 (field b 108 4), sigma := BitVec.ofNat 32 (field b 112 4),
    tau := BitVec.ofNat 32 (field b 116 4), keyDims := field b 120 2, locDims := field b 122 1, scoreOut := bitOf f 7,
    wideIndex := bitOf f 6, causalEn := bitOf f 5, literal := bitOf f 4, qlocBf16 := bitOf f 3, keyFormat := bitsOf f 2 1,
    threshold := bitOf f 0, keyInStore := bitOf (field b 124 1) 1, treeInStore := bitOf (field b 124 1) 0 }

/-- The TRACE block (Table 13.9). -/
def parseTrace (b : List Byte) : TraceParams :=
  { rayAddr := field b 0 8, treeAddr := field b 8 8, primAddr := field b 16 8, outAddr := field b 24 8, hitAddr := field b 32 8,
    hitCapacity := field b 40 8, segAddr := field b 48 8, segSize := field b 56 8, rayCount := field b 64 4,
    hitCapM1 := field b 72 2, rayMask := BitVec.ofNat 8 (field b 74 1), query := bitsOf (field b 80 4) 1 0,
    treeInStore := bitOf (field b 80 4) 2, primInStore := bitOf (field b 80 4) 3 }

/-- The XFER descriptor and block (Tables 11.4, 13.6, 13.10). -/
def parseXfer (d b : List Byte) : XferParams :=
  { srcAddr := field d 16 8, dstAddr := field d 24 8, elemBytes := field d 40 4, dims := bitsOf (field d 44 1) 2 0,
    srcStore := bitOf (field d 44 1) 3, dstStore := bitOf (field d 44 1) 4,
    counts := (List.range 5).map fun k => field b (4 * k) 4,
    srcStride := (List.range 5).map fun k => toSigned 8 (field b (24 + 8 * k) 8),
    dstStride := (List.range 5).map fun k => toSigned 8 (field b (64 + 8 * k) 8) }

/-- The RENDER_FWD and RENDER_BWD block (Table 13.11). -/
def parseRender (b : List Byte) (bwd : Bool) : RenderParams :=
  let a := fun k => field b (8 * k) 8
  let f := field b 198 1
  let g := field b 199 1
  { bwd := bwd, primAddr := a 0, featAddr := a 1, bgAddr := a 2, targetAddr := a 3, metaAddr := a 4, stateAddr := a 5,
    depthAddr := a 6, saveAddr := a 7, saveSize := a 8, shaderAddr := a 9, shaderArgs := a 10, atlasAddr := a 11,
    resMapAddr := a 12, fallbackAddr := a 13, missAddr := a 14, gradPixAddr := a 15, gradPrimAddr := a 16,
    scratchAddr := a 17, scratchSize := a 18, watchAddr := a 19, primCount := field b 160 4, width := field b 164 2,
    height := field b 166 2, atlasWidth := field b 168 4, atlasHeight := field b 172 4, missCapacity := field b 176 4,
    alphaMin := BitVec.ofNat 32 (field b 180 4), alphaMax := BitVec.ofNat 32 (field b 184 4),
    tFloor := BitVec.ofNat 32 (field b 188 4), depthClear := BitVec.ofNat 32 (field b 192 4), channels := field b 196 1,
    tilesHint := field b 197 1, compress := bitOf f 7, depthTest := bitOf f 6, organisation := bitsOf f 5 4,
    mode := bitsOf f 3 2, primKind := bitsOf f 1 0, watchDisable := bitOf g 7, accumulate := bitOf g 6, atlasFmt := bitsOf g 5 4,
    targetFmt := bitsOf g 3 2, featFmt := bitsOf g 1 0, watchFrac := field b 200 1, watchPasses := field b 202 2 }

end Sys2Proof.Machine
end

