-- ==== Sys2Proof/Machine/Flags.lean ====
section
/-! DEFINITION. Status and flag computations: the completion status of a pass, the degrade bits, the fields of the status
registers that show machine state, and the level of mld_irq_n. -/
namespace Sys2Proof.Machine

/-- Whether any condition of DEGRADED was met (Table 13.13). -/
def Degrade.any (d : Degrade) : Bool := d.poison || d.tree || d.input || d.moved

/-- The union of two sets of degrading conditions. -/
def Degrade.join (a b : Degrade) : Degrade :=
  ⟨a.poison || b.poison, a.tree || b.tree, a.input || b.input, a.moved || b.moved⟩

/-- No degrading condition. -/
def Degrade.none : Degrade := ⟨false, false, false, false⟩

/-- The fault codes 0x20 to 0x24 (Table 13.15). -/
def isFaultCode (st : Byte) : Bool := 0x20 ≤ st.toNat && st.toNat ≤ 0x24

/-- The single status of a pass (R460): a fault wins over CANCELLED, CANCELLED over TRUNCATED, TRUNCATED over DEGRADED. -/
def chooseStatus (fault : Option Byte) (cancelled truncated : Bool) (d : Degrade) : Byte :=
  match fault with
  | some f => f
  | Option.none => if cancelled then stCancelled else if truncated then stTruncated else if d.any then stDegraded else stOk

/-- The duty fraction in force for R473: full rate, or 1/4 while a throttle or its recovery lasts (R49, R512). -/
def dutyQuarter (t : Throttle) : Bool := t.duty != 0

/-- MLD_THR_STATUS (Table 16.3). -/
def thrStatusWord (t : Throttle) : Nat := bit t.warn + 2 * t.duty.toNat + 8 * bit t.govLimiting

/-- MLD_STORE_STATUS (Table 16.5). -/
def storeStatusWord (b : Bringup) : Nat :=
  bit b.initDone + 2 * bit b.partRejected + 4 * bit b.initFail + 256 * b.failLine.toNat + 2 ^ 24 * b.failBank.toNat

/-- MLD_BRINGUP (Table 16.2). -/
def bringupWord (b : Bringup) : Nat := b.step + 16 * bit b.held + 32 * bit b.scanZeroed

/-- MLD_CTX_COMMIT_STATUS (Table 16.4). -/
def commitStatusWord (r : Regs) : Nat := r.commitLast.toNat + 2 ^ 28 * r.commitResult.toNat + 2 ^ 31 * bit r.commitBusy

/-- The straps as MLD_STRAPS shows them (Table 16.2). -/
def strapsWord (p : Straps) : Nat :=
  1 + 4 * p.engineId.toNat + 16 * bit p.ringOrigin + 32 * bit p.irqEn + 64 * bit p.parkCmdMode + 128 * bit p.parkIrq +
    256 * bit p.parkRlU + 512 * bit p.parkRlD

/-- MLD_RING_STATUS (Table 16.7). -/
def ringStatusWord (n : RingNet) (up down : BitVec 2) : Nat :=
  n.position.toNat % 2 ^ 12 + 2 ^ 12 * bit n.absent + 2 ^ 24 * up.toNat + 2 ^ 26 * down.toNat + 2 ^ 28 * n.censusState.toNat

/-- The message-table entry of ring r of a context, when it has one (Table 13.1). -/
def msgEntry (c : Ctx) (r : Nat) : Option Nat :=
  if (c.msgVector.getD r 0xFF) = 0xFF then Option.none else some (c.msgVector.getD r 0xFF).toNat

/-- Whether entry n of the message table is a wire entry: the bit reads 0 without the wire option (Table 16.4). -/
def isWire (s : State) (n : Nat) : Bool := s.straps.irqEn && smGet 0 s.regs.msgWire n == 1

/-- Whether ring key (16 × context + ring) holds the interrupt wire (R463): it sends messages through a wire entry and its
produced index differs from the last consumer index announced. -/
def holdsWire (s : State) (key : Nat) (r : Ring) : Bool :=
  match smFind s.ctxs (key / 16) with
  | Option.none => false
  | some c => match msgEntry c (key % 16) with
    | Option.none => false
    | some n => r.active && r.msgEn && r.kind != 0 && isWire s n && r.producer != r.consumer

/-- The straps in effect (R485): as sampled when mld_rst_n last rose; before that, the levels tied. -/
def strapsNow (s : State) : Straps := if s.bring.sampled then s.straps else s.pins.straps

/-- The level of mld_irq_n: the park level while parked, 1 without the wire option, 0 while some ring holds it (R463). -/
def irqLevel (s : State) : Bool :=
  if s.pins.parked then (strapsNow s).parkIrq
  else !(s.straps.irqEn && s.rings.any fun kv => holdsWire s kv.1 kv.2)

end Sys2Proof.Machine
end

