-- ==== Sys2Proof/Machine/Ops.lean ====
section
/-! DEFINITION. The named operations over the state that every family uses: memory and store bytes, contexts, rings and
passes by number, counters, the trouble log, records on event rings. -/
namespace Sys2Proof.Machine

/-- One mld_tref_clk edge: mld_time advances by 10 ns (Table 15.1), longer than the ring-link cycle for which a link raises retrain (R498);
what step does with no command waiting (log entry 2). -/
def idleTick (s : State) : State :=
  { s with time := s.time + 10, links := s.links.map fun k => { k with retrain := false } }

/-- The state with mld_time at the value a command carries. -/
def atTime (s : State) (now : U64) : State := { s with time := now }

/-- A value the manual does not state: the next one of Config.freeValue, and the state with its counter advanced. -/
def fresh (s : State) : U64 × State := (Config.freeValue s.freeCtr, { s with freeCtr := s.freeCtr + 1 })

/-- Whether two spans share a byte. -/
def overlaps (a n b m : Nat) : Bool := a < b + m && b < a + n

/-! ## Chip memory -/

/-- The key of a byte of an address space: asid × 2^64 + address; asid 0 is the untranslated space (R489). -/
def memKey (asid a : Nat) : Nat := asid * 2 ^ 64 + a % 2 ^ 64

/-- One byte of the chip's memory. -/
def chipByte (c : Chip) (asid a : Nat) : Byte := smGet 0 c.bytes (memKey asid a)

/-- What a read of a span answers: its bytes, the first address that meets a translation fault (never for asid 0, R493), the
first address whose beat is poisoned or draws an error response (R388, R390). -/
structure MemRead where
  bytes : List Byte
  xlate : Option Nat
  bad   : Option Nat
  deriving DecidableEq, Repr

/-- The first of the n addresses from a whose page does not translate. -/
def firstUnmapped (c : Chip) (asid a n : Nat) : Option Nat :=
  if asid = 0 then none else ((List.range n).map (a + ·)).find? fun x => (memKey asid x / 4096) ∈ c.unmapped

/-- The first of the n addresses from a whose beat is marked in a list of beats. -/
def firstMarked (l : List Nat) (asid a n : Nat) : Option Nat :=
  ((List.range n).map (a + ·)).find? fun x => (memKey asid x / 64) ∈ l

/-- A read of n bytes at a. -/
def chipRead (c : Chip) (asid a n : Nat) : MemRead :=
  { bytes := (List.range n).map fun i => chipByte c asid (a + i), xlate := firstUnmapped c asid a n,
    bad := firstMarked (c.poison ++ c.errors) asid a n }

/-- The bytes of memory with a list of bytes written from a. -/
def writeBytes (m : List Host.Cell) (asid a : Nat) : List Byte → List Host.Cell
  | [] => m
  | b :: r => writeBytes (smSet 0 m (memKey asid a) b) asid (a + 1) r

/-- The beats a span touches, as keys. -/
def beatsOf (asid a n : Nat) : List Nat :=
  if n = 0 then [] else (List.range ((a % 64 + n - 1) / 64 + 1)).map fun i => memKey asid a / 64 + i

/-- A write to the chip's memory; a poisoned write marks the beats it touches, a clean write clears the beats it covers whole
(log entry 8). -/
def chipWrite (c : Chip) (asid a : Nat) (b : List Byte) (poison : Bool) : Chip :=
  let touched := beatsOf asid a b.length
  let whole := touched.filter fun k => memKey asid a ≤ k * 64 && k * 64 + 64 ≤ memKey asid a + b.length
  { c with bytes := writeBytes c.bytes asid a b,
           poison := if poison then touched.foldl setAdd c.poison else whole.foldl setDel c.poison }

/-- The state with bytes that other agents of the chip wrote. -/
def agentsWrite (s : State) (w : List (Nat × Byte)) : State :=
  { s with chip := { s.chip with bytes := w.foldl (fun m kv => smSet 0 m kv.1 kv.2) s.chip.bytes } }

/-! ## Store -/

/-- One MiB. -/
def mib : Nat := 2 ^ 20

/-- One byte of the store. -/
def storeByte (st : Store) (a : Nat) : Byte := smGet 0 st.bytes a

/-- A read of n store bytes at a; bad is the first address in a line marked poisoned (R25). -/
def storeRead (st : Store) (a n : Nat) : MemRead :=
  { bytes := (List.range n).map fun i => storeByte st (a + i), xlate := none,
    bad := ((List.range n).map (a + ·)).find? fun x => (x / 128) ∈ st.poison }

/-- The 128-B lines a span touches. -/
def linesOf (a n : Nat) : List Nat :=
  if n = 0 then [] else (List.range ((a % 128 + n - 1) / 128 + 1)).map fun i => a / 128 + i

/-- A write to the store: a poisoned beat poisons each line it touches (R388); a clean write clears a line it covers whole. -/
def storeWrite (st : Store) (a : Nat) (b : List Byte) (poison : Bool) : Store :=
  let touched := linesOf a b.length
  let whole := touched.filter fun k => a ≤ k * 128 && k * 128 + 128 ≤ a + b.length
  { st with bytes := writeBytes st.bytes 0 a b,
            poison := if poison then touched.foldl setAdd st.poison else whole.foldl setDel st.poison,
            flips := st.flips.filter fun kv => !whole.contains kv.1 }

/-- Bits of a line flip: one in some word, or (second component) more than one in a word, which check as a double-bit error from
then on (R25). -/
def strikeLine (st : Store) (u : Nat × Bool) : Store :=
  { st with flips := smPut st.flips u.1 u.2, poison := if u.2 then setAdd st.poison u.1 else st.poison }

/-- Several lines struck; a number past the last line of the store names none. -/
def strikeLines (st : Store) (us : List (Nat × Bool)) : Store := (us.filter fun u => u.1 < 4194304).foldl strikeLine st

/-- The flipped lines among those that n bytes at a touch. -/
def flippedIn (st : Store) (a n : Nat) : List (Nat × Bool) :=
  if n = 0 then [] else st.flips.filter fun kv => a / 128 ≤ kv.1 && kv.1 ≤ (a + n - 1) / 128

/-- Several clean writes to the store. -/
def storeWrites (st : Store) (ws : List (Nat × List Byte)) : Store := ws.foldl (fun st w => storeWrite st w.1 w.2 false) st

/-- Every byte of the store below n zeroed in MiB u (R32). -/
def storeZeroMib (st : Store) (u : Nat) : Store :=
  { st with bytes := st.bytes.filter fun kv => kv.1 / mib != u, poison := st.poison.filter fun l => l * 128 / mib != u,
            flips := st.flips.filter fun kv => kv.1 * 128 / mib != u }

/-- The partition sizes in MiB: node, pen, tile, hit (Table 16.5, R8). -/
def partUnits (v : U32) : List Nat :=
  [16 * bitsOf v.toNat 7 0, 16 * bitsOf v.toNat 15 8, 16 * bitsOf v.toNat 23 16, 16 * bitsOf v.toNat 31 24]

/-- The node-store size in force, in MiB. -/
def nodeMib (s : State) : Nat := (partUnits s.bring.partUsed).getD 0 0
/-- The pen-buffer size in force, in MiB. -/
def penMib (s : State) : Nat := (partUnits s.bring.partUsed).getD 1 0
/-- The tile-list memory in force, in MiB. -/
def tileMib (s : State) : Nat := (partUnits s.bring.partUsed).getD 2 0
/-- The hit-staging size in force, in MiB. -/
def hitMib (s : State) : Nat := (partUnits s.bring.partUsed).getD 3 0

/-- Where the partitions begin (R27): the node store at 0, then the pen buffer, the tile-list memory and hit staging. -/
def penBase (s : State) : Nat := nodeMib s * mib
/-- Where tile-list memory begins. -/
def tileBase (s : State) : Nat := penBase s + penMib s * mib
/-- Where hit staging begins. -/
def hitBase (s : State) : Nat := tileBase s + tileMib s * mib
/-- Where the unassigned remainder begins (R30). -/
def freeBase (s : State) : Nat := hitBase s + hitMib s * mib

/-- The partitions of the store. -/
inductive Partition where
  | nodes | pens | tiles | hits | unassigned
  deriving DecidableEq, Repr

/-- The partition that a store address lies in (R27, R30). -/
def partitionOf (s : State) (a : Nat) : Partition :=
  if a < penBase s then .nodes else if a < tileBase s then .pens else if a < hitBase s then .tiles
  else if a < freeBase s then .hits else .unassigned

/-- The first of the n store addresses from a outside the windows (R31); none when all lie inside. -/
def firstOutside (w : BitVec 512) (a n : Nat) : Option Nat :=
  if n = 0 then none
  else ((List.range ((a + n - 1) / mib + 1 - a / mib)).map (a / mib + ·)).findSome? fun u =>
    if u < 512 && bitOf w.toNat u then none else some (max a (u * mib))

/-! ## Contexts, rings, passes by number -/

/-- Context c, when an entry of it is in force. -/
def ctxOf (s : State) (c : Nat) : Option Ctx := smFind s.ctxs c

/-- Context c with valid set. -/
def liveCtx (s : State) (c : Nat) : Option Ctx := (ctxOf s c).filter (·.valid)

/-- The asid of a context. -/
def asidOf (s : State) (c : Nat) : Nat := match ctxOf s c with | some x => x.asid.toNat | none => 0

/-- The state with context c changed. -/
def modCtx (s : State) (c : Nat) (f : Ctx → Ctx) : State :=
  match ctxOf s c with
  | some x => { s with ctxs := smPut s.ctxs c (f x) }
  | none => s

/-- The key of ring r of context c. -/
def ringKey (c r : Nat) : Nat := 16 * c + r

/-- The ring of a key. -/
def ringOf (s : State) (key : Nat) : Ring := smGet .idle s.rings key

/-- The state with a ring set. -/
def setRing (s : State) (key : Nat) (r : Ring) : State := { s with rings := smSet .idle s.rings key r }

/-- The state with a ring changed. -/
def modRing (s : State) (key : Nat) (f : Ring → Ring) : State := setRing s key (f (ringOf s key))

/-- The pass in flight in a slot. -/
def passOf (s : State) (slot : Nat) : Option Pass := s.passes.find? (·.slot == slot)

/-- The state with the pass of a slot changed. -/
def modPass (s : State) (slot : Nat) (f : Pass → Pass) : State :=
  { s with passes := s.passes.map fun p => if p.slot = slot then f p else p }

/-- The passes of a context in flight. -/
def passesOf (s : State) (c : Nat) : List Pass := s.passes.filter (·.ctx == c)

/-- The lowest free pass slot (log entry 9). -/
def freeSlot (s : State) : Nat := ((List.range 256).find? fun n => s.passes.all (·.slot != n)).getD 0

/-! ## Counters (R537, R538) -/

/-- Counter n advanced by k, modulo 2^64. -/
def count (s : State) (n : Nat) (k : Nat := 1) : State :=
  { s with counters := smSet 0 s.counters n (smGet 0 s.counters n + BitVec.ofNat 64 k) }

/-- What a read of n store bytes at a leaves (R25): a single-bit error is corrected, written back and counted (40), a double-bit error
counted (41) when it is first met; its line stays poisoned. -/
def seenLines (s : State) (a n : Nat) : State :=
  let hit := flippedIn s.store a n
  if hit.isEmpty then s
  else
    let s := { s with store := { s.store with flips := s.store.flips.filter fun kv => !hit.contains kv } }
    count (count s 40 (hit.filter fun kv => !kv.2).length) 41 (hit.filter (·.2)).length

/-- What a SECDED decoder of the fold or of staging reports of a read is counted (R154, R368; log entry 93). -/
def countEcc (s : State) (e : Ecc) : State :=
  match e with
  | .ok => s
  | .single => count s 40
  | .double => count s 41

/-- A single-bit error met in a register file, a local memory or a tile state memory is corrected and counted (R543; log entry 93). -/
def countSingle (s : State) (e : Ecc) : State := if e = .single then count s 40 else s

/-- Counter n set to a value (the MARGIN reports of Table 16.11). -/
def setCounter (s : State) (n : Nat) (v : U64) : State := { s with counters := smSet 0 s.counters n v }

/-- Counter k (0 nonfinite results, 1 deadline misses, 2 doorbells discarded while halted) of context c advanced. -/
def countCtx (s : State) (c k : Nat) (n : Nat := 1) : State :=
  { s with ctxCounters := smSet 0 s.ctxCounters (3 * c + k) (smGet 0 s.ctxCounters (3 * c + k) + BitVec.ofNat 64 n) }

/-! ## The trouble log (R549) -/

/-- A log with an entry written at head; head, count, seq and the check value follow. -/
def logPush (t : TroubleLog) (e : LogEntry) : TroubleLog :=
  { t with entries := smPut t.entries t.head.toNat { e with seq := BitVec.ofNat 32 (t.seq.toNat + 1) },
           head := t.head + 1, count := min 4096 (t.count + 1), seq := t.seq + 1, checkOk := true }

/-- An entry of a kind concerning no context; its time is mld_time. -/
def mkLog (s : State) (kind code : Byte) (payload : List Byte) : LogEntry :=
  { time := s.time, seq := 0, kind := kind, code := code, engineId := s.straps.engineId, fromDrover := false, engineWide := true,
    drainIncomplete := false, halted := false, context := none, ring := 0xFF, opcode := 0, passId := 0,
    payload := slice payload 0 36 }

/-- The state with an engine-wide entry logged. -/
def logWide (s : State) (kind code : Byte) (payload : List Byte) : State :=
  { s with log := logPush s.log (mkLog s kind code payload) }

/-- The state with an entry that concerns a context logged. -/
def logCtx (s : State) (kind code : Byte) (c : Nat) (payload : List Byte) : State :=
  let e := mkLog s kind code payload
  { s with log := logPush s.log { e with engineWide := false, context := some (BitVec.ofNat 12 c) } }

/-- The cleared log with its LOG_CLEARED entry (Table 17.3): code 0 power-up, 1 check failed, 2 scan zeroing. The
bit `cleared` of MLD_LOG_HEAD tells of the clearing of R510 alone, code 1 (log entry 26). -/
def clearLog (s : State) (code : Byte) : State :=
  logWide { s with log := { TroubleLog.reset with cleared := code == 1 } } 0x09 code []

/-! ## Records -/

/-- A request of the command port for n bytes at a: what it presents of its last 512-B block (R489 to R491), with tag 0 (log entry 94); b
is what a write carries. -/
def cpPresent (s : State) (opcode asid cls a n : Nat) (b : List Byte) (opA : Nat := 0) : State :=
  match (pieces 512 a n).getLast? with
  | none => s
  | some x =>
    let beats := (x.1 % 64 + x.2.2 - 1) / 64
    let word := eppRequestWord opcode 0 asid (if opcode = 2 then x.1 else x.1 / 64 * 64) (if opcode = 2 then 0 else beats) cls 0
      (asid == 0) (opcode == 2) opA 0
    let get := fun y => if x.1 ≤ y && y < x.1 + x.2.2 then some (b.getD (x.2.1 + (y - x.1)) 0, false) else none
    { s with cmdChan := ⟨some word, if opcode = 1 then writeBeats 0 x.1 x.2.2 get else []⟩ }

/-- A read of the command port. -/
def cpRead (s : State) (asid cls a n : Nat) : State := if s.pins.parked then s else cpPresent s 0 asid cls a n []

/-- A command-port write to a context's memory: not performed where the page does not translate (R391), none while the engine is parked
(R6, R517). -/
def cpWriteRaw (s : State) (c a : Nat) (b : List Byte) : State :=
  if s.pins.parked then s else
  let s := cpPresent s 1 (asidOf s c) 0 a b.length b
  if (firstUnmapped s.chip (asidOf s c) a b.length).isSome then s
  else { s with chip := chipWrite s.chip (asidOf s c) a b false }

/-- Whether an event ring is full (R445). -/
def ringFull (r : Ring) : Bool := r.fill == r.size

/-- Whether a write of the command port to a context's memory is acknowledged without an error (R391, R390). -/
def cpAcked (s : State) (c a n : Nat) : Bool :=
  (firstUnmapped s.chip (asidOf s c) a n).isNone && (firstMarked s.chip.errors (asidOf s c) a n).isNone

/-- A record written to the producer's slot of a completion or event ring. Its index follows once the record's write has been
acknowledged (R443), and a message is owed when msg_en is set (R461). -/
def pushRecord (s : State) (key : Nat) (b : List Byte) : State :=
  let r := ringOf s key
  let c := key / 16
  let a := r.slotAddr r.producer
  let s := cpWriteRaw s c a b
  if !cpAcked s c a b.length then s
  else
    let s := cpWriteRaw s c (r.headerAddr.toNat + 36) (natLe 4 (r.bump r.producer))
    modRing s key fun r => { r with producer := r.bump r.producer, msgOwed := r.msgOwed || r.msgEn }

/-- An event record written to ring key, or lost_events raised when the ring is full (R445); the answer says whether the
record was written. -/
def pushEvent (s : State) (key : Nat) (code opcode : Byte) (engineWide : Bool) (ringByte passId : Nat) (payload : List Byte) :
    Bool × State :=
  let r := ringOf s key
  let c := key / 16
  if !r.active then (false, s)
  else if ringFull r then
    let s := cpWriteRaw s c (r.headerAddr.toNat + 40) (natLe 4 (r.lostEvents.toNat + 1))
    (false, modRing s key fun r => { r with lostEvents := r.lostEvents + 1 })
  else
    (true, pushRecord s key (eventRecord s.time code opcode (r.phase r.producer) engineWide ringByte passId payload))

/-- An event of a pass (R459): to its submission ring's event ring, discarded when that is 0xFF; a full ring sets the pass's
event_dropped, a written record its event_posted. -/
def pushPassEvent (s : State) (p : Pass) (code : Byte) (payload : List Byte) : State :=
  let er := (ringOf s (ringKey p.ctx p.ring)).eventRing
  if er = 0xFF then s
  else
    let (w, s) := pushEvent s (ringKey p.ctx er.toNat) code p.opcode false p.ring p.passId.toNat payload
    modPass s p.slot fun q => if w then { q with posted := true } else { q with dropped := true }

/-- Whether a ring takes engine-wide events (R459): active, an event ring, engine_events set and allowed by its context. -/
def takesWide (s : State) (key : Nat) (r : Ring) : Bool :=
  r.active && r.kind = 2 && r.engineEvents &&
    (match ctxOf s (key / 16) with | some c => c.valid && c.engineEvents | none => false)

/-- An engine-wide event on every active event ring that takes them (R459). -/
def postWide (s : State) (code : Byte) (payload : List Byte) : State :=
  (s.rings.filter fun kv => takesWide s kv.1 kv.2).foldl
    (fun s kv => (pushEvent s kv.1 code 0 true 0xFF 0 payload).2) s

/-! ## Links -/

/-- The index of a link in State.links. -/
def linkIx : LinkSide → Nat
  | .up => 0
  | .down => 1

/-- The other link. -/
def otherSide : LinkSide → LinkSide
  | .up => .down
  | .down => .up

/-- A link. -/
def linkOf (s : State) (l : LinkSide) : Link := s.links.getD (linkIx l) .reset

/-- The state with a link changed. -/
def modLink (s : State) (l : LinkSide) (f : Link → Link) : State := { s with links := modAt s.links (linkIx l) f }

/-- A control message queued on a link's control output (R202). -/
def sendCtrl (s : State) (l : LinkSide) (payload : List Byte) : State :=
  modLink s l fun k => { k with outCtrl := k.outCtrl ++
    [{ ctrl := true, poison := false, dataKind := 0, handoffId := 0, payloadLen := payload.length,
       payload := payload ++ List.replicate (496 - payload.length) 0, held := none }] }

/-- A DATA flit queued on a link. -/
def sendData (s : State) (l : LinkSide) (kind : BitVec 2) (id : U32) (payload : List Byte) (poison : Bool) : State :=
  modLink s l fun k => { k with outData := k.outData ++
    [{ ctrl := false, poison := poison, dataKind := kind, handoffId := id, payloadLen := payload.length,
       payload := payload ++ List.replicate (496 - payload.length) 0, held := none }] }

/-- The number of positions a census counted, or 1. -/
def positions (s : State) : Nat := max 1 s.net.positionCount

/-- The member after position p in member order, going round (downstream). -/
def memberAfter (members : List Nat) (p : Nat) : Nat := ((members.find? (p < ·)).orElse fun _ => members.head?).getD p

/-- The member before position p in member order, going round (upstream). -/
def memberBefore (members : List Nat) (p : Nat) : Nat :=
  ((members.reverse.find? (· < p)).orElse fun _ => members.getLast?).getD p

/-- Whether this engine is a member of the epoch in force. -/
def isMember (s : State) : Bool := !s.net.absent && s.net.members.contains s.net.position.toNat

/-- The ring context of this engine (R182). -/
def ringCtx (s : State) : Option Nat := ((s.ctxs.find? fun kv => kv.2.valid && kv.2.ringContext)).map (·.1)

end Sys2Proof.Machine
end

