-- ==== Sys2Proof/Machine/Groups.lean ====
section
/-! DEFINITION. Groups, herds and cores by number; how a group ends and what its end frees (R238 to R246, R277), how a tag
returns (R270), which bytes become a mixture (R253, R274), what a core's L0 may not keep (R293, R303). -/
namespace Sys2Proof.Machine

/-- Core c (R20). -/
def coreOf (s : State) (c : Nat) : Core := smGet .reset s.cores c

/-- The state with core c set. -/
def setCore (s : State) (c : Nat) (k : Core) : State := { s with cores := smSet .reset s.cores c k }

/-- The state with core c changed. -/
def modCore (s : State) (c : Nat) (f : Core → Core) : State := setCore s c (f (coreOf s c))

/-- The group in a slot of a core. -/
def groupOf (s : State) (core slot : Nat) : Option Group := (coreOf s core).groups.find? (·.slot == slot)

/-- The state with the group in a slot changed. -/
def modGroup (s : State) (core slot : Nat) (f : Group → Group) : State :=
  modCore s core fun k => { k with groups := k.groups.map fun g => if g.slot = slot then f g else g }

/-- The herd of a group on its core. -/
def herdOf (k : Core) (pass number : Nat) : Option Herd := k.herds.find? fun h => h.pass == pass && h.number == number

/-- A core with a herd changed. -/
def modHerd (k : Core) (pass number : Nat) (f : Herd → Herd) : Core :=
  { k with herds := k.herds.map fun h => if h.pass = pass && h.number = number then f h else h }

/-- The global flock number of a core (R20). -/
def flockOfCore (core : Nat) : Nat := core / 8

/-- The cores of a flock. -/
def coresOfFlock (f : Nat) : List Nat := (List.range 8).map (8 * f + ·)

/-- The herds of one flock launch, with their cores. -/
def launchHerds (s : State) (flock pass launch : Nat) : List (Nat × Herd) :=
  (coresOfFlock flock).flatMap fun c => ((coreOf s c).herds.filter fun h => h.pass == pass && h.launch == launch).map (c, ·)

/-- The user groups of a herd that have not ended. -/
def herdGroups (k : Core) (pass number : Nat) : List Group :=
  k.groups.filter fun g => g.stock == .user && g.pass == pass && g.herd == number

/-- The user groups of one flock launch that have not ended. -/
def launchGroups (s : State) (flock pass launch : Nat) : List Group :=
  (launchHerds s flock pass launch).flatMap fun ch => herdGroups (coreOf s ch.1) pass ch.2.number

/-- The groups of a herd held at a hold are released. -/
def releaseHerd (s : State) (core pass number : Nat) (h : Hold) : State :=
  modCore s core fun k => { k with groups := k.groups.map fun g =>
    if g.stock = .user && g.pass = pass && g.herd = number && g.hold = h then { g with hold := .none } else g }

/-- BAR.H k of a herd releases once every group of it that has not ended has arrived (R241, R243). -/
def openBarH (s : State) (core pass number k : Nat) : State :=
  if (herdGroups (coreOf s core) pass number).all (·.hold == .barH k) then releaseHerd s core pass number (.barH k) else s

/-- BAR.F k of a flock launch releases once every group of it that has not ended has arrived (R242, R243). -/
def openBarF (s : State) (flock pass launch k : Nat) : State :=
  if (launchGroups s flock pass launch).all (·.hold == .barF k) then
    (launchHerds s flock pass launch).foldl (fun s ch => releaseHerd s ch.1 pass ch.2.number (.barF k)) s
  else s

/-- The barriers of a herd and of its flock launch, looked at again when a group of it has ended (R243). -/
def openBarriers (s : State) (core pass number launch : Nat) : State :=
  let s := (List.range 4).foldl (fun s k => openBarH s core pass number k) s
  (List.range 8).foldl (fun s k => openBarF s (flockOfCore core) pass launch k) s

/-- Herds whose launch has ended give back their granules, and a flock launch its 8 barrier counters (R240, R245). -/
def freeLaunch (s : State) (core pass launch size : Nat) : State :=
  let hs := launchHerds s (flockOfCore core) pass launch
  if hs.all (·.2.live == 0) then
    let s := hs.foldl (fun s ch => modCore s ch.1 fun k =>
      { k with herds := k.herds.filter fun h => !(h.pass == pass && h.launch == launch) }) s
    if size > 1 then
      { s with flocks := modAt s.flocks (flockOfCore core) fun f => { f with counters := f.counters - 8 } }
    else s
  else s

/-! ## Fragment packets (R346, R347) -/

/-- The values per fragment of a packet (Table 10.4): C for ellipses, 3C for triangles. -/
def packetValues (par : RenderParams) : Nat := if par.primKind = 1 then 3 * par.channels else par.channels

/-- packet_size (Table 10.4). -/
def packetSize (w v : Nat) : Nat := 64 + w * (32 + 4 * v)

/-- The values that the engine reads back from a packet when its group ends (R347): the first C forward, all V in reverse. -/
def readBack (h : Herd) (par : RenderParams) (w group : Nat) (k : Packet) : Packet :=
  let v := packetValues par
  let base := group * packetSize w v + 64 + 32 * w
  let n := if par.bwd then v else par.channels
  { k with state := 2, vals := (List.range k.frags.length).map fun i => (List.range n).map fun j =>
      BitVec.ofNat 32 (leNat ((List.range 4).map fun x => smGet 0 h.mem (base + 4 * (v * i + j) + x))) }

/-- The end of a shader group: its packet is read back. -/
def packetBack (k : Core) (g : Group) (p : Pass) : Pass :=
  match p.body, g.packet, herdOf k g.pass g.herd with
  | .render b, some n, some h => { p with body := .render { b with packets := modAt b.packets n (readBack h b.par g.width g.number) } }
  | _, _, _ => p

/-- What a pass notes when one of its groups ends: a KERNEL whose herds have all been launched and whose groups have all ended
is done (R246). -/
def groupGone (p : Pass) : Pass :=
  match p.body with
  | .kernel k =>
    let k := { k with live := k.live - 1 }
    { p with body := .kernel k,
             status := if k.live = 0 && k.next = k.herds && p.status.isNone then some stOk else p.status }
  | _ => p

/-- The end of a group (R245): its slot and registers are freed, and what its herd and launch hold once they have ended. -/
def finishGroup (s : State) (core slot : Nat) : State :=
  match groupOf s core slot with
  | none => s
  | some g =>
    let s := if g.stock == .user && !g.stopping then modPass s g.pass (packetBack (coreOf s core) g) else s
    let s := modCore s core fun k => { k with groups := k.groups.filter (·.slot != slot) }
    let s := modCore s core fun k => modHerd k g.pass g.herd fun h => { h with live := h.live - 1 }
    let s := match herdOf (coreOf s core) g.pass g.herd with
      | some h => freeLaunch (openBarriers s core g.pass g.herd h.launch) core g.pass h.launch h.size
      | none => s
    let s := if s.regs.dbgBusy && s.regs.dbgCore.toNat == core && s.regs.dbgSlot.toNat == slot
      then { s with regs := { s.regs with dbgBusy := false } } else s
    match g.stock with
    | .user => modPass s g.pass groupGone
    | _ => s

/-- A group that has issued END, or is stopping, ends once it holds no tag (R277, R283). -/
def endIfDone (s : State) (core slot : Nat) : State :=
  match groupOf s core slot with
  | some g => if (g.ended || g.stopping) && g.tags.isEmpty then finishGroup s core slot else s
  | none => s

/-- The 64-B lines of local store that a span touches. -/
def localLines (off len : Nat) : List Nat :=
  if len = 0 then [] else (List.range ((off % 64 + len - 1) / 64 + 1)).map (off / 64 + ·)

/-- Whether a line of local store is covered by a list of ranges (offset, length). -/
def lineCovered (rs : List (Nat × Nat)) (line : Nat) : Bool :=
  (List.range 64).all fun i => rs.any fun r => r.1 ≤ line * 64 + i && line * 64 + i < r.1 + r.2

/-- The poison marks of a herd after a write of ranges of which some lines took poison (R382). -/
def remark (marks : List Nat) (rs : List (Nat × Nat)) (bad : List Nat) : List Nat :=
  let full := (rs.flatMap fun r => localLines r.1 r.2).filter (lineCovered rs)
  bad.foldl setAdd (full.foldl setDel marks)

/-- A herd with bytes written at a local offset. -/
def herdWrite (h : Herd) (off : Nat) (b : List Byte) : Herd := { h with mem := writeBytes h.mem 0 off b }

/-! ## Bytes that become a mixture (R253, R274) -/

/-- Whether a list of spans (offset, length) holds an offset. -/
def spansHold (rs : List (Nat × Nat)) (a : Nat) : Bool := rs.any fun r => r.1 ≤ a && a < r.1 + r.2

/-- The offsets of a list of spans. -/
def spanBytes (rs : List (Nat × Nat)) : List Nat := rs.flatMap fun r => (List.range r.2).map (r.1 + ·)

/-- Bytes of a herd's local store that take any mixture of old and new values: each is a free value (log entry 28). -/
def freeLocal (s : State) (core pass number : Nat) (bytes : List Nat) : State :=
  bytes.foldl (fun s a =>
    let f := fresh s
    modCore f.2 core fun k => modHerd k pass number fun h => herdWrite h a [f.1.setWidth 8]) s

/-- Whether a read of local store, or a write of it, at an offset meets an outstanding operation. -/
def meets (write : Bool) (t : TagOp) (a : Nat) : Bool := spansHold t.spans.writes a || (write && spansHold t.spans.reads a)

/-- A tag that notes the bytes an access touches under it. -/
def noteMixed (rd wr : List Nat) (t : TagOp) : TagOp :=
  { t with mixed := (rd.filter (meets false t) ++ wr.filter (meets true t)).foldl setAdd t.mixed }

/-- A herd's local bytes read and written, by its groups or for them: those that an outstanding operation of the herd writes, and those
written that an MMA reads, become a mixture, now and when that operation completes (R253, R274). own names the group slot and the tag of
an operation whose own access this is. -/
def mixHerd (s : State) (core pass number : Nat) (own : Option (Nat × Nat)) (rd wr : List Nat) : State :=
  let other := fun (g : Group) (t : TagOp) => own != some (g.slot, t.tag.toNat)
  let ts := (herdGroups (coreOf s core) pass number).flatMap fun g => g.tags.filter (other g)
  let hit := (rd.filter fun a => ts.any fun t => meets false t a) ++ (wr.filter fun a => ts.any fun t => meets true t a)
  if hit.isEmpty then s
  else modCore (freeLocal s core pass number hit) core fun k => { k with groups := k.groups.map fun g =>
    if g.stock = .user && g.pass = pass && g.herd = number then
      { g with tags := g.tags.map fun t => if other g t then noteMixed rd wr t else t }
    else g }

/-- Every request of a port, changed. -/
def mapReqs (f : Req → Req) (p : Port) : Port :=
  let b := fun (x : Burst) => { x with parts := x.parts.map f }
  let w := fun (x : Flight) => { x with burst := b x.burst }
  { p with mergeRd := p.mergeRd.map b, mergeWr := p.mergeWr.map b, readyRd := p.readyRd.map b, readyWr := p.readyWr.map b,
           outRd := p.outRd.map w, outWr := p.outWr.map w }

/-- Every request at every port, changed. -/
def mapRequests (s : State) (f : Req → Req) : State := { s with ports := s.ports.map (mapReqs f) }

/-- The data that a thread has under way in a store, whose source registers have been overwritten: a mixture (R274). -/
def freeStore (s : State) (core slot tag thread : Nat) : State :=
  let byte := fun (i : Nat) => ((Config.freeValue (s.freeCtr + i)).setWidth 8 : Byte)
  let s := mapRequests { s with freeCtr := s.freeCtr + 520 } fun r => match r.sink with
    | .storeTag c sl t _ th =>
      if c = core && sl = slot && t = tag && th = thread then
        { r with data := (List.range r.data.length).map fun i => byte ((r.addr + i) % 8) }
      else r
    | _ => r
  modGroup s core slot fun g => { g with tags := g.tags.map fun t =>
    match t.op with
    | .storeF bs =>
      if t.tag.toNat != tag then t
      else { t with op := .storeF (bs.zipIdx.map fun b =>
        if b.1.1 = thread then (thread, b.1.2.1, b.1.2.2.1, byte (8 + b.2)) else b.1) }
    | _ => t }

/-- Registers (thread, register) of a group written: the stores outstanding that took their data from them (R274). -/
def spoilStores (s : State) (core slot : Nat) (written : List (Nat × Nat)) : State :=
  match groupOf s core slot with
  | none => s
  | some g =>
    (g.tags.flatMap fun t => ((t.spans.srcs.filter (· ∈ written)).map (·.1)).eraseDups.map (t.tag.toNat, ·)).foldl
      (fun s x => freeStore s core slot x.1 x.2) s

/-! ## Results that fall due in local store -/

/-- A herd with a LOCAL store written; a line written in full loses its poison mark (R382). -/
def applyLocal (h : Herd) (d : Due) : Herd :=
  match d with
  | .local bs =>
    { h with mem := bs.foldl (fun m b => smSet 0 m b.1 b.2) h.mem, marks := remark h.marks (bs.map fun b => (b.1, 1)) [] }
  | _ => h

/-- The results of a group that fall due at its next bundle (R261). -/
def dueNow (g : Group) : List Due := (g.pend.filter (·.vis == g.issue)).map (·.due)

/-- The herd as the group's next bundle reads it. -/
def dueHerd (g : Group) (h : Herd) : Herd := (dueNow g).foldl applyLocal h

/-- The offsets of local store at which results fall due. -/
def dueBytes (g : Group) : List Nat := (dueNow g).flatMap fun d => match d with | .local bs => bs.map (·.1) | _ => []

/-- The LOCAL stores of a group that are due at its next bundle are written (R261, R277). -/
def landLocal (s : State) (core : Nat) (g : Group) : State :=
  let s := modCore s core fun k => modHerd k g.pass g.herd (dueHerd g)
  mixHerd s core g.pass g.herd none [] (dueBytes g)

/-! ## The L0 (R293, R303) -/

/-- Loads of a core that are under way and whose bytes lie where hit says bring nothing to its L0: their bytes may be older than what the
core has stored since, or than its last invalidation (R293, R296, R306). -/
def noInstall (s : State) (core : Nat) (hit : Req → Bool) : State :=
  let f := fun (r : Req) => match r.sink with
    | .load c sl t th reg off true => if c = core && hit r then { r with sink := .load c sl t th reg off false } else r
    | _ => r
  modCore (mapRequests s f) core fun k => { k with crossing := k.crossing.map fun x => match x with
    | .read w r => .read w (f r)
    | y => y }

/-- A core's L0 with no line in it (R303). -/
def emptyL0 (s : State) (core : Nat) : State := noInstall (modCore s core fun k => { k with l0 := [] }) core fun _ => true

/-- Whether a request touches a span of an address space. -/
def reqMeets (asid a n : Nat) (r : Req) : Bool := r.asid.toNat == asid && overlaps r.addr r.len a n

/-- The 128-B lines that an L0 of a core may hold: 512 − 64 × ls_split KiB of them (R233). -/
def l0Lines (k : Core) : Nat := 4096 - 512 * k.lsSplit

/-- The L0 of a core with the bytes of a load installed (R295). A new line takes the place of one that a free value picks when the L0 is
full (R233, log entry 18). -/
def l0Install (k : Core) (asid a : Nat) (b : List Byte) (pick : Nat) : Core :=
  let line := memKey asid a / 128
  let lines := (k.l0.map (·.1 / 128)).eraseDups
  let kept := if line ∈ lines || lines.length < l0Lines k then k.l0
    else k.l0.filter fun x => x.1 / 128 != lines.getD (pick % lines.length) 0
  { k with l0 := (List.range b.length).foldl (fun m i => smPut m (memKey asid (a + i)) (b.getD i 0)) kept }

/-! ## Tags -/

/-- The bytes that an operation leaves a mixture: those touched under it, and the whole result of an MMA (R253, R274). -/
def mixedBytes (t : TagOp) : List Nat :=
  if t.mixed.isEmpty then []
  else match t.op with
    | .mma _ _ _ _ => t.mixed ++ spanBytes t.spans.writes
    | _ => t.mixed

/-- What the completion of a tag settles: the marks a FETCH from memory leaves (R382), the bytes touched under it. -/
def settleTag (s : State) (core : Nat) (g : Group) (t : TagOp) : State :=
  let s := match t.op with
    | .fetchMem rows bad => modCore s core fun k => modHerd k g.pass g.herd fun h => { h with marks := remark h.marks rows bad }
    | _ => s
  freeLocal s core g.pass g.herd (mixedBytes t)

/-- One of the requests a tag waits for has returned; the tag completes with the last of them (R270). -/
def tagReturn (s : State) (core slot tag : Nat) : State :=
  match groupOf s core slot with
  | none => s
  | some g =>
    match g.tags.find? (·.tag.toNat == tag) with
    | none => s
    | some t =>
      if t.left ≤ 1 then
        let s := settleTag s core g t
        endIfDone (modGroup s core slot fun g => { g with tags := g.tags.filter (·.tag.toNat != tag) }) core slot
      else
        modGroup s core slot fun g =>
          { g with tags := g.tags.map fun t => if t.tag.toNat = tag then { t with left := t.left - 1 } else t }

/-- A completion that reaches a core from another domain: it waits at its crossing while the core's clock is stopped (R281). -/
def crossInto (s : State) (core : Nat) (x : Crossing) (k : State → State) : State :=
  if (coreOf s core).clockOn then k s else modCore s core fun c => { c with crossing := c.crossing ++ [x] }

/-- A tag of a core completes, told from another domain. -/
def tagArrive (s : State) (core slot tag : Nat) : State := crossInto s core (.tag slot tag) fun s => tagReturn s core slot tag

/-- Whether a tag of a group is outstanding. -/
def tagOut (g : Group) (tag : BitVec 6) : Bool := g.tags.any (·.tag == tag)

/-- A group told to stop at its next bundle boundary, its next bundle taken for END (R283); a debugger's halt falls (R536). -/
def stopGroup (g : Group) : Group :=
  { g with stopping := true, halted := false, haltAsked := false, stepAsked := false, hold := .none, wait := .none, pend := [] }

/-- Whether a group works for one pass: of a user kernel, or of the stock kernel of a BUILD or a stock KERNEL. -/
def ownGroup (pass : Nat) (g : Group) : Bool := g.pass == pass && (g.stock == .user || g.stock == .builder)

/-- Every group of a pass stops issuing at its next bundle boundary (R283): its LOCAL stores due there are written, and one that holds no
tag ends at once. -/
def stopGroups (s : State) (pass : Nat) : State :=
  s.cores.foldl (fun s kv =>
    (kv.2.groups.filter (ownGroup pass)).foldl
      (fun s g => endIfDone (modGroup (landLocal s kv.1 g) kv.1 g.slot stopGroup) kv.1 g.slot) s) s

/-- The records of a pass leave the groups that hold them (R177). -/
def dropHeld (s : State) (pass : Nat) : State :=
  { s with cores := s.cores.map fun kv => (kv.1, { kv.2 with groups := kv.2.groups.map fun g =>
      match g.stock with
      | .walk held => { g with stock := .walk (held.filter (·.pass != pass)) }
      | _ => g }) }

/-- Groups of a pass still resident. -/
def groupsOfPass (s : State) (pass : Nat) : Nat :=
  (s.cores.map fun kv => (kv.2.groups.filter (ownGroup pass)).length).sum

end Sys2Proof.Machine
end

