-- ==== Sys2Proof/Machine/Pens.lean ====
section
/-! DEFINITION. Traversal records and the blocks they lie in (R152 to R155): the 32 bytes of a record, the blocks of a pen, the pen
cache and its write-backs. -/
namespace Sys2Proof.Machine

/-! ## The record (Table 5.2) -/

/-- The 256-bit word of a traversal record (R155); reserved fields are zero. -/
def recordWord (r : Record) : Nat :=
  r.gen.toNat + 2 ^ 18 * (r.primsM1 % 4) + 2 ^ 21 * bit r.leaf + 2 ^ 22 * bit r.trace + 2 ^ 23 * bit r.inMemory +
  2 ^ 24 * (r.pass % 2 ^ 8) + 2 ^ 32 * (r.number % 2 ^ 32) + 2 ^ 64 * (r.target % 2 ^ 64) + 2 ^ 128 * (r.item % 2 ^ 32) +
  2 ^ 160 * (r.entryRef % 2 ^ 18) + 2 ^ 192 * r.valueLo.toNat + 2 ^ 224 * (if r.trace then r.valueHi.toNat else 0)

/-- The 32 bytes of a record. -/
def recordBytes (r : Record) : List Byte := natLe 32 (recordWord r)

/-- The record that 32 bytes hold. -/
def parseRecord (b : List Byte) : Record :=
  let w := leNat b
  { valueHi := BitVec.ofNat 32 (bitsOf w 255 224), valueLo := BitVec.ofNat 32 (bitsOf w 223 192), entryRef := bitsOf w 177 160,
    item := bitsOf w 159 128, target := bitsOf w 127 64, number := bitsOf w 63 32, pass := bitsOf w 31 24, inMemory := bitOf w 23,
    trace := bitOf w 22, leaf := bitOf w 21, primsM1 := bitsOf w 19 18, gen := BitVec.ofNat 16 (bitsOf w 15 0), settle := 0,
    poison := false }

/-! ## Slices, pens and blocks -/

/-- Slice q. -/
def sliceOf (s : State) (q : Nat) : Slice := s.fold.slices.getD q .reset

/-- The state with slice q changed. -/
def modSlice (s : State) (q : Nat) (f : Slice → Slice) : State :=
  { s with fold := { s.fold with slices := modAt s.fold.slices q f } }

/-- The pens of a slice, open ones first. -/
def Slice.pens (sl : Slice) : List Pen := sl.openPens ++ sl.ready

/-- The records of a pen, oldest first. -/
def Pen.records (p : Pen) : List Record := p.blocks.flatMap fun b => b.recs.map (·.2)

/-- How many records a pen holds: its fill. -/
def Pen.fill (p : Pen) : Nat := (p.blocks.map fun b => b.recs.length).sum

/-- The numbers of the blocks in use in a slice (R152). -/
def Slice.inUse (sl : Slice) : List Nat := sl.pens.flatMap fun p => p.blocks.map (·.number)

/-- How many blocks of a slice are in use. -/
def blocksUsed (sl : Slice) : Nat := sl.inUse.length

/-- The bytes of a slice's share of the pen buffer: one quarter (R152). -/
def shareBytes (s : State) : Nat := penMib s * mib / 4

/-- The blocks of a share, 256 B each. -/
def shareBlocks (s : State) : Nat := shareBytes s / 256

/-- The store address of block n of slice q's share (R27, R152). -/
def blockAddr (s : State) (q n : Nat) : Nat := penBase s + q * shareBytes s + 256 * n

/-- The lowest number that a list does not hold. -/
def lowestFree (used : List Nat) : Nat := ((List.range (used.length + 1)).find? fun n => !used.contains n).getD 0

/-- The place after the last one that a block uses: the next record's, when it is below 8. -/
def Block.top (b : Block) : Nat := (b.recs.map fun r => r.1 + 1).foldl max 0

/-- A pen's block n changed. -/
def Pen.modBlock (p : Pen) (n : Nat) (f : Block → Block) : Pen :=
  { p with blocks := p.blocks.map fun b => if b.number = n then f b else b }

/-- A slice's block n changed. -/
def Slice.modBlock (sl : Slice) (n : Nat) (f : Block → Block) : Slice :=
  { sl with openPens := sl.openPens.map (·.modBlock n f), ready := sl.ready.map (·.modBlock n f) }

/-- Block n of a slice. -/
def Slice.block (sl : Slice) (n : Nat) : Option Block := (sl.pens.flatMap (·.blocks)).find? (·.number == n)

/-! ## The pen cache (R153) -/

/-- The 128 bytes of half h of a block as they are written out: its records at their places, the store's bytes elsewhere. -/
def halfBytes (st : Store) (a : Nat) (b : Block) (h : Nat) : List Byte :=
  (List.range 4).flatMap fun i =>
    match b.recs.find? fun r => r.1 == 4 * h + i with
    | some r => recordBytes r.2
    | none => (storeRead st (a + 128 * h + 32 * i) 32).bytes

/-- Whether half h of a block holds a poisoned record. -/
def halfPoison (b : Block) (h : Nat) : Bool := b.recs.any fun r => r.1 / 4 == h && r.2.poison

/-- A block written out to its home in the store, line by line. -/
def writeBlock (s : State) (q : Nat) (b : Block) : State :=
  let a := blockAddr s q b.number
  { s with store := [0, 1].foldl (fun st h => storeWrite st (a + 128 * h) (halfBytes st a b h) (halfPoison b h)) s.store }

/-- A record as its block's bytes in the store give it; poisoned when its line is (R180). -/
def storedRecord (st : Store) (a : Nat) (r : Nat × Record) : Nat × Record :=
  let m := storeRead st (a + 32 * r.1) 32
  (r.1, { parseRecord m.bytes with poison := m.bad.isSome })

/-- A block as it is read back from the store. -/
def storedBlock (s : State) (q : Nat) (b : Block) : Block :=
  { b with recs := b.recs.map (storedRecord s.store (blockAddr s q b.number)) }

/-- A block that was written out read back into its slice. -/
def blockBack (s : State) (q n : Nat) : State :=
  if (sliceOf s q).spilled.contains n then
    let s := modSlice s q fun sl => { sl.modBlock n (storedBlock s q) with spilled := setDel sl.spilled n }
    seenLines s (blockAddr s q n) 256
  else s

/-- A block of the pen cache written: one written out before is read back first; it becomes the most recently written, and the least
recently written one goes to the store when the cache of 16,384 blocks is full (R153, counter 20 + 5q). -/
def touchBlock (s : State) (q n : Nat) : State :=
  let s := blockBack s q n
  let c := n :: setDel (sliceOf s q).cache n
  if 16384 < c.length then
    let v := c.getLast?.getD n
    let s := modSlice s q fun sl => { sl with cache := c.dropLast, spilled := sl.spilled ++ [v] }
    count (match (sliceOf s q).block v with | some b => writeBlock s q b | none => s) (20 + 5 * q)
  else modSlice s q fun sl => { sl with cache := c }

/-! ## Records taken out -/

/-- A block with the records that keep holds; none when it is left empty. Records keep their places. -/
def thinBlock (keep : Record → Bool) (b : Block) : Option Block :=
  let r := b.recs.filter fun x => keep x.2
  if r.isEmpty then none else some { b with recs := r }

/-- A pen with the records that keep holds; none when it is left empty. -/
def thinPen (keep : Record → Bool) (p : Pen) : Option Pen :=
  let b := p.blocks.filterMap (thinBlock keep)
  if b.isEmpty then none else some { p with blocks := b }

/-- A slice without the cache entries of blocks that no pen has any more. -/
def Slice.trim (sl : Slice) : Slice :=
  let u := sl.inUse
  { sl with cache := sl.cache.filter u.contains, spilled := sl.spilled.filter u.contains }

/-- A slice with the records that keep holds: blocks that become empty are freed, pens that become empty close (R177, R178). -/
def thinSlice (keep : Record → Bool) (sl : Slice) : Slice :=
  { sl with openPens := sl.openPens.filterMap (thinPen keep), ready := sl.ready.filterMap (thinPen keep) }.trim

end Sys2Proof.Machine
end

