-- ==== Sys2Proof/Machine/Samples.lean ====
section
/-! DEFINITION. The awl's samples (R420 to R422): skip counts, sample records, samples and sweeps that are dropped. -/
namespace Sys2Proof.Machine

/-- A skip counter of a context's calibration area (Table 12.4: 0 buffer_full, 1 unfinished, 2 cancelled, 3 discarded) advanced. -/
def skipCount (s : State) (c k n : Nat) : State :=
  match (ctxOf s c).bind (·.calib) with
  | some area =>
    let a := area.addr + 48 + 4 * k
    let s := seenLines s a 4
    { s with store := storeWrite s.store a (natLe 4 ((leNat (storeRead s.store a 4).bytes + n) % 2 ^ 32)) false }
  | none => s

/-- The bytes of a sample record (Table 12.6). -/
def sampleRecord (margin keyBase query passId : Nat) (n w snapshot : U32) : List Byte :=
  layout 32 [(0, 2, margin), (2, 6, keyBase % 2 ^ 42), (8, 4, query), (12, 4, passId), (16, 4, n.toNat), (20, 4, w.toNat), (24, 4, snapshot.toNat)]

/-- Whether a sample is complete: its sweep and its N are formed (R421). -/
def Sample.complete (x : Sample) : Bool := x.sweep.isSome && x.narrow.isSome

/-- W_g of a sample: W × E(M − best_final), each step rounded (R420). -/
def massOf (m w best : U32) : U32 := fmul .rn w (expF (fsub .rn m best))

/-- A record placed in the sample buffer, or counted under buffer_full (R421). -/
def putSample (s : State) (c : Nat) (r : List Byte) : State :=
  match (ctxOf s c).bind (·.calib) with
  | none => s
  | some a =>
    let held := leNat (storeRead s.store (a.addr + 8) 4).bytes
    let s := seenLines s (a.addr + 8) 4
    if a.capacity ≤ held then skipCount s c 0 1
    else
      let st := storeWrite s.store (a.addr + 256 + 32 * a.entries + 32 * held) r false
      { s with store := storeWrite st (a.addr + 8) (natLe 4 (held + 1)) false }

/-- A complete sample leaves the awl: recorded, or counted under discarded (R420, R421); a W_g that is not finite though what forms it is
counts (R413). -/
def recordSample (s : State) (x : Sample) : State :=
  let s := { s with awl := { s.awl with samples := dropFirst (· == x) s.awl.samples } }
  match x.sweep, x.narrow with
  | some w, some n =>
    let g := massOf w.1 w.2.1 n.2
    let s := if !isFin g && isFin w.2.1 && isFin (expF (fsub .rn w.1 n.2)) then countCtx s x.ctx 0 else s
    if w.2.2 || isZero g || !isFin g then skipCount s x.ctx 3 1
    else putSample s x.ctx (sampleRecord x.margin.toNat x.keyBase x.query x.passId.toNat n.1 g x.snapshot)
  | _, _ => s

/-- Every complete sample recorded, oldest first. -/
def recordSamples (s : State) : State := (s.awl.samples.filter (·.complete)).foldl recordSample s

/-- Whether a sweep at work reads through a stream. -/
def Sweep.reads (x : Sweep) (t : Stream) : Bool :=
  match x.run with
  | some r => r.flock / 8 == t.quad && r.stream == t.number
  | none => false

/-- The groups of sweeps that run no longer leave their cores, and their streams close. -/
def reapAwl (s : State) : State :=
  let stays := fun (g : Group) => g.stock != .awl || s.awl.sweeps.any (·.entry == g.herd)
  { s with cores := s.cores.map fun (kv : Nat × Core) => (kv.1, { kv.2 with groups := kv.2.groups.filter stays }),
           streams := s.streams.filter fun t => !(1024 ≤ t.number && t.number < 1280) || s.awl.sweeps.any (·.reads t) }

/-- The samples and sweeps that a test picks dropped. -/
def dropAwl (s : State) (gone : Nat → Nat → Bool) : State :=
  reapAwl { s with awl := { s.awl with samples := s.awl.samples.filter fun x => !gone x.ctx x.pass,
                                       sweeps := s.awl.sweeps.filter fun x => !gone x.ctx x.pass } }

/-- The samples and sweeps of a pass dropped, counted under skip counter k when one is given (R421, R422). -/
def dropSamples (s : State) (slot : Nat) (k : Option Nat) : State :=
  let mine := s.awl.samples.filter (·.pass == slot)
  let s := match k, mine with
    | some k, x :: _ => skipCount s x.ctx k mine.length
    | _, _ => s
  dropAwl s fun _ p => p == slot

end Sys2Proof.Machine
end

