-- ==== Sys2Proof/Machine/Halt.lean ====
section
/-! DEFINITION. Stopping passes and contexts: the cut of a pass at its cancel point (R177, R283, R393 to R395), the fence of a
faulting context (R544), and the writing of completion records and events with the faults their own writes may meet. -/
namespace Sys2Proof.Machine

/-! ## The cut of one pass -/

/-- The burst that covers a list of requests. -/
def hull (ps : List Req) : Burst :=
  let lo := (ps.map (·.addr)).foldl min ((ps.head?.map (·.addr)).getD 0)
  let hi := (ps.map fun r => r.addr + r.len).foldl max 0
  { parts := ps, addr := lo, len := hi - lo }

/-- The burst without the requests of a pass, when any is left (R395). -/
def cutBurst (slot : Nat) (b : Burst) : Option Burst :=
  let ps := b.parts.filter (·.pass != slot)
  if ps.length = b.parts.length then some b else if ps.isEmpty then none else some (hull ps)

/-- The requests of a pass in a list of bursts. -/
def partsOf (slot : Nat) (bs : List Burst) : List Req := (bs.flatMap (·.parts)).filter (·.pass == slot)

/-- A port from which the requests of a pass not yet issued are removed; reads in flight that serve it alone are dropped. -/
def cutPort (slot : Nat) (p : Port) : Port :=
  { p with mergeRd := p.mergeRd.filterMap (cutBurst slot), mergeWr := p.mergeWr.filterMap (cutBurst slot),
           readyRd := p.readyRd.filterMap (cutBurst slot), readyWr := p.readyWr.filterMap (cutBurst slot),
           outRd := p.outRd.map fun f => { f with dropped := f.dropped || f.burst.parts.all (·.pass == slot) } }

/-- The streams of a pass closed, and the staging slots marked with it returned (R369, R395). -/
def closeStreams (slot : Nat) (l : List Stream) : List Stream :=
  (l.filter (·.pass != slot)).map fun t => { t with slots := t.slots.filter (·.pass != slot) }

/-- The requests of a pass not yet issued, over all ports. -/
def unissued (s : State) (slot : Nat) : List Req :=
  s.ports.flatMap fun p => partsOf slot p.mergeRd ++ partsOf slot p.readyRd ++ partsOf slot p.mergeWr ++ partsOf slot p.readyWr

/-- The requests of a pass in flight in one direction of a port. -/
def flightParts (slot : Nat) (fs : List Flight) : List Req :=
  (fs.filter (!·.orphan)).flatMap fun f => f.burst.parts.filter (·.pass == slot)

/-- The writes of a pass in flight, its atomics among them. -/
def writesInFlight (s : State) (slot : Nat) : Nat :=
  (s.ports.map fun p => (flightParts slot p.outWr).length +
    ((flightParts slot p.outRd).filter (·.kind == .atomic)).length).sum

/-- The requests of a pass in flight, both directions: it holds tags until they return (R371). -/
def tagsHeld (s : State) (slot : Nat) : Nat :=
  (s.ports.map fun p => (flightParts slot p.outRd).length + (flightParts slot p.outWr).length).sum

/-- The tag of a walker group that a request completes, when it is one. -/
def reqTag (r : Req) : Option (Nat × Nat × Nat) :=
  match r.sink with
  | .load c sl t _ _ _ _ => some (c, sl, t)
  | .atomicRet c sl t _ ret scope _ => if ret || scope > 0 then some (c, sl, t) else none
  | .fetchRow c sl t _ _ => some (c, sl, t)
  | .storeTag c sl t scope _ => if scope > 0 then some (c, sl, t) else none
  | _ => none

/-- The tags that requests discarded before issue would have completed return. -/
def returnTags (s : State) (rs : List Req) : State :=
  rs.foldl (fun s r => match reqTag r with | some (c, sl, t) => tagArrive s c sl t | none => s) s

/-- The slice without the records of a pass (R177, R178). -/
def sliceDrop (slot : Nat) (sl : Slice) : Slice := thinSlice (·.pass != slot) sl

/-- What a pass was doing, without what its cut frees at once (R50, R365): the blocks of hit staging of its batches and held lists,
its tile lists, saved tile states, packets and tiles in flight. -/
def cutBody : Body → Body
  | .search b => .search { b with walk := { b.walk with batches := [], evicted := [], retired := [] } }
  | .trace b => .trace { b with walk := { b.walk with batches := [], evicted := [], retired := [] } }
  | .render b => .render { b with lists := [], saved := [], packets := [], asked := [], contribs := [] }
  | .stock _ => .plain
  | b => b

/-- The fold without the records, items, settle updates and scored keys of a pass (R177, R179). -/
def foldDrop (f : Fold) (slot : Nat) : Fold :=
  { f with slices := f.slices.map (sliceDrop slot), items := f.items.filter (·.pass != slot),
           arrivals := f.arrivals.filter (·.pass != slot), settles := f.settles.filter (·.pass != slot),
           scored := f.scored.filter (·.pass != slot) }

/-! ## Handoffs in flight -/

/-- The handoff of a pass at work. -/
def handoffOf (p : Pass) : Option HandoffBody :=
  match p.body with
  | .handoff h => if p.status.isNone && p.cancelAt.isNone then some h else none
  | _ => none

/-- The pass whose handoff has an epoch and step and satisfies t. -/
def findHandoff (s : State) (epoch step : Nat) (t : HandoffBody → Bool) : Option (Pass × HandoffBody) :=
  s.passes.findSome? fun p => (handoffOf p).bind fun h =>
    if h.epoch.toNat = epoch && h.step.toNat = step && t h then some (p, h) else none

/-- Whether a half of a handoff is over. -/
def halfDone : Half → Bool
  | .off => true
  | .done => true
  | _ => false

/-- The state with a handoff changed: its counts show in the completion detail, and it ends when both halves are done (Table 13.12). -/
def setHandoff (s : State) (slot : Nat) (h : HandoffBody) : State :=
  modPass s slot fun p =>
    { p with body := .handoff h, detail0 := BitVec.ofNat 64 h.sent, detail1 := BitVec.ofNat 64 h.got,
             status := if halfDone h.send && halfDone h.recv then some (h.bad.getD stOk) else p.status }

/-- A half's status noted: the first that is not OK stays. -/
def spoilHandoff (h : HandoffBody) (st : Byte) : HandoffBody := if h.bad.isSome then h else { h with bad := some st }

/-- A handoff message of this engine for a member. -/
def handoffMsg (s : State) (code dst : Nat) (h : HandoffBody) (more : List (Nat × Nat)) : List Byte :=
  mkMsg code s.net.position.toNat dst ([(4, h.epoch.toNat), (4, h.step.toNat)] ++ more)

/-- The member upstream of this engine, and the one downstream. -/
def upstream (s : State) : Nat := memberBefore s.net.members s.net.position.toNat
/-- The member downstream. -/
def downstream (s : State) : Nat := memberAfter s.net.members s.net.position.toNat

/-- Whether a receive half has its READY outstanding. -/
def readyOut (h : HandoffBody) : Bool :=
  match h.recv with
  | .ready _ => true
  | .moving => true
  | _ => false

/-- READY sent for a receive half, unless another one of the same step has a READY outstanding (R190). -/
def trySendReady (s : State) (slot : Nat) : State :=
  match (passOf s slot).bind handoffOf with
  | none => s
  | some h =>
    if h.recv != .waiting || s.passes.any (fun p => p.slot != slot && (handoffOf p).any fun g => g.step == h.step && readyOut g) then s
    else
      let s := sendCtrl s .up (handoffMsg s cReady (upstream s) h [(8, h.recvLen)])
      setHandoff s slot { h with recv := .ready h.recvLen, readySent := true }

/-- The receive halves that wait to send READY try again. -/
def retryReady (s : State) : State := (s.passes.map (·.slot)).foldl trySendReady s

/-- Whether a flit waiting to be sent carries bytes of a handoff, or its HANDOFF_END. -/
def ofHandoff (h : HandoffBody) (o : OutFlit) : Bool :=
  o.held.isNone &&
  (if o.ctrl then msgCode o.payload == cEnd && msgField o.payload 0 4 == h.epoch.toNat && msgField o.payload 4 4 == h.step.toNat
   else o.dataKind == 0 && o.handoffId == h.step)

/-- A handoff cut: no further DATA is sent for it, and HANDOFF_ABORT with a status goes to both neighbours (R193); a READY
that waited for the one outstanding is sent (R190). -/
def abortHandoff (s : State) (p : Pass) (status : Byte) : State :=
  match p.body with
  | .handoff h =>
    if !halfDone h.send || !halfDone h.recv then
      let me := s.net.position.toNat
      let msg := fun dst => mkMsg cAbort me dst [(4, h.epoch.toNat), (4, h.step.toNat), (1, status.toNat)]
      let s := modLink s .down fun l => { l with outData := l.outData.filter (!ofHandoff h ·) }
      let s := if s.net.members.length > 1 then
          sendCtrl (sendCtrl s .up (msg (memberBefore s.net.members me))) .down (msg (memberAfter s.net.members me))
        else s
      let s := modPass s p.slot fun q => { q with body := .handoff { h with send := .done, recv := .done } }
      if status = stCancelled then retryReady s else s
    else s
  | _ => s

/-- Whether a pass is a CALIB that has begun to write: it runs to its end and keeps its own status (R566). -/
def calibBegun (p : Pass) : Bool := p.opcode == opCalib && p.wrote

/-- The cut of a pass at its cancel point (R394, R395): nothing more is issued for it, its staging, records and groups go. A header
write that a port has already issued stays, as every issued write does (log entry 85). -/
def cutPass (s : State) (slot : Nat) (status : Byte) : State :=
  match passOf s slot with
  | none => s
  | some p =>
    if p.cancelAt.isSome || calibBegun p then s
    else
      let lost := unissued s slot
      let s := { s with ports := s.ports.map (cutPort slot), streams := closeStreams slot s.streams,
                        fold := foldDrop s.fold slot }
      let s := modPass s slot fun q =>
        { q with cancelAt := some s.time, lastWrites := [], lastStore := [], writesOut := writesInFlight s slot, body := cutBody q.body }
      let s := dropHeld s slot
      let s := returnTags s lost
      let s := stopGroups s slot
      let s := dropSamples s slot (if status = stCancelled then some 2 else none)
      abortHandoff s p status

/-! ## A faulting context -/

/-- The event rings of a context that have engine_events set (R448). -/
def contextEventRings (s : State) (c : Nat) : List Nat :=
  (s.rings.filter fun kv => kv.1 / 16 == c && kv.2.active && kv.2.kind == 2 && kv.2.engineEvents).map (·.1)

/-- An event that concerns a ring and no pass: of an active submission ring, on its event ring (R452); of another, whose header could not
be read (R439), on the context's event rings that R448 names (log entry 96). -/
def pushRingEvent (s : State) (c : Nat) (ring : Byte) (code : Byte) (payload : List Byte) : State :=
  let r := ringOf s (ringKey c ring.toNat)
  if ring = 0xFF then s
  else if r.active && r.kind = 0 then
    if r.eventRing = 0xFF then s else (pushEvent s (ringKey c r.eventRing.toNat) code 0 false ring.toNat 0 payload).2
  else (contextEventRings s c).foldl (fun s key => (pushEvent s key code 0 false ring.toNat 0 payload).2) s

/-- A context-reach condition detected (R544 step 1): the first fences the context, a second before the halt is reported only
as an event (R545), one in a halted context not at all. slot is the faulting pass, 256 where there is none. -/
def faultContext (s : State) (c : Nat) (status : Byte) (payload : List Byte) (slot : Nat) (ring : Byte) (all : Bool := false) : State :=
  match ctxOf s c with
  | none => s
  | some x =>
    if x.halted then s
    else if x.fault.isSome then
      match passOf s slot with
      | some p => pushPassEvent s p status payload
      | none => s
    else
      let f : FaultRec := { status := status, payload := payload, pass := slot, ring := ring, since := s.time, all := all }
      let s := modCtx s c fun x => { x with fault := some f }
      (passesOf s c).foldl (fun s p => cutPass s p.slot status) s

/-- A pass meets a fault of its context. -/
def faultPass (s : State) (p : Pass) (status : Byte) (payload : List Byte) : State :=
  faultContext s p.ctx status payload p.slot (BitVec.ofNat 8 p.ring)

/-- Whether a context takes new work: valid, not halted, no fault being drained. -/
def ctxRuns (x : Ctx) : Bool := x.valid && !x.halted && x.fault.isNone

/-! ## Command-port writes and records -/

/-- A write of the command processor (records, indices, ring headers): a page that does not translate halts the context with
TRANSLATION_FAULT, an error response with POISON_CONSUMED, both of stream 0xFFFF (Table 13.14, R390). -/
def cpWrite (s : State) (c a : Nat) (b : List Byte) : State :=
  match firstUnmapped s.chip (asidOf s c) a b.length with
  | some x => faultContext s c stXlate (xlatePayload 0xFFFF true x []) 256 0xFF
  | none =>
    let s := cpWriteRaw s c a b
    match firstMarked s.chip.errors (asidOf s c) a b.length with
    | some x => faultContext s c stPoison (poisonPayload 0xFFFF 0 x) 256 0xFF
    | none => s

/-- The faults that the writes to a ring's header or entry met, after the record was pushed. -/
def checkRingWrites (s : State) (key a n : Nat) : State :=
  let c := key / 16
  let h := (ringOf s key).headerAddr.toNat
  match (firstUnmapped s.chip (asidOf s c) a n).orElse fun _ => firstUnmapped s.chip (asidOf s c) (h + 36) 4 with
  | some x => faultContext s c stXlate (xlatePayload 0xFFFF true x []) 256 0xFF
  | none => match (firstMarked s.chip.errors (asidOf s c) a n).orElse fun _ => firstMarked s.chip.errors (asidOf s c) (h + 36) 4 with
    | some x => faultContext s c stPoison (poisonPayload 0xFFFF 0 x) 256 0xFF
    | none => s

/-- An event of a pass, with the faults its own writes meet (R391, Table 13.14). -/
def postPassEvent (s : State) (p : Pass) (code : Byte) (payload : List Byte) : State :=
  let er := (ringOf s (ringKey p.ctx p.ring)).eventRing
  let key := ringKey p.ctx er.toNat
  let a := (ringOf s key).slotAddr (ringOf s key).producer
  let full := ringFull (ringOf s key)
  let s := pushPassEvent s p code payload
  if er = 0xFF || full then s else checkRingWrites s key a 64

/-! ## Completion -/

/-- The CANCEL passes note that a pass they named has completed (R455, Table 13.12); one whose last named pass has completed is
done. -/
def noteNamed (slot : Nat) (status : Byte) (p : Pass) : Pass :=
  match p.body with
  | .cancel named =>
    if slot ∈ named then
      let left := setDel named slot
      { p with body := .cancel left,
               detail0 := p.detail0 + (if status = stCancelled then 1 else 0),
               detail1 := p.detail1 + (if status = stCancelled then 0 else 1),
               status := if left.isEmpty then some stOk else p.status }
    else p
  | _ => p

/-- The cores that ran a KERNEL pass lose their L0 lines before its completion record (R303). -/
def dropL0 (s : State) (slot : Nat) : State :=
  (s.cores.filter fun kv => slot ∈ kv.2.ran).foldl (fun s kv => modCore (emptyL0 s kv.1) kv.1 fun k =>
    { k with ran := setDel k.ran slot, lastPass := if k.lastPass = some slot then none else k.lastPass }) s

/-- A core that remembers a pass no longer: its slot may serve another. -/
def forgetPass (slot : Nat) (k : Core) : Core :=
  { k with ran := setDel k.ran slot, lastPass := if k.lastPass = some slot then none else k.lastPass }

/-- The ring once a pass has ended: an engine whose EPOCH has ended is STABLE (Table 6.7). -/
def endEpochOf (slot : Nat) (n : RingNet) : RingNet :=
  if n.epochPass = some slot then { n with state := .stable, epochPass := none, lap := .none, heldVote := none } else n

/-- A pass leaves flight: its slot and its streams are free again (R35, R369). -/
def retirePass (s : State) (slot : Nat) (status : Byte) : State :=
  { s with net := endEpochOf slot s.net, cores := s.cores.map fun kv => (kv.1, forgetPass slot kv.2),
           passes := (s.passes.filter (·.slot != slot)).map (noteNamed slot status),
           streams := closeStreams slot s.streams }

/-- The ring that takes the completion record of a pass (R457). -/
def completionKey (s : State) (p : Pass) : Nat := ringKey p.ctx (ringOf s (ringKey p.ctx p.ring)).compRing.toNat

/-- The passes whose records wait for space in the completion ring of a pass and go before its own (R39, R457). -/
def heldBefore (s : State) (p : Pass) : List Pass :=
  s.passes.filter fun q => q.held && q.slot != p.slot && completionKey s q == completionKey s p && (!p.held || q.heldSeq < p.heldSeq)

/-- The completion record of a pass, with a status: written, or held while its completion ring is full or others wait for it (R444,
R457). -/
def writeCompletion (s : State) (p : Pass) (status : Byte) : State :=
  let key := completionKey s p
  let r := ringOf s key
  if ringFull r || !(heldBefore s p).isEmpty then
    let n := if p.held then p.heldSeq else s.formed
    modPass { s with formed := s.formed + 1 } p.slot fun q => { q with held := true, heldSeq := n, status := some status }
  else
    let halted := match ctxOf s p.ctx with | some x => x.halted | none => false
    let a := r.slotAddr r.producer
    let s := pushRecord s key
      (completionRecord p.passId status p.opcode halted p.dropped p.posted (r.phase r.producer) p.degrade p.ring p.detail0
        p.detail1 p.detail2)
    let s := checkRingWrites s key a 32
    retirePass s p.slot status

/-- DEADLINE_MISSED for a DEADLINE pass whose record is formed after its deadline (R481). -/
def missedDeadline (s : State) (p : Pass) : State :=
  if p.cls = 1 && p.deadline.toNat < s.time.toNat then
    let s := postPassEvent s p evDeadline (layout 48 [(8, 8, p.deadline.toNat), (16, 8, s.time.toNat)])
    countCtx (count s 51) p.ctx 1
  else s

/-- The completion detail of an EPOCH that was admitted: the epoch in force, P and S (Table 13.12). -/
def epochDetail (n : RingNet) (p : Pass) : Pass :=
  match p.body with
  | .epoch => { p with detail0 := n.epoch.setWidth 64, detail1 := BitVec.ofNat 64 n.members.length,
                       detail2 := BitVec.ofNat 64 ((n.shards.map (2 ^ ·)).getD 0) }
  | _ => p

/-- The events that precede a pass's completion record, then the record (R459). -/
def completePass (s : State) (slot : Nat) (status : Byte) : State :=
  match passOf s slot with
  | none => s
  | some p =>
    let s := p.preEvents.foldl (fun s e => match passOf s slot with | some p => postPassEvent s p e.1 e.2 | none => s) s
    let s := match passOf s slot with | some p => missedDeadline s p | none => s
    let s := if p.opcode = opKernel then dropL0 s slot else s
    let s := dropSamples (recordSamples s) slot (some 1)
    let s := modPass s slot fun p => { epochDetail s.net p with preEvents := [] }
    match passOf s slot with
    | some p => writeCompletion s p status
    | none => s

/-! ## Admission -/

/-- A pass as it is admitted (R35, R36): the lowest free slot, its header fields, nothing done. -/
def newPass (s : State) (c ring : Nat) (d : List Byte) (body : Body) : Pass :=
  { slot := freeSlot s, ctx := c, ring := ring, opcode := dOpcode d, cls := dClass d, passId := dPassId d,
    deadline := dDeadline d, order := s.formed, body := body, status := none, truncated := false, degrade := .none,
    cancelAt := none, refused := false, writesOut := 0, wrote := false, lastWrites := [], lastStore := [], posted := false, dropped := false, held := false,
    heldSeq := 0, late := false, preEvents := [], detail0 := 0, detail1 := 0, detail2 := 0 }

/-- The ring's consumed index passes its head (R442): engine_index is written when the ring is found empty, and at least once
per 32 descriptors, or once round a ring of 16. -/
def consumeHead (s : State) (key : Nat) : State :=
  let r := ringOf s key
  let k := r.bump r.consumer
  let r' := { r with consumer := k, head := none }
  if r'.fill = 0 || (k + 2 * r.size - r.writtenIndex) % (2 * r.size) ≥ min 32 r.size then
    cpWrite (setRing s key { r' with writtenIndex := k }) (key / 16) (r.headerAddr.toNat + 36) (natLe 4 k)
  else setRing s key r'

/-- A pass enters flight; descriptors admitted are counted (Table 16.11). -/
def admitPass (s : State) (p : Pass) : State :=
  let s := count { s with passes := s.passes ++ [p], formed := s.formed + 1 } 48
  consumeHead s (ringKey p.ctx p.ring)

/-- A descriptor refused at admission (R451): its event, and a pass that completes with the refusal and does no work. -/
def refuse (s : State) (c ring : Nat) (d : List Byte) (x : Deny) : State :=
  let p := { newPass s c ring d .plain with status := some x.status, refused := true }
  let s := admitPass s p
  postPassEvent s p x.status (denyPayload x)

end Sys2Proof.Machine
end

