-- ==== Sys2Proof/Machine/Requests.lean ====
section
/-! DEFINITION. Forming requests: which memory port a byte address meets (R290, R370), how a request enters a merge stage
(R378), the streams that open (R369, R565), and the writes of a pass. -/
namespace Sys2Proof.Machine

/-- P_s(a): the port of a stream's request (R370). -/
def streamPort (a : Nat) : Nat := bitsOf a 13 9 ^^^ bitsOf a 18 14

/-- P(a): the port of an M-slot GLOBAL access (R290). -/
def globalPort (a : Nat) : Nat := bitsOf a 11 7 ^^^ bitsOf a 16 12

/-- Whether two requests must keep their order (R293): they share a byte and not both only read. -/
def conflict (r q : Req) : Bool :=
  r.asid == q.asid && overlaps r.addr r.len q.addr q.len && !(r.kind == .read && q.kind == .read)

/-- The requests of a port not yet issued. -/
def Port.waiting (p : Port) : List Req := (p.mergeRd ++ p.readyRd ++ p.mergeWr ++ p.readyWr).flatMap (·.parts)

/-- Whether a request may join a burst (R378): one context, one class, contiguous bytes, one 512-B block. -/
def canJoin (b : Burst) (r : Req) : Bool :=
  b.parts.all (fun p => p.ctx == r.ctx && p.cls == r.cls && p.asid == r.asid) &&
  (b.addr + b.len == r.addr || r.addr + r.len == b.addr) && b.addr / 512 == r.addr / 512 &&
  (r.addr + r.len - 1) / 512 == r.addr / 512

/-- The merge stage with a request joined to the first burst that takes it, when one does. -/
def joinBurst : List Burst → Req → Option (List Burst)
  | [], _ => none
  | b :: rest, r => if canJoin b r then some (hull (b.parts ++ [r]) :: rest) else (joinBurst rest r).map (b :: ·)

/-- The merge stage with a request in it; alone: it may join none, since it must wait for another (R379). -/
def enterMerge (alone : Bool) (bs : List Burst) (r : Req) : List Burst :=
  if alone then bs ++ [hull [r]] else (joinBurst bs r).getD (bs ++ [hull [r]])

/-- Whether a burst covers its whole 512-B block. -/
def wholeBlock (b : Burst) : Bool := b.len == 512 && b.addr % 512 == 0

/-- Bursts that cover their whole block leave the merge stage at once (R378). -/
def settleMerge (p : Port) : Port :=
  { p with mergeRd := p.mergeRd.filter (!wholeBlock ·), readyRd := p.readyRd ++ p.mergeRd.filter wholeBlock,
           mergeWr := p.mergeWr.filter (!wholeBlock ·), readyWr := p.readyWr ++ p.mergeWr.filter wholeBlock }

/-- A port with a request formed at it; an atomic joins nothing (R378). -/
def portForm (p : Port) (r : Req) : Port :=
  let alone := p.waiting.any (conflict r)
  match r.kind with
  | .read => settleMerge { p with mergeRd := enterMerge alone p.mergeRd r }
  | .write => settleMerge { p with mergeWr := enterMerge alone p.mergeWr r }
  | .atomic => { p with readyRd := p.readyRd ++ [hull [r]] }

/-- A request formed at a port; requests are numbered in the order they form (R377). -/
def formReq (s : State) (port : Nat) (r : Req) : State :=
  { s with ports := modAt s.ports port fun p => portForm p { r with formed := s.formed }, formed := s.formed + 1 }

/-! ## Streams (Table 11.1, R565) -/

/-- Whether a fetch engine has a stream of a number open. -/
def streamOpen (s : State) (quad number : Nat) : Bool := s.streams.any fun t => t.quad == quad && t.number == number

/-- A stream opened under a number for a pass; one that is open already takes the pass and the class of the pass that uses it now. -/
def openStream (s : State) (quad number pass : Nat) (cls : BitVec 2) : State :=
  if streamOpen s quad number then
    { s with streams := s.streams.map fun t => if t.quad = quad && t.number = number then { t with pass := pass, cls := cls } else t }
  else { s with streams := s.streams ++ [⟨quad, number, pass, cls, [], []⟩] }

/-- The lowest number from lo, of n, that no open stream of a fetch engine holds. -/
def lowestStream (s : State) (quad lo n : Nat) : Nat :=
  (((List.range n).map (lo + ·)).find? fun k => !streamOpen s quad k).getD (lo + n - 1)

/-- A stream opened under the lowest free number of a range. -/
def openLowest (s : State) (quad lo n pass : Nat) (cls : BitVec 2) : State :=
  openStream s quad (lowestStream s quad lo n) pass cls

/-- k Pass input streams opened in each quadrant for a pass (Table 11.1: one per input array). -/
def openInputs (s : State) (p : Pass) (k : Nat) : State :=
  (List.range (4 * k)).foldl (fun s i => openLowest s (i % 4) 0 256 p.slot p.cls) s

/-- The number of the Pass input stream of a pass's array in a quadrant (R565): the streams of a quadrant open array by array. -/
def inputStream (s : State) (slot quad array : Nat) : Nat :=
  ((s.streams.filter fun t => t.pass == slot && t.quad == quad && t.number < 256).map (·.number)).getD array 0

/-- The number of a pass's Output stream (Table 11.1). -/
def outStream (slot : Nat) : Nat := 2048 + slot

/-! ## The writes of a pass -/

/-- A request of a pass's Output stream. -/
def writeReq (s : State) (p : Pass) (a : Nat) (b : List Byte) (poison : Bool) (sink : Consumer) : Req :=
  { kind := .write, asid := BitVec.ofNat 20 (asidOf s p.ctx), ctx := p.ctx, addr := a, len := b.length, data := b,
    poison := poison, cls := p.cls, stream := outStream p.slot, quad := 0, pass := p.slot, formed := 0, sink := sink, atomicOp := 0,
    wide := false, opA := 0, opB := 0 }

/-- A write of a pass formed, cut at 512-B blocks; one formed after the pass's cancel point is discarded (R395). -/
def passWriteTo (s : State) (slot a : Nat) (b : List Byte) (poison : Bool) (sink : Consumer) : State :=
  match passOf s slot with
  | none => s
  | some p =>
    if p.cancelAt.isSome then s
    else
      (pieces 512 a b.length).foldl (fun s x =>
        let s := formReq s (streamPort x.1) (writeReq s p x.1 (slice b x.2.1 x.2.2) poison sink)
        modPass s slot fun p => { p with writesOut := p.writesOut + 1 }) s

/-- A write of a pass to its own outputs. -/
def passWrite (s : State) (slot a : Nat) (b : List Byte) : State := passWriteTo s slot a b false .output

/-- Several writes of a pass. -/
def passWrites (s : State) (slot : Nat) (ws : List (Nat × List Byte)) : State :=
  ws.foldl (fun s w => passWrite s slot w.1 w.2) s

/-- The working space of a pass after its use: every byte that translates holds a free value (log entry 22). -/
def scratchUse (s : State) (c a n : Nat) : State :=
  let asid := asidOf s c
  let put := fun (m : List Host.Cell) (i : Nat) =>
    if (firstUnmapped s.chip asid (a + i) 1).isSome then m
    else smSet 0 m (memKey asid (a + i)) (BitVec.ofNat 8 (Config.freeValue (s.freeCtr + i)).toNat)
  { s with chip := { s.chip with bytes := (List.range n).foldl put s.chip.bytes }, freeCtr := s.freeCtr + n }

/-- Whether two ranges, each (space, first byte, length), share a byte. -/
def rangesMeet (x y : Bool × Nat × Nat) : Bool := x.1 == y.1 && overlaps x.2.1 x.2.2 y.2.1 y.2.2 && x.2.2 != 0 && y.2.2 != 0

/-- The lowest parameter offset of the first two of a list of ranges (offset, range) that share a byte, then of the first of them
that shares one with a range of another list. -/
def firstOverlap (outs more ins : List (Nat × Bool × Nat × Nat)) : Option Nat :=
  let all := outs ++ more
  let meet := fun (x y : Nat × Bool × Nat × Nat) => if rangesMeet x.2 y.2 then some (min x.1 y.1) else none
  (((List.range all.length).findSome? fun i => match all[i]? with
    | some x => (all.drop (i + 1)).findSome? (meet x)
    | none => none)).orElse fun _ => outs.findSome? fun x => ins.findSome? (meet x)

end Sys2Proof.Machine
end

