-- ==== Sys2Proof/Machine/Admission.lean ====
section
/-! DEFINITION. Fetching descriptors (R442, R451, R452), admitting them (R35 to R37, R470), and the passes that do no work of their
own: NOP, FENCE, COUNTER BARRIER. -/
namespace Sys2Proof.Machine

/-! ## What blocks a ring -/

/-- Whether a pass holds back later descriptors of its ring until it completes (R37, R212, R400). -/
def blocksRing (p : Pass) : Bool :=
  match p.body with
  | .fence => true
  | .barrier _ _ _ _ _ _ _ => true
  | .handoff _ => true
  | .epoch => true
  | _ => false

/-- Whether a ring is held back. -/
def ringBlocked (s : State) (c ring : Nat) : Bool := s.passes.any fun p => p.ctx == c && p.ring == ring && blocksRing p

/-- Whether a pass slot is free for a class (R35, R470). -/
def slotFor (s : State) (cls : BitVec 2) : Bool :=
  if cls = 1 || cls = 3 then s.passes.length < 256 else s.passes.length < 256 - s.regs.dlPassSlots.toNat

/-- Whether the engine stands in an engine-reach failure (R548). -/
def engineDead (s : State) : Bool := s.bring.fatal

/-- Whether a submission ring may go on: its context takes new work and no commit of it waits (R435, R437), the ring is active and
not being torn down (R440). -/
def ringRuns (s : State) (c ring : Nat) : Bool :=
  let r := ringOf s (ringKey c ring)
  !engineDead s && (match ctxOf s c with | some x => ctxRuns x && !x.commitWaits | none => false) && r.active && r.kind = 0 &&
    !r.tearing && !ringBlocked s c ring

/-! ## Checks that the descriptor alone decides (R451) -/

/-- A value at an offset of the descriptor that fails: offsets of a v1 descriptor are within its 32 bytes. -/
def denyDesc (st : Byte) (v1 : Bool) (d : List Byte) (addr off : Nat) : Deny :=
  ⟨st, 0, if v1 then v1Offset (dOpcode d) off else off, addr⟩

/-- The reserved bits within bytes that hold a field too: (offset, the bits that are zero). -/
def reservedBits (o : Byte) (scope : Nat) : List (Nat × Nat) :=
  if o = opBarrier && scope = 1 then [(17, 0xFC)]
  else if o = opEpoch then [(20, 0xF0), (21, 0xFE)]
  else if o = opXfer then [(44, 0xE0)]
  else if o = opCalib then [(16, 0xE0)]
  else if o = opCancel then [(17, 0xF0)]
  else []

/-- The offset of the first reserved byte of a v2 descriptor body that is not zero, when there is one. -/
def bodyReserved (d : List Byte) : Option Nat :=
  let o := dOpcode d
  let scope := field d 16 1
  if !zeroAt d (v2Reserved o scope) then some (firstNonzero d (v2Reserved o scope))
  else ((reservedBits o scope).find? fun x => field d x.1 1 &&& x.2 != 0).map (·.1)

/-- The checks of R451 that the header and body decide, in its order; raw is the descriptor as it lies in its ring. -/
def descChecks (x : Ctx) (v1 : Bool) (raw d : List Byte) (addr : Nat) : Option Deny :=
  let o := dOpcode d
  let cls := dClass d
  let handoff := o = opBarrier && field d 16 1 = 1
  let dn := fun st off => denyDesc st v1 d addr off
  firstDeny [
    (v1 && opDefined o && !v1Accepts o, dn stVersion 0),
    (cls = 3 && !x.mgmtAllowed, dn stPermission 1),
    ((o = opEpoch || handoff) && !x.ringContext, dn stPermission 0),
    (!opDefined o, dn stDesc 0),
    (v1 && !zeroAt raw (v1Reserved o), ⟨stDesc, 0, firstNonzero raw (v1Reserved o), addr⟩),
    (v1 && o = opXfer && bitsOf (field raw 24 4) 31 26 != 0, ⟨stDesc, 0, 27, addr⟩),
    (!v1 && bitsOf (field d 1 1) 7 2 != 0, dn stDesc 1),
    (!v1 && !zeroAt d [(2, 2)], dn stDesc (firstNonzero d [(2, 2)])),
    (!classAccepts cls o, dn stDesc 1),
    (cls = 1 && dDeadline d = 0, dn stDesc 8),
    (cls != 1 && dDeadline d != 0, dn stDesc 8),
    (o = opBarrier && field d 16 1 ≥ 2, dn stDesc 16),
    (o = opCancel && field d 16 1 ≥ 2, dn stDesc 16),
    (o = opCalib && bitsOf (field d 16 1) 3 0 ≥ 7, dn stDesc 16),
    (!v1 && (bodyReserved d).isSome, dn stDesc ((bodyReserved d).getD 0)),
    (opHasBlock o && !(v1 && o = opXfer) && dParam d % 64 != 0, dn stDesc (if o = opXfer then 32 else 16))]

/-! ## DESCRIPTOR_FETCH -/

/-- A read of the command processor that fails halts its context (R452). -/
def fetchFault (s : State) (c ring : Nat) (r : MemRead) : Option State :=
  match r.xlate with
  | some a => some (faultContext s c stXlate (xlatePayload 0xFFFF false a []) 256 (BitVec.ofNat 8 ring))
  | none => r.bad.map fun a => faultContext s c stPoison (poisonPayload 0xFFFF 0 a) 256 (BitVec.ofNat 8 ring)

/-- The descriptor at the head of a ring taken up: its parameter block read, the two held until it is admitted. -/
def takeHead (s : State) (c ring : Nat) (v1 : Bool) (d raw : List Byte) (addr : Nat) : State :=
  let o := dOpcode d
  let put := fun (s : State) (blk : List Byte) => modRing s (ringKey c ring) fun r =>
    { r with head := some ⟨d, BitVec.ofNat 64 addr, blk, BitVec.ofNat 64 (dParam d), v1⟩ }
  if v1 && o = opXfer then put s (v1XferBlock raw)
  else if opHasBlock o then
    let s := cpRead s (asidOf s c) 0 (dParam d) (blockSize o)
    let b := chipRead s.chip (asidOf s c) (dParam d) (blockSize o)
    match fetchFault s c ring b with
    | some s => s
    | none => put s b.bytes
  else put s []

/-- DESCRIPTOR_FETCH: the descriptor at the head of a non-empty submission ring is read, checked and held, or refused. -/
def fetchDescriptor (s : State) (c ring : Nat) : State :=
  let r := ringOf s (ringKey c ring)
  if !ringRuns s c ring || r.fill = 0 || r.head.isSome || 256 ≤ s.passes.length then s
  else
    let v1 := r.version = 1
    let a := r.slotAddr r.consumer
    let s := cpRead s (asidOf s c) 0 a (entrySize 0 r.version.toNat)
    let m := chipRead s.chip (asidOf s c) a (entrySize 0 r.version.toNat)
    match fetchFault s c ring m with
    | some s => s
    | none =>
      let d := if v1 then v1ToV2 m.bytes else m.bytes
      match ctxOf s c with
      | none => s
      | some x =>
        match descChecks x v1 m.bytes d a with
        | some y => if slotFor s (dClass d) then refuse s c ring d y else s
        | none => takeHead s c ring v1 d m.bytes a

/-- DESCRIPTOR_FETCH (R442). -/
def execDescriptorFetch (ctx : BitVec 12) (ring : BitVec 4) (now : U64) (s : State) : Host.Outcome State Fault Refusal :=
  .next (fetchDescriptor (atTime s now) ctx.toNat ring.toNat)

/-! ## Admission -/

/-- The fetched descriptor at the head of a ring, when it can be admitted now. -/
def admissible (s : State) (c ring : Nat) : Option Fetched :=
  match (ringOf s (ringKey c ring)).head with
  | some f => if ringRuns s c ring && slotFor s (dClass f.desc) then some f else none
  | none => none

/-- A descriptor that sel picks at the head of a ring is refused by check, or admitted by go. -/
def admitWith (s : State) (c ring : Nat) (sel : Fetched → Bool) (check : State → Ctx → Fetched → Option Deny)
    (go : State → Fetched → State) : State :=
  match admissible s c ring, ctxOf s c with
  | some f, some x =>
    if !sel f then s
    else match check s x f with
      | some y => refuse s c ring f.desc y
      | none => go s f
  | _, _ => s

/-- Whether a fetched descriptor holds an opcode. -/
def isOp (o : Byte) (f : Fetched) : Bool := dOpcode f.desc == o

/-- No check of a chapter. -/
def noCheck (_ : State) (_ : Ctx) (_ : Fetched) : Option Deny := none

/-- A pass admitted with a body. -/
def admitBody (s : State) (c ring : Nat) (f : Fetched) (b : Body) : State := admitPass s (newPass s c ring f.desc b)

/-- A pass admitted that has nothing to do. -/
def admitDone (s : State) (c ring : Nat) (f : Fetched) (st : Byte) : State :=
  admitPass s { newPass s c ring f.desc .plain with status := some st }

/-- A descriptor field that fails, by its v2 offset. -/
def denyField (f : Fetched) (st : Byte) (off : Nat) : Deny := denyDesc st f.v1 f.desc f.addr.toNat off

/-- A parameter-block field that fails. -/
def denyBlock (f : Fetched) (st : Byte) (off : Nat) : Deny := ⟨st, 1, off, f.blockAddr.toNat⟩

/-- A parameter-block field that names a store range leaving the context's windows (R31, R562): the first byte outside. -/
def denyRange (st : Byte) (x : Ctx) (loc off a n : Nat) : Bool × Deny :=
  match firstOutside x.windows a n with
  | some b => (true, ⟨st, loc, off, b⟩)
  | none => (false, ⟨st, loc, off, 0⟩)

/-- NOP (R37). -/
def execNop (ctx : BitVec 12) (ring : BitVec 4) (s : State) : Host.Outcome State Fault Refusal :=
  .next (admitWith s ctx.toNat ring.toNat (isOp opNop) noCheck fun s f => admitDone s ctx.toNat ring.toNat f stOk)

/-- FENCE (R37). -/
def execFence (ctx : BitVec 12) (ring : BitVec 4) (s : State) : Host.Outcome State Fault Refusal :=
  .next (admitWith s ctx.toNat ring.toNat (isOp opFence) noCheck fun s f => admitBody s ctx.toNat ring.toNat f .fence)

/-- Whether every earlier descriptor of a pass's ring has completed. -/
def earlierDone (s : State) (p : Pass) : Bool :=
  s.passes.all fun q => !(q.ctx == p.ctx && q.ring == p.ring && q.order < p.order)

/-- FENCE_RELEASE (R37). -/
def fenceRelease (s : State) (slot : Nat) : State :=
  match passOf s slot with
  | none => s
  | some p => match p.body with
    | .fence => if earlierDone s p && p.status.isNone then modPass s slot fun p => { p with status := some stOk } else s
    | _ => s

/-- FENCE_RELEASE (R37). -/
def execFenceRelease (pass : Byte) (s : State) : Host.Outcome State Fault Refusal := .next (fenceRelease s pass.toNat)

/-! ## COUNTER BARRIER (R454) -/

/-- An access of the command processor on behalf of a pass that fails ends the pass. -/
def wordFault (s : State) (p : Pass) (write : Bool) (r : MemRead) : Option State :=
  match r.xlate with
  | some a => some (faultPass s p stXlate (xlatePayload 0xFFFF write a []))
  | none => r.bad.map fun a => faultPass s p stPoison (poisonPayload 0xFFFF 0 a)

/-- A BARRIER whose earlier descriptors have completed arrives: it adds arrive_value, when non-zero, and begins to wait; the timer that
starts keeps the limit in force now (R531). -/
def barrierArrive (s : State) (slot : Nat) : State :=
  match passOf s slot with
  | none => s
  | some p => match p.body with
    | .barrier a arrive wait false _ _ _ =>
      if !earlierDone s p || p.cancelAt.isSome then s
      else
        let s := if arrive = 0 then s else cpPresent s 2 (asidOf s p.ctx) 0 a 8 [] arrive.toNat
        let w := chipRead s.chip (asidOf s p.ctx) a 8
        let go := fun (s : State) => modPass s slot fun p => 
          { p with body := .barrier a arrive wait true s.time s.regs.barrierTimeout.toNat none }
        if arrive = 0 then go s
        else match wordFault s p true w with
          | some s => s
          | none => go { s with chip := chipWrite s.chip (asidOf s p.ctx) a (natLe 8 ((leNat w.bytes + arrive.toNat) % 2 ^ 64)) false }
    | _ => s

/-- Whether a BARRIER's next read is due: it reads as its wait begins, then every barrier_poll, in force when the interval began, in
units of 10 ns. -/
def pollDue (now : U64) (read : Option (U64 × Nat)) : Bool :=
  match read with
  | some r => 10 * r.2 ≤ (now - r.1).toNat
  | none => true

/-- A read of a BARRIER's counter word, when one is due: reached, the BARRIER is done. -/
def barrierPoll (s : State) (slot : Nat) : State :=
  let s := barrierArrive s slot
  match passOf s slot with
  | none => s
  | some p => match p.body with
    | .barrier a arrive wait true since limit read =>
      if p.status.isSome || p.cancelAt.isSome || !pollDue s.time read then s
      else
        let s := cpRead s (asidOf s p.ctx) 0 a 8
        let w := chipRead s.chip (asidOf s p.ctx) a 8
        match wordFault s p false w with
        | some s => s
        | none =>
          let v : U64 := BitVec.ofNat 64 (leNat w.bytes)
          modPass s slot fun p =>
            { p with body := .barrier a arrive wait true since limit (some (s.time, s.regs.barrierPoll.toNat)), detail0 := v,
                     status := if wait.toNat ≤ v.toNat then some stOk else none }
    | _ => s

/-- A BARRIER that has waited beyond its limit ends with TIMEOUT, and its context halts. -/
def barrierTimeout (s : State) (slot : Nat) : State :=
  match passOf s slot with
  | none => s
  | some p => match p.body with
    | .barrier a _ _ true since limit _ =>
      let t := (s.time - since).toNat
      if p.status.isNone && p.cancelAt.isNone && limit * 1000000 < t then faultPass s p stTimeout (timeoutPayload 3 a t) else s
    | _ => s

/-- The body of a COUNTER BARRIER: counter address, arrive and wait values; its wait has not begun. -/
def barrierBody (f : Fetched) : Body :=
  .barrier (field f.desc 24 8) (BitVec.ofNat 64 (field f.desc 32 8)) (BitVec.ofNat 64 (field f.desc 40 8)) false 0 0 none

/-- The check of a COUNTER BARRIER: counter_addr is 8-B aligned (Table 13.6). -/
def barrierCheck (_ : State) (_ : Ctx) (f : Fetched) : Option Deny :=
  if field f.desc 24 8 % 8 != 0 then some (denyField f stDesc 24) else none

/-- Whether a fetched descriptor is a BARRIER of a scope. -/
def isBarrier (scope : Nat) (f : Fetched) : Bool := dOpcode f.desc == opBarrier && field f.desc 16 1 == scope

/-- BARRIER_COUNTER (R454). -/
def execBarrierCounter (ctx : BitVec 12) (ring : BitVec 4) (now : U64) (s : State) : Host.Outcome State Fault Refusal :=
  .next (admitWith (atTime s now) ctx.toNat ring.toNat (isBarrier 0) barrierCheck fun s f =>
    let slot := freeSlot s
    barrierArrive (admitBody s ctx.toNat ring.toNat f (barrierBody f)) slot)

/-- BARRIER_POLL (R454). -/
def execBarrierPoll (pass : Byte) (now : U64) (s : State) : Host.Outcome State Fault Refusal :=
  .next (barrierPoll (atTime s now) pass.toNat)

/-- BARRIER_TIMEOUT (R454). -/
def execBarrierTimeout (pass : Byte) (now : U64) (s : State) : Host.Outcome State Fault Refusal :=
  .next (barrierTimeout (atTime s now) pass.toNat)

end Sys2Proof.Machine
end

