-- ==== Sys2Proof/Machine/Fold.lean ====
section
/-! DEFINITION. The fold (R152 to R180): home slices, pens, blocks and the pen cache, which pen is handed over, settling, eviction. -/
namespace Sys2Proof.Machine

/-! ## Slices and blocks -/

/-- The home slice of a node address (R40). -/
def homeSlice (a : Nat) : Nat := bitsOf a 8 7 ^^^ bitsOf a 10 9 ^^^ bitsOf a 12 11 ^^^ bitsOf a 14 13

/-- Whether a slice is above high water (R171). -/
def aboveHigh (s : State) (q : Nat) : Bool := s.regs.highWater.toNat * shareBlocks s < 8 * blocksUsed (sliceOf s q)

/-- The walk of a SEARCH or a TRACE. -/
def passWalk (p : Pass) : Option Walk := match p.body with | .search b => some b.walk | .trace b => some b.walk | _ => none

/-- A pass with its walk changed. -/
def modWalk (f : Walk → Walk) (p : Pass) : Pass :=
  match p.body with
  | .search b => { p with body := .search { b with walk := f b.walk } }
  | .trace b => { p with body := .trace { b with walk := f b.walk } }
  | _ => p

/-- Whether a pass has a batch still awaiting admission. -/
def awaiting (s : State) (slot : Nat) : Bool :=
  match (passOf s slot).bind passWalk with
  | some w => w.next < w.count || !w.evicted.isEmpty
  | none => false

/-! ## Items -/

/-- The item of a pass with an index. -/
def itemOf (s : State) (pass index : Nat) : Option Item := s.fold.items.find? fun i => i.pass == pass && i.index == index

/-- The state with an item changed. -/
def modItem (s : State) (pass index : Nat) (f : Item → Item) : State :=
  { s with fold := { s.fold with items := s.fold.items.map fun i => if i.pass = pass && i.index = index then f i else i } }

/-- The item that a record belongs to, when it is still of the record's admission (R172). -/
def itemFor (s : State) (pass index : Nat) (gen : U16) : Option Item := (itemOf s pass index).filter (·.gen == gen)

/-- A record or a scored key that a settle update waits for has been accepted (R161). -/
def settleAccept (s : State) (id : Nat) : State :=
  { s with fold := { s.fold with settles := s.fold.settles.map fun x => if x.id = id then { x with waiting := x.waiting - 1 } else x } }

/-! ## Pens -/

/-- Whether a record belongs into a pen (R157): the key (context, space, kind, class, target address). -/
def keyMatch (c : Nat) (cls : BitVec 2) (r : Record) (p : Pen) : Bool :=
  p.ctx == c && p.inMemory == r.inMemory && p.trace == r.trace && p.cls == cls && p.target == r.target

/-- The lowest number from lo that no pen of a list holds as its position. -/
def freePosition (ps : List Pen) (lo : Nat) : Nat :=
  ((List.range (ps.length + 1)).map (lo + ·)).find? (fun n => ps.all (·.position != n)) |>.getD lo

/-- An open pen closed: it moves to the ready list, ranked after the pens closed before it (R158, R159). -/
def closePen (sl : Slice) (p : Pen) : Slice :=
  { sl with openPens := sl.openPens.filter (·.position != p.position),
            ready := sl.ready ++ [{ p with position := freePosition sl.ready 32768 }] }

/-- The block of a pen that its next record goes into: the last one, while a place after those it uses is free. -/
def openBlock (p : Pen) : Option Block := p.blocks.getLast?.filter fun b => b.top < 8

/-- Whether a record needs a block that its slice has not yet given its pen. -/
def needsBlock (sl : Slice) (c : Nat) (cls : BitVec 2) (r : Record) : Bool :=
  match sl.openPens.find? (keyMatch c cls r) with
  | some p => (openBlock p).isNone
  | none => true

/-- A pen with a record at the next free place of its block n, or at the first place of block n as a new one. -/
def Pen.put (p : Pen) (n : Nat) (r : Record) : Pen :=
  if p.blocks.any (·.number == n) then p.modBlock n fun b => { b with recs := b.recs ++ [(b.top, r)] }
  else { p with blocks := p.blocks ++ [⟨n, [(0, r)]⟩] }

/-- A new pen for a record, in its block n. -/
def newPen (sl : Slice) (c : Nat) (cls : BitVec 2) (now : U64) (n : Nat) (r : Record) : Pen :=
  { ctx := c, inMemory := r.inMemory, trace := r.trace, cls := cls, target := r.target, number := r.number, leaf := r.leaf,
    position := freePosition sl.openPens 0, openedAt := now, aged := false, blocks := [⟨n, [(0, r)]⟩] }

/-- A slice with a record put into block n of its open pen of the record's key, closed at 64 records, or into a new pen; a full
directory first closes its oldest open pen (R157 to R159). -/
def putRecord (sl : Slice) (c : Nat) (cls : BitVec 2) (now : U64) (n : Nat) (r : Record) : Slice :=
  match sl.openPens.find? (keyMatch c cls r) with
  | some p =>
    let p' := p.put n r
    let sl := { sl with openPens := sl.openPens.map fun q => if q.position = p.position then p' else q }
    if p'.fill ≥ 64 then closePen sl p' else sl
  | none =>
    let sl := if 32768 ≤ sl.openPens.length then (match sl.openPens.head? with | some o => closePen sl o | none => sl) else sl
    { sl with openPens := sl.openPens ++ [newPen sl c cls now n r] }

/-- The block that a record goes into: its pen's open block, or the lowest free one of the share. -/
def blockFor (sl : Slice) (c : Nat) (cls : BitVec 2) (r : Record) : Nat :=
  match (sl.openPens.find? (keyMatch c cls r)).bind openBlock with
  | some b => b.number
  | none => lowestFree sl.inUse

/-- A record placed in slice q (R152, R153, R157): its block is written in the pen cache. -/
def placeRecord (s : State) (q c : Nat) (cls : BitVec 2) (r : Record) : State :=
  let n := blockFor (sliceOf s q) c cls r
  modSlice (touchBlock s q n) q fun sl => putRecord sl c cls s.time n r

/-! ## Eviction (R79, R172) -/

/-- Whether an index lies in a batch. -/
def inBatch (b : Batch) (i : Nat) : Bool := b.first ≤ i && i < b.first + b.count

/-- Every record, item entry, candidate, settle update and scored key of the items of a batch discarded, in every slice. -/
def dropBatch (f : Fold) (pass : Nat) (b : Batch) : Fold :=
  let keep := fun (r : Record) => !(r.pass == pass && inBatch b r.item)
  { f with slices := f.slices.map (thinSlice keep), items := f.items.filter fun i => !(i.pass == pass && inBatch b i.index),
           arrivals := f.arrivals.filter keep, settles := f.settles.filter fun x => !(x.pass == pass && inBatch b x.item),
           scored := f.scored.filter fun x => !(x.pass == pass && inBatch b x.item) }

/-- A batch evicted: its items start again from the root when it is admitted again, under the next generation. -/
def evictBatch (s : State) (pass : Nat) (b : Batch) (rest : List Batch) : State :=
  let s := { s with fold := dropBatch s.fold pass b }
  modPass s pass (modWalk fun w =>
    { w with batches := rest, evicted := w.evicted ++ [{ b with gen := w.gen + 1 }], gen := w.gen + 1,
             retired := w.retired.filter fun r => !inBatch b r.index })

/-- Steps 2 and 3 of R79: the admitted batch with the highest first index, other than that of the lowest unplaced item; when that one
alone is left, the upper half of its unplaced items, of an odd number the smaller half (log entry 87). -/
def evictOf (s : State) (pass : Nat) (w : Walk) : Option State :=
  let low := w.batches.find? (inBatch · w.placed)
  let others := w.batches.filter fun b => some b != low
  match bestBy (fun a b => b.first < a.first) others, low with
  | some b, _ => some (evictBatch s pass b (w.batches.filter (· != b)))
  | none, some b =>
    let m := b.first + b.count - w.placed
    let h := m / 2
    if h = 0 then none
    else
      let keep := { b with count := b.count - h }
      some (evictBatch s pass { b with first := b.first + b.count - h, count := h }
        (w.batches.map fun x => if x = b then keep else x))
  | none, none => none

/-- When a pass's most recently admitted batch was admitted. -/
def newestBatch (w : Walk) : Nat := (w.batches.map (·.order)).foldl max 0

/-- The passes with records in a slice, the one with the most recently admitted batch first (R172). -/
def evictOrder (s : State) (q : Nat) : List Nat :=
  let ps := ((sliceOf s q).pens.flatMap (·.records)).map (·.pass)
  let cand := s.passes.filterMap fun p => if p.slot ∈ ps then (passWalk p).map fun w => (p.slot, newestBatch w) else none
  (sortBy (fun a b => decide (b.2 ≤ a.2)) cand).map (·.1)

/-- One eviction for a slice with no free block: within the first pass of R172 that still has more than one unplaced item (R173). -/
def evictFor (s : State) (q : Nat) : Option State :=
  (evictOrder s q).findSome? fun slot => ((passOf s slot).bind passWalk).bind (evictOf s slot)

/-- Evictions until a slice has a free block, at most n of them. -/
def makeRoom (q : Nat) : Nat → State → State
  | 0, s => s
  | n + 1, s => if blocksUsed (sliceOf s q) < shareBlocks s then s else
      match evictFor s q with
      | some s => makeRoom q n s
      | none => s

/-! ## RECORD_ACCEPT -/

/-- A record that reached its home slice is taken off the way. -/
def dropArrival (s : State) (r : Record) : State := { s with fold := { s.fold with arrivals := dropFirst (· == r) s.fold.arrivals } }

/-- The records of the pen that a record joins in slice q, poisoned: its directory entry was read with a double-bit error (R154, log
entry 88). -/
def poisonPen (s : State) (q c : Nat) (cls : BitVec 2) (r : Record) : State :=
  let bad := fun (b : Block) => { b with recs := b.recs.map fun x => (x.1, { x.2 with poison := true }) }
  let f := fun (p : Pen) => if keyMatch c cls r p then { p with blocks := p.blocks.map bad } else p
  modSlice s q fun sl => { sl with openPens := sl.openPens.map f }

/-- A record accepted by slice q, or discarded: of a pass cancelled or gone (R177), or of a batch evicted since (R172). ecc is what the
read of its pen's directory entry reports. -/
def acceptRecord (s : State) (q : Nat) (ecc : Ecc) (r : Record) : State :=
  match passOf s r.pass with
  | none => dropArrival s r
  | some p =>
    if p.cancelAt.isSome then dropArrival s r
    else
      let s := if needsBlock (sliceOf s q) p.ctx p.cls r then makeRoom q 4096 s else s
      if (itemFor s r.pass r.item r.gen).isNone then settleAccept (dropArrival s r) r.settle
      else if needsBlock (sliceOf s q) p.ctx p.cls r && shareBlocks s ≤ blocksUsed (sliceOf s q) then s
      else
        let s := settleAccept (dropArrival s r) r.settle
        let bad := ecc == .double && (sliceOf s q).openPens.any (keyMatch p.ctx p.cls r)
        let s := if bad then poisonPen s q p.ctx p.cls r else s
        placeRecord s q p.ctx p.cls { r with settle := 0, poison := r.poison || bad }

/-- RECORD_ACCEPT (R157): the oldest record on its way to a slice. -/
def execRecordAccept (read : SliceRead) (now : U64) (s : State) : Host.Outcome State Fault Refusal :=
  .next (let s := atTime s now
    match s.fold.arrivals.find? fun r => homeSlice r.target == read.slice.toNat with
    | some r => acceptRecord (countEcc s read.ecc) read.slice.toNat read.ecc r
    | none => s)

/-! ## PEN_AGE_LIMIT -/

/-- Whether a pen's age, since its first record was placed, is at least age_limit (R163, R164). -/
def isAged (s : State) (p : Pen) : Bool := s.regs.ageLimit.toNat * 10 ≤ (s.time - p.openedAt).toNat

/-- The pens of slice q marked by whether their age has reached age_limit, as it now stands (R163). -/
def ageSlice (s : State) (q : Nat) : State :=
  let f := fun (p : Pen) => { p with aged := isAged s p }
  modSlice s q fun sl => { sl with openPens := sl.openPens.map f, ready := sl.ready.map f }

/-- PEN_AGE_LIMIT (R164): the open pens of a slice whose age has reached age_limit are eligible. -/
def execPenAgeLimit (slice : BitVec 2) (now : U64) (s : State) : Host.Outcome State Fault Refusal :=
  .next (ageSlice (atTime s now) slice.toNat)

/-- Every slice's pens marked for a dispatch decision (R163). -/
def ageSlices (s : State) : State := (List.range 4).foldl ageSlice s

/-! ## The choice of a pen (R164 to R166) -/

/-- Whether a pen is on the ready list of a slice. -/
def isReady (sl : Slice) (p : Pen) : Bool := sl.ready.any (·.position == p.position)

/-- Whether a pen of slice q is eligible (R164), its age marked for this decision. -/
def eligible (s : State) (q : Nat) (p : Pen) : Bool :=
  isReady (sliceOf s q) p || s.regs.holdFill.toNat ≤ p.fill || p.aged || p.records.all (fun r => !awaiting s r.pass) || aboveHigh s q

/-- The rank of a class among pens (R165): DEADLINE, BULK, BACKGROUND. -/
def penRank (c : BitVec 2) : Nat := if c = 1 then 0 else if c = 0 then 1 else 2

/-- The first difference of two lists of ranks, the lower first. -/
def rankLess (a b : List Nat) : Bool :=
  match (a.zip b).find? fun x => x.1 != x.2 with
  | some x => decide (x.1 < x.2)
  | none => false

/-- The rank of a pen under step 2 of R165, where its slice is above high water: leaf pens first, the rest by target_number, the
highest first; then step 4. -/
def pressureRank (p : Pen) : List Nat := if p.leaf then [0, 0, p.position] else [1, 2 ^ 64 - p.number, p.position]

/-- The rank of a pen under step 3 of R165: aged pens oldest first, then the fullest, the oldest of equal fill; then step 4. -/
def fillRank (s : State) (p : Pen) : List Nat :=
  let young := 2 ^ 64 - (s.time - p.openedAt).toNat
  if p.aged then [0, young, p.position] else [1, 64 - p.fill, young, p.position]

/-- Whether pen a goes before pen b under steps 2 to 4 of R165; high: their slice is above high water. -/
def penBefore (s : State) (high : Bool) (a b : Pen) : Bool :=
  if high then rankLess (pressureRank a) (pressureRank b) else rankLess (fillRank s a) (fillRank s b)

/-- The eligible pen that slice q hands to a core that serves context c (R165). -/
def choosePen (s : State) (q c : Nat) : Option Pen :=
  let e := (sliceOf s q).pens.filter fun p => p.ctx == c && eligible s q p
  let top := (e.map fun p => penRank p.cls).foldl min 3
  bestBy (penBefore s (aboveHigh s q)) (e.filter fun p => penRank p.cls == top)

/-- The slices in the order in which a core of quadrant q asks them (R166). -/
def askOrder (q : Nat) : List Nat := (List.range 4).map fun i => (q + i) % 4

/-- The pen that a core of quadrant q serving context c takes, with its slice (R166): an eligible one, else the oldest open one. -/
def findPen (s : State) (quad c : Nat) : Option (Nat × Pen) :=
  ((askOrder quad).findSome? fun q => (choosePen s q c).map (q, ·)).orElse fun _ =>
    (askOrder quad).findSome? fun q => ((sliceOf s q).openPens.find? (·.ctx == c)).map (q, ·)

/-- A pen taken from its slice, with its blocks. -/
def takePen (sl : Slice) (p : Pen) : Slice :=
  { sl with openPens := sl.openPens.filter (·.position != p.position), ready := sl.ready.filter (·.position != p.position) }.trim

/-- The blocks of a pen of slice q that were written out, read back for its delivery (R153). -/
def recallPen (s : State) (q : Nat) (p : Pen) : State := (p.blocks.map (·.number)).foldl (fun s n => blockBack s q n) s

/-- The pen of a position as its slice holds it now. -/
def penAt (s : State) (q : Nat) (p : Pen) : Pen := ((sliceOf s q).pens.find? (·.position == p.position)).getD p

/-- The records of a pen as its delivery reads them: a double-bit error in its directory entry poisons all, one in a record that
record (R154). -/
def readPen (u : FoldUpset) (p : Pen) : List Record :=
  match u with
  | .directory true => p.records.map fun r => { r with poison := true }
  | .record n true => (p.records.zipIdx).map fun x => if x.2 = n then { x.1 with poison := true } else x.1
  | _ => p.records

/-- What an upset of the fold's arrays counts as. -/
def upsetEcc : FoldUpset → Ecc
  | .none => .ok
  | .directory d => if d then .double else .single
  | .record _ d => if d then .double else .single
  | .item _ d => if d then .double else .single

/-- The item-table entry of the n-th record of a delivery poisoned, where a double-bit error met it (R154, R180). -/
def poisonItem (s : State) (u : FoldUpset) (rs : List Record) : State :=
  match u with
  | .item n true => (match rs[n]? with
    | some r => { s with fold := { s.fold with items := s.fold.items.map fun i =>
        if i.pass = r.pass && i.index = r.item && i.gen = r.gen then { i with poison := true } else i } }
    | none => s)
  | _ => s

/-- The counters of a delivery (Table 16.11, R169): records, pens, pens delivered by age, pens handed across slices. -/
def countDelivery (s : State) (q quad : Nat) (p : Pen) (aged : Bool) : State :=
  let s := count (count s (16 + 5 * q) p.fill) (17 + 5 * q)
  let s := if aged then count s (18 + 5 * q) else s
  if q = quad then s else count s (19 + 5 * q)

/-! ## Settling -/

/-- A settle update formed for a record that emitted some records and scored some keys (R161); updates number from 1, and a root record
belongs to none (0). -/
def formSettle (s : State) (r : Record) (out : List Record) (sc : List Scored) : State :=
  let id := s.fold.nextSettle + 1
  { s with fold := { s.fold with
      nextSettle := id, arrivals := s.fold.arrivals ++ out.map (fun (x : Record) => { x with settle := id }),
      scored := s.fold.scored ++ sc.map (fun (x : Scored) => { x with settle := id }),
      settles := s.fold.settles ++ [⟨id, r.pass, r.item, r.gen, out.length, out.length + sc.length⟩] } }

end Sys2Proof.Machine
end

