-- ==== Sys2Proof/Machine/Alu.lean ====
section
/-! DEFINITION. The arithmetic of the V0, V1 and S slots (Table 8.1, R404 to R409) and the fixed latencies of Table 8.1. The
manual names operation classes and no numbers; log entry 4 says what the model takes each operation to be. -/
namespace Sys2Proof.Machine

/-! ## Values of a format in a register -/

/-- A register read as a value of a format, widened exactly (R404). -/
def widenReg (f : NumFmt) (v : U32) : U32 :=
  match f with
  | .fp32 => v
  | .bf16 => ofBf16 (v.setWidth 16)
  | .fp16 => ofFp16 (v.setWidth 16)
  | .e4m3 => ofE4m3 (v.setWidth 8)
  | .e5m2 => ofE5m2 (v.setWidth 8)
  | .int8 => ofInt8 (v.setWidth 8)
  | .ue8 => ofUe8 (v.setWidth 8)
  | .uq8 => Config.uq8Widen (v.setWidth 8)

/-- An FP32 value narrowed to a format (R405 to R407), in the low bits of a register; a NaN takes the canonical form (R408). -/
def narrowReg (f : NumFmt) (a : U32) : U32 :=
  match f with
  | .fp32 => if isNan a then nan32 else a
  | .bf16 => (toBf16 a).setWidth 32
  | .fp16 => (toFp16 a).setWidth 32
  | .e4m3 => (toE4m3 a).setWidth 32
  | .e5m2 => (toE5m2 a).setWidth 32
  | .int8 => (toInt8 a).setWidth 32
  | .ue8 => (toUe8 a).setWidth 32
  | .uq8 => a

/-- The binary format of a V-slot floating-point operation, when it is one of the 16-bit ones, with its canonical NaN (R408). -/
def halfFmt (f : NumFmt) : Option (FloatFmt × Nat) :=
  match f with
  | .bf16 => some (fmtBf16, 0x7FC0)
  | .fp16 => some (fmt16, 0x7E00)
  | _ => none

/-- The value i × 2^−s rounded once into a 16-bit format (R409); an exact zero takes the sign zneg. -/
def roundHalf (f : FloatFmt) (m : Rm) (i : Int) (s : Nat) (zneg : Bool) : U32 :=
  let neg := if i = 0 then zneg else decide (i < 0)
  BitVec.ofNat 32 (roundQ f m neg i.natAbs (2 ^ s) + if neg then 2 ^ 15 else 0)

/-- A 16-bit operation: its exact value rounded once when it is finite; infinite, NaN and zero results follow the FP32 form, whose
narrowing is exact there. -/
def halfOp (f : FloatFmt) (nan : Nat) (m : Rm) (finite : Bool) (i : Int) (s : Nat) (full : U32) : U32 :=
  if finite && i != 0 then roundHalf f m i s false else (narrow16 f nan full).setWidth 32

/-- Addition in a format. -/
def addFmt (f : NumFmt) (m : Rm) (a b : U32) : U32 :=
  let x := widenReg f a
  let y := widenReg f b
  match halfFmt f with
  | some (g, nan) => halfOp g nan m (isFin x && isFin y) (fx x + fx y) 149 (fadd m x y)
  | none => narrowReg f (fadd m x y)

/-- Multiplication in a format. -/
def mulFmt (f : NumFmt) (m : Rm) (a b : U32) : U32 :=
  let x := widenReg f a
  let y := widenReg f b
  match halfFmt f with
  | some (g, nan) => halfOp g nan m (isFin x && isFin y) (fx x * fx y) 298 (fmul m x y)
  | none => narrowReg f (fmul m x y)

/-- Fused multiply-add in a format, rounded once (R409). -/
def fmaFmt (f : NumFmt) (m : Rm) (a b c : U32) : U32 :=
  let x := widenReg f a
  let y := widenReg f b
  let z := widenReg f c
  match halfFmt f with
  | some (g, nan) =>
    halfOp g nan m (isFin x && isFin y && isFin z) (fx x * fx y + fx z * (2 ^ 149 : Nat)) 298 (ffma m x y z)
  | none => narrowReg f (ffma m x y z)

/-! ## V slots -/

/-- Whether a comparison holds; FP32 comparisons are of real values, false on a NaN. -/
def cmpHolds (k : Cmp) (t : CmpType) (a b : U32) : Bool :=
  match t, k with
  | .signed, .eq => a == b
  | .signed, .lt => decide (a.toInt < b.toInt)
  | .signed, .le => decide (a.toInt ≤ b.toInt)
  | .unsigned, .eq => a == b
  | .unsigned, .lt => decide (a.toNat < b.toNat)
  | .unsigned, .le => decide (a.toNat ≤ b.toNat)
  | .fp32, .eq => feq a b
  | .fp32, .lt => flt a b
  | .fp32, .le => fle a b

/-- A 32-bit shift; by 32 or more, a value the manual does not state. -/
def shift32 (f : Nat → Nat → Nat) (a b : U32) : U32 :=
  if b.toNat < 32 then BitVec.ofNat 32 (f a.toNat b.toNat) else (Config.shiftWide (a.setWidth 64) (b.setWidth 64)).setWidth 32

/-- An arithmetic right shift. -/
def sar32 (a b : U32) : U32 :=
  if b.toNat < 32 then a.sshiftRight b.toNat else (Config.shiftWide (a.setWidth 64) (b.setWidth 64)).setWidth 32

/-- The value of a V operation that writes a vector register, but for a permute. -/
def vEval (op : VOp) (a b c : U32) : U32 :=
  match op with
  | .iadd => a + b
  | .iand => a &&& b
  | .ior => a ||| b
  | .ixor => a ^^^ b
  | .shl => shift32 (fun x n => x <<< n) a b
  | .shr => shift32 (fun x n => x >>> n) a b
  | .sar => sar32 a b
  | .mov => a
  | .select => if c = 0 then b else a
  | .fadd f m => addFmt f m a b
  | .fmul f m => mulFmt f m a b
  | .fma f m => fmaFmt f m a b c
  | .fmin f => narrowReg f (fmin (widenReg f a) (widenReg f b))
  | .fmax f => narrowReg f (fmax (widenReg f a) (widenReg f b))
  | .cvt d s => narrowReg d (widenReg s a)
  | .recip m => fdiv m 0x3F800000 a
  | .div m => fdiv m a b
  | .sqrt m => fsqrt m a
  | .cmp k t => if cmpHolds k t a b then 1 else 0
  | .permute => a

/-- Whether a V operation uses a format the manual gives its class: FP32, FP16 and BF16 for arithmetic (Table 8.1), no conversion
to UQ8 (R407). -/
def vDefined (op : VOp) : Bool :=
  let ar := fun (f : NumFmt) => f == .fp32 || f == .fp16 || f == .bf16
  match op with
  | .fadd f _ => ar f
  | .fmul f _ => ar f
  | .fma f _ => ar f
  | .fmin f => ar f
  | .fmax f => ar f
  | .cvt d _ => d != .uq8
  | _ => true

/-- How many of the sources a, b, c a V operation reads. -/
def vArity (op : VOp) : Nat :=
  match op with
  | .mov => 1
  | .cvt _ _ => 1
  | .recip _ => 1
  | .sqrt _ => 1
  | .select => 3
  | .fma _ _ => 3
  | _ => 2

/-! ## The S slot -/

/-- A 64-bit shift; by 64 or more, a value the manual does not state. -/
def shift64 (f : Nat → Nat → Nat) (a b : U64) : U64 :=
  if b.toNat < 64 then BitVec.ofNat 64 (f a.toNat b.toNat) else Config.shiftWide a b

/-- The value of an S operation. -/
def sEval (op : SOp) (a b : U64) : U64 :=
  let f := fun (g : U32 → U32 → U32) => (g (a.setWidth 32) (b.setWidth 32)).setWidth 64
  match op with
  | .iadd => a + b
  | .iand => a &&& b
  | .ior => a ||| b
  | .ixor => a ^^^ b
  | .shl => shift64 (fun x n => x <<< n) a b
  | .shr => shift64 (fun x n => x >>> n) a b
  | .mov => a
  | .fadd m => f (fadd m)
  | .fmul m => f (fmul m)
  | .fmin => f fmin
  | .fmax => f fmax

/-- How many of the sources an S operation reads. -/
def sArity (op : SOp) : Nat := match op with | .mov => 1 | _ => 2

/-! ## Fixed latencies (Table 8.1) -/

/-- The column of a group: the F1 column for an F1-class group (R264, R265), else that of its width. -/
def latCol (w : Nat) (f1 : Bool) (a b c d : Nat) : Nat := if f1 then d else if w = 16 then a else if w = 32 then b else c

/-- The latency of a V operation. -/
def vLat (op : VOp) (w : Nat) (f1 : Bool) : Nat :=
  match op with
  | .recip _ => latCol w f1 16 8 4 6
  | .div _ => latCol w f1 16 8 4 6
  | .sqrt _ => latCol w f1 16 8 4 6
  | .cmp _ _ => latCol w f1 4 3 2 2
  | .permute => latCol w f1 8 5 3 3
  | .fadd _ _ => latCol w f1 4 2 1 2
  | .fmul _ _ => latCol w f1 4 2 1 2
  | .fma _ _ => latCol w f1 4 2 1 2
  | .fmin _ => latCol w f1 4 2 1 2
  | .fmax _ => latCol w f1 4 2 1 2
  | .cvt _ _ => latCol w f1 4 2 1 2
  | _ => latCol w f1 2 1 1 1

/-- The latency of an S operation. -/
def sLat (op : SOp) (w : Nat) (f1 : Bool) : Nat :=
  match op with
  | .fadd _ => latCol w f1 4 2 1 2
  | .fmul _ => latCol w f1 4 2 1 2
  | .fmin => latCol w f1 4 2 1 2
  | .fmax => latCol w f1 4 2 1 2
  | _ => 1

/-- The latency of a LOCAL load. -/
def loadLat (w : Nat) (f1 : Bool) : Nat := latCol w f1 6 3 2 3

/-- The latency of a B operation; dims is the d of an inner-product bound. -/
def bLat (op : BOp) (w : Nat) (f1 : Bool) : Nat :=
  match op with
  | .rayBox => latCol w f1 8 4 2 3
  | .innerProduct d8 => d8.toNat + latCol w f1 12 6 3 4

/-- The latency of a P operation. -/
def pLat (w : Nat) (f1 : Bool) : Nat := latCol w f1 24 12 6 8

end Sys2Proof.Machine
end

