-- ==== Sys2Proof/Machine/Trees.lean ====
section
/-! DEFINITION. Last nodes as bytes and the arithmetic of the bound unit: frames and codes (R92, R93, R99), the inner-product
bound (R61), the ray–box test (R122 to R124), full-key records and scores (R57, R97). -/
namespace Sys2Proof.Machine

/-! ## Inner-product nodes -/

/-- The stride of an inner-product node (R86). -/
def ipStride (d : Nat) : Nat := 128 + 16 * d

/-- First frame byte of level k: 2^(k+1) − k − 2 (R92). -/
def frameBase (k : Nat) : Nat := 2 ^ (k + 1) - k - 2

/-- Level and position of a frame byte, none for a reserved one (R92, Table 3.3). -/
def frameOf (f : Nat) : Option (Nat × Nat) :=
  ((List.range 7).find? fun k => frameBase k ≤ f && f < frameBase (k + 1)).map fun k => (k, f - frameBase k)

/-- The lower bound that a code decodes to under frame byte (k, p) and range_exp e (R93); exact in FP32. -/
def codeLo (e : Int) (k p c : Nat) : U32 :=
  ofIntExp .rn (128 * p + c - (2 ^ (k + 7) : Nat) : Int) (e - k - 7)

/-- The upper bound that a code decodes to (R93). -/
def codeHi (e : Int) (k p c : Nat) : U32 :=
  ofIntExp .rn (128 * p + c + 1 - (2 ^ (k + 7) : Nat) : Int) (e - k - 7)

/-- Child entry word j of an inner-product node (Table 3.1). -/
def ipWord (d : Nat) (nb : List Byte) (j : Nat) : Nat := field nb (64 + 16 * d + 8 * j + 4) 4

/-- r_max of child j. -/
def ipRmax (d : Nat) (nb : List Byte) (j : Nat) : U32 := BitVec.ofNat 32 (field nb (64 + 16 * d + 8 * j) 4)

/-- first_child of a node (Table 3.2). -/
def ipFirst (d : Nat) (nb : List Byte) : Nat := ipWord d nb 0
/-- leaf_children of a node. -/
def ipLeafKids (d : Nat) (nb : List Byte) : Bool := bitOf (ipWord d nb 1) 4
/-- child_count of a node; 9 to 15 are reserved. -/
def ipCount (d : Nat) (nb : List Byte) : Nat := bitsOf (ipWord d nb 1) 3 0

/-- Whether a node holds a reserved frame byte (R94). -/
def ipBadFrame (d : Nat) (nb : List Byte) : Bool := (List.range d).any fun i => (frameOf (nb.getD i 0).toNat).isNone

/-- The decoded box of child j on dimension i: lo_i and hi_i of R61. -/
def ipBox (d : Nat) (e : Int) (nb : List Byte) (j i : Nat) : U32 × U32 :=
  match frameOf (nb.getD i 0).toNat with
  | some (k, p) =>
    (codeLo e k p (nb.getD (64 + 2 * d * j + i) 0).toNat, codeHi e k p (nb.getD (64 + 2 * d * j + d + i) 0).toNat)
  | none => (ninf32, inf32)

/-- The inner-product bound from decoded boxes (R61): max of the directed products, the six-level tree, the residual term, σ.
A NaN becomes +∞ (R62). -/
def boundOf (boxes : List (U32 × U32)) (loc : List U32) (rmax rho sigma : U32) : U32 :=
  let p := (List.range 64).map fun i =>
    match boxes[i]?, loc[i]? with
    | some b, some q => fmax (fmul .ru q b.1) (fmul .ru q b.2)
    | _, _ => 0
  let s := treeSum .ru 6 p
  let b := fadd .ru (fadd .ru s (fmul .ru (fabs rho) rmax)) sigma
  if isNan b then inf32 else b

/-- The bound of child j of a node for a query (R61, R94): +∞ when the node holds a reserved frame byte. -/
def ipBound (d : Nat) (e : Int) (nb : List Byte) (j : Nat) (loc : List U32) (rho sigma : U32) : U32 :=
  if ipBadFrame d nb then inf32
  else boundOf ((List.range d).map (ipBox d e nb j)) loc (ipRmax d nb j) rho sigma

/-- Whether a node is a root with child_count 0: the tree is empty, and a pass over it completes OK (R83, R114; log entry 89). -/
def emptyRoot (n count : Nat) : Bool := n == 0 && count == 0

/-- Whether the children of node n are to be treated as absent (R94, R96). -/
def ipAbsent (d n nodes firstLeaf : Nat) (nb : List Byte) : Bool :=
  let f := ipFirst d nb
  let c := ipCount d nb
  c ≥ 9 || (!emptyRoot n c && (f ≤ n || f ≥ nodes || f + c > nodes || (ipLeafKids d nb && f < firstLeaf) ||
    (!ipLeafKids d nb && f + c > firstLeaf)))

/-- index_offset of slot s of a leaf (Table 3.4). -/
def leafOffset (d : Nat) (nb : List Byte) (s : Nat) : Nat := field nb (64 + 16 * d + 4 * s) 4

/-- The pruning threshold t = RD(best − Δ) (R63); −∞ while best is. -/
def pruneT (best delta : U32) : U32 := if best = ninf32 then ninf32 else fsub .rd best delta

/-- Whether a child of bound b is pruned (R63). -/
def pruned (b best delta : U32) : Bool := flt b (pruneT best delta)

/-! ## Geometric nodes -/

/-- step_exp of axis a (Table 3.6), as a signed integer. -/
def gStep (nb : List Byte) (a : Nat) : Int := toSigned 1 (nb.getD (12 + a) 0).toNat
/-- The frame origin of axis a. -/
def gOrigin (nb : List Byte) (a : Nat) : U32 := BitVec.ofNat 32 (field nb (4 * a) 4)
/-- leaf_children. -/
def gLeafKids (nb : List Byte) : Bool := bitOf (field nb 15 1) 4
/-- child_count. -/
def gCount (nb : List Byte) : Nat := bitsOf (field nb 15 1) 3 0
/-- first_child: a node number, or the first primitive slot of leaf children. -/
def gFirst (nb : List Byte) : Nat := field nb 16 4
/-- leaf_count of child j: its primitives less one. -/
def gLeafCount (nb : List Byte) (j : Nat) : Nat := bitsOf (field nb 20 2) (2 * j + 1) (2 * j)
/-- The first primitive slot of leaf child j (R98). -/
def gLeafSlot (nb : List Byte) (j : Nat) : Nat := gFirst nb + ((List.range j).map fun i => gLeafCount nb i + 1).sum

/-- Lower bound of code c under origin o and step exponent x: RD(o + c × 2^x) (R99). -/
def gLo (o : U32) (x : Int) (c : Nat) : U32 := fadd .rd o (ofIntExp .rn c x)
/-- Upper bound of code c: RU(o + (c + 1) × 2^x) (R99). -/
def gHi (o : U32) (x : Int) (c : Nat) : U32 := fadd .ru o (ofIntExp .rn (c + 1 : Nat) x)

/-- The decoded box of child j on axis a. -/
def gBox (nb : List Byte) (j a : Nat) : U32 × U32 :=
  (gLo (gOrigin nb a) (gStep nb a) (nb.getD (24 + 6 * j + a) 0).toNat,
   gHi (gOrigin nb a) (gStep nb a) (nb.getD (24 + 6 * j + 3 + a) 0).toNat)

/-- Whether a step_exp lies outside −120 to 100 (R125). -/
def gBadStep (nb : List Byte) : Bool := (List.range 3).any fun a => gStep nb a < -120 || gStep nb a > 100

/-- Whether the children of node n are treated as absent (R126). -/
def gAbsent (n nodes : Nat) (nb : List Byte) : Bool :=
  gCount nb ≥ 9 || (!emptyRoot n (gCount nb) && !gLeafKids nb && (gFirst nb ≤ n || gFirst nb + gCount nb > nodes))

/-! ## Rays (Table 4.2) -/

/-- Component a of the origin of a ray record's words. -/
def rayO (w : List U32) (a : Nat) : U32 := w.getD a 0
/-- Component a of the direction. -/
def rayD (w : List U32) (a : Nat) : U32 := w.getD (3 + a) 0
/-- t_min. -/
def rayTmin (w : List U32) : U32 := w.getD 6 0
/-- t_max. -/
def rayTmax (w : List U32) : U32 := w.getD 7 0

/-- The eight words of a ray record. -/
def rayWords (b : List Byte) : List U32 := (List.range 8).map fun i => BitVec.ofNat 32 (field b (4 * i) 4)

/-- Whether a ray is inert (R116). -/
def rayInert (w : List U32) : Bool :=
  (List.range 6).any (fun i => !isFin (w.getD i 0)) || (List.range 3).all (fun a => isZero (rayD w a)) ||
  isNan (rayTmin w) || isNan (rayTmax w) || flt (rayTmax w) (rayTmin w)

/-- RD(1 / d_a) and RU(1 / d_a) (R122). -/
def rayInv (w : List U32) (a : Nat) : U32 × U32 := (fdiv .rd 0x3F800000 (rayD w a), fdiv .ru 0x3F800000 (rayD w a))

/-- near_a and far_a of a box on one axis (R123). -/
def nearFar (w : List U32) (a : Nat) (box : U32 × U32) : U32 × U32 :=
  if isZero (rayD w a) then
    (if fle box.1 (rayO w a) && fle (rayO w a) box.2 then (ninf32, inf32) else (inf32, ninf32))
  else
    let nlo := fsub .rd box.1 (rayO w a)
    let nhi := fsub .ru box.2 (rayO w a)
    let inv := rayInv w a
    let lo := fun n v => let x := fmul .rd n v; if isNan x then ninf32 else x
    let hi := fun n v => let x := fmul .ru n v; if isNan x then inf32 else x
    (fmin (fmin (lo nlo inv.1) (lo nlo inv.2)) (fmin (lo nhi inv.1) (lo nhi inv.2)),
     fmax (fmax (hi nlo inv.1) (hi nlo inv.2)) (fmax (hi nhi inv.1) (hi nhi inv.2)))

/-- t_enter and t_exit of a child box from the visit's own (R124). -/
def boxTest (w : List U32) (boxes : List (U32 × U32)) (enter exit : U32) : U32 × U32 :=
  ((List.range 3).map fun a => nearFar w a (boxes.getD a (ninf32, inf32))).foldl
    (fun t nf => (fmax t.1 nf.1, fmin t.2 nf.2)) (enter, exit)

/-- The entry and exit of child j of a geometric node (R121 to R125): unchanged when the node is damaged. -/
def childSpan (w : List U32) (nb : List Byte) (damaged : Bool) (j : Nat) (enter exit : U32) : U32 × U32 :=
  if damaged || gBadStep nb then (enter, exit)
  else boxTest w ((List.range 3).map (gBox nb j)) enter exit

/-! ## Full keys and scores -/

/-- key_stride (Table 3.5). -/
def keyStride (fmt dims : Nat) : Nat := if fmt = 2 then 2 * dims else dims + ceilDiv dims 32

/-- Element i of a full-key record, widened; +0 at and beyond D (R57 step 1). -/
def keyElem (fmt dims : Nat) (r : List Byte) (i : Nat) : U32 :=
  if i ≥ dims then 0
  else if fmt = 0 then ofE4m3 (r.getD i 0)
  else if fmt = 1 then ofE5m2 (r.getD i 0)
  else ofBf16 (BitVec.ofNat 16 (field r (2 * i) 2))

/-- The scale code of block j of a record, 127 (the power 2^0) for BF16 (R57 step 4). -/
def keyScale (fmt dims : Nat) (r : List Byte) (j : Nat) : Nat := if fmt = 2 then 127 else (r.getD (dims + j) 0).toNat

/-- a × 2^e, rounded once. -/
def fscale (m : Rm) (a : U32) (e : Int) : U32 :=
  if !isFin a then (if isNan a then nan32 else a)
  else if isZero a then a
  else ofIntExp m (fx a) (e - 149)

/-- The result of one block of 32 products (R57 steps 2 to 4): a scale code of 0xFF makes it a NaN (R410). -/
def blockResult (prods : List U32) (eq ek : Nat) : U32 :=
  if eq = 0xFF || ek = 0xFF then nan32 else fscale .rn (treeSum .rn 5 prods) ((eq : Int) + ek - 254)

/-- The score of a key record against a query record (R57). -/
def scoreOf (fmt dims : Nat) (q k : List Byte) : U32 :=
  let c := (List.range (ceilDiv dims 32)).map fun j =>
    blockResult ((List.range 32).map fun i => fmul .rn (keyElem fmt dims q (32 * j + i)) (keyElem fmt dims k (32 * j + i)))
      (keyScale fmt dims q j) (keyScale fmt dims k j)
  match c with
  | [] => 0
  | c0 :: r => r.foldl (fadd .rn) c0

/-- The terms of the wide score of the awl's sweep (R419). -/
def wideTerms (fmt dims : Nat) (q k : List Byte) : List U32 :=
  (List.range dims).map fun i =>
    let eq := keyScale fmt dims q (i / 32)
    let ek := keyScale fmt dims k (i / 32)
    if eq = 0xFF || ek = 0xFF then nan32
    else fscale .rn (fmul .rn (keyElem fmt dims q i) (keyElem fmt dims k i)) ((eq : Int) + ek - 254)

/-- The sum of a list, rounded to nearest at each step. -/
def sumRn (l : List U32) : U32 :=
  match l with
  | [] => 0
  | a :: r => r.foldl (fadd .rn) a

/-- Whether a sum is not finite although all it adds is (R413). -/
def sumWild (l : List U32) : Bool := !isFin (sumRn l) && l.all isFin

end Sys2Proof.Machine
end

