-- ==== Sys2Proof/Machine/Matrix.lean ====
section
/-! DEFINITION. The matrix unit: the shape word (Table 7.10), the tiles an MMA reads and writes (R248, R254), its result (R249,
R250). -/
namespace Sys2Proof.Machine

/-- An MMA shape word (Table 7.10). -/
structure Shape where
  aStride : Nat
  bStride : Nat
  fmt     : Nat
  scaled  : Bool
  m       : Nat
  n       : Nat
  k       : Nat
  zero    : Bool
  deriving DecidableEq, Repr

/-- The fields of a shape word. -/
def shapeOf (w : U64) : Shape :=
  let v := w.toNat
  ⟨bitsOf v 63 48, bitsOf v 47 32, bitsOf v 25 23, bitOf v 22, 16 * (bitsOf v 21 20 + 1), 16 * (bitsOf v 19 18 + 1),
    16 * (bitsOf v 17 14 + 1), bitOf v 13⟩

/-- Whether a shape word is refused at load (R229, R254). -/
def shapeBad (w : U64) : Bool :=
  let v := w.toNat
  bitsOf v 31 26 != 0 || bitsOf v 12 0 != 0 || bitsOf v 25 23 ≥ 4 || (bitOf v 22 && bitsOf v 25 23 = 2)


/-- The bytes of a row of A or a column of B (R248). -/
def rowBytes (x : Shape) : Nat := (if x.fmt = 2 then 2 * x.k else x.k) + (if x.scaled then ceilDiv x.k 32 else 0)

/-- The first offset of n rows from base that lies at or beyond a limit. -/
def rowsBeyond (base stride rows len limit : Nat) : Option Nat :=
  (List.range rows).findSome? fun i =>
    let a := base + i * stride
    if limit < a + len then some (max a limit) else none

/-- The first offset of an MMA's tiles beyond the herd's local store (R254). -/
def mmaBeyond (x : Shape) (a b c limit : Nat) : Option Nat :=
  ((rowsBeyond a x.aStride x.m (rowBytes x) limit).orElse fun _ => rowsBeyond b x.bStride x.n (rowBytes x) limit).orElse
    fun _ => rowsBeyond c 0 1 (4 * x.m * x.n) limit

/-- The scale code of block j of a row, 127 without scaling (R249). -/
def rowScale (x : Shape) (r : List Byte) (j : Nat) : Nat := if x.scaled then (r.getD (x.k + j) 0).toNat else 127

/-- The block results of an element (R249, R57 steps 1 to 4). -/
def mmaBlocks (x : Shape) (ra rb : List Byte) : List U32 :=
  (List.range (ceilDiv x.k 32)).map fun j =>
    blockResult ((List.range 32).map fun i => fmul .rn (keyElem x.fmt x.k ra (32 * j + i)) (keyElem x.fmt x.k rb (32 * j + i)))
      (rowScale x ra j) (rowScale x rb j)

/-- The INT8 sum of an element (R250); 0x80 is read as −128 (R403). -/
def intDot (x : Shape) (ra rb : List Byte) : Int :=
  ((List.range x.k).map fun i => toSigned 1 (ra.getD i 0).toNat * toSigned 1 (rb.getD i 0).toNat).foldl (· + ·) 0

/-- One element of C from its old value (R249, R250). -/
def mmaElem (x : Shape) (ra rb : List Byte) (cin : U32) : U32 :=
  if x.fmt = 3 then (if x.zero then 0 else cin) + BitVec.ofInt 32 (intDot x ra rb)
  else
    let c := mmaBlocks x ra rb
    if x.zero then (match c with | [] => 0 | c0 :: r => r.foldl (fadd .rn) c0) else c.foldl (fadd .rn) cin

/-- n bytes of a herd's local store at an offset. -/
def herdBytes (h : Herd) (off n : Nat) : List Byte := (List.range n).map fun i => smGet 0 h.mem (off + i)

/-- A row of A or a column of B, in local store. -/
def tileRow (h : Herd) (x : Shape) (base stride i : Nat) : List Byte := herdBytes h (base + i * stride) (rowBytes x)

/-- The bytes of C that an MMA writes. -/
def mmaResult (h : Herd) (x : Shape) (a b c : Nat) : List Byte :=
  (List.range (x.m * x.n)).flatMap fun e =>
    natLe 4 (mmaElem x (tileRow h x a x.aStride (e / x.n)) (tileRow h x b x.bStride (e % x.n))
      (BitVec.ofNat 32 (leNat (herdBytes h (c + 4 * e) 4)))).toNat

/-- The lines of local store that an MMA reads. -/
def mmaLines (x : Shape) (a b c : Nat) : List Nat :=
  ((List.range x.m).flatMap fun i => localLines (a + i * x.aStride) (rowBytes x)) ++
  ((List.range x.n).flatMap fun j => localLines (b + j * x.bStride) (rowBytes x)) ++
  (if x.zero then [] else localLines c (4 * x.m * x.n))

end Sys2Proof.Machine
end

