-- ==== Sys2Proof/Machine/Atomics.lean ====
section
/-! DEFINITION. The arithmetic of atomics (Table 9.4, R308) and their combining over the threads of a bundle (R310 to R312). -/
namespace Sys2Proof.Machine

/-- The bytes of an atomic's word. -/
def atomBytes (wide : Bool) : Nat := if wide then 8 else 4

/-- One tree-combined operation on two words (Table 9.4, codes 0 to 10; R308). -/
def atomStep (op : Nat) (wide : Bool) (a b : Nat) : Nat :=
  let n := atomBytes wide
  let f := fun (g : U32 → U32 → U32) => (g (BitVec.ofNat 32 a) (BitVec.ofNat 32 b)).toNat
  if op = 0 then (a + b) % 2 ^ (8 * n)
  else if op = 1 then f (fadd .rn)
  else if op = 2 then (if toSigned n a ≤ toSigned n b then a else b)
  else if op = 3 then (if toSigned n a ≤ toSigned n b then b else a)
  else if op = 4 then min a b
  else if op = 5 then max a b
  else if op = 6 then f fmin
  else if op = 7 then f fmax
  else if op = 8 then a &&& b
  else if op = 9 then a ||| b
  else a ^^^ b

/-- One serial operation on a word (Table 9.4, codes 11 and 12): EXCH by its operand, CAS by its new value when the word equals
the compare value. -/
def atomSerial (op : Nat) (word : Nat) (x : Nat × Nat) : Nat :=
  if op = 11 then x.1 else if word = x.2 then x.1 else word

/-- Whether an operation combines serially. -/
def isSerial (op : Nat) : Bool := op ≥ 11

/-- One level of the fixed pairwise tree (R310). -/
def pairNat (f : Nat → Nat → Nat) : List Nat → List Nat
  | a :: b :: r => f a b :: pairNat f r
  | l => l

/-- Level n of the tree over a list. -/
def treeLevel (f : Nat → Nat → Nat) : Nat → List Nat → List Nat
  | 0, l => l
  | n + 1, l => treeLevel f n (pairNat f l)

/-- The root of the tree over at most 64 positions. -/
def treeRoot (f : Nat → Nat → Nat) (l : List Nat) : Nat := (treeLevel f 6 l).headD 0

/-- old with the tree nodes that partition positions 0 to j − 1 folded in, widest first (R311). -/
def prefixFold (f : Nat → Nat → Nat) (old : Nat) (l : List Nat) (j : Nat) : Nat :=
  ([6, 5, 4, 3, 2, 1, 0].foldl (fun (t : Nat × Nat) a =>
    if j.testBit a then (f t.1 ((treeLevel f a l).getD (t.2 / 2 ^ a) 0), t.2 + 2 ^ a) else t) (old, 0)).1

/-- The word after an atomic of a list of (operand a, operand b) in ascending thread order (R310, R312). -/
def atomNew (op : Nat) (wide : Bool) (old : Nat) (l : List (Nat × Nat)) : Nat :=
  if isSerial op then l.foldl (atomSerial op) old
  else atomStep op wide old (treeRoot (atomStep op wide) (l.map (·.1)))

/-- What position j of the list receives (R311, R312). -/
def atomOld (op : Nat) (wide : Bool) (old : Nat) (l : List (Nat × Nat)) (j : Nat) : Nat :=
  if isSerial op then (l.take j).foldl (atomSerial op) old
  else prefixFold (atomStep op wide) old (l.map (·.1)) j

end Sys2Proof.Machine
end

