-- ==== Sys2Proof/Machine/Ports.lean ====
section
/-! DEFINITION. The memory ports: the merge window (R378), the choice and issue of reads and writes (R371 to R377), the responses
(R490), what each consumer takes from them, and the faults they bring (R388 to R392). -/
namespace Sys2Proof.Machine

/-! ## The choice of a request -/

/-- The rank of a class at a port (R374): MGMT, DEADLINE, BULK, BACKGROUND. -/
def classRank (c : BitVec 2) : Nat := if c = 3 then 0 else if c = 1 then 1 else if c = 0 then 2 else 3

/-- The beats a burst moves. -/
def burstBeats (b : Burst) : Nat := if b.len = 0 then 0 else (b.addr % 64 + b.len - 1) / 64 + 1

/-- The class of a burst. -/
def burstClass (b : Burst) : BitVec 2 := (b.parts.head?.map (·.cls)).getD 0

/-- When a burst's first request formed. -/
def burstFormed (b : Burst) : Nat := (b.parts.head?.map (·.formed)).getD 0

/-- The tags that requests in flight hold (R371, R490). -/
def tagsIn (fs : List Flight) : List Nat := fs.flatMap fun f => (List.range f.beats).map fun k => (f.tag + k) % 2048

/-- The first of n tags in a row, modulo 2048, that are free in a direction (log entry 14). -/
def freeTags (fs : List Flight) (n : Nat) : Option Nat :=
  let used := tagsIn fs
  (List.range 2048).find? fun t => (List.range n).all fun k => !((t + k) % 2048 ∈ used)

/-- Whether no request formed earlier, and still to be issued at the port, must come first (R293). -/
def inOrder (p : Port) (b : Burst) : Bool :=
  b.parts.all fun r => p.waiting.all fun q => !(q.formed < r.formed && conflict r q)

/-- The stream of a request. -/
def streamOf (s : State) (r : Req) : Option Stream := s.streams.find? fun t => t.quad == r.quad && t.number == r.stream

/-- Whether a stream uses staging (Table 11.1). -/
def usesStaging (number : Nat) : Bool := number < 1536

/-- The staging slots of a fetch engine in use by the streams that p picks. -/
def slotsUsed (s : State) (quad : Nat) (p : Stream → Bool) : Nat :=
  ((s.streams.filter fun t => t.quad == quad && p t).map (·.slots.length)).sum

/-- Whether one more slot for a stream of a class, with n in its fetch engine, stays within the credits (R372, R376): its own
stream_slot_max, the 4096 slots of the fetch engine, and background_slot_max for BACKGROUND streams. -/
def slotRoom (s : State) (quad number : Nat) (cls : BitVec 2) (n : Nat) : Bool :=
  !usesStaging number ||
  (slotsUsed s quad (fun t => t.number == number) + 1 ≤ s.regs.streamSlotMax.toNat && slotsUsed s quad (fun _ => true) + n ≤ 4096 &&
   (cls != 2 || slotsUsed s quad (fun t => t.cls == 2) + n ≤ s.regs.bgSlotMax.toNat))

/-- The staged streams that a burst serves: it reserves one slot, which holds its 512-B block, for each (log entry 14). -/
def burstStreams (b : Burst) : List (Nat × Nat) :=
  ((b.parts.filter fun r => usesStaging r.stream).map fun r => (r.quad, r.stream)).eraseDups

/-- Whether the credits of R372 and R376 let a burst be issued, all its slots together. -/
def hasCredit (s : State) (b : Burst) : Bool :=
  let l := burstStreams b
  l.all fun k => slotRoom s k.1 k.2 (burstClass b) (l.filter (·.1 == k.1)).length

/-- The linear number of the XFER element a burst reads first. -/
def burstElem (b : Burst) : Option Nat :=
  (b.parts.filterMap fun r => match r.sink with | .xferRead e _ => some e | _ => none).min?

/-- Whether the reads of an XFER issue in ascending linear number (R386): no element below is still to be read. -/
def xferInOrder (s : State) (b : Burst) : Bool :=
  match burstElem b, b.parts.head? with
  | some e, some r => s.ports.all fun p => p.waiting.all fun q =>
      match q.sink with | .xferRead e' _ => q.pass != r.pass || e ≤ e' | _ => true
  | _, _ => true

/-- The dry time of a stream at fabric cycle t (R375). -/
def dryTime (t : Nat) (x : Stream) : Nat :=
  let k := ((x.taken.filter fun e => t < e.1 + 256).map (·.2)).sum
  let b := (x.slots.map (·.bytes)).sum
  if 1536 ≤ x.number || b = 0 then 0 else if k = 0 then 0xFFFFFFFF else 256 * b / k

/-- The dry time of the stream of a burst. -/
def burstDry (s : State) (t : Nat) (b : Burst) : Nat :=
  match b.parts.head? with
  | some r => (match streamOf s r with | some x => dryTime t x | none => 0)
  | none => 0

/-- The stream number of a burst. -/
def burstStream (b : Burst) : Nat := (b.parts.head?.map (·.stream)).getD 0

/-- Whether a read is ready (R371, R372): its tags and credits are there and nothing must come before it. -/
def readReady (s : State) (p : Port) (b : Burst) : Bool :=
  (freeTags p.outRd (burstBeats b)).isSome && inOrder p b && xferInOrder s b && hasCredit s b

/-- The order in which a port serves ready reads (R374 to R376): class, dry time, stream number, age. -/
def readBefore (s : State) (t : Nat) (a b : Burst) : Bool :=
  let ka := (classRank (burstClass a), burstDry s t a, burstStream a, burstFormed a)
  let kb := (classRank (burstClass b), burstDry s t b, burstStream b, burstFormed b)
  ka.1 < kb.1 || (ka.1 = kb.1 && (ka.2.1 < kb.2.1 || (ka.2.1 = kb.2.1 && (ka.2.2.1 < kb.2.2.1 ||
    (ka.2.2.1 = kb.2.2.1 && ka.2.2.2 < kb.2.2.2)))))

/-- The order in which a port serves ready writes (R377): class, then age. -/
def writeBefore (a b : Burst) : Bool :=
  classRank (burstClass a) < classRank (burstClass b) ||
  (classRank (burstClass a) = classRank (burstClass b) && burstFormed a < burstFormed b)

/-! ## Grants -/

/-- A burst as it goes into flight. -/
def takeOff (tag : Nat) (b : Burst) : Flight :=
  { tag := tag, beats := burstBeats b, left := (List.range (burstBeats b)).map fun k => (tag + k) % 2048, got := [], bad := [],
    burst := b, failed := false, dropped := false, orphan := false, masked := [], errored := false }

/-- A stream with the staging slots that a burst issued at a port under a first tag reserves: one for each pass it serves there (R368). -/
def streamIssue (port tag : Nat) (b : Burst) (t : Stream) : Stream :=
  let mine := b.parts.filter fun r => usesStaging r.stream && r.quad == t.quad && r.stream == t.number
  { t with slots := t.slots ++ (mine.map fun r => (r.pass, r.ctx)).eraseDups.map fun k =>
      ⟨k.1, k.2, port, tag, ((mine.filter (·.pass == k.1)).map (·.len)).sum⟩ }

/-- A stream whose read came back at fabric cycle c: its consumer takes the bytes at once, and the slots are returned. -/
def streamTake (c port tag : Nat) (t : Stream) : Stream :=
  let mine := fun (x : StagingSlot) => x.port == port && x.tag == tag
  let n := ((t.slots.filter mine).map (·.bytes)).sum
  if n = 0 then t
  else { t with slots := t.slots.filter (!mine ·), taken := (t.taken.filter fun e => c < e.1 + 256) ++ [(c, n)] }

/-- The request of a burst under a first tag (Table 15.5). -/
def burstWord (tag : Nat) (b : Burst) : BitVec 256 :=
  match b.parts.head? with
  | none => 0
  | some r =>
    let atomic := r.kind == .atomic
    eppRequestWord (match r.kind with | .read => 0 | .write => 1 | .atomic => 2) tag r.asid.toNat
      (if atomic then b.addr else b.addr / 64 * 64) (if atomic then 0 else burstBeats b - 1) r.cls.toNat r.atomicOp.toNat false
      (atomic && r.wide) r.opA.toNat r.opB.toNat

/-- The byte that a write burst puts at an address. -/
def burstByte (b : Burst) (a : Nat) : Option (Byte × Bool) :=
  (b.parts.find? fun r => r.addr ≤ a && a < r.addr + r.len).map fun r => (r.data.getD (a - r.addr) 0, r.poison)

/-- What a port presents for a burst: its request, then its write-data beats (R488). -/
def burstChannel (tag : Nat) (b : Burst) : Channel :=
  ⟨some (burstWord tag b), if b.parts.any (·.kind == .write) then writeBeats tag b.addr b.len (burstByte b) else []⟩

/-- The tags that complete when a port accepts a request: stores, and atomics without result, of flock or engine scope
(Table 9.1, R294). -/
def acceptTags (s : State) (rs : List Req) : State :=
  rs.foldl (fun s r => match r.sink with
    | .storeTag c sl t scope _ => if scope = 1 || scope = 2 then tagArrive s c sl t else s
    | .atomicRet c sl t _ ret scope _ => if !ret && (scope = 1 || scope = 2) then tagArrive s c sl t else s
    | _ => s) s

/-- One fabric cycle of a port's reads: the first ready read in the order of R374, if any, goes into flight. Each port chooses once in a
fabric cycle, so one that has chosen in the present cycle begins the next (log entry 15). -/
def grantRead (s : State) (port : Nat) : State :=
  let p := s.ports.getD port .reset
  let t := if p.cycle < s.fabric then s.fabric else s.fabric + 1
  let s := { s with fabric := t, ports := modAt s.ports port fun p => { p with cycle := t } }
  match bestBy (readBefore s t) (p.readyRd.filter (readReady s p)) with
  | none => s
  | some b =>
    match freeTags p.outRd (burstBeats b) with
    | none => s
    | some tag =>
      let s := { s with
        ports := modAt s.ports port fun p =>
          { p with readyRd := dropFirst (· == b) p.readyRd, outRd := p.outRd ++ [takeOff tag b], chan := burstChannel tag b },
        streams := s.streams.map (streamIssue port tag b) }
      acceptTags (count s (96 + 2 * port) b.len) b.parts

/-- A port's read grant; a parked port presents none (R517). -/
def portReadGrant (s : State) (port : Nat) : State := if s.pins.parked then s else grantRead s port

/-- One fabric cycle of a port's writes: the first ready write in the order of R377, if any, goes into flight. -/
def grantWrite (s : State) (port : Nat) : State :=
  let p := s.ports.getD port .reset
  match bestBy writeBefore (p.readyWr.filter fun b => (freeTags p.outWr (burstBeats b)).isSome && inOrder p b) with
  | none => s
  | some b =>
    match freeTags p.outWr (burstBeats b) with
    | none => s
    | some tag =>
      let s := { s with
        ports := modAt s.ports port fun p =>
          { p with readyWr := dropFirst (· == b) p.readyWr, outWr := p.outWr ++ [takeOff tag b], chan := burstChannel tag b } }
      let s := b.parts.foldl (fun s r => modPass s r.pass fun p => { p with wrote := true }) s
      acceptTags (count s (97 + 2 * port) b.len) b.parts

/-- A port's write grant; a parked port presents none (R517). -/
def portWriteGrant (s : State) (port : Nat) : State := if s.pins.parked then s else grantWrite s port

/-- The oldest burst of a port's merge stages leaves for its ready list (R378). -/
def mergeExpire (p : Port) : Port :=
  match p.mergeRd, p.mergeWr with
  | [], [] => p
  | b :: r, [] => { p with mergeRd := r, readyRd := p.readyRd ++ [b] }
  | [], b :: r => { p with mergeWr := r, readyWr := p.readyWr ++ [b] }
  | b :: r, c :: q =>
    if burstFormed b < burstFormed c then { p with mergeRd := r, readyRd := p.readyRd ++ [b] }
    else { p with mergeWr := q, readyWr := p.readyWr ++ [c] }

/-! ## Performing writes -/

/-- A write of bytes to the chip's memory but for the masked ones (R492). -/
def chipWriteMasked (c : Chip) (asid a : Nat) (b : List Byte) (poison : Bool) (masked : List Nat) : Chip :=
  if masked.isEmpty then chipWrite c asid a b poison
  else ((List.range b.length).filter fun i => !(memKey asid (a + i) ∈ masked)).foldl
    (fun c i => chipWrite c asid (a + i) [b.getD i 0] poison) c

/-- The bytes of a request that a fabric performed in part: each old or new by a free value (R390). -/
def performTorn (s : State) (r : Req) (masked : List Nat) : State :=
  (List.range r.data.length).foldl (fun s i =>
    let f := fresh s
    if f.1.toNat % 2 = 1 && !(memKey r.asid.toNat (r.addr + i) ∈ masked) then
      { f.2 with chip := chipWrite f.2.chip r.asid.toNat (r.addr + i) [r.data.getD i 0] r.poison }
    else f.2) s

/-- The bytes that a request writes, as keys. -/
def reqKeys (r : Req) : List Nat := (List.range r.len).map fun i => memKey r.asid.toNat (r.addr + i)

/-- The requests of a port issued before a burst take no byte that the burst has written (R492). -/
def maskOlder (s : State) (port : Nat) (b : Burst) : State :=
  let keys := b.parts.flatMap reqKeys
  let m := fun (f : Flight) => if burstFormed f.burst < burstFormed b then { f with masked := f.masked ++ keys } else f
  { s with ports := modAt s.ports port fun p => { p with outRd := p.outRd.map m, outWr := p.outWr.map m } }

/-! ## Faults -/

/-- An XFER notes the lowest element that met a translation fault (R392): element, stream, side, address. -/
def noteXferFault (s : State) (slot elem stream : Nat) (write : Bool) (addr : Nat) : State :=
  modPass s slot fun p => match p.body with
    | .xfer b => { p with body := .xfer { b with faulted := match b.faulted with
        | some f => if elem < f.1 then some (elem, stream, write, addr) else some f
        | none => some (elem, stream, write, addr) } }
    | _ => p

/-- The cursor of a linear number: its five indices (R383, R392). -/
def xferCursor (x : XferParams) (e : Nat) : List Nat :=
  ((List.range 5).foldl (fun (t : List Nat × Nat) k =>
    if k < x.dims then let n := x.counts.getD k 1; (t.1 ++ [t.2 % n], t.2 / n) else (t.1 ++ [0], t.2)) ([], e)).1

/-- An XFER whose every element is delivered is done; one that met a fault is reported once every element below the faulting
one is delivered (R386, R392). -/
def settleXfer (s : State) (slot : Nat) : State :=
  match passOf s slot with
  | none => s
  | some p =>
    match p.body with
    | .xfer b =>
      match b.faulted with
      | some (e, stream, write, addr) =>
        if b.left.all (e ≤ ·.1) then faultPass s p stXlate (xlatePayload stream write addr (xferCursor b.par e)) else s
      | none =>
        if b.left.isEmpty && p.status.isNone && p.cancelAt.isNone then modPass s slot fun p => { p with status := some stOk } else s
    | _ => s

/-- n bytes of element e of an XFER are delivered (R386). -/
def deliverElem (s : State) (slot e n : Nat) : State :=
  let dec := fun (x : Nat × Nat) => if x.1 = e then (x.1, x.2 - n) else x
  settleXfer (modPass s slot fun p => match p.body with
    | .xfer b => { p with body := .xfer { b with left := (b.left.map dec).filter (·.2 != 0) } }
    | _ => p) slot

/-- A request of a pass received a translation fault (R391). -/
def reqXlate (s : State) (r : Req) (write : Bool) : State :=
  match passOf s r.pass with
  | none => s
  | some p =>
    match r.sink with
    | .xferRead e _ => settleXfer (noteXferFault s r.pass e r.stream write r.addr) r.pass
    | .xferWrite e => settleXfer (noteXferFault s r.pass e r.stream write r.addr) r.pass
    | _ => faultPass s p stXlate (xlatePayload r.stream write r.addr [])

/-- A write of a pass received an error response, or a poisoned value it read was consumed (R390, R382). -/
def reqPoison (s : State) (r : Req) : State :=
  match passOf s r.pass with
  | none => s
  | some p => faultPass s p stPoison (poisonPayload r.stream 0 r.addr)

/-! ## Delivery -/

/-- Whether a pass still takes data: in flight and not cut (R395). -/
def takesData (s : State) (slot : Nat) : Bool :=
  match passOf s slot with
  | some p => p.cancelAt.isNone
  | none => false

/-- The bytes of a request that a read brought. -/
def gotBytes (f : Flight) (r : Req) : List Byte :=
  (List.range r.len).map fun i => ((f.got.find? fun x => x.1 == r.addr + i).map (·.2)).getD 0

/-- Whether the beat of an address came poisoned. -/
def beatBad (f : Flight) (a : Nat) : Bool := (a / 64 - f.burst.addr / 64) ∈ f.bad

/-- Whether any beat a request named came poisoned. -/
def reqBad (f : Flight) (r : Req) : Bool := (beatsOf 0 r.addr r.len).any fun k => beatBad f (k * 64)

/-- The key of a thread's copy of a vector register: register × 64 + thread. -/
def vregKey (reg thread : Nat) : Nat := reg * 64 + thread

/-- The value of a vector register of a thread. -/
def vregOf (g : Group) (reg thread : Nat) : U32 := smGet 0 g.vregs (vregKey reg thread)

/-- A group with a vector register of a thread written. -/
def setVreg (g : Group) (reg thread : Nat) (v : U32) : Group := { g with vregs := smSet 0 g.vregs (vregKey reg thread) v }

/-- A word with byte i replaced. -/
def putByte (w : U32) (i : Nat) (b : Byte) : U32 :=
  BitVec.ofNat 32 (w.toNat - bitsOf w.toNat (8 * i + 7) (8 * i) * 2 ^ (8 * i) + b.toNat * 2 ^ (8 * i))

/-- Bytes of a load written into the destination of a thread, from byte off of its first register (R291). -/
def loadBytes (g : Group) (reg thread off : Nat) (b : List Byte) : Group :=
  (List.range b.length).foldl (fun g i =>
    let r := reg + (off + i) / 4
    setVreg g r thread (putByte (vregOf g r thread) ((off + i) % 4) (b.getD i 0))) g

/-- A destination register pair, or a single register, written with a value. -/
def setWide (g : Group) (reg thread : Nat) (wide : Bool) (v : Nat) : Group :=
  let g := setVreg g reg thread (BitVec.ofNat 32 v)
  if wide then setVreg g (reg + 1) thread (BitVec.ofNat 32 (v / 2 ^ 32)) else g

/-- Position j of a list of threads receives its value of an atomic (R311, R312). -/
def atomReturn (g : Group) (r : Req) (reg old : Nat) (ths : List (Nat × U64 × U64)) : Group :=
  let l := ths.map fun t => (t.2.1.toNat, t.2.2.toNat)
  (List.range ths.length).foldl (fun g j =>
    match ths[j]? with
    | some t => setWide g reg t.1 r.wide (atomOld r.atomicOp.toNat r.wide old l j)
    | none => g) g

/-- A row piece of a FETCH written into local store, its poisoned beats noted with its tag (R381, R382). -/
def fetchArrive (s : State) (f : Flight) (r : Req) (core slot tag herd off : Nat) : State :=
  match groupOf s core slot with
  | none => s
  | some g =>
    let b := gotBytes f r
    let bad := ((List.range r.len).filter fun i => beatBad f (r.addr + i)).map fun i => (off + i) / 64
    let s := modCore s core fun k => modHerd k g.pass herd fun h => herdWrite h off b
    let s := mixHerd s core g.pass herd (some (slot, tag)) [] ((List.range r.len).map (off + ·))
    modGroup s core slot fun g => { g with tags := g.tags.map fun t =>
      if t.tag.toNat = tag then
        match t.op with
        | .fetchMem rows m => { t with op := .fetchMem (rows ++ [(off, r.len)]) (m ++ bad) }
        | _ => t
      else t }

/-- Bytes of element e put at its destination (R386, R388): into the store at once, or as a write. -/
def xferPut (s : State) (slot e dst : Nat) (inStore : Bool) (bytes : List Byte) (bad : Bool) : State :=
  if inStore then deliverElem { s with store := storeWrite s.store dst bytes bad } slot e bytes.length
  else passWriteTo s slot dst bytes bad (.xferWrite e)

/-- One byte put where another element may have been put before it: which of the two stays, a free value says (R387). -/
def xferPutByte (s : State) (slot e dst : Nat) (inStore : Bool) (v : Byte) (bad clash : Bool) : State :=
  if !clash then xferPut s slot e dst inStore [v] bad
  else
    let f := fresh s
    if f.1.toNat % 2 = 0 then deliverElem f.2 slot e 1 else xferPut f.2 slot e dst inStore [v] bad

/-- Bytes of an element that came from its source go to its destination; where destinations overlap, byte by byte. -/
def xferDeliver (s : State) (slot e dst : Nat) (bytes : List Byte) (bad : Bool) : State :=
  match passOf s slot with
  | none => s
  | some p =>
    match p.body with
    | .xfer b =>
      if !b.overlap then xferPut s slot e dst b.par.dstStore bytes bad
      else
        let had := fun a => b.filled.any fun r => r.1 ≤ a && a < r.1 + r.2
        let s := modPass s slot fun p => { p with body := .xfer { b with filled := b.filled ++ [(dst, bytes.length)] } }
        (List.range bytes.length).foldl (fun s i =>
          xferPutByte s slot e (dst + i) b.par.dstStore (bytes.getD i 0) bad (had (dst + i))) s
    | _ => s

/-- Poisoned beats that an XFER moved: DEGRADED and counted (R389). -/
def xferPoison (s : State) (slot n : Nat) : State :=
  if n = 0 then s else count (modPass s slot fun p => { p with degrade := { p.degrade with moved := true } }) 43 n

/-- The bytes an XFER read brought go to their destination, beat by beat. -/
def xferArrive (s : State) (f : Flight) (r : Req) (elem dst : Nat) : State :=
  let bytes := gotBytes f r
  (pieces 64 r.addr r.len).foldl (fun s x =>
    xferDeliver s r.pass elem (dst + x.2.1) (slice bytes x.2.1 x.2.2) (beatBad f x.1)) s

/-- The poisoned beats that a read brought to the XFERs it serves: each beat once for a pass, however many of its elements lie there
(R389). -/
def xferBeats (s : State) (f : Flight) : State :=
  let mine := f.burst.parts.filter fun r => match r.sink with | .xferRead _ _ => takesData s r.pass && !f.dropped | _ => false
  (mine.map (·.pass)).eraseDups.foldl (fun s slot =>
    let beats := ((mine.filter (·.pass == slot)).flatMap fun r => beatsOf 0 r.addr r.len).eraseDups
    xferPoison s slot (beats.filter fun k => beatBad f (k * 64)).length) s

/-- What a core takes from a read that has come back. -/
def landRead (s : State) (f : Flight) (r : Req) : State :=
  let ok := takesData s r.pass && !f.dropped
  match r.sink with
  | .load core slot tag thread reg off install =>
    let s := if !ok then s else if reqBad f r then reqPoison s r else
      let b := gotBytes f r
      let s := modGroup s core slot fun g => loadBytes g reg thread off b
      let s := spoilStores s core slot ((List.range b.length).map fun i => (thread, reg + (off + i) / 4))
      let v := fresh s
      if install then modCore v.2 core fun k => l0Install k r.asid.toNat r.addr b v.1.toNat else s
    tagReturn s core slot tag
  | .fetchRow core slot tag herd off =>
    tagReturn (if ok then fetchArrive s f r core slot tag herd off else s) core slot tag
  | _ => s

/-- The consumer of a request takes a read that has come back. -/
def deliver (s : State) (f : Flight) (r : Req) : State :=
  match r.sink with
  | .load core _ _ _ _ _ _ => crossInto s core (.read f r) (landRead · f r)
  | .fetchRow core _ _ _ _ => crossInto s core (.read f r) (landRead · f r)
  | .xferRead elem dst => if takesData s r.pass && !f.dropped then xferArrive s f r elem dst else s
  | _ => s

/-- The writes a pass still waits for, less one. -/
def writeBack (s : State) (slot : Nat) : State := modPass s slot fun p => { p with writesOut := p.writesOut - 1 }

/-- What a core takes from an atomic's response: the threads their results, the tag its return. -/
def landAtomic (s : State) (f : Flight) (r : Req) (old : Nat) : State :=
  match r.sink with
  | .atomicRet core slot tag reg ret scope ths =>
    let s := if !takesData s r.pass || f.dropped then s else if reqBad f r then reqPoison s r else
      if ret then
        spoilStores (modGroup s core slot fun g => atomReturn g r reg old ths) core slot
          (ths.flatMap fun t => [(t.1, reg), (t.1, reg + bit r.wide)])
      else s
    if ret || scope = 3 then tagReturn s core slot tag else s
  | _ => s

/-- What waited at the crossings of a core reaches it, in the order it came, as its clock runs (R281). -/
def landCrossing (s : State) (core : Nat) : State :=
  let xs := (coreOf s core).crossing
  xs.foldl (fun s x => match x with
    | .read f r => landRead s f r
    | .atomic f r old => landAtomic s f r old
    | .tag slot tag => tagReturn s core slot tag) (modCore s core fun k => { k with crossing := [] })

/-- An atomic's response (R490): the word takes its new value, the core what is its. -/
def atomicBack (s : State) (port : Nat) (f : Flight) (r : Req) (old : Nat) : State :=
  match r.sink with
  | .atomicRet core _ _ _ _ _ ths =>
    let bad := reqBad f r
    let l := ths.map fun t => (t.2.1.toNat, t.2.2.toNat)
    let new := natLe r.len (atomNew r.atomicOp.toNat r.wide old l)
    let s := if f.failed then s else
      maskOlder { s with chip := chipWriteMasked s.chip r.asid.toNat r.addr new bad f.masked } port f.burst
    crossInto (writeBack s r.pass) core (.atomic f r old) (landAtomic · f r old)
  | _ => s

/-! ## Responses -/

/-- The flight of a direction that holds a tag outstanding. -/
def flightOf (fs : List Flight) (tag : Nat) : Option Flight := fs.find? fun f => tag ∈ f.left

/-- A response code, a reserved one read as DATA_ERR (Table 15.7). -/
def respCode (c : BitVec 3) : Nat := if c.toNat ≥ 4 then 2 else c.toNat

/-- A read flight after one of its beats. -/
def takeBeat (f : Flight) (b : EppBeat) : Flight :=
  let k := (b.tag.toNat + 2048 - f.tag) % 2048
  let a := (f.burst.addr / 64 + k) * 64
  { f with left := f.left.filter (· != b.tag.toNat),
           got := f.got ++ (List.range 64).map fun i => (a + i, BitVec.ofNat 8 (b.data.toNat / 2 ^ (8 * i))),
           bad := if b.poison || respCode b.code ≥ 2 then f.bad ++ [k] else f.bad,
           failed := f.failed || respCode b.code = 1, dropped := f.dropped || respCode b.code = 1 }

/-- After an error response every beat of a read is delivered poisoned (R390). -/
def spoil (f : Flight) : Flight := { f with bad := List.range f.beats, errored := true }

/-- Whether a read's beats go through staging. -/
def staged (f : Flight) : Bool := f.burst.parts.any fun r => usesStaging r.stream

/-- A read flight after one of its beats, with what staging's decoder reports of it: a double-bit error marks the beat (R154, R368). -/
def stageBeat (f : Flight) (b : EppBeat) (ecc : Ecc) : Flight :=
  let g := takeBeat f b
  if staged f && ecc == .double then { g with bad := g.bad ++ [(b.tag.toNat + 2048 - f.tag) % 2048] } else g

/-- A beat of a read or atomic response. The first error response of a read has every beat of it counted (R390, counter 45). -/
def readBeat (s : State) (port : Nat) (f : Flight) (b : EppBeat) (ecc : Ecc) : State :=
  let g := stageBeat f b ecc
  let s := if staged f then countEcc s ecc else s
  let err := respCode b.code ≥ 2
  let s := if err && !f.errored then count s 45 f.beats else s
  let g := if err then spoil g else g
  let s := if respCode b.code = 1 && !f.failed then f.burst.parts.foldl (fun s r => reqXlate s r false) s else s
  if g.left.isEmpty then
    let s := { s with
      ports := modAt s.ports port fun p => { p with outRd := p.outRd.filter (·.tag != f.tag) },
      streams := s.streams.map (streamTake s.fabric port f.tag) }
    f.burst.parts.foldl (fun s r =>
      if r.kind = .atomic then atomicBack s port g r (b.data.toNat % 2 ^ (8 * r.len)) else deliver s g r) (xferBeats s g)
  else
    { s with ports := modAt s.ports port fun p => { p with outRd := p.outRd.map fun x => if x.tag = f.tag then g else x } }

/-- A request of a write response: performed, torn or not performed as its code says; the pass and the tag it belongs to learn
of it. -/
def writeDone (s : State) (f : Flight) (code : Nat) (r : Req) : State :=
  let s := if code = 0 then { s with chip := chipWriteMasked s.chip r.asid.toNat r.addr r.data r.poison f.masked }
    else if code = 1 then s else performTorn s r f.masked
  let s := writeBack s r.pass
  let s := if code = 1 then reqXlate s r true else if code ≥ 2 then reqPoison s r else
    match r.sink with
    | .xferWrite e => deliverElem s r.pass e r.len
    | _ => s
  match r.sink with
  | .storeTag core slot tag scope _ => if scope = 3 then tagArrive s core slot tag else s
  | _ => s

/-- A write response, which returns all the tags of its request (R490). -/
def writeResponse (s : State) (port : Nat) (f : Flight) (b : EppBeat) : State :=
  let code := respCode b.code
  let s := { s with ports := modAt s.ports port fun p => { p with outWr := p.outWr.filter (·.tag != f.tag) } }
  let s := if code ≥ 2 then count s 45 else s
  let s := f.burst.parts.foldl (fun s r => writeDone s f code r) s
  if code = 0 then maskOlder s port f.burst else s

/-- An orphaned tag whose response has come at last: the response is discarded and counted, the tag is free again (R546). -/
def orphanBack (s : State) (port : Nat) (dir : Bool) (f : Flight) (tag : Nat) : State :=
  let left := if dir then [] else f.left.filter (· != tag)
  let upd := fun (fs : List Flight) =>
    if left.isEmpty then fs.filter (·.tag != f.tag) else fs.map fun x => if x.tag = f.tag then { x with left := left } else x
  count { s with ports := modAt s.ports port fun p => if dir then { p with outWr := upd p.outWr } else { p with outRd := upd p.outRd } } 44

/-- An EPP response beat (R490): a tag not outstanding in its direction is discarded and counted. -/
def eppResponse (s : State) (port : Nat) (b : EppBeat) (ecc : Ecc) : State :=
  let p := s.ports.getD port .reset
  let fs := if b.dir then p.outWr else p.outRd
  match (if b.dir then fs.find? (fun f => f.tag == b.tag.toNat) else flightOf fs b.tag.toNat) with
  | none => count s 44
  | some f =>
    if f.orphan then orphanBack s port b.dir f b.tag.toNat
    else if b.dir then writeResponse s port f b else readBeat s port f b ecc

/-! ## The commands -/

/-- PORT_READ_GRANT (R374). -/
def execPortReadGrant (port : BitVec 5) (s : State) : Host.Outcome State Fault Refusal := .next (portReadGrant s port.toNat)

/-- PORT_WRITE_GRANT (R377). -/
def execPortWriteGrant (port : BitVec 5) (s : State) : Host.Outcome State Fault Refusal := .next (portWriteGrant s port.toNat)

/-- MERGE_WINDOW_EXPIRE (R378). -/
def execMergeWindowExpire (port : BitVec 5) (s : State) : Host.Outcome State Fault Refusal :=
  .next { s with ports := modAt s.ports port.toNat mergeExpire }

/-- EPP_RESPONSE (R490); ecc is what staging's decoder reports of the beat. A parked engine ignores it (R515). -/
def execEppResponse (at_ : PortBeat) (ecc : Ecc) (now : U64) (s : State) : Host.Outcome State Fault Refusal :=
  let s := atTime s now
  .next (if s.pins.parked then s else eppResponse s at_.port.toNat at_.beat ecc)

end Sys2Proof.Machine
end

