-- ==== Sys2Proof/Machine/Prims.lean ====
section
/-! DEFINITION. The primitive tests of TRACE (R136 to R145), their conservative boxes (R133), hit records (R146). -/
namespace Sys2Proof.Machine

/-- A test that hits: the test distance, the aux word, the side bit. -/
structure PrimHit where
  tp   : U32
  aux  : U32
  side : Bool
  deriving DecidableEq, Repr

/-- Word i of a primitive slot as FP32. -/
def primF (r : List Byte) (i : Nat) : U32 := BitVec.ofNat 32 (field r (4 * i) 4)

/-- The 64-bit word of a slot: its mask and its index (Table 4.4). -/
def primWord (r : List Byte) : Nat := field r 56 8
/-- The mask of a slot. -/
def primMask (r : List Byte) : Byte := BitVec.ofNat 8 (bitsOf (primWord r) 55 48)
/-- The primitive index of a slot. -/
def primIndex (r : List Byte) : Nat := bitsOf (primWord r) 41 0

/-- The index value that names no primitive (R126, R147). -/
def noPrim : Nat := 0x3FFFFFFFFFF

/-- RN(RN(RN(x0 y0) + RN(x1 y1)) + RN(x2 y2)) (R143). -/
def dot3 (x y : Nat → U32) : U32 :=
  fadd .rn (fadd .rn (fmul .rn (x 0) (y 0)) (fmul .rn (x 1) (y 1))) (fmul .rn (x 2) (y 2))

/-- The exact value of a × b − c × d rounded once (R138). -/
def edgeFn (a b c d : U32) : U32 :=
  if isFin a && isFin b && isFin c && isFin d then
    ofFx .rn (fx a * fx b - fx c * fx d) 298 false
  else fsub .rn (fmul .rn a b) (fmul .rn c d)

/-- kz, the axis of largest |d_a|, ties to the lower axis (R136). -/
def rayKz (w : List U32) : Nat :=
  let m := fun a => magOf (rayD w a)
  if m 0 ≥ m 1 && m 0 ≥ m 2 then 0 else if m 1 ≥ m 2 then 1 else 2

/-- P′ of a vertex (R137): x, y, z. -/
def shearVertex (w : List U32) (v : Nat → U32) : List U32 :=
  let kz := rayKz w
  let kx := (kz + 1) % 3
  let ky := (kz + 2) % 3
  let sx := fdiv .rn (rayD w kx) (rayD w kz)
  let sy := fdiv .rn (rayD w ky) (rayD w kz)
  let sz := fdiv .rn 0x3F800000 (rayD w kz)
  let p := fun a => fsub .rn (v a) (rayO w a)
  [fsub .rn (p kx) (fmul .rn sx (p kz)), fsub .rn (p ky) (fmul .rn sy (p kz)), fmul .rn sz (p kz)]

/-- Whether a zero edge from P′ to Q′ is owned (R140). -/
def edgeOwned (p q : List U32) : Bool :=
  let ex := fsub .rn (q.getD 0 0) (p.getD 0 0)
  let ey := fsub .rn (q.getD 1 0) (p.getD 1 0)
  flt 0 ey || (isZero ey && flt ex 0)

/-- The triangle test (R136 to R142). -/
def testTriangle (w : List U32) (r : List Byte) : Option PrimHit :=
  let a := shearVertex w fun i => primF r i
  let b := shearVertex w fun i => primF r (3 + i)
  let c := shearVertex w fun i => primF r (6 + i)
  let x := fun (l : List U32) => l.getD 0 0
  let y := fun (l : List U32) => l.getD 1 0
  let z := fun (l : List U32) => l.getD 2 0
  let u := edgeFn (x c) (y b) (y c) (x b)
  let v := edgeFn (x a) (y c) (y a) (x c)
  let ww := edgeFn (x b) (y a) (y b) (x a)
  if (a ++ b ++ c ++ [u, v, ww]).any isNan then none
  else if isZero u && isZero v && isZero ww then none
  else
    let pos := flt 0 u || flt 0 v || flt 0 ww
    let neg := flt u 0 || flt v 0 || flt ww 0
    if pos && neg then none
    else
      let own := fun f p q => !isZero f || (if pos then edgeOwned p q else edgeOwned q p)
      if own u b c && own v c a && own ww a b then
        let det := fadd .rn (fadd .rn u v) ww
        let t := fadd .rn (fadd .rn (fmul .rn u (z a)) (fmul .rn v (z b))) (fmul .rn ww (z c))
        let tp := fdiv .rn t det
        let b1 := fdiv .rn v det
        let b2 := fdiv .rn ww det
        if [det, t, tp, b1, b2].any isNan then none
        else some ⟨tp, BitVec.ofNat 32 ((toFp16 b2).toNat * 2 ^ 16 + (toFp16 b1).toNat), pos == negOf (rayD w (rayKz w))⟩
      else none

/-- The ellipsoid test (R143, R144). -/
def testEllipsoid (w : List U32) (r : List Byte) : Option PrimHit :=
  let m := fun j i => primF r (3 + 3 * j + i)
  let u := fun a => fsub .rn (rayO w a) (primF r a)
  let o' := fun j => dot3 (m j) u
  let d' := fun j => dot3 (m j) (rayD w)
  let a := dot3 d' d'
  let b := dot3 o' d'
  let ts := fdiv .rn (fneg b) a
  let q := fun j => fadd .rn (o' j) (fmul .rn ts (d' j))
  let mm := dot3 q q
  if isZero a || isNan a || isNan b || isNan ts || isNan mm || flt 0x3F800000 mm then none
  else
    let h := fsqrt .rn (fdiv .rn (fsub .rn 0x3F800000 mm) a)
    let t0 := fsub .rn ts h
    let t1 := fadd .rn ts h
    if isNan h || isNan t0 || isNan t1 then none
    else if fle (rayTmin w) t1 && fle t0 (rayTmax w) then
      some ⟨fmax t0 (rayTmin w), mm, flt t0 (rayTmin w)⟩
    else none

/-- The point test (R145). -/
def testPoint (w : List U32) (r : List Byte) : Option PrimHit :=
  let v := fun a => fsub .rn (primF r a) (rayO w a)
  let rad := primF r 3
  let ts := fdiv .rn (dot3 v (rayD w)) (dot3 (rayD w) (rayD w))
  let tc := fmin (fmax ts (rayTmin w)) (rayTmax w)
  let e := fun a => fsub .rn (fmul .rn tc (rayD w a)) (v a)
  let dist := dot3 e e
  let rr := fmul .rn rad rad
  if isNan ts || isNan tc || isNan dist || isNan rr then none
  else if fle dist rr then some ⟨tc, dist, !feq tc ts⟩ else none

/-- The test of a primitive of a kind (0 triangle, 1 ellipsoid, 2 point), kept when t_p lies in [t_min, t_max] (R119). -/
def primTest (kind : Nat) (w : List U32) (r : List Byte) : Option PrimHit :=
  let h := if kind = 0 then testTriangle w r else if kind = 1 then testEllipsoid w r else testPoint w r
  h.filter fun x => fle (rayTmin w) x.tp && fle x.tp (rayTmax w)

/-- The conservative box of a primitive on axis a (R133). -/
def primBox (kind : Nat) (r : List Byte) (a : Nat) : U32 × U32 :=
  if kind = 0 then
    (fmin (fmin (primF r a) (primF r (3 + a))) (primF r (6 + a)), fmax (fmax (primF r a) (primF r (3 + a))) (primF r (6 + a)))
  else
    let rad := if kind = 1 then primF r 12 else primF r 3
    (fsub .rd (primF r a) rad, fadd .ru (primF r a) rad)

/-- A hit record (Table 4.5). -/
def hitRecord (t aux : U32) (side : Bool) (index : Nat) : List Byte :=
  natLe 4 t.toNat ++ natLe 4 aux.toNat ++ natLe 8 (index + if side then 2 ^ 42 else 0)

/-- The miss record (R147). -/
def missRecord : List Byte := hitRecord inf32 0 false noPrim

end Sys2Proof.Machine
end

