-- ==== Sys2Proof/Machine/Walker.lean ====
section
/-! DEFINITION. Reading a group: its selection, its sources, what its next bundle would write and where each run-time check of
Table 8.5 fails. -/
namespace Sys2Proof.Machine

/-! ## Selection and sources -/

/-- The mask of all w threads. -/
def fullMask (w : Nat) : Nat := 2 ^ w - 1

/-- A scalar register of a group. -/
def sregOf (g : Group) (n : Nat) : U64 := smGet 0 g.sregs n

/-- The predicate of a slot (R227). -/
def predicate (g : Group) (p : Pred) : Nat :=
  let v := (sregOf g p.sreg.toNat).toNat % 2 ^ g.width
  if p.inv then fullMask g.width - v else v

/-- The selection of a slot (R227). -/
def selection (g : Group) (p : Pred) : Nat := if p.en then g.exec.toNat &&& predicate g p else g.exec.toNat

/-- The threads of a selection, lowest first. -/
def threadsOf (g : Group) (sel : Nat) : List Nat := (List.range g.width).filter (sel.testBit ·)

/-- A source for thread t (Table 7.6): 32 bits. -/
def srcVal (g : Group) (t : Nat) (imm : U32) (x : Src) : U32 :=
  match x with
  | .vec r => vregOf g r.toNat t
  | .scl r => (sregOf g r.toNat).setWidth 32
  | .imm => imm

/-- A source of a 64-bit access: a register pair, a whole scalar register, or the immediate (log entry 4). -/
def srcWide (g : Group) (t : Nat) (imm : U32) (x : Src) : U64 :=
  match x with
  | .vec r => BitVec.ofNat 64 ((vregOf g r.toNat t).toNat + (vregOf g (r.toNat + 1) t).toNat * 2 ^ 32)
  | .scl r => sregOf g r.toNat
  | .imm => imm.setWidth 64

/-- Word i of a source that names several registers in a row. -/
def srcNth (g : Group) (t : Nat) (imm : U32) (x : Src) (i : Nat) : U32 :=
  match x with
  | .vec r => vregOf g (r.toNat + i) t
  | y => srcVal g t imm y

/-- A source of an S, C or X slot: 64 bits; a vector encoding is refused at load (R229). -/
def srcScalar (g : Group) (imm : U64) (x : Src) : U64 :=
  match x with
  | .vec _ => 0
  | .scl r => sregOf g r.toNat
  | .imm => imm

/-- The vector registers that a source of n registers reads. -/
def srcRegs (x : Src) (n : Nat) : List Nat :=
  match x with
  | .vec r => (List.range n).map (r.toNat + ·)
  | _ => []

/-! ## Results -/

/-- The V result: values per selected thread, or bits of a scalar register with the bits at and above w zero (R232). -/
def vResult (g : Group) (v : VSlot) : Pending :=
  let sel := selection g v.pred
  let ts := threadsOf g sel
  let vis := g.issue + vLat v.op g.width g.f1
  let val := fun t => vEval v.op (srcVal g t v.imm v.a) (srcVal g t v.imm v.b) (srcVal g t v.imm v.c)
  match v.op with
  | .cmp _ _ =>
    let bits := (ts.map fun t => if val t = 0 then 0 else 2 ^ t).sum
    ⟨vis, .sreg (v.dst.toNat % 128) (BitVec.ofNat 64 (2 ^ 64 - 2 ^ g.width + sel)) (BitVec.ofNat 64 bits)⟩
  | .permute =>
    ⟨vis, .vreg v.dst.toNat (ts.map fun t => (t, srcVal g ((srcVal g t v.imm v.b).toNat % g.width) v.imm v.a))⟩
  | _ => ⟨vis, .vreg v.dst.toNat (ts.map fun t => (t, val t))⟩

/-- The vector registers that a V slot reads. -/
def vReads (v : VSlot) : List Nat :=
  ((srcRegs v.a 1 :: srcRegs v.b 1 :: srcRegs v.c 1 :: []).take (vArity v.op)).flatten

/-- The stride of the node that a B slot reads. -/
def bNodeBytes (op : BOp) : Nat := match op with | .rayBox => 128 | .innerProduct d8 => ipStride (8 * d8.toNat)

/-- The registers of results a B slot may write: two per child for a ray–box test, one for a bound. -/
def bWidth (op : BOp) : Nat := match op with | .rayBox => 16 | .innerProduct _ => 8

/-- The words that source a of a B slot names: a ray record, or a locator. -/
def bSrcWidth (op : BOp) : Nat := match op with | .rayBox => 8 | .innerProduct d8 => 8 * d8.toNat

/-- The children that a B slot finds in a node: none where child_count is reserved (R94, R126). -/
def bChildren (op : BOp) (node : List Byte) : Nat :=
  let n := match op with | .rayBox => gCount node | .innerProduct d8 => ipCount (8 * d8.toNat) node
  if n ≥ 9 then 0 else n

/-- Whether a node that a B slot reads leaves its pass DEGRADED: a reserved child_count, a reserved frame byte, a step_exp out of range
(R94, R125, R126). -/
def bDegrades (op : BOp) (node : List Byte) : Bool :=
  match op with
  | .rayBox => gCount node ≥ 9 || gBadStep node
  | .innerProduct d8 => ipCount (8 * d8.toNat) node ≥ 9 || ipBadFrame (8 * d8.toNat) node

/-- The results of a B slot for one thread, by register offset (R61, R123, R124; log entry 4). -/
def bThread (g : Group) (b : BSlot) (node : List Byte) (t : Nat) : List U32 :=
  match b.op with
  | .rayBox =>
    let w := (List.range 8).map (srcNth g t b.imm b.a)
    (List.range (bChildren b.op node)).flatMap fun j =>
      let x := childSpan w node false j (srcVal g t b.imm b.b) (srcVal g t b.imm b.c)
      [x.1, x.2]
  | .innerProduct d8 =>
    let d := 8 * d8.toNat
    let q := (List.range d).map (srcNth g t b.imm b.a)
    (List.range (bChildren b.op node)).map fun j =>
      ipBound d (toSigned 1 (b.imm.toNat % 256)) node j q (srcVal g t b.imm b.b) (srcVal g t b.imm b.c)

/-- The results of a B slot. -/
def bResults (g : Group) (h : Herd) (b : BSlot) : List Pending :=
  let ts := threadsOf g (selection g b.pred)
  let node := herdBytes h (sregOf g b.addr.toNat).toNat (bNodeBytes b.op)
  let rs := ts.map fun t => (t, bThread g b node t)
  (List.range (bWidth b.op)).filterMap fun i =>
    let vals := rs.filterMap fun r => (r.2[i]?).map fun v => (r.1, v)
    if vals.isEmpty then none else some ⟨g.issue + bLat b.op g.width g.f1, .vreg (b.dst.toNat + i) vals⟩

/-- The results of a P slot for one thread: whether it hits, the distance, the aux word, the side bit (log entry 4). -/
def pThread (g : Group) (p : PSlot) (slot : List Byte) (t : Nat) : List U32 :=
  let w := (List.range 8).map (srcNth g t p.imm p.a)
  let kind := match p.op with | .triangle => 0 | .ellipsoid => 1 | .point => 2
  match primTest kind w slot with
  | some x => [1, x.tp, x.aux, if x.side then 1 else 0]
  | none => [0, 0, 0, 0]

/-- The results of a P slot. -/
def pResults (g : Group) (h : Herd) (p : PSlot) : List Pending :=
  let ts := threadsOf g (selection g p.pred)
  let slot := herdBytes h (sregOf g p.addr.toNat).toNat 64
  let rs := ts.map fun t => (t, pThread g p slot t)
  (List.range 4).map fun i => ⟨g.issue + pLat g.width g.f1, .vreg (p.dst.toNat + i) (rs.map fun r => (r.1, r.2.getD i 0))⟩

/-- The result of an S slot. -/
def sResult (g : Group) (x : SSlot) : Pending :=
  ⟨g.issue + sLat x.op g.width g.f1, .sreg x.dst.toNat (BitVec.ofNat 64 (2 ^ 64 - 1))
    (sEval x.op (srcScalar g x.imm x.a) (srcScalar g x.imm x.b))⟩

/-! ## The M slot -/

/-- The bytes of an access (Table 9.3). -/
def mBytes (m : MSlot) : Nat := if m.size = 0 then 4 else if m.size = 1 then 8 else if m.size = 2 then 2 else 1

/-- The registers that an access of a size takes. -/
def mRegs (m : MSlot) : Nat := if m.size = 1 then 2 else 1

/-- Whether an M operation is an atomic. -/
def mAtomic (op : MOp) : Bool := op == .atG || op == .atfG

/-- Whether an M operation loads, stores. -/
def mLoads (op : MOp) : Bool := op == .ldL || op == .ldF || op == .ldG
def mStores (op : MOp) : Bool := op == .stL || op == .stF || op == .stG

/-- Whether an M operation is asynchronous (R270). -/
def mAsync (op : MOp) : Bool := !(op == .ldL || op == .stL)

/-- The source that holds the offset: a for a load and for CAS, b for a store and every other atomic (log entry 4). -/
def mOffSrc (m : MSlot) : Src := if mLoads m.op || (mAtomic m.op && m.atomic = 12) then m.a else m.b

/-- The address of a thread's access: the base plus its offset, modulo 2^64. -/
def mAddr (g : Group) (m : MSlot) (t : Nat) : Nat :=
  ((sregOf g m.addr.toNat).toNat + (srcVal g t m.imm (mOffSrc m)).toNat) % 2 ^ 64

/-- The bytes that a thread stores. -/
def mData (g : Group) (m : MSlot) (t : Nat) : List Byte :=
  natLe (mBytes m) (if m.size = 1 then (srcWide g t m.imm m.a).toNat else (srcVal g t m.imm m.a).toNat)

/-- A value of an atomic's size from a source. -/
def mOperand (g : Group) (m : MSlot) (t : Nat) (x : Src) : U64 :=
  if m.size = 1 then srcWide g t m.imm x else (srcVal g t m.imm x).setWidth 64

/-- Operand a of an atomic (the value, the EXCH value, the CAS new value) and operand b (the CAS compare value). -/
def mOperands (g : Group) (m : MSlot) (t : Nat) : U64 × U64 :=
  if m.atomic = 12 then (mOperand g m t m.c, mOperand g m t m.b) else (mOperand g m t m.a, 0)

/-- Member and offset of a FLOCK address (Table 7.8). -/
def flockMember (a : Nat) : Nat := bitsOf a 21 19
def flockOffset (a : Nat) : Nat := bitsOf a 18 0

/-- The local-store bytes of a herd (R236). -/
def localLimit (h : Herd) : Nat := 4096 * h.granules

/-- The vector registers that an M slot reads. -/
def mReads (m : MSlot) : List Nat :=
  if mLoads m.op then srcRegs m.a 1
  else if mStores m.op then srcRegs m.a (mRegs m) ++ srcRegs m.b 1
  else if m.atomic = 12 then srcRegs m.a 1 ++ srcRegs m.b (mRegs m) ++ srcRegs m.c (mRegs m)
  else srcRegs m.a (mRegs m) ++ srcRegs m.b 1

/-- The vector registers that an M slot writes. -/
def mWrites (m : MSlot) : List Nat :=
  if mLoads m.op || m.op = .atfG then (List.range (mRegs m)).map (m.dst.toNat + ·) else []

/-- The results of an LD.L (R264), sub-word values zero-extended. -/
def loadLocal (g : Group) (h : Herd) (m : MSlot) : List Pending :=
  let ts := threadsOf g (selection g m.pred)
  let rs := ts.map fun t => (t, leNat (herdBytes h (mAddr g m t) (mBytes m)))
  (List.range (mRegs m)).map fun i =>
    ⟨g.issue + loadLat g.width g.f1, .vreg (m.dst.toNat + i) (rs.map fun r => (r.1, BitVec.ofNat 32 (r.2 / 2 ^ (32 * i))))⟩

/-- Whether two of a list of spans of n bytes share a byte. -/
def spansShare (n : Nat) : List Nat → Bool
  | [] => false
  | a :: r => r.any (fun b => overlaps a n b n) || spansShare n r

/-- The threads of a store of n bytes each, in the order in which their bytes land: ascending where no two share a byte, else from a thread
that an open function of their addresses picks; the manual does not say which of two threads wins (log entry 15). -/
def storeOrder (ts addrs : List Nat) (n : Nat) : List Nat :=
  if spansShare n addrs then
    let k := Config.storeFirst addrs % ts.length
    ts.drop k ++ ts.take k
  else ts

/-- The bytes of an ST.L, in the order they land, as a result due at the group's next issue (Table 8.1). -/
def storeLocal (g : Group) (m : MSlot) (ts : List Nat) : Pending :=
  ⟨g.issue + 1, .local (ts.flatMap fun t => (mData g m t).zipIdx.map fun b => (mAddr g m t + b.2, b.1))⟩

/-! ## Checks (Table 8.5) -/

/-- A failing check: the slot, the kind code, the detail word. -/
structure Fail where
  slot   : Nat
  kind   : Nat
  detail : Nat
  deriving DecidableEq, Repr

/-- The register that two results reach together, as detail_word, when they do (WRITE_CLASH). -/
def clash (a b : Pending) : Option Nat :=
  if a.vis != b.vis then none
  else match a.due, b.due with
    | .vreg r xs, .vreg q ys => if r = q && xs.any (fun x => ys.any fun y => y.1 == x.1) then some r else none
    | .sreg r m _, .sreg q k _ => if r = q && m &&& k != 0 then some (0x100 + r) else none
    | _, _ => none

/-- The first register at which new results meet those on their way. -/
def firstClash (old news : List Pending) : Option Nat := news.findSome? fun p => old.findSome? (clash p)

/-- Whether a vector register is pending (R273). -/
def isPending (g : Group) (r : Nat) : Bool := g.pendRegs.any (·.1 == r)

/-- The register checks of a slot: WRITE_CLASH and PENDING_REGISTER. -/
def regFails (g : Group) (slot : Nat) (news : List Pending) (regs : List Nat) : List Fail :=
  ((firstClash g.pend news).map fun d => Fail.mk slot 4 d).toList ++
  ((regs.find? (isPending g)).map fun r => Fail.mk slot 6 r).toList

/-- The vector registers that results write. -/
def dueRegs (ps : List Pending) : List Nat := ps.filterMap fun p => match p.due with | .vreg r _ => some r | _ => none

/-- The checks of a V slot. -/
def vFails (g : Group) (slot : Nat) (v : VSlot) : List Fail :=
  if selection g v.pred = 0 then [] else regFails g slot [vResult g v] (vReads v ++ dueRegs [vResult g v])

/-- The first offset of a span beyond a limit. -/
def beyond (a n limit : Nat) : Option Nat := if limit < a + n then some (max a limit) else none

/-- The checks of a B slot. -/
def bFails (g : Group) (h : Herd) (b : BSlot) : List Fail :=
  if selection g b.pred = 0 then []
  else
    let rs := bResults g h b
    regFails g 2 rs (srcRegs b.a (bSrcWidth b.op) ++ srcRegs b.b 1 ++ srcRegs b.c 1 ++ dueRegs rs) ++
    ((beyond (sregOf g b.addr.toNat).toNat (bNodeBytes b.op) (localLimit h)).map fun d => Fail.mk 2 0x0A d).toList

/-- The checks of a P slot. -/
def pFails (g : Group) (h : Herd) (p : PSlot) : List Fail :=
  if selection g p.pred = 0 then []
  else
    let rs := pResults g h p
    regFails g 3 rs (srcRegs p.a 8 ++ dueRegs rs) ++
    ((beyond (sregOf g p.addr.toNat).toNat 64 (localLimit h)).map fun d => Fail.mk 3 0x0A d).toList

/-- The address checks of an M slot, over its selected threads (R236). -/
def mRangeFails (g : Group) (h : Herd) (m : MSlot) : List Fail :=
  let ts := threadsOf g (selection g m.pred)
  if m.op = .ldL || m.op = .stL then
    ((ts.findSome? fun t => beyond (mAddr g m t) (mBytes m) (localLimit h)).map fun d => Fail.mk 4 0x0A d).toList
  else if m.op = .ldF || m.op = .stF then
    ((ts.find? fun t => h.size ≤ flockMember (mAddr g m t)).map fun t => Fail.mk 4 9 (flockMember (mAddr g m t))).toList ++
    ((ts.findSome? fun t => beyond (flockOffset (mAddr g m t)) (mBytes m) (localLimit h)).map fun d => Fail.mk 4 0x0A d).toList
  else []

/-- The checks of an M slot. -/
def mFails (g : Group) (h : Herd) (m : MSlot) : List Fail :=
  if selection g m.pred = 0 then []
  else
    let news := if m.op = .ldL then loadLocal g h m else []
    ((firstClash g.pend news).map fun d => Fail.mk 4 4 d).toList ++
    (if mAsync m.op && tagOut g m.tag then [Fail.mk 4 5 m.tag.toNat] else []) ++
    (((mReads m ++ mWrites m).find? (isPending g)).map fun r => Fail.mk 4 6 r).toList ++
    mRangeFails g h m

/-- The checks of an S slot. -/
def sFails (g : Group) (x : SSlot) : List Fail := if selection g x.pred = 0 then [] else regFails g 5 [sResult g x] []

/-- Whether a C operation acts. BAR.H, BAR.F and END always do, every other one on a non-zero selection (R227). Where exec itself is
zero, ELSE, ENDIF, IF and BRNONE act all the same, unless they are predicated and the predicate is zero (log entry 16). -/
def cActs (g : Group) (c : CSlot) : Bool :=
  match c.op with
  | .br => selection g c.pred != 0
  | .barH => true
  | .barF => true
  | .endg => true
  | _ => selection g c.pred != 0 || (g.exec.toNat % 2 ^ g.width = 0 && (!c.pred.en || predicate g c.pred != 0))

/-- The checks of a C slot: the mask stack (R228). -/
def cFails (g : Group) (c : CSlot) : List Fail :=
  if !cActs g c then []
  else match c.op with
    | .ifm => if g.stack.length ≥ 16 then [⟨6, 1, 16⟩] else []
    | .elsem => if g.stack.isEmpty then [⟨6, 2, 0⟩] else []
    | .endifm => if g.stack.isEmpty then [⟨6, 2, 0⟩] else []
    | _ => []

/-- Rows, strides and row bytes of a FETCH word (Table 11.3). -/
structure FetchWord where
  inStore   : Bool
  rows      : Nat
  dstStride : Nat
  rowBytes  : Nat
  deriving DecidableEq, Repr

/-- The fields of a FETCH word. -/
def fetchWord (w : U64) : FetchWord :=
  let v := w.toNat
  ⟨bitOf v 48, bitsOf v 47 32 + 1, bitsOf v 31 16, bitsOf v 15 0 + 1⟩

/-- The source address of row i of a FETCH, modulo 2^64 (R380). -/
def fetchSrc (g : Group) (x : XSlot) (i : Nat) : Nat :=
  ((srcScalar g x.imm x.a).toNat + i * (srcScalar g x.imm x.b).toNat) % 2 ^ 64

/-- The local offset of row i of a FETCH. -/
def fetchDst (g : Group) (x : XSlot) (i : Nat) : Nat := (sregOf g x.dst.toNat).toNat + i * (fetchWord x.imm).dstStride

/-- The addresses of an MMA's tiles (R247). -/
def mmaA (g : Group) (x : XSlot) : Nat := (srcScalar g x.imm x.a).toNat
def mmaB (g : Group) (x : XSlot) : Nat := (srcScalar g x.imm x.b).toNat
def mmaC (g : Group) (x : XSlot) : Nat := (sregOf g x.dst.toNat).toNat

/-- Whether a selection covers part of a group only. -/
def partialSel (g : Group) (sel : Nat) : Bool := sel != 0 && sel != fullMask g.width

/-- The checks of an X slot; mTag is the tag that the M slot of the bundle takes. -/
def xFails (g : Group) (h : Herd) (mTag : Option (BitVec 6)) (x : XSlot) : List Fail :=
  let sel := selection g x.pred
  let busy := if tagOut g x.tag || mTag == some x.tag then [Fail.mk 7 5 x.tag.toNat] else []
  if sel = 0 then []
  else match x.op with
    | .mma =>
      busy ++ (if partialSel g sel && !x.lead then [⟨7, 7, (threadsOf g sel).length⟩] else []) ++
      ((mmaBeyond (shapeOf x.imm) (mmaA g x) (mmaB g x) (mmaC g x) (localLimit h)).map fun d => Fail.mk 7 8 d).toList
    | .fetch =>
      let w := fetchWord x.imm
      busy ++ ((rowsBeyond (sregOf g x.dst.toNat).toNat w.dstStride w.rows w.rowBytes (localLimit h)).map
        fun d => Fail.mk 7 0x0A d).toList
    | _ => []

/-- The tag that the M slot of a bundle takes. -/
def mTagOf (g : Group) (b : Bundle) : Option (BitVec 6) :=
  b.m.bind fun m => if mAsync m.op && selection g m.pred != 0 then some m.tag else none

/-- A result that falls due in a pending register fails the bundle at that point (R273, R285); no one slot applies. -/
def dueFails (g : Group) : List Fail :=
  (((dueRegs (g.pend.filter (·.vis == g.issue))).find? (isPending g)).map fun r => Fail.mk 0xF 6 r).toList

/-- Every failing check of a bundle, by slot and then by kind code (log entry 17). -/
def bundleFails (g : Group) (h : Herd) (b : Bundle) : List Fail :=
  (b.v0.toList.flatMap (vFails g 0)) ++ (b.v1.toList.flatMap (vFails g 1)) ++ (b.b.toList.flatMap (bFails g h)) ++
  (b.p.toList.flatMap (pFails g h)) ++ (b.m.toList.flatMap (mFails g h)) ++ (b.s.toList.flatMap (sFails g)) ++
  (b.c.toList.flatMap (cFails g)) ++ (b.x.toList.flatMap (xFails g h (mTagOf g b)))

end Sys2Proof.Machine
end

