-- ==== Sys2Proof/Machine/Images.lean ====
section
/-! DEFINITION. Kernel images (R255): the header of Table 7.11, the slots of Tables 7.2 to 7.7 decoded, and the checks of R229, R254,
R256, R267 and R292 made when an image is loaded. -/
namespace Sys2Proof.Machine

/-! ## Slots -/

/-- Slot i of a bundle as a 128-bit number. -/
def slotWord (b : List Byte) (i : Nat) : Nat := field b (16 * i) 16

/-- The opcode, the modifier field and the lead bit of a slot (Table 7.3). -/
def slotOp (v : Nat) : Nat := bitsOf v 127 118
def slotMod (v : Nat) : Nat := bitsOf v 108 101
def slotLead (v : Nat) : Bool := bitOf v 100

/-- The predication fields of a slot. -/
def slotPred (v : Nat) : Pred := ⟨bitOf v 117, bitOf v 116, BitVec.ofNat 7 (bitsOf v 115 109)⟩

/-- A source encoding (Table 7.6); 0x181 to 0x1FF are reserved and read as the immediate. -/
def srcOf (e : Nat) : Src :=
  if e < 0x100 then .vec (BitVec.ofNat 8 e) else if e < 0x180 then .scl (BitVec.ofNat 7 (e - 0x100)) else .imm

/-- Whether the source fields of a slot and its reserved field are as Tables 7.4 and 7.6, or 7.5 and 7.6, allow. -/
def vecFieldsOk (v : Nat) : Bool :=
  bitsOf v 91 83 ≤ 0x180 && bitsOf v 82 74 ≤ 0x180 && bitsOf v 73 65 ≤ 0x180 && bitsOf v 51 32 = 0
def sclFieldsOk (v : Nat) : Bool := bitsOf v 92 84 ≤ 0x180 && bitsOf v 83 75 ≤ 0x180 && bitsOf v 68 64 = 0

/-- A V0 or V1 slot with its operation. -/
def decodeV (v : Nat) : Option VSlot :=
  (Config.vDecode (BitVec.ofNat 10 (slotOp v)) (BitVec.ofNat 8 (slotMod v))).map fun op =>
    { pred := slotPred v, op := op, dst := BitVec.ofNat 8 (bitsOf v 99 92), a := srcOf (bitsOf v 91 83), b := srcOf (bitsOf v 82 74),
      c := srcOf (bitsOf v 73 65), imm := BitVec.ofNat 32 v }

/-- A B slot with its operation. -/
def decodeB (v : Nat) : Option BSlot :=
  (Config.bDecode (BitVec.ofNat 10 (slotOp v)) (BitVec.ofNat 8 (slotMod v))).map fun op =>
    { pred := slotPred v, op := op, dst := BitVec.ofNat 8 (bitsOf v 99 92), a := srcOf (bitsOf v 91 83), b := srcOf (bitsOf v 82 74),
      c := srcOf (bitsOf v 73 65), addr := BitVec.ofNat 7 (bitsOf v 64 58), imm := BitVec.ofNat 32 v }

/-- A P slot with its operation. -/
def decodeP (v : Nat) : Option PSlot :=
  (Config.pDecode (BitVec.ofNat 10 (slotOp v)) (BitVec.ofNat 8 (slotMod v))).map fun op =>
    { pred := slotPred v, op := op, dst := BitVec.ofNat 8 (bitsOf v 99 92), a := srcOf (bitsOf v 91 83), b := srcOf (bitsOf v 82 74),
      c := srcOf (bitsOf v 73 65), addr := BitVec.ofNat 7 (bitsOf v 64 58), imm := BitVec.ofNat 32 v }

/-- An M operation by its opcode (Table 9.2). -/
def mOpOf (o : Nat) : Option MOp :=
  [(1, MOp.ldL), (2, .stL), (3, .ldF), (4, .stF), (5, .ldG), (6, .stG), (7, .atG), (8, .atfG)].findSome? fun x =>
    if x.1 = o then some x.2 else none

/-- An M slot with its operation and the fields of Table 9.3. -/
def decodeM (v : Nat) : Option MSlot :=
  (mOpOf (slotOp v)).map fun op =>
    { pred := slotPred v, op := op, size := BitVec.ofNat 2 (bitsOf v 108 107), atomic := BitVec.ofNat 4 (bitsOf v 106 103),
      scope := BitVec.ofNat 2 (bitsOf v 102 101), dst := BitVec.ofNat 8 (bitsOf v 99 92), a := srcOf (bitsOf v 91 83),
      b := srcOf (bitsOf v 82 74), c := srcOf (bitsOf v 73 65), addr := BitVec.ofNat 7 (bitsOf v 64 58),
      tag := BitVec.ofNat 6 (bitsOf v 57 52), imm := BitVec.ofNat 32 v }

/-- An S slot with its operation. -/
def decodeS (v : Nat) : Option SSlot :=
  (Config.sDecode (BitVec.ofNat 10 (slotOp v)) (BitVec.ofNat 8 (slotMod v))).map fun op =>
    { pred := slotPred v, op := op, dst := BitVec.ofNat 7 (bitsOf v 99 93), a := srcOf (bitsOf v 92 84), b := srcOf (bitsOf v 83 75),
      imm := BitVec.ofNat 64 v }

/-- A C operation by its opcode (Table 7.7). -/
def cOpOf (o : Nat) : Option COp :=
  [(1, COp.br), (2, .ifm), (3, .elsem), (4, .endifm), (5, .brnone), (0x10, .barH), (0x11, .barF), (0x1F, .endg)].findSome? fun x =>
    if x.1 = o then some x.2 else none

/-- A C slot with its operation. -/
def decodeC (v : Nat) : Option CSlot :=
  (cOpOf (slotOp v)).map fun op =>
    { pred := slotPred v, op := op, a := srcOf (bitsOf v 92 84), inv := bitOf v 101, imm := BitVec.ofNat 64 v }

/-- An X operation by its opcode (Table 7.7, R298). -/
def xOpOf (o : Nat) : Option XOp :=
  [(1, XOp.mma), (2, .fetch), (3, .wait), (4, .fence)].findSome? fun x => if x.1 = o then some x.2 else none

/-- An X slot with its operation. -/
def decodeX (v : Nat) : Option XSlot :=
  (xOpOf (slotOp v)).map fun op =>
    { pred := slotPred v, op := op, dst := BitVec.ofNat 7 (bitsOf v 99 93), a := srcOf (bitsOf v 92 84), b := srcOf (bitsOf v 83 75),
      tag := BitVec.ofNat 6 (bitsOf v 74 69), imm := BitVec.ofNat 64 v, lead := slotLead v, scope := BitVec.ofNat 2 (bitsOf v 102 101) }

/-- A slot's operation, none where its opcode is 0x000 (R225). -/
def decodeSlot {α : Type} (dec : Nat → Option α) (v : Nat) : Option α := if slotOp v = 0 then none else dec v

/-- A bundle from its 128 bytes (Table 7.2). -/
def decodeBundle (b : List Byte) : Bundle :=
  { v0 := decodeSlot decodeV (slotWord b 0), v1 := decodeSlot decodeV (slotWord b 1), b := decodeSlot decodeB (slotWord b 2),
    p := decodeSlot decodeP (slotWord b 3), m := decodeSlot decodeM (slotWord b 4), s := decodeSlot decodeS (slotWord b 5),
    c := decodeSlot decodeC (slotWord b 6), x := decodeSlot decodeX (slotWord b 7) }

/-! ## The checks of a slot -/

/-- What the checks of a slot know of its image: registers per thread, bundles, whether its generation is F1. -/
structure ImageEnv where
  vregs   : Nat
  bundles : Nat
  f1      : Bool
  deriving DecidableEq, Repr

/-- Whether every vector register is within the kernel's allocation. -/
def regsOk (e : ImageEnv) (rs : List Nat) : Bool := rs.all (· < e.vregs)

/-- Whether a source of an S, C or X slot is one (Table 7.5). -/
def notVec (x : Src) : Bool := match x with | .vec _ => false | _ => true

/-- The registers a V slot names. -/
def vNames (v : VSlot) : List Nat := (match v.op with | .cmp _ _ => [] | _ => [v.dst.toNat]) ++ vReads v

/-- The checks of a V slot. -/
def vSlotOk (e : ImageEnv) (v : VSlot) : Bool := vDefined v.op && regsOk e (vNames v)

/-- The checks of a B slot. -/
def bSlotOk (e : ImageEnv) (b : BSlot) : Bool :=
  regsOk e ((List.range (bWidth b.op)).map (b.dst.toNat + ·) ++ srcRegs b.a (bSrcWidth b.op) ++ srcRegs b.b 1 ++ srcRegs b.c 1)

/-- The checks of a P slot. -/
def pSlotOk (e : ImageEnv) (p : PSlot) : Bool := regsOk e ((List.range 4).map (p.dst.toNat + ·) ++ srcRegs p.a 8)

/-- The checks of an M slot (R292, R258). -/
def mSlotOk (e : ImageEnv) (m : MSlot) : Bool :=
  regsOk e (mReads m ++ mWrites m) && !(e.f1 && (m.op == .ldF || m.op == .stF)) &&
  (if mAtomic m.op then
     m.atomic.toNat ≤ 12 && m.size.toNat ≤ 1 && !(m.size = 1 && (m.atomic = 1 || m.atomic = 6 || m.atomic = 7))
   else m.atomic = 0 && !((m.op == .ldL || m.op == .stL) && m.scope != 0))

/-- The checks of an S slot. -/
def sSlotOk (x : SSlot) : Bool := notVec x.a && (sArity x.op < 2 || notVec x.b)

/-- The checks of a C slot: modifiers, sources, branch targets; BAR.F is of F2 alone. -/
def cSlotOk (e : ImageEnv) (mods : Nat) (c : CSlot) : Bool :=
  (match c.op with
   | .ifm => mods < 2 && notVec c.a
   | .br => mods = 0 && bitsOf c.imm.toNat 31 0 < e.bundles
   | .brnone => mods = 0 && bitsOf c.imm.toNat 31 0 < e.bundles
   | .barF => mods = 0 && !e.f1
   | _ => mods = 0)

/-- The checks of an X slot: shape words (R254), modifiers of a FENCE (R298), block-scaled forms of F2 alone (R258). -/
def xSlotOk (e : ImageEnv) (mods : Nat) (x : XSlot) : Bool :=
  (match x.op with
   | .mma => mods = 0 && notVec x.a && notVec x.b && !shapeBad x.imm && !(e.f1 && (shapeOf x.imm).scaled)
   | .fetch => mods = 0 && notVec x.a && notVec x.b && bitsOf x.imm.toNat 63 49 = 0
   | .wait => mods = 0
   | .fence => mods < 4)

/-- Whether an operation decoded, where there is one, passes its checks; a slot without one has no modifier. -/
def opOk {α : Type} (v : Nat) (d : Option α) (ok : α → Bool) : Bool :=
  if slotOp v = 0 then slotMod v = 0 else match d with | some x => ok x | none => false

/-- Whether an F1 image may hold a slot's opcode (R258). -/
def genOk (e : ImageEnv) (i v : Nat) : Bool := !e.f1 || slotOp v = 0 || Config.f1Defines i (BitVec.ofNat 10 (slotOp v))

/-- Whether slot i of a bundle passes R229, R254, R267 and R292. -/
def slotOk (e : ImageEnv) (b : List Byte) (i : Nat) : Bool :=
  let v := slotWord b i
  let x := decodeBundle b
  (if i < 5 then vecFieldsOk v else sclFieldsOk v) && genOk e i v &&
  (!slotLead v || (x.x.any fun x => i == 7 && x.op == .mma)) &&
  (if i = 0 then opOk v x.v0 (vSlotOk e) else if i = 1 then opOk v x.v1 (vSlotOk e) else if i = 2 then opOk v x.b (bSlotOk e)
   else if i = 3 then opOk v x.p (pSlotOk e) else if i = 4 then opOk v x.m (mSlotOk e) else if i = 5 then opOk v x.s sSlotOk
   else if i = 6 then opOk v x.c (cSlotOk e (slotMod v)) else opOk v x.x (xSlotOk e (slotMod v)))

/-- The destinations of a fixed-latency operation: (slot, latency, registers), a scalar register as 256 plus its number. -/
def dstOf (w : Nat) (f1 : Bool) (b : Bundle) : List (Nat × Nat × List Nat) :=
  let v := fun (i : Nat) (x : VSlot) =>
    (i, vLat x.op w f1, match x.op with | .cmp _ _ => [256 + x.dst.toNat % 128] | _ => [x.dst.toNat])
  (b.v0.toList.map (v 0)) ++ (b.v1.toList.map (v 1)) ++
  (b.b.toList.map fun x => (2, bLat x.op w f1, (List.range (bWidth x.op)).map (x.dst.toNat + ·))) ++
  (b.p.toList.map fun x => (3, pLat w f1, (List.range 4).map (x.dst.toNat + ·))) ++
  ((b.m.toList.filter (·.op == .ldL)).map fun m => (4, loadLat w f1, mWrites m)) ++
  (b.s.toList.map fun x => (5, sLat x.op w f1, [256 + x.dst.toNat]))

/-- The first slot of a bundle whose destination and latency another slot shares (R267). -/
def sameDst : List (Nat × Nat × List Nat) → Option Nat
  | [] => none
  | a :: r => if r.any (fun b => a.2.1 == b.2.1 && a.2.2.any (· ∈ b.2.2)) then some a.1 else sameDst r

/-! ## The header -/

/-- The fields of an image's header (Table 7.11); the code follows. gen 1 runs as class F1 (R258). -/
def parseImage (addr : Nat) (h : List Byte) (code : List Bundle) : Image :=
  let w := field h 4 4
  { addr := addr, gen := field h 1 1, cls := if field h 1 1 = 1 then 2 else bitsOf w 31 30, width := 16 * 2 ^ bitsOf w 29 28,
    groups := bitsOf w 27 24 + 1, flockHerds := 2 ^ bitsOf w 23 22, lsSplit := bitsOf w 21 19, lsHerd := bitsOf w 18 12,
    vregs := 8 * (bitsOf w 11 7 + 1), argSregs := bitsOf w 6 0, entry := field h 12 4, timeBound := BitVec.ofNat 32 (field h 16 4),
    shader := bitOf (field h 20 4) 2, crc := BitVec.ofNat 32 (field h 24 4), code := code }

/-- Vector register blocks that a herd of an image takes (R230). -/
def herdBlocks (i : Image) : Nat := i.groups * i.width * i.vregs / 128

/-- The header checks of R255 and R256 that need no code: the offset, by the column "Bytes" of Table 7.11, of the first field
that fails. -/
def headerFails (h : List Byte) (i : Image) : Option Nat :=
  let w := field h 4 4
  ([ (field h 0 1 != 1, 0), (i.gen != 1 && i.gen != 2, 0), (field h 2 2 != 0x464B, 0),
     (bitsOf w 31 30 = 3, 4), (bitsOf w 29 28 = 3, 4), (i.lsHerd > 112, 4), (i.argSregs > 112, 4),
     (field h 8 4 = 0 || field h 8 4 > 1024, 8), (i.entry ≥ field h 8 4, 12), (i.timeBound = 0, 16),
     (bitsOf (field h 20 4) 31 3 != 0, 20), (!zeroAt h [(28, 100)], firstNonzero h [(28, 100)]),
     (i.cls != 1 && i.width != 64, 4), (i.cls = 2 && i.flockHerds != 1, 4), (bitOf (field h 20 4) 0 && i.flockHerds = 1, 4)
   ].find? (·.1)).map (·.2)

/-- The checks of R256 that follow once the code has been read, up to the pass's herd count. -/
def bodyFails (h : List Byte) (i : Image) : Option Nat :=
  ([ (!bitOf (field h 20 4) 1 && i.code.any (fun b => b.x.any (·.op == .mma)), 20), (i.shader && i.cls != 1, 4),
     (herdBlocks i > 512, 4), (i.lsHerd > 16 * i.lsSplit, 4) ].find? (·.1)).map (·.2)

/-- The offset of the first slot of the code that fails, no more than 0xFFFF (R229). -/
def codeFails (i : Image) (e : ImageEnv) (code : List Byte) : Option Nat :=
  ((List.range e.bundles).findSome? fun k =>
    let b := slice code (128 * k) 128
    ((List.range 8).find? fun j => !slotOk e b j || sameDst (dstOf i.width (i.cls == 2) (decodeBundle b)) == some j).map fun j =>
      128 + 128 * k + 16 * j).map (min 0xFFFF)

/-! ## Loading -/

/-- What the load of an image answers: a read that failed, a refusal, or the image. -/
inductive Load where
  | fault (r : MemRead)
  | deny (d : Deny)
  | ok (i : Image)
  deriving DecidableEq, Repr

/-- Whether a read brought nothing usable. -/
def MemRead.failed (r : MemRead) : Bool := r.xlate.isSome || r.bad.isSome

/-- A kernel image loaded for a context and checked; the flock launch size divides herds, the pass's herd count, or hd refuses. -/
def loadImage (s : State) (c a herds : Nat) (hd : Deny) : Load :=
  let asid := asidOf s c
  let bad := fun o => Load.deny ⟨stDesc, 2, o, a⟩
  let h := chipRead s.chip asid a 128
  if h.failed then .fault h
  else
    let i0 := parseImage a h.bytes []
    match headerFails h.bytes i0 with
    | some o => bad o
    | none =>
      let n := field h.bytes 8 4
      let m := chipRead s.chip asid (a + 128) (128 * n)
      if m.failed then .fault m
      else
        let i := parseImage a h.bytes ((List.range n).map fun k => decodeBundle (slice m.bytes (128 * k) 128))
        match bodyFails h.bytes i with
        | some o => bad o
        | none =>
          if herds % i.flockHerds != 0 then .deny hd
          else if i.crc != crc32 m.bytes then bad 24
          else match codeFails i ⟨i.vregs, n, i.gen == 1⟩ m.bytes with
            | some o => bad o
            | none => .ok i

/-- Argument words of a kernel, from memory. -/
def readArgs (s : State) (c a n : Nat) : MemRead := chipRead s.chip (asidOf s c) a (8 * n)

/-- The words of a list of bytes, 8 B each. -/
def wordsOf (b : List Byte) (n : Nat) : List U64 := (List.range n).map fun i => BitVec.ofNat 64 (field b (8 * i) 8)

end Sys2Proof.Machine
end

