-- ==== Sys2Proof/Machine/Launch.lean ====
section
/-! DEFINITION. Launching herds: occupancy (R237), the instruction cache (R257), which launch may go to which flock (R45, R472 to
R478), the start of a group (R232), flock launches (R239, R240). -/
namespace Sys2Proof.Machine

/-! ## Tiles -/

/-- Tiles across and down. -/
def tilesAcross (p : RenderParams) : Nat := ceilDiv p.width 16
def tilesDown (p : RenderParams) : Nat := ceilDiv p.height 16
/-- The tiles of a frame. -/
def tileCount (p : RenderParams) : Nat := tilesAcross p * tilesDown p
/-- The raster unit that owns a tile. -/
def tileUnit (p : RenderParams) (t : Nat) : Nat := (t % tilesAcross p + t / tilesAcross p) % 8

/-! ## What waits to be launched -/

/-- A waiting launch: its pass, what one herd of it takes, and the bound that R473 counts with. stock: a group of a stock kernel. -/
structure Waiting where
  pass     : Nat
  ctx      : Nat
  cls      : BitVec 2
  deadline : U64
  order    : Nat
  image    : Option Image
  bound    : Nat
  deriving DecidableEq, Repr

/-- The herds launched together: 1, or the size of a flock launch. -/
def launchSize (w : Waiting) : Nat := match w.image with | some i => i.flockHerds | none => 1

/-- Whether a launch is of a kernel without a time bound. -/
def unboundedLaunch (w : Waiting) : Bool := match w.image with | some i => i.timeBound == 0xFFFFFFFF | none => false

/-- Whether a SEARCH or TRACE has records in more pens than there are groups of its context with nothing in hand to take one. -/
def stockWaits (s : State) (p : Pass) : Bool :=
  let pens := (s.fold.slices.map fun sl => (sl.pens.filter fun x => x.ctx == p.ctx && x.records.any (·.pass == p.slot)).length).sum
  let free := (s.cores.map fun kv => (kv.2.groups.filter fun g => g.ctx == p.ctx && g.stock == .walk []).length).sum
  free < pens

/-- The internal number of the stock kernel that works for a pass: 1 search, 2 trace (log entry 21). -/
def stockNumber (p : Pass) : Nat := match p.body with | .trace _ => 2 | _ => 1

/-- The launch that a pass in flight waits for, if any. -/
def waitingOf (s : State) (p : Pass) : Option Waiting :=
  let w := fun (i : Option Image) (b : Nat) => (⟨p.slot, p.ctx, p.cls, p.deadline, p.order, i, b⟩ : Waiting)
  if p.status.isSome || p.cancelAt.isSome then none
  else match p.body with
    | .kernel k => if k.next < k.herds then some (w (some k.image) k.image.timeBound.toNat) else none
    | .render b => match b.shader with
      | some i => if b.packets.any (·.state == 0) then some (w (some i) i.timeBound.toNat) else none
      | none => none
    | .stock k => if groupsOfPass s p.slot < k.left then some (w none (Config.stockBound k.number)) else none
    | .search _ => if stockWaits s p then some (w none (Config.stockBound (stockNumber p))) else none
    | .trace _ => if stockWaits s p then some (w none (Config.stockBound (stockNumber p))) else none
    | _ => none

/-- Every waiting launch. -/
def waitingLaunches (s : State) : List Waiting := s.passes.filterMap (waitingOf s)

/-! ## Occupancy (R237) -/

/-- The vector register blocks that the groups of a core hold. -/
def blocksOn (k : Core) : Nat := (k.groups.map fun g => g.width * g.vregsR / 128).sum

/-- The local-store granules that the herds of a core hold. -/
def granulesOn (k : Core) : Nat := (k.herds.map (·.granules)).sum

/-- The image that the groups of a pass run: the key of its copy in an instruction cache. -/
def passImage (s : State) (slot : Nat) : Option (Nat × U32) :=
  match passOf s slot with
  | some p => match p.body with
    | .kernel k => some (memKey p.ctx k.image.addr, k.image.crc)
    | .render b => b.shader.map fun i => (memKey p.ctx i.addr, i.crc)
    | _ => none
  | none => none

/-- Whether a resident group uses a copy. -/
def copyUsed (s : State) (k : Core) (x : Nat × U32 × Nat) : Bool :=
  k.groups.any fun g => passImage s g.pass == some (x.1, x.2.1)

/-- The first of n segments in a row of the eight that no copy holds. -/
def freeSegments (ic : List (Nat × U32 × Nat)) (n : Nat) : Option Nat :=
  let used := ic.flatMap fun x => (List.range (x.2.2 % 16)).map (x.2.2 / 16 + ·)
  (List.range (9 - n)).find? fun i => (List.range n).all fun j => !(i + j ∈ used)

/-- The instruction cache with a copy of n segments in it: copies that no resident group uses are evicted, least recently launched
first, until it fits (R257). -/
def loadCode (used : Nat × U32 × Nat → Bool) (key : Nat) (crc : U32) (n : Nat) :
    Nat → List (Nat × U32 × Nat) → Option (List (Nat × U32 × Nat))
  | 0, _ => none
  | f + 1, ic =>
    match freeSegments ic n with
    | some i => some (ic ++ [(key, crc, 16 * i + n)])
    | none => if ic.any (!used ·) then loadCode used key crc n f (dropFirst (!used ·) ic) else none

/-- The instruction cache of a core as a launch of an image leaves it. -/
def codeResident (s : State) (k : Core) (c : Nat) (i : Image) : Option (List (Nat × U32 × Nat)) :=
  let key := memKey c i.addr
  let mine := fun (x : Nat × U32 × Nat) => x.1 == key && x.2.1 == i.crc
  match k.icache.find? mine with
  | some x => some (k.icache.filter (!mine ·) ++ [x])
  | none => loadCode (copyUsed s k) key i.crc (ceilDiv i.code.length 128) 9 k.icache

/-- Whether a flock serves a context, or can be given to it: no group is resident on its cores (R45). -/
def flockFor (s : State) (f c : Nat) : Bool :=
  (s.flocks.getD f ⟨none, 0⟩).ctx == some c || (coresOfFlock f).all fun k => (coreOf s k).groups.isEmpty

/-- Whether a core meets R237 for one herd of a waiting launch. A stock group takes a group slot (log entry 21). -/
def fits (s : State) (core : Nat) (w : Waiting) : Bool :=
  let k := coreOf s core
  core < 256 && s.bring.released && flockFor s (flockOfCore core) w.ctx &&
  match w.image with
  | none => k.groups.length < 16
  | some i =>
    k.groups.length + i.groups ≤ 16 && blocksOn k + herdBlocks i ≤ 512 && (k.groups.isEmpty || k.lsSplit == i.lsSplit) &&
    granulesOn k + i.lsHerd ≤ 16 * i.lsSplit && (codeResident s k w.ctx i).isSome

/-- The cores of a flock that a launch of n herds takes: the lowest n that fit. -/
def flockCores (s : State) (f : Nat) (w : Waiting) : Option (List Nat) :=
  let cs := ((coresOfFlock f).filter (fits s · w)).take (launchSize w)
  if cs.length = launchSize w && (launchSize w = 1 || (s.flocks.getD f ⟨none, 0⟩).counters + 8 ≤ 32) then some cs else none

/-! ## Reservation (R472 to R478) -/

/-- Whether a flock is reserved. -/
def reserved (s : State) (f : Nat) : Bool := bitOf s.regs.dlFlockMask.toNat f

/-- Whether every flock is reserved. -/
def allReserved (s : State) : Bool := s.regs.dlFlockMask == 0xFFFFFFFF

/-- Whether no flock may take BACKGROUND groups (R478). -/
def noBackground (s : State) : Bool := allReserved s || s.regs.bgFlockMax == 0

/-- Whether a pass uses groups. -/
def usesGroups (p : Pass) : Bool :=
  p.opcode ∈ [opKernel, opSearch, opTrace, opBuild] || (match p.body with | .render b => b.shader.isSome | _ => false)

/-- Whether every tile of a render pass has been rasterised: its fragments are with the kernel, or done. -/
def rasterDone (b : RenderBody) : Bool :=
  (!b.tiled || b.cursor == b.par.primCount) && !b.overflowing && (List.range (tileCount b.par)).all fun t => t ∈ b.asked || t ∈ b.done

/-- Whether a SEARCH or TRACE may still need groups: items to admit, records on their way, in pens or held by groups (log entry 99). -/
def walkPending (s : State) (slot : Nat) (w : Walk) : Bool :=
  w.next < w.count || !w.evicted.isEmpty || s.fold.arrivals.any (·.pass == slot) ||
  s.fold.slices.any (fun sl => sl.pens.any fun x => x.records.any (·.pass == slot)) ||
  s.cores.any fun kv => kv.2.groups.any fun g => match g.stock with
    | .walk held => held.any (·.pass == slot)
    | _ => false

/-- Whether a pass is pending under R472: its last group has not been launched; of a render pass, rasterisation has not ended. -/
def pendingPass (s : State) (p : Pass) : Bool :=
  p.cls == 1 && usesGroups p && p.status.isNone && p.cancelAt.isNone &&
  (match p.body with
   | .kernel k => k.next < k.herds
   | .stock k => groupsOfPass s p.slot < k.left
   | .render b => !rasterDone b
   | .search b => walkPending s p.slot b.walk
   | .trace b => walkPending s p.slot b.walk
   | _ => false)

/-- The need time of a pass in nanoseconds (R472). -/
def needTime (s : State) (p : Pass) : Int := (p.deadline.toNat : Int) - 1000 * s.regs.dlLead.toNat

/-- The DEADLINE passes whose need time is N, the earliest. -/
def earliestNeed (s : State) : List Pass :=
  let ps := s.passes.filter (pendingPass s)
  match (ps.map (needTime s)).min? with
  | some n => ps.filter fun p => needTime s p == n
  | none => []

/-- The launch test of R473 for work of b core cycles of context c: t + c′ + b ÷ (f × u) ≤ N. -/
def launchTest (s : State) (c b : Nat) : Bool :=
  match earliestNeed s with
  | [] => true
  | p :: ps =>
    let fill := if (p :: ps).all (·.ctx == c) then 0 else 4096
    let cycles := fill + b * (if dutyQuarter s.thr then 4 else 1)
    (1000 * cycles : Int) ≤ (needTime s p - s.time.toNat) * s.regs.coreFreq.toNat

/-- The order of waiting launches (R476): DEADLINE, MGMT, BULK, BACKGROUND; deadlines, then admission. -/
def launchBefore (a b : Waiting) : Bool :=
  let r := fun (w : Waiting) => if w.cls = 1 then 0 else if w.cls = 3 then 1 else if w.cls = 0 then 2 else 3
  r a < r b || (r a = r b && ((a.cls = 1 && (a.deadline.toNat < b.deadline.toNat ||
    (a.deadline = b.deadline && a.order < b.order))) || (a.cls != 1 && a.order < b.order)))

/-- The number of flocks other than f that hold BACKGROUND groups. -/
def backgroundFlocks (s : State) (f : Nat) : Nat :=
  ((List.range 32).filter fun x => x != f && (coresOfFlock x).any fun k => (coreOf s k).groups.any fun g =>
    g.stock == .awl || ((passOf s g.pass).map (·.cls)) == some 2).length

/-- Whether the class of a launch lets it go to flock f (R473, R475, R477, R478). -/
def flockAllows (s : State) (f : Nat) (w : Waiting) : Bool :=
  let bulk := !reserved s f || (!unboundedLaunch w && launchTest s w.ctx w.bound)
  if w.cls = 1 then !(reserved s f && unboundedLaunch w)
  else if w.cls = 2 && !noBackground s then !reserved s f && backgroundFlocks s f < s.regs.bgFlockMax.toNat
  else bulk

/-- Whether a launch could go to flock f now. -/
def flockTakes (s : State) (f : Nat) (w : Waiting) : Bool := flockAllows s f w && (flockCores s f w).isSome

/-- Whether a launch may be made on flock f: its class lets it, no launch before it could go there (R476, R477), and a DEADLINE launch
leaves reserved flocks that could take it for no other. -/
def mayLaunch (s : State) (f : Nat) (w : Waiting) : Bool :=
  flockTakes s f w &&
  (waitingLaunches s).all (fun x => !(launchBefore x w && flockTakes s f x)) &&
  (w.cls != 1 || reserved s f || (List.range 32).all fun r => !(reserved s r && flockTakes s r w))

/-! ## The launch -/

/-- A core as a change of its flock's context leaves it: its local memory, L0 and register files written with zero (R45). -/
def zeroCore (k : Core) : Core := { k with l0 := [], herds := [], ran := [], lastPass := none }

/-- A flock given to a context. -/
def serveFlock (s : State) (f c : Nat) : State :=
  if (s.flocks.getD f ⟨none, 0⟩).ctx = some c then s
  else
    let s := (coresOfFlock f).foldl (fun s k => modCore (emptyL0 s k) k zeroCore) s
    { s with flocks := modAt s.flocks f fun _ => ⟨some c, 0⟩ }

/-- The scalar registers of a group at its start (R232). -/
def startScalars (p : Pass) (args : List U64) (herd member number core : Nat) : SMap U64 :=
  let put := fun (m : SMap U64) (x : Nat × U64) => smSet 0 m x.1 x.2
  ([(120, BitVec.ofNat 64 herd), (121, BitVec.ofNat 64 (256 * member + number)), (122, p.passId.setWidth 64),
    (123, BitVec.ofNat 64 core)]).foldl put ((List.range args.length).foldl (fun m i => put m (i, args.getD i 0)) [])

/-- The vector registers of a group at its start: v0 of thread t holds t (R232). -/
def startVectors (w : Nat) : SMap U32 := (List.range w).foldl (fun m t => smSet 0 m t (BitVec.ofNat 32 t)) []

/-- A group at its start (R228, R232). -/
def newGroup (p : Pass) (i : Image) (args : List U64) (core slot herd member number : Nat) (packet : Option Nat) : Group :=
  { slot := slot, pass := p.slot, ctx := p.ctx, herd := herd, number := number, member := number, width := i.width,
    vregsR := i.vregs, f1 := i.cls == 2, code := i.code, next := i.entry, issue := 0, exec := BitVec.ofNat 64 (2 ^ i.width - 1),
    stack := [], vregs := startVectors i.width, sregs := startScalars p (args.take i.argSregs) herd member number core, pend := [],
    tags := [], pendRegs := [], hold := .none, wait := .none, cycles := 0, bound := i.timeBound, ended := false, stopping := false,
    halted := false, haltAsked := false, haltByHost := false, stepAsked := false, stock := .user, packet := packet }

/-- The lowest free group slot of a core. -/
def freeGroupSlot (k : Core) : Nat := ((List.range 16).find? fun n => k.groups.all (·.slot != n)).getD 0

/-- A herd placed on a core with its groups (R232, R234, R303); bytes is what its local store holds at the start. -/
def placeHerd (s : State) (p : Pass) (i : Image) (args : List U64) (core herd member launch : Nat) (bytes : List (Nat × Byte))
    (packet : Nat → Option Nat) : State :=
  let s := if (coreOf s core).lastPass = some p.slot && (coreOf s core).lsSplit = i.lsSplit then s else emptyL0 s core
  let k := coreOf s core
  let h : Herd :=
    { pass := p.slot, number := herd, member := member, launch := launch, size := i.flockHerds, groups := i.groups,
      granules := i.lsHerd, blocks := herdBlocks i, live := i.groups, mem := bytes, marks := [] }
  let k : Core := { k with
    icache := (codeResident s k p.ctx i).getD k.icache, lsSplit := i.lsSplit,
    lastPass := some p.slot, ran := setAdd k.ran p.slot,
    herds := k.herds ++ [h] }
  setCore s core ((List.range i.groups).foldl (fun k n =>
    { k with groups := k.groups ++ [newGroup p i args core (freeGroupSlot k) herd member n (packet n)] }) k)

/-- Herds of a KERNEL launched: its counts and completion detail follow. -/
def noteLaunched (n g : Nat) (p : Pass) : Pass :=
  match p.body with
  | .kernel k =>
    { p with body := .kernel { k with next := k.next + n, live := k.live + n * g, groupsLaunched := k.groupsLaunched + n * g },
             detail0 := BitVec.ofNat 64 (k.groupsLaunched + n * g), detail1 := BitVec.ofNat 64 (k.next + n) }
  | _ => p

/-- The next herds of a KERNEL placed on cores, member by member (R238, R239). -/
def launchKernel (s : State) (p : Pass) (k : KernelBody) (cores : List Nat) : State :=
  let i := k.image
  let first := k.next
  let s := (List.range cores.length).foldl (fun s m =>
    placeHerd s p i k.args (cores.getD m 0) (first + m) m (first / i.flockHerds) [] fun _ => none) s
  modPass s p.slot (noteLaunched cores.length i.groups)

/-- A group of a stock kernel placed on a core, empty-handed; owner is its pass, where it works for one alone. The core's L0 loses its lines as at any launch (R303). -/
def launchStock (s : State) (p : Pass) (core : Nat) (stock : Stock) (owner : Nat := 256) : State :=
  let s := if (coreOf s core).lastPass = some p.slot then s else emptyL0 s core
  modCore s core fun k => { k with lastPass := some p.slot, groups := k.groups ++ [
    { slot := freeGroupSlot k, pass := owner, ctx := p.ctx, herd := 0, number := 0, member := 0, width := 64, vregsR := 0, f1 := false,
      code := [], next := 0, issue := 0, exec := BitVec.ofNat 64 (2 ^ 64 - 1), stack := [], vregs := [], sregs := [], pend := [],
      tags := [], pendRegs := [], hold := .none, wait := .none, cycles := 0, bound := 0xFFFFFFFF, ended := false, stopping := false,
      halted := false, haltAsked := false, haltByHost := false, stepAsked := false, stock := stock, packet := none }] }

/-! ## Fragment packets (R346, Table 10.4) -/

/-- The bytes of a packet: w fragment records, then w × V values. -/
def packetBytes (p : Pass) (par : RenderParams) (w v : Nat) (k : Packet) : List Byte :=
  layout 64 [(0, 4, p.passId.toNat), (4, 2, k.frags.length), (6, 1, par.channels), (7, 1, bit par.bwd + 2 * bit (par.primKind = 1)),
    (8, 4, k.tile)] ++
  ((List.range w).map fun i => match k.frags[i]? with
    | some f => natLe 2 f.x ++ natLe 2 f.y ++ natLe 4 f.pos ++ natLe 4 f.alpha.toNat ++ natLe 4 f.m.toNat ++ natLe 4 f.b1.toNat ++
        natLe 4 f.b2.toNat ++ natLe 4 f.z.toNat ++ List.replicate 4 (0 : Byte)
    | none => List.replicate 32 0).flatten ++
  ((List.range w).map fun i => match k.vals[i]? with
    | some vs => ((List.range v).map fun j => natLe 4 (vs.getD j 0).toNat).flatten
    | none => List.replicate (4 * v) 0).flatten

/-- Bytes as a sparse local store. -/
def sparse (b : List Byte) : List (Nat × Byte) := (b.zipIdx.filter (·.1 != 0)).map fun x => (x.2, x.1)

/-- The waiting packets of a pass that one raster unit launches together: those of the first one's unit (R346). -/
def unitPackets (b : RenderBody) : List Nat :=
  let waiting := (b.packets.zipIdx.filter fun x => x.1.state == 0)
  match waiting.head? with
  | some x => (waiting.filter fun y => tileUnit b.par y.1.tile == tileUnit b.par x.1.tile).map (·.2)
  | none => []

/-- A herd of a shader placed with the next packets of one raster unit, one per group (R346). -/
def launchShader (s : State) (p : Pass) (b : RenderBody) (i : Image) (core member launch : Nat) : State :=
  let v := packetValues b.par
  let mine := (unitPackets b).take i.groups
  let bytes := ((List.range i.groups).map fun g => match (mine[g]?).bind (b.packets[·]?) with
    | some k => packetBytes p b.par i.width v k
    | none => packetBytes p b.par i.width v ⟨0, [], [], 0⟩).flatten
  let s := placeHerd s p i b.args core b.herds member launch (sparse (bytes.take (4096 * i.lsHerd))) fun g => mine[g]?
  let taken := (b.packets.zipIdx).map fun (x : Packet × Nat) => if x.2 ∈ mine then { x.1 with state := 1 } else x.1
  modPass s p.slot fun p => { p with body := .render { b with packets := taken, herds := b.herds + 1 } }

/-! ## The commands -/

/-- The next launch of a pass made on a core, where it may go there. -/
def herdLaunch (s : State) (slot core : Nat) : State :=
  let f := flockOfCore core
  match passOf s slot with
  | none => s
  | some p => match waitingOf s p with
    | none => s
    | some w =>
      if launchSize w != 1 || !fits s core w || !mayLaunch s f w then s
      else
        let s := serveFlock s f p.ctx
        match p.body with
        | .kernel k => launchKernel s p k [core]
        | .render b => match b.shader with
          | some i => launchShader s p b i core 0 b.herds
          | none => s
        | .stock _ => launchStock s p core .builder p.slot
        | .search _ => launchStock s p core (.walk [])
        | .trace _ => launchStock s p core (.walk [])
        | _ => s

/-- HERD_LAUNCH (R237). -/
def execHerdLaunch (pass : Byte) (core : BitVec 8) (now : U64) (s : State) : Host.Outcome State Fault Refusal :=
  .next (herdLaunch (atTime s now) pass.toNat core.toNat)

/-- Herds of a shader placed on the cores of a flock launch, member by member, from the packets its pass still holds. -/
def launchShaders (slot launch : Nat) (s : State) (x : Nat × Nat) : State :=
  match passOf s slot with
  | some p => (match p.body with
    | .render b => (match b.shader with
      | some i => launchShader s p b i x.1 x.2 launch
      | none => s)
    | _ => s)
  | none => s

/-- The herds of a flock launch of a pass placed on their cores. -/
def launchOn (s : State) (p : Pass) (cores : List Nat) : State :=
  match p.body with
  | .kernel k => launchKernel s p k cores
  | .render b => cores.zipIdx.foldl (launchShaders p.slot b.herds) s
  | _ => s

/-- A flock launch made on a flock (R239, R240). -/
def flockLaunch (s : State) (slot f : Nat) : State :=
  match passOf s slot with
  | none => s
  | some p => match waitingOf s p with
    | none => s
    | some w =>
      match flockCores s f w with
      | none => s
      | some cores =>
        if launchSize w = 1 || !mayLaunch s f w then s
        else
          let s := serveFlock s f p.ctx
          let s := { s with flocks := modAt s.flocks f fun x => { x with counters := x.counters + 8 } }
          launchOn s p cores

/-- FLOCK_LAUNCH (R239). -/
def execFlockLaunch (pass : Byte) (flock : BitVec 5) (now : U64) (s : State) : Host.Outcome State Fault Refusal :=
  .next (flockLaunch (atTime s now) pass.toNat flock.toNat)

/-! ## BACKGROUND passes that lose their flocks (R478) -/

/-- A BACKGROUND pass with groups still to launch of an unbounded image, every flock reserved, stops as if a CANCEL had named it. -/
def strand (s : State) : State :=
  if !allReserved s then s
  else (s.passes.filter fun p => p.cls == 2).foldl (fun s p =>
    match (passOf s p.slot).bind (waitingOf s) with
    | some w => if unboundedLaunch w then cutPass s p.slot stCancelled else s
    | none => s) s

end Sys2Proof.Machine
end

