-- ==== Sys2Proof/Machine/Plans.lean ====
section
/-! DEFINITION. Reads performed within a step (log entry 13): which stream makes them (Table 11.1), what they do at the ports and in the
store, and plans: what the checks and reads of a step find before it acts. -/
namespace Sys2Proof.Machine

/-! ## Reads -/

/-- What makes a read within a step: a Pass input stream, by quadrant and position among the pass's arrays; a group slot, by its Core
fetch stream; a sweep, by quadrant and stream number; the command processor. -/
inductive Reader where
  | array (quad index : Nat)
  | group (core slot : Nat)
  | sweep (quad number : Nat)
  | command
  deriving DecidableEq, Repr

/-- The fetch engine and the stream number of a reader (Table 11.1, R565). -/
def readerStream (s : State) (pass : Nat) (r : Reader) : Nat × Nat :=
  match r with
  | .array q i => (q, inputStream s pass q i)
  | .group c k => (c / 64, 256 + 16 * (c % 64) + k)
  | .sweep q n => (q, n)
  | .command => (0, 0xFFFF)

/-- One read: of the store or of memory, by whom, where, how many bytes. -/
structure Span where
  inStore : Bool
  reader  : Reader
  addr    : Nat
  len     : Nat
  deriving DecidableEq, Repr

/-- Whether a port has tags for a read of n bytes at a (R371). -/
def tagsFree (s : State) (a n : Nat) : Bool :=
  let p := s.ports.getD (streamPort a) .reset
  (tagsIn p.outRd).length + (a % 64 + n + 63) / 64 ≤ 2048

/-- Whether a read can be made now: every 512-B piece of one of memory finds tags at its port and a staging slot under the credits of its
stream (R371, R372, R376). -/
def spanFits (s : State) (pass : Nat) (cls : BitVec 2) (x : Span) : Bool :=
  x.inStore ||
  (let t := readerStream s pass x.reader
   slotRoom s t.1 t.2 cls 1 && (pieces 512 x.addr x.len).all fun y => tagsFree s y.1 y.2.2)

/-- What a read leaves: in the store, corrected lines (R25); of memory, bytes counted at each piece's port (R370), and each beat that
draws an error response counted (R390); those of the command processor go through its own port. -/
def seeSpan (asid : Nat) (s : State) (x : Span) : State :=
  if x.inStore then seenLines s x.addr x.len
  else if x.reader = .command then cpRead s asid 0 x.addr x.len
  else
    let s := (pieces 512 x.addr x.len).foldl (fun s y => count s (96 + 2 * streamPort y.1) y.2.2) s
    let bad := (beatsOf asid x.addr x.len).filter s.chip.errors.contains
    if bad.isEmpty then s else count s 45 bad.length

/-- The reads of a step made, in order. -/
def seeSpans (s : State) (c : Nat) (l : List Span) : State := l.foldl (seeSpan (asidOf s c)) s

/-! ## Plans -/

/-- How a plan ends: a refusal, a translation fault, poison (source of Table 13.14), or what the step needs. -/
inductive PlanEnd (α : Type) where
  | deny (d : Deny)
  | xlate (r : Reader) (a : Nat)
  | poison (source : Nat) (r : Reader) (a : Nat)
  | go (x : α)

/-- What a step finds before it acts: the reads it makes, and how that ends. -/
structure Plan (α : Type) where
  reads : List Span
  out   : PlanEnd α

/-- A refusal. -/
def Plan.deny {α : Type} (d : Deny) : Plan α := ⟨[], .deny d⟩
/-- A translation fault. -/
def Plan.xlate {α : Type} (r : Reader) (a : Nat) : Plan α := ⟨[], .xlate r a⟩
/-- Poison consumed. -/
def Plan.poison {α : Type} (source : Nat) (r : Reader) (a : Nat) : Plan α := ⟨[], .poison source r a⟩
/-- A plan that needs no read. -/
def Plan.go {α : Type} (x : α) : Plan α := ⟨[], .go x⟩

/-- The refusal of a plan. -/
def Plan.refusal {α : Type} (p : Plan α) : Option Deny := match p.out with | .deny d => some d | _ => none

/-- A plan carried on by what follows it. -/
def Plan.bind {α β : Type} (p : Plan α) (k : α → Plan β) : Plan β :=
  match p.out with
  | .deny d => ⟨p.reads, .deny d⟩
  | .xlate r a => ⟨p.reads, .xlate r a⟩
  | .poison n r a => ⟨p.reads, .poison n r a⟩
  | .go x => ⟨p.reads ++ (k x).reads, (k x).out⟩

/-- A plan for each element of a list, in order. -/
def planList {α β : Type} (k : α → Plan β) : List α → Plan (List β)
  | [] => .go []
  | a :: r => (k a).bind fun b => let y := planList k r
    ⟨y.reads, match y.out with
      | .deny d => .deny d
      | .xlate r a => .xlate r a
      | .poison n r a => .poison n r a
      | .go bs => .go (b :: bs)⟩

/-- A plan for each element of a list in order, each going on from what the one before gathered. -/
def planFold {α β : Type} (k : β → α → Plan β) : β → List α → Plan β
  | b, [] => .go b
  | b, a :: r => (k b a).bind fun b => planFold k b r

/-- A plan that a check may refuse. -/
def planCheck (l : List (Bool × Deny)) : Plan Unit := match firstDeny l with | some d => .deny d | none => .go ()

/-- A plan that a check found beforehand refuses. -/
def orDeny {α : Type} (e : Option Deny) (p : Plan α) : Plan α := match e with | some d => ⟨p.reads, .deny d⟩ | none => p

/-- The source code of poison read from a space (Table 13.14). -/
def poisonSource (inStore : Bool) : Nat := if inStore then 1 else 0

/-- A read of a pass from the context's memory or from the store. -/
def passRead (s : State) (c : Nat) (inStore : Bool) (a n : Nat) : MemRead :=
  if inStore then storeRead s.store a n else chipRead s.chip (asidOf s c) a n

/-- A read whose poison is for what follows to judge; a translation fault ends the plan, and comes first where a read meets both
(log entry 86). -/
def planSee {α : Type} (s : State) (c : Nat) (inStore : Bool) (r : Reader) (a n : Nat) (k : MemRead → Plan α) : Plan α :=
  let m := passRead s c inStore a n
  if n = 0 then k m
  else match m.xlate with
    | some x => ⟨[⟨inStore, r, a, n⟩], .xlate r x⟩
    | none => ⟨⟨inStore, r, a, n⟩ :: (k m).reads, (k m).out⟩

/-- A read whose bytes are consumed: poison among them ends the plan. -/
def planRead {α : Type} (s : State) (c : Nat) (inStore : Bool) (r : Reader) (a n : Nat) (k : List Byte → Plan α) : Plan α :=
  planSee s c inStore r a n fun m => match m.bad with
    | some x => .poison (poisonSource inStore) r x
    | none => k m.bytes

/-- Poison among n bytes at an offset within what a read answered, which is consumed; else what follows. -/
def planSound {α : Type} (s : State) (c : Nat) (inStore : Bool) (r : Reader) (a n : Nat) (k : Plan α) : Plan α :=
  match (passRead s c inStore a n).bad with
  | some x => .poison (poisonSource inStore) r x
  | none => k

/-! ## What a plan ends with -/

/-- A pass whose read does not translate (R391). -/
def xlatePass (s : State) (p : Pass) (r : Reader) (a : Nat) : State :=
  faultPass s p stXlate (xlatePayload (readerStream s p.slot r).2 false a [])

/-- A poisoned value consumed by a pass (R81, R323): its stream where the ports brought it (Table 13.14). -/
def consumePoison (s : State) (p : Pass) (source : Nat) (r : Reader) (a : Nat) : State :=
  faultPass s p stPoison (poisonPayload (if source = 0 then (readerStream s p.slot r).2 else 0xFFFF) source a)

/-- A plan of a pass at work: its reads are made; what failed ends the pass, the rest is k's. -/
def onPlan {α : Type} (s : State) (p : Pass) (x : Plan α) (k : State → α → State) : State :=
  let s := seeSpans s p.ctx x.reads
  match x.out with
  | .deny _ => s
  | .xlate r a => xlatePass s p r a
  | .poison n r a => consumePoison s p n r a
  | .go y => k s y

/-- A plan of a pass at work that waits until its reads can be made (R371, R372). -/
def onReads {α : Type} (s : State) (p : Pass) (x : Plan α) (k : State → α → State) : State :=
  if x.reads.all (spanFits s p.slot p.cls) then onPlan s p x k else s

/-- A pass admitted by its plan: its Pass input streams open, the reads are made; what failed ends it with a fault, the rest is go's. -/
def admitPlan {α : Type} (s : State) (c ring : Nat) (f : Fetched) (body : Body) (arrays : Nat) (plan : Plan α)
    (go : State → Nat → α → State) : State :=
  let slot := freeSlot s
  match plan.out with
  | .deny _ => s
  | _ =>
    let s := admitBody s c ring f body
    match passOf s slot with
    | none => s
    | some p => onPlan (openInputs s p arrays) p plan fun s x => go s slot x

end Sys2Proof.Machine
end

