-- ==== Sys2Proof/Machine/Search.lean ====
section
/-! DEFINITION. SEARCH (R54 to R84): admission, margins (R415), samples (R418, R423), batches (R156), visits (R61 to R66), the final
filter (R67 to R69), hit lists (R73 to R80). -/
namespace Sys2Proof.Machine

/-! ## Checks -/

/-- The offset of the tree header word j in an inner-product root (Table 3.1). -/
def rootWord (d j : Nat) : Nat := 64 + 16 * d + 8 * j + 4

/-- The header of an inner-product tree (Table 3.2), from the bytes of its root. -/
def parseRoot (d : Nat) (b : List Byte) : TreeRoot :=
  let w := fun j => field b (rootWord d j) 4
  { geometric := false, dims := bitsOf (w 2) 7 0, rangeExp := toSigned 1 (bitsOf (w 2) 15 8), keySpan := w 3,
    keyBase := w 4 + 2 ^ 32 * bitsOf (w 5) 9 0, leafCount := w 6, firstLeaf := w 7, nodeCount := w 7 + w 6, primKind := 0,
    primCount := 0 }

/-- The checks of Table 13.8 for reserved bits and encodings. -/
def searchReserved (f : Fetched) : List (Bool × Deny) :=
  [(bitsOf (field f.block 123 1) 2 1 = 3, denyBlock f stDesc 123), (bitsOf (field f.block 124 1) 7 2 != 0, denyBlock f stDesc 124),
   (!zeroAt f.block [(125, 3)], denyBlock f stDesc (firstNonzero f.block [(125, 3)]))]

/-- The checks of R55 in its order; those of the root header apply where it could be read. -/
def searchChecks (f : Fetched) (p : SearchParams) (root : Option (List Byte)) : List (Bool × Deny) :=
  let d := p.locDims
  let h := root.map (parseRoot d)
  let at4 := fun o => (⟨stDesc, 4, o, p.treeAddr⟩ : Deny)
  [(d = 0 || d > 64 || d % 8 != 0, denyBlock f stDesc 122), (h.any (·.dims != d), denyBlock f stDesc 122),
   (!p.threshold && (p.keyDims = 0 || p.keyDims > 256), denyBlock f stDesc 120),
   (!p.threshold && p.literal && (isNan p.delta || flt p.delta 0), denyBlock f stDesc 108),
   (isNan p.sigma || flt p.sigma 0, denyBlock f stDesc 112), (p.threshold && isNan p.tau, denyBlock f stDesc 116),
   (p.segSize < (p.queryCount + 1) * 8, denyBlock f stDesc 80),
   (!p.wideIndex && h.any (fun h => if p.threshold then 2 ^ 32 < h.leafCount else 2 ^ 32 < h.keyBase + h.keySpan), denyBlock f stDesc 123),
   (root.any (fun b => field b (rootWord d 2 + 3) 1 != 1), at4 (rootWord d 2 + 3)),
   (h.any (fun h => h.rangeExp < -100 || 100 < h.rangeExp), at4 (rootWord d 2 + 1))]

/-- Where the margin of an entry lies in snapshot slot k of a calibration area (Table 12.3). -/
def marginAddr (x : CalibArea) (k entry : Nat) : Nat := x.addr + 256 + 16 * x.entries + 4 * k * x.entries + 4 * entry

/-- The slot of a calibration area that holds a snapshot (Table 12.4). -/
def snapshotSlot (h : List Byte) (n : U32) : Option Nat :=
  (List.range 4).find? fun k => bitOf (field h 32 1) k && field h (16 + 4 * k) 4 == n.toNat

/-- Δ of a REFINE pass: the literal one, or that of a committed snapshot (R56, R415); where and the offsets name the fields of its
parameters that say which. -/
def planDelta (s : State) (x : Ctx) (literal : Bool) (delta snapshot : U32) (index : Nat) (noSnap noIndex : Deny) : Plan U32 :=
  if literal then .go delta
  else match x.calib with
    | none => .deny noSnap
    | some a =>
      planRead s 0 true .command (a.addr + 16) 17 fun h =>
        match snapshotSlot (List.replicate 16 0 ++ h) snapshot with
        | none => .deny noSnap
        | some k =>
          if a.entries ≤ index then .deny noIndex
          else planRead s 0 true .command (marginAddr a k index) 4 fun b => .go (BitVec.ofNat 32 (leNat b))

/-- The node-store ranges that a SEARCH names (R564), tree before keys. -/
def searchRanges (x : Ctx) (p : SearchParams) (h : TreeRoot) : List (Bool × Deny) :=
  (if p.treeInStore then [denyRange stPermission x 1 0 p.treeAddr (h.nodeCount * ipStride p.locDims)] else []) ++
  (if p.keyInStore && !p.threshold then
    [denyRange stPermission x 1 32 p.keyAddr (16 * h.leafCount * keyStride p.keyFormat p.keyDims)] else [])

/-- What the admission of a SEARCH finds once its root header is read: the header and Δ, or what R55, R56, R415 and R31 refuse. -/
def planSearchRoot (s : State) (x : Ctx) (f : Fetched) (p : SearchParams) (root : List Byte) : Plan (TreeRoot × U32) :=
  match firstDeny (searchChecks f p (some root)) with
  | some e => .deny e
  | none =>
    let h := parseRoot p.locDims root
    let delta : Plan U32 := if p.threshold then .go 0 else
      planDelta s x p.literal p.delta p.snapshot p.marginIndex (denyBlock f stDesc 100) (denyBlock f stDesc 104)
    match delta.refusal, firstDeny (searchRanges x p h) with
    | none, some e => .deny e
    | _, _ => delta.bind fun dl => .go (h, dl)

/-- What the admission of a SEARCH in context c finds (R54 to R56, R62, R415, R564). -/
def planSearch (s : State) (c : Nat) (x : Ctx) (f : Fetched) : Plan (TreeRoot × U32) :=
  let p := parseSearch f.block
  let d := p.locDims
  match firstDeny (searchReserved f) with
  | some e => .deny e
  | none =>
    let e0 := firstDeny (searchChecks f p none)
    match (if p.treeInStore then firstOutside x.windows p.treeAddr (ipStride d) else none) with
    | some b => orDeny e0 (.deny ⟨stPermission, 1, 0, b⟩)
    | none =>
      let rdr := Reader.array 0 0
      let root := planSee s c p.treeInStore rdr p.treeAddr (ipStride d) fun r =>
        planSound s c p.treeInStore rdr (p.treeAddr + rootWord d 2) 44 (planSearchRoot s x f p r.bytes)
      match root.out with
      | .xlate _ _ => orDeny e0 root
      | .poison _ _ _ => orDeny e0 root
      | _ => root

/-! ## Hit lists (R73 to R77) -/

/-- The header of a hit list (Table 2.2). -/
def hitHeader (passId : U32) (q required capacity : Nat) (scores wide : Bool) : List Byte :=
  layout 64 [(0, 8, min required capacity), (8, 1, bit wide + 4 * bit (required > capacity) + 8 * bit scores), (16, 8, capacity),
    (24, 8, required), (32, 4, q), (36, 4, passId.toNat)]

/-- A segment entry (R75). -/
def segEntry (pos : Nat) (capped : Bool) : List Byte := natLe 8 (pos % 2 ^ 48 + if capped then 2 ^ 63 else 0)

/-- The writes of a query's entries from position pos of a hit list (R74): indices of width w and, where asked for, scores; those at
or beyond the capacity are not written (R76). -/
def entryWrites (hit capacity w pos : Nat) (scores : Bool) (es : List Cand) : List (Nat × List Byte) :=
  let fit := (es.zipIdx.map fun e => (pos + e.2, e.1)).filter fun e => e.1 < capacity
  (fit.map fun e => (hit + 64 + e.1 * w, natLe w e.2.key)) ++
  (if scores then fit.map fun e => (hit + 64 + capacity * w + 4 * e.1, natLe 4 e.2.val.toNat) else [])

/-! ## The walk -/

/-- A walk over n items, none admitted. -/
def newWalk (n : Nat) : Walk :=
  { count := n, next := 0, evicted := [], batches := [], gen := 0, retired := [], placed := 0, total := 0, written := 0, cappedN := 0,
    anyN := 0, anyByte := 0 }

/-- A SEARCH whose every query is placed: its last segment entry, and its header once the rest is acknowledged (R75 to R77). -/
def finishSearch (s : State) (slot : Nat) : State :=
  match passOf s slot with
  | none => s
  | some p => match p.body with
    | .search b =>
      if b.walk.placed != b.walk.count || p.status.isSome then s
      else
        let w := b.walk
        let q := b.par
        let s := passWrite s slot (q.segAddr + 8 * w.count) (segEntry w.total false)
        modPass s slot fun p =>
          { p with status := some stOk, truncated := decide (q.hitCapacity < w.total),
                   lastWrites := [(q.hitAddr, hitHeader p.passId w.count w.total q.hitCapacity q.scoreOut q.wideIndex)],
                   detail0 := BitVec.ofNat 64 w.total, detail1 := BitVec.ofNat 64 (min w.total q.hitCapacity),
                   detail2 := BitVec.ofNat 64 w.cappedN }
    | _ => s

/-! ## Samples (R418, R423) -/

/-- The mixing function of R418. -/
def mix (v : U64) : U64 :=
  let a := (v ^^^ (v >>> 30)) * 0xBF58476D1CE4E5B9
  let b := (a ^^^ (a >>> 27)) * 0x94D049BB133111EB
  b ^^^ (b >>> 31)

/-- Whether query j is sampled (R418). -/
def isSampled (rate keyBase marginIndex : Nat) (snapshot : U32) (j : Nat) : Bool :=
  let h := mix (BitVec.ofNat 64 (keyBase + marginIndex * 2 ^ 42))
  let z := mix (BitVec.ofNat 64 (snapshot.toNat * 2 ^ 32 + j) ^^^ h)
  z.toNat % 2 ^ rate == 0

/-- Lists of at most n elements. -/
def chunks {α : Type} (n : Nat) : Nat → List α → List (List α)
  | 0, _ => []
  | f + 1, l => if l.isEmpty then [] else l.take n :: chunks n f (l.drop n)

/-- The lowest entry of the sweep queue that is free. -/
def freeSweep (s : State) : Nat := ((List.range 256).find? fun n => s.awl.sweeps.all (·.entry != n)).getD 0

/-- A sweep queued for up to 64 sampled queries, or its samples counted as unfinished when the queue of 256 is full (R423, Table
16.11). -/
def queueSweep (slot c : Nat) (mk : Nat → Sample) (s : State) (js : List Nat) : State :=
  if s.awl.sweeps.length < 256 then
    { s with awl := { s.awl with sweeps := s.awl.sweeps ++ [⟨freeSweep s, slot, c, js, none⟩], samples := s.awl.samples ++ js.map mk } }
  else count (skipCount s c 1 js.length) 160 js.length

/-- The sample set of a SEARCH formed at its admission (R423). While no flock may take BACKGROUND groups no sweep starts (R478). -/
def formSamples (s : State) (slot : Nat) (p : Pass) (q : SearchParams) (h : TreeRoot) : State :=
  if q.threshold || q.literal || s.regs.awlRate = 0 || ((ctxOf s p.ctx).bind (·.calib)).isNone then s
  else
    let js := (List.range q.queryCount).filter (isSampled s.regs.awlRate.toNat h.keyBase q.marginIndex q.snapshot)
    let mk := fun j => (⟨p.ctx, slot, BitVec.ofNat 16 q.marginIndex, h.keyBase, j, p.passId, q.snapshot, none, none⟩ : Sample)
    (chunks 64 (js.length + 1) js).foldl (queueSweep slot p.ctx mk) s

/-- A SEARCH admitted (R54): its samples; with no query it writes its empty hit list (R82). -/
def searchGo (f : Fetched) (s : State) (slot : Nat) (x : TreeRoot × U32) : State :=
  let q := parseSearch f.block
  let s := modPass s slot fun p => { p with body := .search { par := q, root := x.1, delta := x.2, walk := newWalk q.queryCount } }
  match passOf s slot with
  | none => s
  | some p => finishSearch (formSamples s slot p q x.1) slot

/-- Whether the receive half of a handoff is still to end (R189). -/
def Half.arrives : Half → Bool
  | .off => false
  | .done => false
  | _ => true

/-- Whether a tree is still arriving over the ring port into one of some node-store ranges (R51). -/
def arriving (s : State) (c : Nat) (ranges : List (Nat × Nat)) : Bool :=
  s.passes.any fun p => p.ctx == c && match p.body with
    | .handoff h => h.recv.arrives && ranges.any fun r => r.2 != 0 && h.recvLen != 0 && overlaps r.1 r.2 h.recvAddr h.recvLen
    | _ => false

/-- The node-store ranges of the tree and the keys that a SEARCH names, as its root header stands. -/
def searchNames (s : State) (p : SearchParams) : List (Nat × Nat) :=
  let d := p.locDims
  let h := parseRoot d (storeRead s.store p.treeAddr (ipStride d)).bytes
  (if p.treeInStore then [(p.treeAddr, ipStride d), (p.treeAddr, h.nodeCount * ipStride d)] else []) ++
  (if p.treeInStore && p.keyInStore && !p.threshold then [(p.keyAddr, 16 * h.leafCount * keyStride p.keyFormat p.keyDims)] else [])

/-- Whether the SEARCH at the head of a ring waits for the arrival of the tree it names (R51). -/
def searchHeld (s : State) (c ring : Nat) : Bool :=
  match admissible s c ring with
  | some f => isOp opSearch f && arriving s c (searchNames s (parseSearch f.block))
  | none => false

/-- SEARCH (R51, R54): one that names a tree still arriving waits. -/
def execSearch (ctx : BitVec 12) (ring : BitVec 4) (s : State) : Host.Outcome State Fault Refusal :=
  .next (if searchHeld s ctx.toNat ring.toNat then s
    else admitWith s ctx.toNat ring.toNat (isOp opSearch) (fun s x f => (planSearch s ctx.toNat x f).refusal) fun s f =>
      match ctxOf s ctx.toNat with
      | some x => admitPlan s ctx.toNat ring.toNat f .plain 4 (planSearch s ctx.toNat x f) (searchGo f)
      | none => s)

/-! ## Hit staging (R34, R79) -/

/-- The candidate entries that a pass holds. -/
def candsOf (s : State) (p : Pass) : Nat :=
  ((s.fold.items.filter (·.pass == p.slot)).map fun i => i.cands.length).sum +
  (match passWalk p with | some w => (w.retired.map fun r => r.entries.length).sum | none => 0)

/-- The 64-KiB blocks of hit staging in use: one of state entries per admitted batch, candidates by 4096. -/
def hitBlocks (s : State) : Nat :=
  (s.passes.map fun p => ceilDiv (candsOf s p) 4096 + (match passWalk p with | some w => w.batches.length | none => 0)).sum

/-- The blocks of hit staging. -/
def hitLimit (s : State) : Nat := hitMib s * 16

/-- The order of R69: score descending, equal scores by ascending key index. -/
def rankBefore (a b : Cand) : Bool := realKey b.val < realKey a.val || (realKey a.val = realKey b.val && a.key < b.key)

/-- Candidates in the order of R69. -/
def ranked (l : List Cand) : List Cand := sortBy (fun a b => !rankBefore b a) l

/-- The greater of two scores, one perhaps absent. -/
def maxScore (a : Option U32) (b : U32) : Option U32 :=
  match a with
  | some x => if flt x b then some b else some x
  | none => some b

/-- Step 1 of R79 for one query: candidates below the filter go, and those beyond K_max by rank, the highest of them noted. -/
def thinItem (threshold : Bool) (delta : U32) (k : Nat) (i : Item) : Item :=
  let l := ranked (i.cands.filter fun c => threshold || exactGe c.val delta i.best)
  { i with cands := l.take k, ranked := (l.drop k).foldl (fun r c => maxScore r c.val) i.ranked }

/-- Step 1 of R79 for a pass. -/
def thinPass (s : State) (slot : Nat) (threshold : Bool) (delta : U32) (k : Nat) : State :=
  { s with fold := { s.fold with items := s.fold.items.map fun i => if i.pass = slot then thinItem threshold delta k i else i } }

/-! ## BATCH_ADMIT -/

/-- The item-table units of an item of a pass (Table 5.3). -/
def itemUnits (p : Pass) : Nat := match p.body with | .search b => ceilDiv (b.par.locDims + 4) 8 | _ => 3

/-- The gaps of the item table, each (first unit, units), with the units in use sorted. -/
def tableGaps (used : List (Nat × Nat)) : List (Nat × Nat) :=
  let r := (sortBy (fun a b => decide (a.1 ≤ b.1)) used).foldl
    (fun (g : List (Nat × Nat) × Nat) u => (g.1 ++ [(g.2, u.1 - g.2)], max g.2 (u.1 + u.2))) ([], 0)
  r.1 ++ [(r.2, 262144 - r.2)]

/-- The units of the item table in use, as (first unit, units). -/
def unitsUsed (s : State) : List (Nat × Nat) := s.fold.items.map fun i => (i.ref, i.units)

/-- The lowest position at which n units of the item table are free (Table 5.1: 262,144 units). -/
def freeUnits (used : List (Nat × Nat)) (n : Nat) : Nat := (((tableGaps used).find? (n ≤ ·.2)).map (·.1)).getD 0

/-- Whether the item table has room for k entries of n units, each in one piece (R156). -/
def tableRoom (used : List (Nat × Nat)) (n k : Nat) : Bool := k ≤ ((tableGaps used).map fun g => g.2 / n).sum

/-- The next batch of a walk: the lowest one evicted, else the next 4096 items. -/
def nextBatch (w : Walk) : Option Batch :=
  match bestBy (fun a b => a.first < b.first) w.evicted with
  | some b => some b
  | none => if w.next < w.count then some ⟨w.next, min 4096 (w.count - w.next), w.gen, 0⟩ else none

/-- A walk with a batch admitted. -/
def takeBatch (b : Batch) (order : Nat) (w : Walk) : Walk :=
  { w with evicted := w.evicted.filter (· != b), batches := w.batches ++ [{ b with order := order }],
           next := max w.next (b.first + b.count) }

/-- Whether a batch may be admitted now (R156, R171): no slice above high water, room in the item table for 4096 entries, a block of
hit staging; without one the batch waits (Table 1.4). -/
def batchFits (s : State) (p : Pass) : Bool :=
  (List.range 4).all (fun q => !aboveHigh s q) && tableRoom (unitsUsed s) (itemUnits p) 4096 && hitBlocks s + 1 ≤ hitLimit s

/-- The element of a query locator: FP32, or BF16 widened. -/
def locElem (bf16 : Bool) (b : List Byte) (i : Nat) : U32 :=
  if bf16 then ofBf16 (BitVec.ofNat 16 (field b (2 * i) 2)) else BitVec.ofNat 32 (field b (4 * i) 4)

/-- The root's record of an item (R161). Its bound never prunes. -/
def rootRecord (p : Pass) (target : Nat) (inStore trace : Bool) (lo hi : U32) (ref j : Nat) (gen : U16) : Record :=
  { valueHi := hi, valueLo := lo, entryRef := ref, item := j, target := target, number := 0, pass := p.slot, inMemory := !inStore,
    trace := trace, leaf := false, primsM1 := 0, gen := gen, settle := 0, poison := false }

/-- An item placed in the item table and its root record on its way. -/
def addItem (s : State) (i : Item) (r : Nat → Record) : State :=
  let ref := freeUnits (unitsUsed s) i.units
  { s with fold := { s.fold with items := s.fold.items ++ [{ i with ref := ref }], arrivals := s.fold.arrivals ++ [r ref] } }

/-- A fresh item. -/
def newItem (p : Pass) (j : Nat) (gen : U16) (words : List U32) (poison inert : Bool) (best : U32) : Item :=
  { ref := 0, units := itemUnits p, pass := p.slot, index := j, gen := gen, words := words, poison := poison, inert := inert,
    count := 1, best := best, cands := [], capped := false, ranked := none, stop := false }

/-- A condition of DEGRADED noted on a pass. -/
def degradePass (s : State) (slot : Nat) (d : Degrade) : State := modPass s slot fun p => { p with degrade := p.degrade.join d }

/-- What the admission of a query reads: whether its locator or residual norm arrived poisoned, its words, and the running best it starts
from (R62, R67, R81): −∞ without a best array, for a NaN, and in THRESHOLD mode. -/
def planLocator (s : State) (c quad : Nat) (q : SearchParams) (j : Nat) : Plan (Bool × List U32 × U32) :=
  let n := q.locDims * (if q.qlocBf16 then 2 else 4)
  planSee s c false (.array quad 0) (q.qLocAddr + j * n) n fun l =>
    planSee s c false (.array quad 1) (q.qResAddr + 4 * j) 4 fun r =>
      planRead s c false (.array quad 3) (q.bestInAddr + 4 * j) (if q.threshold || q.bestInAddr = 0 then 0 else 4) fun b =>
        let v : U32 := BitVec.ofNat 32 (leNat b)
        .go (l.bad.isSome || r.bad.isSome,
          (List.range q.locDims).map (locElem q.qlocBf16 l.bytes) ++ [BitVec.ofNat 32 (leNat r.bytes)],
          if b.isEmpty || isNan v then ninf32 else v)

/-- A query admitted with what was read of it. -/
def admitQuery (p : Pass) (b : SearchBody) (gen : U16) (s : State) (x : Nat × Bool × List U32 × U32) : State :=
  addItem s (newItem p x.1 gen x.2.2.1 x.2.1 false x.2.2.2) fun ref =>
    rootRecord p b.par.treeAddr b.par.treeInStore false inf32 0 ref x.1 gen

/-! ## A visit to a node (R61 to R66, R94, R96) -/

/-- What a record's processing found: records and scored keys, conditions of DEGRADED, results that were not finite. -/
structure Visit where
  out       : List Record
  sc        : List Scored
  deg       : Degrade
  nonfinite : Nat

/-- The record of child j of a node that a record visits. -/
def childRecord (r : Record) (tree stride num : Nat) (leaf : Bool) (lo hi : U32) (prims : Nat) (ref : Nat) : Record :=
  { r with valueHi := hi, valueLo := lo, entryRef := ref, target := tree + stride * num, number := num, leaf := leaf, primsM1 := prims }

/-- A scored key or leaf of an item. -/
def scoredKey (r : Record) (key : Nat) (v aux : U32) (side raised : Bool) : Scored :=
  { pass := r.pass, item := r.item, gen := r.gen, cand := ⟨key, v, aux, side⟩, raised := raised, settle := 0 }

/-- What the bytes of an inner-product node give a SEARCH record: the children that R63, or R71, does not prune; bad tells poison among
bytes of the node. A root with child_count 0 holds no key, and degrades nothing (R83). -/
def nodeVisit (b : SearchBody) (i : Item) (r : Record) (nb : List Byte) (bad : Nat → Nat → Bool) : Visit :=
  let q := b.par
  let d := q.locDims
  let absent := ipAbsent d r.number b.root.nodeCount b.root.firstLeaf nb
  let frames := i.poison || bad 0 d
  let spoilt := fun j => frames || bad (64 + 2 * d * j) (2 * d) || bad (64 + 16 * d + 8 * j) 4
  let n := if absent then 0 else ipCount d nb
  let rho := i.words.getD d 0
  let kids := (List.range n).map fun j =>
    (j, if spoilt j then inf32 else ipBound d b.root.rangeExp nb j (i.words.take d) rho q.sigma)
  let keep := kids.filter fun k => if q.threshold then !flt k.2 q.tau else !pruned k.2 i.best b.delta
  let deg : Degrade := ⟨(List.range n).any spoilt, absent || (ipBadFrame d nb && !emptyRoot r.number (ipCount d nb)), false, false⟩
  let num := fun j => ipFirst d nb + j
  if q.threshold && ipLeafKids d nb then
    ⟨[], keep.map fun k => scoredKey r (num k.1 - b.root.firstLeaf) k.2 0 false true, deg, 0⟩
  else ⟨keep.map fun k => childRecord r q.treeAddr (ipStride d) (num k.1) (ipLeafKids d nb) k.2 0 0 i.ref, [], deg, 0⟩

/-- The visit of a SEARCH record to an inner-product node. Poison in child entry words 0 and 1 ends the pass (R62, R81). -/
def visitNode (s : State) (c : Nat) (rdr : Reader) (b : SearchBody) (i : Item) (r : Record) : Plan Visit :=
  let q := b.par
  let d := q.locDims
  planSee s c q.treeInStore rdr r.target (ipStride d) fun m =>
    planSound s c q.treeInStore rdr (r.target + rootWord d 0) 12
      (.go (nodeVisit b i r m.bytes fun o k => (passRead s c q.treeInStore (r.target + o) k).bad.isSome))

/-- What the scoring of the keys of a leaf has gathered so far. -/
structure Scoring where
  out       : List Scored
  tree      : Bool
  nonfinite : Nat

/-- Whether every element and scale of a full-key record is finite (R413). -/
def recordFinite (fmt dims : Nat) (r : List Byte) : Bool :=
  (List.range dims).all (fun i => isFin (keyElem fmt dims r i)) && (List.range (ceilDiv dims 32)).all fun j => keyScale fmt dims r j != 0xFF

/-- The score of slot k of a leaf, where it is full and its key eligible (R57, R60, R96). -/
def scoreSlot (s : State) (c : Nat) (rdr : Reader) (b : SearchBody) (r : Record) (leaf query : List Byte) (t : Scoring) (k : Nat) :
    Plan Scoring :=
  let q := b.par
  let off := leafOffset q.locDims leaf k
  let key := b.root.keyBase + off
  if off = 0xFFFFFFFF then .go t
  else if b.root.keySpan ≤ off then .go { t with tree := true }
  else if q.causalEn && decide ((r.item : Int) + q.causalOffset < key) then .go t
  else
    let n := keyStride q.keyFormat q.keyDims
    planRead s c q.keyInStore rdr (q.keyAddr + (16 * (r.number - b.root.firstLeaf) + k) * n) n fun m =>
      let v := scoreOf q.keyFormat q.keyDims query m
      let fin := recordFinite q.keyFormat q.keyDims query && recordFinite q.keyFormat q.keyDims m
      let t := if isFin v || !fin then t else { t with nonfinite := t.nonfinite + 1 }
      .go (if isNan v then t else { t with out := t.out ++ [scoredKey r key v 0 false false] })

/-- The refine of a leaf record: every eligible key beneath it scored (R57, R66, R81). -/
def visitLeaf (s : State) (c : Nat) (rdr : Reader) (quad : Nat) (b : SearchBody) (r : Record) : Plan Visit :=
  let q := b.par
  let d := q.locDims
  let n := keyStride q.keyFormat q.keyDims
  planSee s c q.treeInStore rdr r.target (ipStride d) fun leaf =>
    planSound s c q.treeInStore rdr (r.target + 64 + 16 * d) 64
      (planRead s c false (.array quad 2) (q.qFullAddr + r.item * n) n fun full =>
        (planFold (scoreSlot s c rdr b r leaf.bytes full) ⟨[], false, 0⟩ (List.range 16)).bind fun t =>
          .go ⟨[], t.out, ⟨false, t.tree, false, false⟩, t.nonfinite⟩)

/-! ## Retirement (R67 to R69, R80) -/

/-- The retained list of a query and its capped flag. -/
def filterItem (q : SearchParams) (delta : U32) (i : Item) : Retired :=
  let k := q.kMaxM1 + 1
  let f := ranked (i.cands.filter fun c => q.threshold || exactGe c.val delta i.best)
  let ovl := decide (k < f.length) || (match i.ranked with | some v => q.threshold || exactGe v delta i.best | none => false)
  { index := i.index, entries := sortBy (fun a b => decide (a.key ≤ b.key)) (f.take k), capped := ovl, best := i.best, any := !f.isEmpty }

/-- What N of R420 adds, over the retained keys. -/
def narrowTerms (r : Retired) : List U32 := r.entries.map fun c => expF (fsub .rn c.val r.best)

/-- A sampled query retires: its N is formed (R420), and counts when it is not finite though all it adds is (R413). -/
def noteNarrow (s : State) (slot : Nat) (r : Retired) : State :=
  let hit := fun (x : Sample) => x.pass == slot && x.query == r.index
  let mine := if sumWild (narrowTerms r) then s.awl.samples.filter hit else []
  let s := mine.foldl (fun s x => countCtx s x.ctx 0) s
  let note := fun (x : Sample) => if hit x then { x with narrow := some (sumRn (narrowTerms r), r.best) } else x
  { s with awl := { s.awl with samples := s.awl.samples.map note } }

/-- A retired item waits for its place; its entries in the item table and hit staging are freed (R156, R162). -/
def retire (s : State) (slot : Nat) (r : Retired) : State :=
  let s := { s with fold := { s.fold with items := s.fold.items.filter fun i => !(i.pass == slot && i.index == r.index) } }
  modPass s slot (modWalk fun w => { w with retired := w.retired ++ [r] })

/-! ## QUERY_PLACEMENT (R78) -/

/-- A walk past its lowest unplaced item. -/
def placedWalk (r : Retired) (w : Walk) : Walk :=
  { w with retired := w.retired.filter (·.index != r.index), placed := w.placed + 1, total := w.total + r.entries.length,
           cappedN := w.cappedN + bit r.capped, batches := w.batches.filter fun b => w.placed + 1 < b.first + b.count }

/-- The lowest unplaced query of a SEARCH written, when it has retired (R70, R74, R75, R78). -/
def placeQuery (s : State) (slot : Nat) (b : SearchBody) (r : Retired) : State :=
  let q := b.par
  let w := b.walk
  let idx := if q.wideIndex then 8 else 4
  let s := passWrites s slot (entryWrites q.hitAddr q.hitCapacity idx w.total q.scoreOut r.entries)
  let s := passWrite s slot (q.segAddr + 8 * r.index) (segEntry w.total r.capped)
  let s := if q.bestOutAddr = 0 || q.threshold then s else passWrite s slot (q.bestOutAddr + 4 * r.index) (natLe 4 r.best.toNat)
  finishSearch (modPass s slot (modWalk (placedWalk r))) slot

end Sys2Proof.Machine
end

