-- ==== Sys2Proof/Machine/Kernel.lean ====
section
/-! DEFINITION. KERNEL (R456): images and their arguments, and the stock kernel 0x0001, the welt (R194 to R197). -/
namespace Sys2Proof.Machine

/-! ## The welt -/

/-- The arguments of the welt (Table 13.7). -/
structure WeltArgs where
  lists    : Nat
  listTab  : Nat
  segTab   : Nat
  best     : Nat
  snapshot : U32
  index    : Nat
  scores   : Bool
  wide     : Bool
  literal  : Bool
  kMax     : Nat
  delta    : U32
  hit      : Nat
  capacity : Nat
  seg      : Nat
  segSize  : Nat
  deriving DecidableEq, Repr

/-- The arguments read from their ten words. -/
def weltArgs (b : List Byte) : WeltArgs :=
  let w := fun i => field b (8 * i) 8
  { lists := bitsOf (w 0) 14 0, listTab := w 1, segTab := w 2, best := w 3, snapshot := BitVec.ofNat 32 (bitsOf (w 4) 63 32),
    index := bitsOf (w 4) 31 16, scores := bitOf (w 4) 2, wide := bitOf (w 4) 1, literal := bitOf (w 4) 0,
    kMax := bitsOf (w 5) 47 32 + 1, delta := BitVec.ofNat 32 (w 5), hit := w 6, capacity := w 7, seg := w 8, segSize := w 9 }

/-- One input of the welt: where its hit list and segment array lie, and its header. -/
structure WeltList where
  addr : Nat
  seg  : Nat
  head : List Byte
  deriving DecidableEq, Repr

/-- The query count, the index width and the capacity of an input. -/
def WeltList.queries (l : WeltList) : Nat := field l.head 32 4
def WeltList.width (l : WeltList) : Nat := if field l.head 8 1 % 4 = 1 then 8 else 4
def WeltList.capacity (l : WeltList) : Nat := field l.head 16 8

/-- The checks of R194 and of the fields of Table 13.7, in order; a is the address of the arguments, and a field that fails is named by
its byte within its argument word (R562). -/
def weltChecks (a : Nat) (b : List Byte) (x : WeltArgs) (ls : List WeltList) : List (Bool × Deny) :=
  let arg := fun i o => (⟨stDesc, 4, o, a + 8 * i⟩ : Deny)
  let w := fun i => field b (8 * i) 8
  let first := ls.headD ⟨0, 0, []⟩
  let each := fun (bad : WeltList → Bool) (off : Nat) =>
    match ls.find? bad with
    | some l => (true, (⟨stDesc, 4, off, l.addr⟩ : Deny))
    | none => (false, ⟨stDesc, 4, off, 0⟩)
  [(bitsOf (w 0) 63 15 != 0, arg 0 1), (x.lists > 16384, arg 0 0), (bitsOf (w 4) 15 3 != 0, arg 4 0), (bitsOf (w 5) 63 48 != 0, arg 5 6),
   (x.literal && (isNan x.delta || flt x.delta 0), arg 5 0),
   each (fun l => !bitOf (field l.head 8 1) 3) 8, each (fun l => bitOf (field l.head 8 1) 2) 8,
   each (fun l => field l.head 8 1 % 4 != field first.head 8 1 % 4) 8, each (fun l => l.queries != first.queries) 32,
   (x.lists = 0, arg 0 0), (x.segSize < (first.queries + 1) * 8, arg 9 0)]

/-- The entries of query j in an input, and its capped flag (R74, R75). -/
def planEntries (s : State) (c j : Nat) (l : WeltList) : Plan (List Cand × Bool) :=
  (planRead s c false (.array 0 0) (l.seg + 8 * j) 16 .go).bind fun sb =>
    let lo := field sb 0 6
    let n := field sb 8 6 - lo
    let w := l.width
    (planRead s c false (.array 0 0) (l.addr + 64 + lo * w) (n * w) .go).bind fun ib =>
      (planRead s c false (.array 0 0) (l.addr + 64 + l.capacity * w + 4 * lo) (4 * n) .go).bind fun vb =>
        .go ((List.range n).map fun e => (⟨field ib (e * w) w % 2 ^ 42, BitVec.ofNat 32 (field vb (4 * e) 4), 0, false⟩ : Cand),
          bitOf (field sb 7 1) 7)

/-- Whether an input's cap may have hidden a key of query j (R196): capped, and its lowest retained score passes the filter. -/
def capHides (delta best : U32) (x : List Cand × Bool) : Bool :=
  x.2 && (match bestBy (fun a b => decide (realKey a.val < realKey b.val)) x.1 with
    | some l => exactGe l.val delta best
    | none => false)

/-- The list of query j (R195, R196). -/
def planQuery (s : State) (c : Nat) (x : WeltArgs) (delta : U32) (ls : List WeltList) (j : Nat) : Plan Retired :=
  (planRead s c false (.array 0 0) (x.best + 4 * j) 4 .go).bind fun bb =>
    let best : U32 := BitVec.ofNat 32 (leNat bb)
    (planList (planEntries s c j) ls).bind fun es =>
      let kept := ranked ((es.flatMap (·.1)).filter fun e => exactGe e.val delta best)
      .go { index := j, entries := sortBy (fun a b => decide (a.key ≤ b.key)) (kept.take x.kMax),
            capped := decide (x.kMax < kept.length) || es.any (capHides delta best), best := best, any := !kept.isEmpty }

/-- What a run of the welt finds: every input header is read, and everything it needs before it writes (R194). -/
def planWelt (s : State) (c : Nat) (ctx : Ctx) (a : Nat) : Plan (WeltArgs × Nat × List Retired) :=
  (planRead s c false (.array 0 0) a 80 .go).bind fun b =>
    let x := weltArgs b
    (planCheck ((weltChecks a b x []).take 5)).bind fun _ =>
      (planRead s c false (.array 0 0) x.listTab (8 * x.lists) .go).bind fun lt =>
        (planRead s c false (.array 0 0) x.segTab (8 * x.lists) .go).bind fun st =>
          (planList (fun i => (planRead s c false (.array 0 0) (field lt (8 * i) 8) 64 .go).bind fun h =>
            .go (⟨field lt (8 * i) 8, field st (8 * i) 8, h⟩ : WeltList)) (List.range x.lists)).bind fun ls =>
            (planCheck (weltChecks a b x ls)).bind fun _ =>
              (planDelta s ctx x.literal x.delta x.snapshot x.index ⟨stDesc, 4, 4, a + 32⟩ ⟨stDesc, 4, 2, a + 32⟩).bind fun delta =>
                let q := (ls.headD ⟨0, 0, []⟩).queries
                (planList (planQuery s c x delta ls) (List.range q)).bind fun rs => .go (x, q, rs)

/-- The position of each query's entries. -/
def positionsOf (rs : List Retired) : List Nat :=
  (rs.foldl (fun (t : Nat × List Nat) r => (t.1 + r.entries.length, t.2 ++ [t.1])) (0, [])).2

/-- The work of the welt for its group: its outputs in the layout of R73 to R77, the header last. -/
def weltWork (passId : U32) (x : WeltArgs) (q : Nat) (rs : List Retired) : StockWork :=
  let w := if x.wide then 8 else 4
  let total := (rs.map fun r => r.entries.length).sum
  let at_ := (rs.zip (positionsOf rs))
  { number := 4, left := 1,
    outs := [(false, at_.flatMap fun p => entryWrites x.hit x.capacity w p.2 x.scores p.1.entries),
      (false, at_.map fun p => (x.seg + 8 * p.1.index, segEntry p.2 p.1.capped)), (false, [(x.seg + 8 * q, segEntry total false)])],
    lastWrites := [(x.hit, hitHeader passId q total x.capacity x.scores x.wide)], lastStore := [],
    truncated := decide (x.capacity < total), detail0 := BitVec.ofNat 64 total,
    detail1 := BitVec.ofNat 64 (min total x.capacity), detail2 := BitVec.ofNat 64 (rs.filter (·.capped)).length }

/-! ## KERNEL -/

/-- What a KERNEL is to do. -/
inductive KernelGo where
  | nothing
  | image (i : Image) (args : List U64)
  | welt (x : WeltArgs) (q : Nat) (rs : List Retired)
  deriving DecidableEq, Repr

/-- The image of a KERNEL loaded and checked, with its argument words; images without a time bound are refused where R467 and R475
say so. -/
def planImage (s : State) (c : Nat) (f : Fetched) : Plan KernelGo :=
  let d := f.desc
  let a := field d 16 8
  if a % 128 != 0 then .deny (denyField f stDesc 16)
  else match loadImage s c a (field d 32 4) (denyField f stDesc 32) with
    | .fault r => (match r.xlate with | some x => .xlate (.array 0 0) x | none => .poison 0 (.array 0 0) (r.bad.getD a))
    | .deny e => .deny e
    | .ok i =>
      let free := i.timeBound == 0xFFFFFFFF
      let cls := dClass d
      (planCheck [(free && (cls = 1 || cls = 3), denyField f stDesc 1), (free && (cls = 0 || cls = 2) && allReserved s, denyField f stDesc 1)]).bind
        fun _ => (planRead s c false (.array 0 0) (field d 24 8) (8 * i.argSregs) .go).bind fun b => .go (.image i (wordsOf b i.argSregs))

/-- What the admission of a KERNEL finds (R456, R478). -/
def planKernel (s : State) (c : Nat) (x : Ctx) (f : Fetched) : Plan KernelGo :=
  let d := f.desc
  let stock := field d 36 2
  (planCheck [(dClass d = 2 && noBackground s, denyField f stDesc 1),
    (stock != 0 && field d 16 8 != 0, denyField f stDesc 16), (stock != 0 && field d 32 4 != 0, denyField f stDesc 32),
    (stock > 1, denyField f stDesc 36)]).bind fun _ =>
    if stock = 1 then (planWelt s c x (field d 24 8)).bind fun w => .go (.welt w.1 w.2.1 w.2.2)
    else if field d 32 4 = 0 then .go .nothing
    else planImage s c f

/-- A KERNEL admitted: its herds, or the group of its stock kernel, wait to be launched (R476). -/
def kernelGo (herds : Nat) (s : State) (slot : Nat) (x : KernelGo) : State :=
  match x with
  | .nothing => modPass s slot fun p => { p with status := some stOk }
  | .image i args => modPass s slot fun p =>
      { p with body := .kernel { image := i, args := args, herds := herds, next := 0, live := 0, groupsLaunched := 0 } }
  | .welt w q rs => modPass s slot fun p => { p with body := .stock (weltWork p.passId w q rs) }

/-- KERNEL (R456). -/
def execKernel (ctx : BitVec 12) (ring : BitVec 4) (s : State) : Host.Outcome State Fault Refusal :=
  .next (admitWith s ctx.toNat ring.toNat (isOp opKernel) (fun s x f => (planKernel s ctx.toNat x f).refusal) fun s f =>
    match ctxOf s ctx.toNat with
    | some x => admitPlan s ctx.toNat ring.toNat f .plain 1 (planKernel s ctx.toNat x f) (kernelGo (field f.desc 32 4))
    | none => s)

end Sys2Proof.Machine
end

