-- ==== Sys2Proof/Machine/Awl.lean ====
section
/-! DEFINITION. The awl at work (R419 to R425, R477, R478): sweeps started, store lines admitted by window, the sums of a sweep,
sample records. -/
namespace Sys2Proof.Machine

/-! ## The sums of a sweep (R419) -/

/-- The greatest non-NaN score of a chunk, or −∞. -/
def chunkMax (l : List U32) : U32 := l.foldl (fun m x => if flt m x then x else m) ninf32

/-- What w_c adds: E(s_w − m_c) in ascending key index. -/
def chunkTerms (m : U32) (l : List U32) : List U32 := l.map fun x => expF (fsub .rn x m)

/-- (M, W) of a query so far, and how many of its sums were not finite although all they added was (R413). -/
structure Mass where
  m    : U32
  w    : U32
  wild : Nat
  deriving DecidableEq, Repr

/-- One chunk combined with (M, W). -/
def joinChunk (t : Mass) (l : List U32) : Mass :=
  let m := chunkMax l
  let w := sumRn (chunkTerms m l)
  let wild := t.wild + bit (sumWild (chunkTerms m l))
  if isZero w then { t with wild := wild }
  else
    let n := if flt t.m m then m else t.m
    let parts := [fmul .rn t.w (expF (fsub .rn t.m n)), fmul .rn w (expF (fsub .rn m n))]
    ⟨n, sumRn parts, wild + bit (sumWild parts)⟩

/-- (M, W) of a query from its scores by chunk. -/
def sweepMass (cs : List (List U32)) : Mass := (cs.map fun l => l.filter (!isNan ·)).foldl joinChunk ⟨ninf32, 0, 0⟩

/-! ## The keys of a tree -/

/-- A key as a sweep reads it: its index, where its record lies, whether its leaf arrived poisoned. -/
structure SweepKey where
  key : Nat
  at_ : Nat
  bad : Bool
  deriving DecidableEq, Repr

/-- The keys of leaf l of a tree. -/
def leafSweep (s : State) (c : Nat) (b : SearchBody) (l : Nat) : List SweepKey :=
  let q := b.par
  let d := q.locDims
  let m := passRead s c q.treeInStore (q.treeAddr + ipStride d * (b.root.firstLeaf + l)) (ipStride d)
  (List.range 16).filterMap fun k =>
    let off := leafOffset d m.bytes k
    if off = 0xFFFFFFFF || b.root.keySpan ≤ off then none
    else some ⟨b.root.keyBase + off, q.keyAddr + (16 * l + k) * keyStride q.keyFormat q.keyDims, m.bad.isSome⟩

/-- Every key of a tree, in ascending key index. -/
def treeKeys (s : State) (c : Nat) (b : SearchBody) : List SweepKey :=
  sortBy (fun x y => decide (x.key ≤ y.key)) ((List.range b.root.leafCount).flatMap (leafSweep s c b))

/-- The reads of a sweep (R423): every leaf, the full query of each of its samples, and the keys that lie in the store; the blocks of keys
in memory have been read as R425 lets them. -/
def sweepReads (b : SearchBody) (ks : List SweepKey) (js : List Nat) (rdr : Reader) : List Span :=
  let q := b.par
  let n := keyStride q.keyFormat q.keyDims
  ((List.range b.root.leafCount).map fun l => ⟨q.treeInStore, rdr, q.treeAddr + ipStride q.locDims * (b.root.firstLeaf + l), ipStride q.locDims⟩) ++
  (js.map fun j => ⟨false, rdr, q.qFullAddr + j * n, n⟩) ++
  (if q.keyInStore then ks.map fun k => ⟨true, rdr, k.at_, n⟩ else [])

/-- Whether a read of a sweep, or of one of its keys in memory, does not translate. -/
def sweepXlate (s : State) (c : Nat) (b : SearchBody) (ks : List SweepKey) (l : List Span) : Bool :=
  let n := keyStride b.par.keyFormat b.par.keyDims
  (l.any fun x => !x.inStore && (firstUnmapped s.chip (asidOf s c) x.addr x.len).isSome) ||
  (!b.par.keyInStore && ks.any fun k => (firstUnmapped s.chip (asidOf s c) k.at_ n).isSome)

/-- What a sweep finds for query j: its sums, and whether a key it read arrived poisoned. A key is read whether or not it is eligible; a
score that is not finite though its terms are counts (R413). -/
def sweepQuery (s : State) (c : Nat) (b : SearchBody) (ks : List SweepKey) (j : Nat) : Mass × Bool :=
  let q := b.par
  let n := keyStride q.keyFormat q.keyDims
  let full := chipRead s.chip (asidOf s c) (q.qFullAddr + j * n) n
  let terms := fun (k : SweepKey) =>
    if q.causalEn && decide ((j : Int) + q.causalOffset < k.key) then none
    else some (wideTerms q.keyFormat q.keyDims full.bytes (passRead s c q.keyInStore k.at_ n).bytes)
  let bad := full.bad.isSome || ks.any fun k => k.bad || (passRead s c q.keyInStore k.at_ n).bad.isSome
  let ts := (chunks 4096 (ks.length + 1) ks).map fun l => l.filterMap terms
  let w := sweepMass (ts.map fun l => l.map sumRn)
  ({ w with wild := w.wild + (ts.map fun l => (l.filter sumWild).length).sum }, bad)

/-! ## Sweeps at work -/

/-- The SEARCH that a sweep serves, while it is at work. -/
def sweepBody (s : State) (x : Sweep) : Option (Pass × SearchBody) :=
  match passOf s x.pass with
  | some p => (match p.body with
    | .search b => if p.cancelAt.isSome then none else some (p, b)
    | _ => none)
  | none => none

/-- The bytes of the full keys of a tree, the unit in which a sweep reads them (a store line, or a block of memory), and the units read
once it has read the first n chunks of 4096 keys. -/
def keyBytes (b : SearchBody) : Nat := 16 * b.root.leafCount * keyStride b.par.keyFormat b.par.keyDims
def keyUnit (b : SearchBody) : Nat := if b.par.keyInStore then 128 else 512
def chunkUnits (b : SearchBody) (n : Nat) : Nat :=
  let u := keyUnit b
  let len := min (keyBytes b) (n * 4096 * keyStride b.par.keyFormat b.par.keyDims)
  if len = 0 then 0 else (b.par.keyAddr % u + len + u - 1) / u

/-- The chunks of 4096 keys of a tree (R424). -/
def sweepChunks (b : SearchBody) : Nat := ceilDiv (16 * b.root.leafCount) 4096

/-- A sweep with every key read: the sums of its samples are formed and its groups end. Where a read of it does not translate, its samples
are discarded and the SEARCH goes on (R53, log entry 95). -/
def finishSweep (s : State) (x : Sweep) (r : SweepRun) : State :=
  let s := reapAwl { s with awl := { s.awl with sweeps := s.awl.sweeps.filter (·.entry != x.entry) } }
  match sweepBody s x with
  | none => s
  | some (p, b) =>
    let ks := treeKeys s p.ctx b
    let l := sweepReads b ks x.queries (.sweep (r.flock / 8) r.stream)
    let lost := sweepXlate s p.ctx b ks l
    let found := x.queries.map fun j => (j, if lost then (⟨0, 0, 0⟩, true) else sweepQuery s p.ctx b ks j)
    let s := seeSpans s p.ctx l
    let wild := (found.map (·.2.1.wild)).sum
    let s := if wild = 0 then s else countCtx s p.ctx 0 wild
    let note := fun (y : Sample) =>
      match (if y.pass = x.pass then found.find? (·.1 == y.query) else none) with
      | some f => { y with sweep := some (f.2.1.m, f.2.1.w, f.2.2) }
      | none => y
    { s with awl := { s.awl with samples := s.awl.samples.map note } }

/-- Whether no read of a class above BACKGROUND waits at a port (R376, R424). -/
def portQuiet (s : State) (port : Nat) : Bool :=
  let p := s.ports.getD port .reset
  (p.mergeRd ++ p.readyRd).all fun b => burstClass b == 2

/-- The units of its keys that a sweep at work may read now, of n: store lines within its hub's budget of the window, blocks of memory as
the ports and the credits of BACKGROUND streams let it (R376, R425). -/
def sweepRoom (s : State) (p : Pass) (b : SearchBody) (r : SweepRun) (n : Nat) : List Span :=
  let done := chunkUnits b (sweepChunks b) - r.left
  let base := b.par.keyAddr / 512
  let read := fun (i : Nat) =>
    let a := max b.par.keyAddr (512 * (base + done + i))
    (⟨false, .sweep (r.flock / 8) r.stream, a, min (512 * (base + done + i + 1)) (b.par.keyAddr + keyBytes b) - a⟩ : Span)
  if b.par.keyInStore then []
  else (((List.range n).map read).take (s.regs.bgSlotMax.toNat - slotsUsed s (r.flock / 8) fun t => t.cls == 2)).takeWhile fun x =>
    portQuiet s (streamPort x.addr) && spanFits s p.slot 2 x

/-- A sweep's progress noted. -/
def setRun (s : State) (x : Sweep) (r : SweepRun) : State :=
  { s with awl := { s.awl with sweeps := s.awl.sweeps.map fun z => if z.entry = x.entry then { z with run := some r } else z } }

/-- The groups of the chunks that a sweep has read in full leave their cores (R424). -/
def endChunks (s : State) (x : Sweep) (b : SearchBody) (r : SweepRun) : State :=
  let done := chunkUnits b (sweepChunks b) - r.left
  let stays := fun (g : Group) => !(g.stock == .awl && g.herd == x.entry && chunkUnits b (g.number + 1) ≤ done)
  { s with cores := s.cores.map fun kv => (kv.1, { kv.2 with groups := kv.2.groups.filter stays }) }

/-- A group of the stock awl kernel, as a launch. -/
def sweepLaunch (p : Pass) (x : Sweep) : Waiting := ⟨x.pass, p.ctx, 2, 0, p.order, none, 0⟩

/-- Whether a group of a sweep may start on a flock (R477): it may take BACKGROUND groups, a core of it has a slot, and no launch of a
higher class waits that it could take. -/
def sweepFits (s : State) (w : Waiting) (f : Nat) : Bool :=
  flockTakes s f w && (waitingLaunches s).all fun y => !(y.cls != 2 && flockTakes s f y)

/-- The next n chunks of a sweep given a group each, on the cores of its flock, as long as one may start there (R424). -/
def placeSweep (s : State) (p : Pass) (x : Sweep) (r : SweepRun) : Nat → State × SweepRun
  | 0 => (s, r)
  | n + 1 =>
    match (if sweepFits s (sweepLaunch p x) r.flock then (coresOfFlock r.flock).find? fun k => (coreOf s k).groups.length < 16 else none) with
    | some k =>
      let slot := freeGroupSlot (coreOf s k)
      let s := modGroup (launchStock s p k .awl) k slot fun g => { g with herd := x.entry, number := r.placed }
      placeSweep s p x { r with placed := r.placed + 1 } n
    | none => (s, r)

/-- A sweep at work launches the groups that it can, reads what its groups may read now of the keys, and ends once it has read all. -/
def advanceSweep (s : State) (x : Sweep) : State :=
  match x.run, sweepBody s x with
  | some r, some (p, b) =>
    let y := placeSweep s p x r (sweepChunks b - r.placed)
    let r := y.2
    let s := y.1
    let total := chunkUnits b (sweepChunks b)
    let can := chunkUnits b r.placed - (total - r.left)
    let hub := r.flock / 8
    let reads := sweepRoom s p b r can
    let k := if b.par.keyInStore then min can (s.awl.budget.getD hub 0) else reads.length
    let s := if b.par.keyInStore then { s with awl := { s.awl with budget := modAt s.awl.budget hub (· - k) } } else seeSpans s p.ctx reads
    let r := { r with left := r.left - k }
    let s := endChunks (setRun s x r) x b r
    if r.left = 0 then finishSweep s x r else s
  | _, _ => s

/-- The awl lines that a hub admits in one window (R425). -/
def windowLines (s : State) : Nat := s.regs.awlStoreCap.toNat * 65536 / 100

/-- A window begins: each hub's budget is full again, and the sweeps at work read on, oldest first (log entry 95). -/
def awlWindow (s : State) : State :=
  let s := { s with awl := { s.awl with budget := List.replicate 4 (windowLines s) } }
  (s.awl.sweeps.map (·.entry)).foldl (fun s e => match s.awl.sweeps.find? (·.entry == e) with
    | some x => advanceSweep s x
    | none => s) s

/-- AWL_WINDOW (R425). -/
def execAwlWindow (s : State) : Host.Outcome State Fault Refusal := .next (awlWindow s)

/-! ## SWEEP_START -/

/-- A sweep that cannot start: its samples are counted under unfinished (R478). -/
def abandonSweep (s : State) (x : Sweep) : State :=
  let s := skipCount s x.ctx 1 x.queries.length
  { s with awl := { s.awl with sweeps := s.awl.sweeps.filter (·.entry != x.entry),
                               samples := s.awl.samples.filter fun y => !(y.pass == x.pass && y.query ∈ x.queries) } }

/-- The oldest queued sweep starts its groups on an unreserved flock, and reads what it may at once. -/
def sweepStart (s : State) : State :=
  match s.awl.sweeps.find? (·.run.isNone) with
  | none => s
  | some x =>
    if noBackground s then abandonSweep s x
    else match sweepBody s x with
      | none => s
      | some (p, b) =>
        match (List.range 32).find? (sweepFits s (sweepLaunch p x)) with
        | none => s
        | some f =>
          let s := serveFlock s f p.ctx
          let n := lowestStream s (f / 8) 1024 256
          let s := openStream s (f / 8) n x.pass 2
          let r : SweepRun := ⟨f, n, 0, chunkUnits b (sweepChunks b)⟩
          advanceSweep (setRun s x r) { x with run := some r }

/-- SWEEP_START (R423). -/
def execSweepStart (now : U64) (s : State) : Host.Outcome State Fault Refusal := .next (sweepStart (atTime s now))

/-! ## SAMPLE_COMPLETE -/

/-- The oldest complete sample leaves the awl (R420, R421). -/
def sampleComplete (s : State) : State :=
  match s.awl.samples.find? (·.complete) with
  | some x => recordSample s x
  | none => s

/-- SAMPLE_COMPLETE (R421). -/
def execSampleComplete (s : State) : Host.Outcome State Fault Refusal := .next (sampleComplete s)

end Sys2Proof.Machine
end

