-- ==== Sys2Proof/Machine/Completion.lean ====
section
/-! DEFINITION. Ending passes: completion (R39, R457, R460), held records (R444), messages (R461, R462), CANCEL (R394 to R397,
R455), and the drain of a faulting context (R544 to R546). -/
namespace Sys2Proof.Machine

/-! ## PASS_COMPLETION -/

/-- Whether a pass is free of a cut and of its context's fault. -/
def passClear (s : State) (p : Pass) : Bool :=
  p.cancelAt.isNone && !p.held && (match ctxOf s p.ctx with | some x => !x.halted && x.fault.isNone | none => true)

/-- The status a pass ends with: OK gives way to TRUNCATED and DEGRADED (R460). -/
def endStatus (p : Pass) (st : Byte) : Byte := if st = stOk then chooseStatus none false p.truncated p.degrade else st

/-- A pass whose work is done, whose groups have ended and whose writes are acknowledged: its last writes form, or its events and record are written. -/
def passCompletion (s : State) (slot : Nat) : State :=
  match passOf s slot with
  | none => s
  | some p =>
    match p.status with
    | none => s
    | some st =>
      if !passClear s p || p.writesOut != 0 || groupsOfPass s slot != 0 then s
      else if !(p.lastWrites.isEmpty && p.lastStore.isEmpty) then
        let s := modPass s slot fun p => { p with lastWrites := [], lastStore := [] }
        passWrites { s with store := storeWrites s.store p.lastStore } slot p.lastWrites
      else completePass s slot (endStatus p st)

/-- PASS_COMPLETION (R39). -/
def execPassCompletion (pass : Byte) (now : U64) (s : State) : Host.Outcome State Fault Refusal :=
  .next (passCompletion (atTime s now) pass.toNat)

/-- A held record is written once its completion ring has space, after those that were held before it (R444, R457). -/
def ringSpace (s : State) (slot : Nat) : State :=
  match passOf s slot with
  | none => s
  | some p =>
    if !p.held then s
    else (sortBy (fun x y => decide (x.heldSeq ≤ y.heldSeq)) (p :: heldBefore s p)).foldl (fun s q =>
      match passOf s q.slot with
      | some q => (match q.status with | some st => if q.held then writeCompletion s q st else s | none => s)
      | none => s) s

/-- COMPLETION_RING_SPACE (R444). -/
def execCompletionRingSpace (pass : Byte) (now : U64) (s : State) : Host.Outcome State Fault Refusal :=
  .next (ringSpace (atTime s now) pass.toNat)

/-! ## MESSAGE_WRITE -/

/-- A message of a ring is written: the data word of its table entry, untranslated, to that entry's address (R461), no earlier than
msg_holdoff after the last one (R462). A wire entry sends none (R463), nor does a parked engine (R517). -/
def messageWrite (s : State) (key : Nat) : State :=
  let r := ringOf s key
  match ctxOf s (key / 16) with
  | none => s
  | some x =>
    match msgEntry x (key % 16) with
    | none => s
    | some n =>
      let due := match r.lastMsg with | some t => t.toNat + 1000 * r.msgHoldoff.toNat ≤ s.time.toNat | none => true
      if !(r.active && r.msgEn && r.msgOwed && due) || s.pins.parked then s
      else if isWire s n then setRing s key { r with msgOwed := false }
      else
        let a := (smGet 0 s.regs.msgAddr n).toNat
        let d := natLe 4 (smGet 0 s.regs.msgData n).toNat
        let s := cpPresent s 1 0 0 a 4 d
        setRing { s with chip := chipWrite s.chip 0 a d false } key { r with msgOwed := false, lastMsg := some s.time }

/-- MESSAGE_WRITE (R462). -/
def execMessageWrite (ctx : BitVec 12) (ring : BitVec 4) (now : U64) (s : State) : Host.Outcome State Fault Refusal :=
  .next (messageWrite (atTime s now) (ringKey ctx.toNat ring.toNat))

/-! ## CANCEL -/

/-- Whether a CANCEL never names a pass: an EPOCH or a CANCEL (R455). -/
def neverNamed (p : Pass) : Bool := p.opcode == opEpoch || p.opcode == opCancel

/-- Whether a named pass completes with its own status: its last write has been acknowledged (R455), or it is a CALIB that has begun to
write (R566). -/
def pastCancel (p : Pass) : Bool := calibBegun p || p.cancelAt.isSome || p.held || (p.status.isSome && p.writesOut = 0 && p.lastWrites.isEmpty && p.lastStore.isEmpty)

/-- The passes that a CANCEL names. -/
def namedBy (s : State) (c : Nat) (sel : Pass → Bool) : List Nat :=
  ((passesOf s c).filter fun p => sel p && !neverNamed p).map (·.slot)

/-- A CANCEL admitted: the passes it names are cut at once, but for those past it, and it waits for all their records. -/
def cancelGo (s : State) (c ring : Nat) (f : Fetched) (sel : Pass → Bool) : State :=
  let named := namedBy s c sel
  let s := admitPass s { newPass s c ring f.desc (.cancel named) with status := if named.isEmpty then some stOk else none }
  named.foldl (fun s slot => match passOf s slot with
    | some p => if pastCancel p then s else cutPass s slot stCancelled
    | none => s) s

/-- Whether a fetched descriptor is a CANCEL of a scope. -/
def isCancel (scope : Nat) (f : Fetched) : Bool := dOpcode f.desc == opCancel && field f.desc 16 1 == scope

/-- CANCEL_PASS (R455). -/
def execCancelPass (ctx : BitVec 12) (ring : BitVec 4) (now : U64) (s : State) : Host.Outcome State Fault Refusal :=
  .next (admitWith (atTime s now) ctx.toNat ring.toNat (isCancel 0) noCheck fun s f =>
    cancelGo s ctx.toNat ring.toNat f fun p => p.passId.toNat == field f.desc 20 4)

/-- CANCEL_RING (R455). -/
def execCancelRing (ctx : BitVec 12) (ring : BitVec 4) (now : U64) (s : State) : Host.Outcome State Fault Refusal :=
  .next (admitWith (atTime s now) ctx.toNat ring.toNat (isCancel 1) noCheck fun s f =>
    cancelGo s ctx.toNat ring.toNat f fun p => p.ring == bitsOf (field f.desc 17 1) 3 0)

/-- The completion detail of an XFER: the cursor of its lowest element not delivered (Table 13.12). -/
def xferDetail (p : Pass) : Pass :=
  match p.body with
  | .xfer b =>
    match (b.left.map (·.1)).min? with
    | some e =>
      let k := xferCursor b.par e
      let w := fun i => k.getD i 0
      { p with detail0 := BitVec.ofNat 64 (w 0 + w 1 * 2 ^ 32), detail1 := BitVec.ofNat 64 (w 2 + w 3 * 2 ^ 32),
               detail2 := BitVec.ofNat 64 (w 4) }
    | none => p
  | _ => p

/-- The fault that an XFER cut before it was reported still waits for (R391, R392). -/
def lateFault (p : Pass) : Option (List Byte) :=
  match p.body with
  | .xfer b => b.faulted.map fun f => xlatePayload f.2.1 f.2.2.1 f.2.2.2 (xferCursor b.par f.1)
  | _ => none

/-- Whether the HANDOFF_ABORT of a cut handoff is still to be sent (R396). -/
def abortQueued (s : State) (p : Pass) : Bool :=
  match p.body with
  | .handoff h => s.links.any fun k => k.outCtrl.any fun o =>
      o.held.isNone && msgCode o.payload == cAbort && msgField o.payload 0 4 == h.epoch.toNat && msgField o.payload 4 4 == h.step.toNat
  | _ => false

/-- A cancelled pass ends: its tags have returned, the fold's sweep and its groups have ended, its HANDOFF_ABORT is sent (R396). An XFER one
of whose requests met a translation fault ends with that instead, since no element below can be delivered any more (R391, R392). -/
def cancelComplete (s : State) (slot : Nat) : State :=
  match passOf s slot with
  | none => s
  | some p =>
    let running := match ctxOf s p.ctx with | some x => !x.halted && x.fault.isNone | none => true
    if p.cancelAt.isSome && !p.held && running && tagsHeld s slot = 0 && groupsOfPass s slot = 0 && !abortQueued s p then
      match lateFault p with
      | some y => faultPass s p stXlate y
      | none => completePass (modPass s slot xferDetail) slot (chooseStatus none true p.truncated p.degrade)
    else s

/-- CANCEL_COMPLETE (R396). -/
def execCancelComplete (pass : Byte) (now : U64) (s : State) : Host.Outcome State Fault Refusal :=
  .next (cancelComplete (atTime s now) pass.toNat)

/-- A cancelled pass whose tags have not all returned within cancel_timeout ends with TIMEOUT, and its context halts (R397). -/
def cancelTimeout (s : State) (slot : Nat) : State :=
  match passOf s slot with
  | none => s
  | some p =>
    match p.cancelAt with
    | none => s
    | some t =>
      let e := (s.time - t).toNat
      if tagsHeld s slot != 0 && 1000 * s.regs.cancelTimeout.toNat < e then faultPass s p stTimeout (timeoutPayload 0 0 e) else s

/-- CANCEL_TIMEOUT (R397). -/
def execCancelTimeout (pass : Byte) (now : U64) (s : State) : Host.Outcome State Fault Refusal :=
  .next (cancelTimeout (atTime s now) pass.toNat)

/-! ## CONTEXT_DRAINED and DRAIN_STALLED -/

/-- The read and write tags that a context still holds. -/
def ctxFlights (s : State) (c : Nat) : List Flight :=
  s.ports.flatMap fun p => (p.outRd ++ p.outWr).filter fun f => !f.orphan && f.burst.parts.any (·.ctx == c)

/-- A core without the groups of a context and the herds of some passes. -/
def reapCore (c : Nat) (mine : List Nat) (k : Core) : Core :=
  { k with groups := k.groups.filter (·.ctx != c), herds := k.herds.filter fun h => !(h.pass ∈ mine) }

/-- The groups and herds of a context leave their cores, and its flocks serve no context (R47, R544). -/
def reapGroups (s : State) (c : Nat) : State :=
  let mine := (passesOf s c).map (·.slot)
  let free := fun (f : Flock) => if f.ctx = some c then (⟨none, 0⟩ : Flock) else f
  { s with cores := s.cores.map fun (kv : Nat × Core) => (kv.1, reapCore c mine kv.2), flocks := s.flocks.map free }

/-- The log entry of a context fault (Table 17.3). -/
def faultEntry (s : State) (c : Nat) (f : FaultRec) (incomplete : Bool) : LogEntry :=
  let e := { mkLog s 0x01 f.status f.payload with
    engineWide := false, context := some (BitVec.ofNat 12 c), halted := true, drainIncomplete := incomplete, ring := f.ring }
  match passOf s f.pass with
  | some p => { e with opcode := p.opcode, passId := p.passId, ring := BitVec.ofNat 8 p.ring }
  | none => e

/-- Another pass of a halted context completes with CANCELLED (R437), but a CALIB that has begun to write with its own status (R566, log
entry 20); one that meets the fault itself reports it (R220, R548). -/
def endOther (f : FaultRec) (s : State) (p : Pass) : State :=
  if calibBegun p then completePass s p.slot (chooseStatus p.status false p.truncated p.degrade) else
  if f.all then completePass (postPassEvent s p f.status f.payload) p.slot f.status else completePass s p.slot stCancelled

/-- Steps 3 and 4 of R544: the CONTEXT_FAULT entry, the fault event, the faulting pass's completion, the other completions, and the
context halted. -/
def haltContext (s : State) (c : Nat) (f : FaultRec) (incomplete : Bool) : State :=
  let s := { s with log := logPush s.log (faultEntry s c f incomplete) }
  let s := modCtx s c fun x => { x with halted := true, fault := none }
  let s := reapGroups s c
  let s := match passOf s f.pass with
    | some p => postPassEvent s p f.status f.payload
    | none => pushRingEvent s c f.ring f.status f.payload
  let s := match passOf s f.pass with
    | some p => if p.held then s else completePass (modPass s p.slot xferDetail) p.slot f.status
    | none => s
  let others := (passesOf s c).filter fun p => !p.held
  let s := others.foldl (fun s p => endOther f (modPass s p.slot xferDetail) p) s
  let drop := fun (kv : Nat × Ring) => if kv.1 / 16 = c then (kv.1, { kv.2 with head := none }) else kv
  { s with rings := s.rings.map drop }

/-- A faulting context whose tags have all returned, the writes of a CALIB that has begun with them (R566), and whose HANDOFF_ABORTs have
been sent, is reported and halted (R544). -/
def contextDrained (s : State) (c : Nat) : State :=
  match ctxOf s c with
  | none => s
  | some x =>
    match x.fault with
    | none => s
    | some f =>
      if (ctxFlights s c).isEmpty && (passesOf s c).all (fun p => !abortQueued s p && (!calibBegun p || p.writesOut = 0)) then haltContext s c f false else s

/-- CONTEXT_DRAINED (R544). -/
def execContextDrained (ctx : BitVec 12) (now : U64) (s : State) : Host.Outcome State Fault Refusal :=
  .next (contextDrained (atTime s now) ctx.toNat)

/-- Whether a flight is orphaned with its context's drain. -/
def orphanOf (c : Nat) (f : Flight) : Flight := if f.burst.parts.any (·.ctx == c) then { f with orphan := true } else f

/-- A drain that exceeds cancel_timeout ends: its missing tags are orphaned, the halt completes, Keeper logs both (R546). -/
def drainStalled (s : State) (c : Nat) : State :=
  match ctxOf s c with
  | none => s
  | some x =>
    match x.fault with
    | none => s
    | some f =>
      let e := (s.time - f.since).toNat
      let lost := ctxFlights s c
      if lost.isEmpty || e ≤ 1000 * s.regs.cancelTimeout.toNat then s
      else
        let n := (lost.map (·.left.length)).sum
        let map := ((List.range 32).map fun p =>
          let q := s.ports.getD p .reset
          if (q.outRd ++ q.outWr).any (fun f => !f.orphan && f.burst.parts.any (·.ctx == c)) then 2 ^ p else 0).sum
        let s := { s with ports := s.ports.map fun p =>
          { p with outRd := p.outRd.map (orphanOf c), outWr := p.outWr.map (orphanOf c) } }
        let s := haltContext s c f true
        logCtx s 0x02 0x23 c (layout 36 [(0, 4, n), (4, 4, map), (8, 8, e)])

/-- DRAIN_STALLED (R546). -/
def execDrainStalled (ctx : BitVec 12) (now : U64) (s : State) : Host.Outcome State Fault Refusal :=
  .next (drainStalled (atTime s now) ctx.toNat)

end Sys2Proof.Machine
end

