-- ==== Sys2Proof/Machine/Doorbells.lean ====
section
/-! DEFINITION. Doorbells (R446 to R448) and what they start: INDEX, SETUP (R439), TEARDOWN (R440); the answers of the completer
that carry ADDR_ERR (R494). -/
namespace Sys2Proof.Machine

/-- Whether the engine answers at its command port: powered, out of reset and not parked. -/
def engineUp (s : State) : Bool := s.pins.powered && s.pins.rstN && !s.pins.parked

/-- Whether a doorbell carries its context's asid, of a context that is valid (R436, R446). -/
def asidMatches (s : State) (c : Nat) (asid : BitVec 20) : Bool :=
  match liveCtx s c with
  | some x => x.asid == asid
  | none => false

/-- A write to the doorbell window that is discarded: counted apart during bring-up (Table 16.11, counters 46 and 47). -/
def discardDoorbell (s : State) : State := count s (if s.bring.released then 46 else 47)

/-- The answer to a write that the completer has taken: OKAY (R446, R494). -/
def okWrite (s : State) : State := { s with answer := some ⟨0, true, none, 0⟩ }

/-- A doorbell processed by body when R446 accepts it; its word then reads the value, and one to a submission ring of a halted
context is discarded and counted (R437). -/
def doorbell (s : State) (c ring : Nat) (asid : BitVec 20) (v : U32) (body : State → State) : State :=
  if !engineUp s then s
  else if !s.bring.released || !asidMatches s c asid then okWrite (discardDoorbell s)
  else
    let s := okWrite s
    let key := ringKey c ring
    let s := modRing s key fun r => { r with doorbell := v }
    let r := ringOf s key
    if (match ctxOf s c with | some x => x.halted | none => false) && r.active && r.kind = 0 then countCtx s c 2
    else body s

/-- A doorbell that R448 discards: counted, with DESC_ERROR on the context's event rings that have engine_events set. -/
def badDoorbell (s : State) (c ring : Nat) (v : U32) : State :=
  (contextEventRings s c).foldl (fun s key =>
    let r := ringOf s key
    let a := r.slotAddr r.producer
    let w := pushEvent s key stDesc 0 false ring 0 (denyPayload ⟨stDesc, 3, 0xFFFF, v.toNat⟩)
    if w.1 then checkRingWrites w.2 key a 64 else w.2) (count s 46)

/-- Whether an index is one that the ring's other side may announce (R448). -/
def indexFits (r : Ring) (v : Nat) : Bool :=
  r.active && v < 2 * r.size &&
  (if r.kind = 0 then (v + 2 * r.size - r.consumer) % (2 * r.size) ≤ r.size
   else (r.producer + 2 * r.size - v) % (2 * r.size) ≤ r.size)

/-- An INDEX applied: the producer index of a submission ring, the consumer index of another. -/
def applyIndex (r : Ring) (v : Nat) : Ring := if r.kind = 0 then { r with producer := v } else { r with consumer := v }

/-- What an INDEX doorbell, or one with a reserved op, does (R448). -/
def indexBody (c ring : Nat) (v : U32) (s : State) : State :=
  let r := ringOf s (ringKey c ring)
  let i := doorbellIndex v
  if doorbellOp v = 0 && doorbellReserved v = 0 && indexFits r i then modRing s (ringKey c ring) fun r => applyIndex r i
  else badDoorbell s c ring v

/-- INDEX (R448). -/
def execIndex (ctx : BitVec 12) (ring : BitVec 4) (asid : BitVec 20) (value : U32) (agents : List (Nat × Byte)) (s : State) :
    Host.Outcome State Fault Refusal :=
  .next (if doorbellOp value = 1 || doorbellOp value = 2 then s
    else doorbell (agentsWrite s agents) ctx.toNat ring.toNat asid value (indexBody ctx.toNat ring.toNat value))

/-! ## SETUP -/

/-- The header address of ring r in a context entry. -/
def headerOf (x : Ctx) (r : Nat) : Nat := (x.headerAddr.getD r 0).toNat

/-- Whether a ring number of a context names an active ring of a kind. -/
def activeKind (s : State) (c n : Nat) (kind : Byte) : Bool :=
  n < 16 && (ringOf s (ringKey c n)).active && (ringOf s (ringKey c n)).kind == kind

/-- Whether the fields of a ring header that the driver writes are wrong (R439 step 2); b is the header. DESIGN CHOICE: a version that is not
zero in the header of a completion or event ring counts among them (log entry 97). -/
def headerWrong (s : State) (c ring : Nat) (b : List Byte) : Bool :=
  let kind := field b 2 1
  let ver := field b 3 1
  let log := field b 4 1
  let comp := field b 5 1
  let ev := field b 6 1
  let align := min (2 ^ log * entrySize kind ver) 4096
  field b 0 2 != 0x5247 || kind > 2 || log < 4 || log > 16 || field b 16 8 % align != 0 ||
  bitsOf (field b 7 1) 7 2 != 0 || !zeroAt b [(10, 6), (24, 8), (34, 2), (44, 20)] ||
  (kind = 0 && (!activeKind s c comp 1 || (ev != 0xFF && !activeKind s c ev 2) || bitOf (field b 7 1) 0)) ||
  (kind != 0 && (comp != 0 || ev != 0 || ver != 0)) || (kind != 2 && bitOf (field b 7 1) 1) ||
  (ringOf s (ringKey c ring)).active

/-- The version check of a submission ring (R439 step 3). -/
def versionWrong (b : List Byte) : Bool := field b 2 1 = 0 && field b 3 1 != 1 && field b 3 1 != 2

/-- The result byte of a header written. -/
def writeResult (s : State) (c h : Nat) (v : Byte) : State := cpWrite s c (h + 32) [v]

/-- A header read that fails halts the context; the event carries the header address (R439). -/
def headerFault (s : State) (c ring h : Nat) (m : MemRead) : Option State :=
  let r : Byte := BitVec.ofNat 8 ring
  match m.xlate, m.bad with
  | some a, _ => some (faultContext s c stXlate (xlatePayload 0xFFFF false a []) 256 r)
  | none, some _ => some (faultContext s c stPoison (poisonPayload 0xFFFF 0 h) 256 r)
  | none, none => none

/-- What a SETUP doorbell does (R439). -/
def setupBody (c ring : Nat) (s : State) : State :=
  match ctxOf s c with
  | none => s
  | some x =>
    let h := headerOf x ring
    if x.halted || !bitOf x.ringAllow.toNat ring then writeResult s c h stPermission
    else
      let s := cpRead s x.asid.toNat 0 h 64
      let m := chipRead s.chip x.asid.toNat h 64
      match headerFault s c ring h m with
      | some s => s
      | none =>
        if headerWrong s c ring m.bytes then writeResult s c h stDesc
        else if versionWrong m.bytes then writeResult s c h stVersion
        else
          let s := modRing s (ringKey c ring) fun r => { parseRing m.bytes (BitVec.ofNat 64 h) with doorbell := r.doorbell }
          cpWrite (cpWrite s c (h + 36) (natLe 4 0)) c (h + 32) [0, 1]

/-- SETUP and TEARDOWN doorbells have every other bit zero (Table 13.4). -/
def plainDoorbell (v : U32) : Bool := doorbellReserved v == 0 && doorbellIndex v == 0

/-- SETUP (R439). -/
def execSetup (ctx : BitVec 12) (ring : BitVec 4) (asid : BitVec 20) (value : U32) (agents : List (Nat × Byte)) (s : State) :
    Host.Outcome State Fault Refusal :=
  .next (if doorbellOp value != 1 then s
    else doorbell (agentsWrite s agents) ctx.toNat ring.toNat asid value fun s =>
      if plainDoorbell value then setupBody ctx.toNat ring.toNat s else badDoorbell s ctx.toNat ring.toNat value)

/-! ## TEARDOWN -/

/-- A ring made inactive; its doorbell word keeps its value. -/
def idleRing (s : State) (key : Nat) : State := modRing s key fun r => { Ring.idle with doorbell := r.doorbell }

/-- Whether an active submission ring of a context names a ring. -/
def ringNamed (s : State) (c ring : Nat) : Bool :=
  s.rings.any fun kv => kv.1 / 16 == c && kv.2.active && kv.2.kind == 0 &&
    (kv.2.compRing.toNat == ring || kv.2.eventRing.toNat == ring)

/-- What a TEARDOWN doorbell does (R440). -/
def teardownBody (c ring : Nat) (s : State) : State :=
  let key := ringKey c ring
  let r := ringOf s key
  if !r.active then
    (match ctxOf s c with | some x => writeResult s c (headerOf x ring) stOk | none => s)
  else if r.kind = 0 then setRing s key { r with tearing := true, head := none }
  else if ringNamed s c ring then writeResult s c r.headerAddr.toNat stDesc
  else cpWrite (idleRing s key) c (r.headerAddr.toNat + 32) [0, 0]

/-- TEARDOWN (R440). -/
def execTeardown (ctx : BitVec 12) (ring : BitVec 4) (asid : BitVec 20) (value : U32) (s : State) :
    Host.Outcome State Fault Refusal :=
  .next (if doorbellOp value != 2 then s
    else doorbell s ctx.toNat ring.toNat asid value fun s =>
      if plainDoorbell value then teardownBody ctx.toNat ring.toNat s else badDoorbell s ctx.toNat ring.toNat value)

/-- A submission ring under teardown whose admitted passes have completed (R440). -/
def teardownDone (s : State) (c ring : Nat) : State :=
  let key := ringKey c ring
  let r := ringOf s key
  if r.active && r.tearing && s.passes.all (fun p => !(p.ctx == c && p.ring == ring)) then
    let h := r.headerAddr.toNat
    cpWrite (cpWrite (idleRing s key) c (h + 36) (natLe 4 r.consumer)) c (h + 32) [0, 0]
  else s

/-- RING_TEARDOWN_COMPLETE (R440). -/
def execRingTeardownComplete (ctx : BitVec 12) (ring : BitVec 4) (s : State) : Host.Outcome State Fault Refusal :=
  .next (teardownDone s ctx.toNat ring.toNat)

/-! ## Discards -/

/-- Whether R446 accepts a write of n bytes at an offset of the window with an asid. -/
def accepts446 (s : State) (offset n : Nat) (asid : BitVec 20) : Bool :=
  n == 4 && offset % 64 == 0 && asidMatches s (offset / 1024) asid

/-- DOORBELL_DISCARD (R446): value is not kept. -/
def execDoorbellDiscard (offset : BitVec 22) (bytes : Nat) (asid : BitVec 20) (_value : U32) (s : State) :
    Host.Outcome State Fault Refusal :=
  .next (if !engineUp s || (s.bring.released && accepts446 s offset.toNat bytes asid) then s else okWrite (discardDoorbell s))

/-- The one-beat answer that carries ADDR_ERR and zero data. -/
def addrErr (req : EppRequest) : Answer := { code := 3, dir := req.opcode == 1, tag := some req.tag, data := 0 }

/-- Whether byte enables select exactly one naturally aligned 4-B or 8-B word of a beat. -/
def oneWord (be : U64) : Bool :=
  ((List.range 16).any fun i => be.toNat == 0xF * 2 ^ (4 * i)) || ((List.range 8).any fun i => be.toNat == 0xFF * 2 ^ (8 * i))

/-- Whether the completer answers a request with ADDR_ERR (R494): an ATOMIC or several beats; an offset with bit 22 clear and bits
[21:20] not zero; a setup-space write that is not of one word, a read that is not at a 4-B word. -/
def isAddrErr (req : EppRequest) : Bool :=
  let a := req.address.toNat
  req.opcode.toNat ≥ 2 || req.beatsM1 != 0 ||
  (!bitOf a 22 && (bitsOf a 21 20 != 0 || (if req.opcode = 1 then !oneWord req.byteEn else a % 4 != 0)))

end Sys2Proof.Machine
end

