-- ==== Sys2Proof/Machine/Boundary.lean ====
section
/-! DEFINITION. The boundary (chapter "Ports, Clock Domains, Power and Reset"): reset, power, park values and the park responder, the
supply warning and its throttle, the governor. -/
namespace Sys2Proof.Machine

/-! ## Reset (R485, R503, R510, R519) -/

/-- Whether the engine runs: powered, present and out of reset. -/
def running (s : State) : Bool := s.pins.powered && s.pins.rstN && (strapsNow s).present

/-- A link after reset: only its clock and the PHY's trained indication go on. -/
def linkAfterReset (l : Link) : Link := { Link.reset with clockOn := l.clockOn, trained := l.trained }

/-- What a request that a reset catches in flight leaves in memory: each byte of a write old or new, the word of an atomic unknown
(log entry 3). -/
def catchReq (masked : List Nat) (s : State) (r : Req) : State :=
  match r.kind with
  | .read => s
  | .write => performTorn s r masked
  | .atomic => (List.range r.len).foldl (fun s i =>
      let f := fresh s
      { f.2 with chip := chipWrite f.2.chip r.asid.toNat (r.addr + i) [f.1.setWidth 8] false }) s

/-- Every request in flight caught by a reset (R509). -/
def catchFlights (s : State) : State :=
  (s.ports.flatMap fun p => p.outRd ++ p.outWr).foldl (fun s f => f.burst.parts.foldl (catchReq f.masked) s) s

/-- The engine in reset: nothing survives but the trouble log, MLD_STORE_PART and the zeroing that is owed (R503, R510, R529); the
wrapper, the pins and the chip's memory lie outside it. -/
def resetState (s : State) : State :=
  { State.reset with
    pending := s.pending, time := s.time, pins := { s.pins with unsound := false }, straps := s.straps,
    bring := { Bringup.reset with
      step := 0, storePart := s.bring.storePart, scanOwed := s.bring.scanOwed, cold := s.bring.cold, sampled := s.bring.sampled },
    log := { s.log with cleared := false }, links := s.links.map linkAfterReset, chip := s.chip, wrapper := s.wrapper,
    freeCtr := s.freeCtr }

/-- Whether an instruction in the WIR is one that Table 15.9 does not allow out of reset. -/
def wirBarred (w : BitVec 4) : Bool := 1 ≤ w.toNat && w.toNat ≤ 4

/-- Whether an instruction holds or drives the outputs from the boundary register: WS_EXTEST, WS_CLAMP. -/
def wirDrives (w : BitVec 4) : Bool := w == 1 || w == 4

/-- What the instruction in the WIR has in effect: a barred one only in reset (R502); from then on the zeroing of R503 is owed. -/
def testEffect (s : State) : State :=
  let w := s.wrapper.wir
  let now := wirBarred w && !s.pins.rstN && s.pins.powered
  { s with wrapper := { s.wrapper with driving := now && wirDrives w }, bring := { s.bring with scanOwed := s.bring.scanOwed || now } }

/-- mld_rst_n falls. -/
def resetAssert (s : State) : State :=
  if !s.pins.rstN then s
  else
    let s := if running s then resetState (catchFlights s) else s
    testEffect { s with pins := { s.pins with rstN := false } }

/-- RESET_ASSERT (R510). -/
def execResetAssert (s : State) : Host.Outcome State Fault Refusal := .next (resetAssert s)

/-- The trouble log as Keeper's boot ROM leaves it: cleared after the zeroing of R503, after power-up, and when its check value fails
(R510, Table 17.3). -/
def bootLog (s : State) (zeroed cold : Bool) : State :=
  if zeroed then clearLog s 2 else if cold then clearLog s 0 else if !s.log.checkOk then clearLog s 1 else s

/-- The wrapper as mld_rst_n rises (R502): an instruction marked "No" gives way to WS_BYPASS. -/
def wrapperOnRelease (w : Wrapper) : Wrapper := if wirBarred w.wir then { w with wir := 0, driving := false } else w

/-- mld_rst_n rises: the straps are sampled, the zeroing of R503 runs where it is owed, step 1 of Table 15.14 completes. -/
def resetRelease (s : State) : State :=
  if s.pins.rstN then s
  else
    let s := { s with pins := { s.pins with rstN := true }, wrapper := wrapperOnRelease s.wrapper }
    let s := if s.pins.powered then { s with straps := s.pins.straps, bring := { s.bring with sampled := true } } else s
    if !running s then s
    else
      let owed := s.bring.scanOwed
      let cold := s.bring.cold
      let s := resetState s
      let s := { s with
        bring := { s.bring with step := 1, scanOwed := false, scanZeroed := owed, cold := false },
        thr := { s.thr with warn := !s.pins.pwrWarnN } }
      bootLog s owed cold

/-- RESET_RELEASE (R519). -/
def execResetRelease (s : State) : Host.Outcome State Fault Refusal := .next (resetRelease s)

/-! ## Power (R507, R508) -/

/-- The engine without its rails: no state of it survives (R507). -/
def unpowered (s : State) : State :=
  let s := resetState { s with bring := Bringup.reset }
  { s with log := .reset, wrapper := .reset, straps := .default, bring := { s.bring with cold := true, sampled := false } }

/-- The engine rails rise into regulation, the engine isolated and in reset (Table 15.13). -/
def powerUp (s : State) : State :=
  if s.pins.powered || s.pins.rstN || !s.pins.isoEn then s
  else
    let s := unpowered s
    { s with pins := { s.pins with powered := true } }

/-- POWER_UP (R508). -/
def execPowerUp (s : State) : Host.Outcome State Fault Refusal := .next (powerUp s)

/-- The engine rails are removed. -/
def powerDown (s : State) : State :=
  if !s.pins.powered then s
  else
    let s := if running s then catchFlights s else s
    let s := unpowered s
    { s with pins := { s.pins with powered := false } }

/-- POWER_DOWN (R507). -/
def execPowerDown (s : State) : Host.Outcome State Fault Refusal := .next (powerDown s)

/-! ## Park values and the park responder (R515 to R518) -/

/-- Whether a park condition holds (R515); a strap counts as it was sampled (R485). -/
def parkHolds (s : State) : Bool := !(strapsNow s).present || s.pins.isoEn || !s.pins.rstN

/-- The pins with a park condition arisen. Isolation that rises out of reset leaves the engine's state indeterminate (R518). -/
def pinsPark (c : ParkCause) (p : Pins) : Pins :=
  match c with
  | .absent => { p with straps := { p.straps with present := false } }
  | .isolation => { p with isoEn := true, unsound := p.unsound || p.rstN }
  | .reset => p

/-- A park condition arises: every output takes its park value, and the channels fall without a handshake (R517). mld_engine_present that
falls out of reset parks nothing before the next reset release (R485); a cause that does not hold does nothing. -/
def parkEnter (s : State) (c : ParkCause) : State :=
  let s := { s with pins := pinsPark c s.pins }
  if parkHolds s then { s with pins := { s.pins with parked := true }, answer := none, cmdChan := ⟨none, []⟩ } else s

/-- PARK_ENTER (R515). -/
def execParkEnter (cause : ParkCause) (s : State) : Host.Outcome State Fault Refusal := .next (parkEnter s cause)

/-- The pins with a park condition ended. Isolation is released only once the engine has been reset (R518). -/
def pinsUnpark (c : ParkCause) (p : Pins) : Pins :=
  match c with
  | .absent => { p with straps := { p.straps with present := true } }
  | .isolation => if p.unsound then p else { p with isoEn := false }
  | .reset => p

/-- A park condition ends; with none left the engine leaves park, and every EPP channel starts empty. -/
def parkExit (s : State) (c : ParkCause) : State :=
  let s := { s with pins := pinsUnpark c s.pins }
  if parkHolds s || !s.pins.parked then s
  else { s with pins := { s.pins with parked := false }, ports := List.replicate 32 .reset, answer := none, cmdChan := ⟨none, []⟩ }

/-- PARK_EXIT (R517). -/
def execParkExit (cause : ParkCause) (s : State) : Host.Outcome State Fault Refusal := .next (parkExit s cause)

/-- PARK_RESPONSE (R516): with mld_park_cmd_mode 0 the completer takes no request. -/
def execParkResponse (req : EppRequest) (s : State) : Host.Outcome State Fault Refusal :=
  .next (if s.pins.parked && (strapsNow s).parkCmdMode then { s with answer := some (addrErr req) } else s)

/-- What a link shows its PHY: its park value while the engine is parked (Table 15.3). -/
def shown (s : State) (l : LinkSide) : Present :=
  if s.pins.parked then
    (if (match l with | .up => (strapsNow s).parkRlU | .down => (strapsNow s).parkRlD) then .absent else .idleElectrical)
  else (linkOf s l).present

/-! ## The supply warning (R511 to R513, R521) -/

/-- A dip begins: the walker cores run at reduced duty (counter 52). -/
def startDip (s : State) : State :=
  count { s with thr := { s.thr with duty := 1, fellAt := s.time, ran0 := 0 } } 52

/-- mld_pwr_warn_n falls; in reset it is ignored, before quadrant release no core runs (R511, R521). -/
def warningFall (s : State) : State :=
  if !s.pins.pwrWarnN then s
  else
    let s := { s with pins := { s.pins with pwrWarnN := false } }
    if !running s then s
    else
      let s := { s with thr := { s.thr with warn := true } }
      if s.bring.released then startDip s else s

/-- SUPPLY_WARNING_FALL (R511). -/
def execSupplyWarningFall (now : U64) (s : State) : Host.Outcome State Fault Refusal := .next (warningFall (atTime s now))

/-- mld_pwr_warn_n rises: THROTTLE is posted and logged, the recovery interval begins (R512, R513). -/
def warningRise (s : State) : State :=
  if s.pins.pwrWarnN then s
  else
    let s := { s with pins := { s.pins with pwrWarnN := true } }
    if !running s then s
    else
      let s := { s with thr := { s.thr with warn := false } }
      if s.thr.duty != 1 then s
      else
        let p := throttlePayload s.thr.fellAt.toNat (s.time - s.thr.fellAt).toNat s.thr.ran0
        let s := { s with thr := { s.thr with duty := 2, roseAt := s.time } }
        logWide (postWide s evThrottle p) 0x03 0x32 p

/-- SUPPLY_WARNING_RISE (R513). -/
def execSupplyWarningRise (now : U64) (s : State) : Host.Outcome State Fault Refusal := .next (warningRise (atTime s now))

/-- Full rate returns 2 µs after the rise; a core that is stopped resumes at the end of its stop (R512). -/
def recoveryEnd (s : State) : State :=
  if running s && s.thr.duty = 2 && 2000 ≤ (s.time - s.thr.roseAt).toNat then { s with thr := { s.thr with duty := 0 } } else s

/-- THROTTLE_RECOVERY_END (R512). -/
def execThrottleRecoveryEnd (now : U64) (s : State) : Host.Outcome State Fault Refusal := .next (recoveryEnd (atTime s now))

/-- The clock of a core stops after a run of 16 to 19 cycles (R511); the cycles of core 0 are counted (R513, counter 53). -/
def dutyStop (s : State) (core ran : Nat) : State :=
  if !running s || s.thr.duty = 0 || !(coreOf s core).clockOn || ran < 16 || 19 < ran then s
  else
    let s := modCore s core fun k => { k with clockOn := false, ranFor := ran }
    if core != 0 then s
    else
      let s := count s 53 ran
      if s.thr.duty = 1 then { s with thr := { s.thr with ran0 := s.thr.ran0 + ran } } else s

/-- DUTY_STOP (R511). -/
def execDutyStop (core : BitVec 8) (ran : Nat) (s : State) : Host.Outcome State Fault Refusal := .next (dutyStop s core.toNat ran)

/-- The clock of a stopped core runs again after three times its run (R511, R512), and what waited for it reaches the core (R281). -/
def dutyRun (s : State) (core stopped : Nat) : State :=
  let k := coreOf s core
  if k.clockOn || stopped != 3 * k.ranFor then s
  else landCrossing (modCore s core fun k => { k with clockOn := true, ranFor := 0 }) core

/-- DUTY_RUN (R511). -/
def execDutyRun (core : BitVec 8) (stopped : Nat) (s : State) : Host.Outcome State Fault Refusal :=
  .next (dutyRun s core.toNat stopped)

/-- The governor begins or ends limiting (R526). The core cycles that it limited (counter 54) are a free value (log entry 3). -/
def governor (s : State) (on : Bool) : State :=
  if !running s || s.thr.govLimiting = on then s
  else
    let s := { s with thr := { s.thr with govLimiting := on } }
    if on then s
    else
      let f := fresh s
      count f.2 54 f.1.toNat

/-- GOVERNOR_LIMITING (R526). -/
def execGovernorLimiting (limiting : Bool) (s : State) : Host.Outcome State Fault Refusal := .next (governor s limiting)

end Sys2Proof.Machine
end

