-- ==== Sys2Proof/Machine/Build.lean ====
section
/-! DEFINITION. BUILD (R105 to R111): its checks, the median splits, frames and codes (R100 to R102), the nodes and records it
writes. The whole pass is formed at its admission (log entry 23). -/
namespace Sys2Proof.Machine

/-! ## Parameters -/

/-- The BUILD block (Tables 3.9 and 13.9). -/
structure BuildParams where
  geometric : Bool
  bf16 : Bool
  keyCopy : Bool
  keyFormat : Nat
  primKind : Nat
  count : Nat
  keyDims : Nat
  locDims : Nat
  keyBase : Nat
  locAddr : Nat
  resAddr : Nat
  keyIn : Nat
  keyOut : Nat
  primIn : Nat
  primOut : Nat
  treeAddr : Nat
  scratchAddr : Nat
  scratchSize : Nat
  treeStore : Bool
  keyStore : Bool
  primStore : Bool
  inStore : Bool
  deriving DecidableEq, Repr

/-- The BUILD block read. -/
def parseBuild (b : List Byte) : BuildParams :=
  let w := fun i => field b (8 * i) 8
  let k := field b 87 1
  let sp := field b 88 1
  { geometric := bitOf k 0, bf16 := bitOf k 1, keyCopy := bitOf k 2, keyFormat := bitsOf k 4 3, primKind := bitsOf k 6 5,
    count := field b 80 4, keyDims := field b 84 2, locDims := field b 86 1, keyBase := bitsOf (w 9) 41 0, locAddr := w 0,
    resAddr := w 1, keyIn := w 2, keyOut := w 3, primIn := w 4, primOut := w 5, treeAddr := w 6, scratchAddr := w 7,
    scratchSize := w 8, treeStore := bitOf sp 0, keyStore := bitOf sp 1, primStore := bitOf sp 2, inStore := bitOf sp 3 }

/-- Keys or primitives of a leaf (Table 3.8). -/
def BuildParams.leafCap (p : BuildParams) : Nat := if p.geometric then 4 else 16
/-- The stride of a node (R86). -/
def BuildParams.stride (p : BuildParams) : Nat := if p.geometric then 128 else ipStride p.locDims
/-- The size of an input locator. -/
def BuildParams.locSize (p : BuildParams) : Nat := p.locDims * (if p.bf16 then 2 else 4)

/-- H (Table 3.8): the smallest h ≥ 1 with L × 8^h ≥ N. -/
def treeHeight (l n : Nat) : Nat := ((List.range 12).find? fun h => n ≤ l * 8 ^ (h + 1)).getD 11 + 1

/-- Internal nodes of a tree over N (Table 3.8), one at each height for N = 0 too. -/
def internalNodes (l n : Nat) : Nat :=
  ((List.range (treeHeight l n)).map fun h => max (if h + 1 = treeHeight l n then 1 else 0) (ceilDiv n (l * 8 ^ (h + 1)))).sum

/-- The nodes that BUILD writes. -/
def BuildParams.nodes (p : BuildParams) : Nat :=
  internalNodes p.leafCap p.count + if p.geometric then 0 else ceilDiv p.count 16

/-- Whether BUILD copies full keys. DESIGN CHOICE: a GEOMETRIC BUILD ignores key_copy and key_dims (log entry 103). -/
def BuildParams.keys (p : BuildParams) : Bool := p.keyCopy && !p.geometric

/-- Bytes of key or primitive records written. -/
def BuildParams.recordBytes (p : BuildParams) : Nat :=
  if p.geometric then 64 * p.count else if p.keyCopy then 16 * ceilDiv p.count 16 * keyStride p.keyFormat p.keyDims else 0

/-- The output ranges, with the offsets of the fields that name them. -/
def BuildParams.outputs (p : BuildParams) : List (Nat × Bool × Nat × Nat) :=
  [(48, p.treeStore, p.treeAddr, p.nodes * p.stride)] ++
  (if p.geometric then [(40, p.primStore, p.primOut, p.recordBytes)] else []) ++
  (if p.keys then [(24, p.keyStore, p.keyOut, p.recordBytes)] else [])

/-- The input ranges. -/
def BuildParams.inputs (p : BuildParams) : List (Nat × Bool × Nat × Nat) :=
  if p.geometric then [(32, p.inStore, p.primIn, 64 * p.count)]
  else [(0, p.inStore, p.locAddr, p.count * p.locSize), (8, p.inStore, p.resAddr, 4 * p.count)] ++
    (if p.keyCopy then [(16, p.inStore, p.keyIn, p.count * keyStride p.keyFormat p.keyDims)] else [])

/-! ## Checks -/

/-- The checks of R451 and of the parameters in R106, in order. DEDUCED: the scratch range is no output range, so it may overlap an input
(log entry 102). -/
def buildChecks (s : State) (f : Fetched) (p : BuildParams) : List (Bool × Deny) :=
  let b := f.block
  let hi := field b 77 3
  let ovl := firstOverlap p.outputs [(56, false, p.scratchAddr, p.scratchSize)] p.inputs
  let locBad := !p.geometric && (p.locDims = 0 || p.locDims > 64 || p.locDims % 8 != 0)
  let keyBad := p.keys && (p.keyDims = 0 || p.keyDims > 256)
  [(dClass f.desc = 2 && noBackground s, denyField f stDesc 1),
   (hi / 4 != 0, denyBlock f stDesc (if hi % 256 ≥ 4 then 77 else if hi % 65536 ≥ 256 then 78 else 79)),
   (p.keyFormat = 3 || p.primKind = 3 || bitOf (field b 87 1) 7, denyBlock f stDesc 87),
   (field b 88 1 ≥ 16, denyBlock f stDesc 88), (!zeroAt b [(89, 39)], denyBlock f stDesc (firstNonzero b [(89, 39)])),
   (keyBad, denyBlock f stDesc 84), (locBad, denyBlock f stDesc 86), (2 ^ 42 < p.keyBase + p.count, denyBlock f stDesc 72),
   (p.scratchSize < 16 * p.count, denyBlock f stDesc 64), (p.treeAddr % 128 != 0, denyBlock f stDesc 48),
   (ovl.isSome, denyBlock f stDesc (ovl.getD 0))]

/-- The node-store ranges that a BUILD names (R31), by offset. -/
def buildRanges (x : Ctx) (p : BuildParams) : List (Bool × Deny) :=
  let rs := (p.inputs ++ p.outputs).filter (·.2.1)
  (sortBy (fun a b => decide (a.1 ≤ b.1)) rs).map fun r => denyRange stPermission x 1 r.1 r.2.2.1 r.2.2.2

/-! ## Inputs -/

/-- What BUILD works on: locators and residual norms by position, or primitive boxes and records; full keys. -/
structure BuildIn where
  locs  : List (List U32)
  res   : List U32
  keys  : List (List Byte)
  prims : List (List Byte)
  boxes : List (List (U32 × U32))
  deriving DecidableEq, Repr

/-- Lists of n bytes each, k of them. -/
def records (b : List Byte) (n k : Nat) : List (List Byte) := (List.range k).map fun i => slice b (n * i) n

/-- The coordinates of a primitive (Table 4.4): three vertices, or a centre. -/
def primCoords (kind : Nat) (r : List Byte) : List U32 := (List.range (if kind = 0 then 9 else 3)).map (primF r)

/-- The first of a list that a test finds, by its number. -/
def findIx {α : Type} (t : α → Bool) (l : List α) : Option Nat := (l.zipIdx.find? fun x => t x.1).map (·.2)

/-- A coordinate above 2^100 in magnitude (R106). -/
def tooLarge (a : U32) : Bool := flt 0x71800000 (fabs a)

/-- The refusals of R106 that the input values decide, in its order. DESIGN CHOICE: the limit of 2^100 holds for primitive coordinates too, and
a primitive whose conservative box is NaN or infinite is refused (log entry 101). -/
def valueChecks (p : BuildParams) (x : BuildIn) : List (Bool × Deny) :=
  let at_ := fun a o => (⟨stDesc, 4, o, a⟩ : Deny)
  let coord := fun (t : U32 → Bool) (ls : List (List U32)) (a n sz : Nat) =>
    match (ls.zipIdx.findSome? fun l => (findIx t l.1).map fun i => (l.2, i)) with
    | some (j, i) => [(true, at_ (a + j * n) (i * sz))]
    | none => []
  let pc := x.prims.map (primCoords p.primKind)
  let nf := fun v => !isFin v
  coord nf x.locs p.locAddr p.locSize (if p.bf16 then 2 else 4) ++ coord nf (x.res.map ([·])) p.resAddr 4 4 ++
  coord nf pc p.primIn 64 4 ++
  (match findIx (fun (b : List (U32 × U32)) => b.any fun c => nf c.1 || nf c.2) x.boxes with
    | some j => [(true, at_ (p.primIn + 64 * j) 0xFFFF)]
    | none => []) ++
  coord tooLarge x.locs p.locAddr p.locSize (if p.bf16 then 2 else 4) ++ coord tooLarge pc p.primIn 64 4

/-- The inputs of a BUILD read and checked (R106, R111). -/
def planInputs (s : State) (c : Nat) (p : BuildParams) : Plan BuildIn :=
  let rd := fun i a n => planRead s c p.inStore (.array 0 i) a n Plan.go
  let n := p.count
  let ks := keyStride p.keyFormat p.keyDims
  if p.geometric then
    (rd 0 p.primIn (64 * n)).bind fun b =>
      let prims := records b 64 n
      let x : BuildIn := ⟨[], [], [], prims, prims.map fun r => (List.range 3).map (primBox p.primKind r)⟩
      (planCheck (valueChecks p x)).bind fun _ => .go x
  else
    (rd 0 p.locAddr (n * p.locSize)).bind fun lb => (rd 1 p.resAddr (4 * n)).bind fun rb =>
      (rd 2 p.keyIn (if p.keyCopy then n * ks else 0)).bind fun kb =>
        let locs := (records lb p.locSize n).map fun r => (List.range p.locDims).map (locElem p.bf16 r)
        let x : BuildIn := ⟨locs, (List.range n).map fun j => BitVec.ofNat 32 (field rb (4 * j) 4),
          if p.keyCopy then records kb ks n else [], [], []⟩
        (planCheck (valueChecks p x)).bind fun _ => .go x

/-! ## The algorithm -/

/-- The sort key of position j on axis a: the coordinate, or the centroid key RN(lo + hi). -/
def sortCoord (x : BuildIn) (geo : Bool) (a j : Nat) : U32 :=
  if geo then let b := (x.boxes.getD j []).getD a (0, 0); fadd .rn b.1 b.2 else (x.locs.getD j []).getD a 0

/-- The least and the greatest of FP32 values, −0 below +0; of none, +0. -/
def leastF (l : List U32) : U32 := match l with | [] => 0 | a :: r => r.foldl fmin a
def greatestF (l : List U32) : U32 := match l with | [] => 0 | a :: r => r.foldl fmax a

/-- The extent of a set on axis a, exact, in units of 2^−149; an overflowed centroid counts as 2^128. -/
def extent (x : BuildIn) (geo : Bool) (set : List Nat) (a : Nat) : Int :=
  let v := fun (u : U32) => if isFin u then fx u else (if negOf u then -(2 ^ 277 : Int) else 2 ^ 277)
  let cs := set.map (sortCoord x geo a)
  v (greatestF cs) - v (leastF cs)

/-- The axis of widest extent; ties go to the lowest. -/
def widestAxis (x : BuildIn) (geo : Bool) (dims : Nat) (set : List Nat) : Nat :=
  ((bestBy (fun (a b : Int × Nat) => b.1 < a.1) ((List.range dims).map fun a => (extent x geo set a, a))).map (·.2)).getD 0

/-- The set sorted by (ord(coord), position). -/
def sortSet (x : BuildIn) (geo : Bool) (a : Nat) (set : List Nat) : List Nat :=
  let k := fun j => ordKey (sortCoord x geo a j)
  sortBy (fun i j => decide (k i < k j || (k i = k j && i ≤ j))) set

/-- split(S, m, c), by halving: n bounds the depth. -/
def splitSet (x : BuildIn) (geo : Bool) (dims c : Nat) : Nat → List Nat → Nat → List (List Nat)
  | 0, set, _ => [set]
  | n + 1, set, m =>
    if m ≤ 1 then [set]
    else
      let ml := (m + 1) / 2
      let sorted := sortSet x geo (widestAxis x geo dims set) set
      splitSet x geo dims c n (sorted.take (ml * c)) ml ++ splitSet x geo dims c n (sorted.drop (ml * c)) (m - ml)

/-- The child sets of a node of height h. -/
def childSets (x : BuildIn) (geo : Bool) (dims l h : Nat) (set : List Nat) : List (List Nat) :=
  let c := l * 8 ^ (h - 1)
  if set.isEmpty then [] else splitSet x geo dims c 4 set (ceilDiv set.length c)

/-- The nodes level by level from height h down: each its set and its child sets. -/
def levelsOf (x : BuildIn) (geo : Bool) (dims l : Nat) : Nat → List (List Nat) → List (List (List Nat × List (List Nat)))
  | 0, _ => []
  | h + 1, sets =>
    let lv := sets.map fun s => (s, childSets x geo dims l (h + 1) s)
    lv :: levelsOf x geo dims l h (lv.flatMap (·.2))

/-! ## Inner-product nodes -/

/-- E (R102). -/
def rangeExpOf (locs : List (List U32)) : Int :=
  let m := ((locs.flatten).map magFx).foldl max 0
  (((List.range 201).find? fun (i : Nat) => m ≤ 2 ^ (49 + i)).getD 200 : Nat) - 100

/-- The unit of a frame of level k, in units of 2^−149: 2^(E − k − 7). -/
def frameUnit (e : Int) (k : Nat) : Int := 2 ^ (142 + e - k).toNat
/-- lo(0) of frame (k, p), in units of 2^−149. -/
def frameLo (e : Int) (k p : Nat) : Int := (128 * p - (2 ^ (k + 7) : Nat)) * frameUnit e k

/-- The frame that R100 takes for a hull [a, b], in units of 2^−149. -/
def chooseFrame (e : Int) (a b : Int) : Nat × Nat :=
  ([6, 5, 4, 3, 2, 1, 0].findSome? fun k =>
    let w := 256 * frameUnit e k
    let cs := (List.range (2 ^ (k + 1) - 1)).filter fun p => frameLo e k p ≤ a && b ≤ frameLo e k p + w
    let far := fun p => (2 * frameLo e k p + w - (a + b)).natAbs
    (bestBy (fun p q => far p < far q || (far p = far q && p < q)) cs).map fun p => (k, p)).getD (0, 0)

/-- The lower code of a value under a frame (R101). -/
def lowCode (e : Int) (kp : Nat × Nat) (v : Int) : Nat := min 255 ((v - frameLo e kp.1 kp.2) / frameUnit e kp.1).toNat
/-- The upper code of a value under a frame (R101). -/
def highCode (e : Int) (kp : Nat × Nat) (v : Int) : Nat :=
  let u := frameUnit e kp.1
  min 255 (((v - frameLo e kp.1 kp.2 + u - 1) / u).toNat - 1)

/-- The hull of a set on dimension i, in units of 2^−149. -/
def hullIp (x : BuildIn) (set : List Nat) (i : Nat) : Int × Int :=
  let cs := set.map fun j => (x.locs.getD j []).getD i 0
  (fx (leastF cs), fx (greatestF cs))

/-- The frame bytes of a set, and its frames; of no key, zero. -/
def framesOf (x : BuildIn) (e : Int) (d : Nat) (set : List Nat) : List (Nat × Nat) :=
  if set.isEmpty then List.replicate d (0, 0) else (List.range d).map fun i => chooseFrame e (hullIp x set i).1 (hullIp x set i).2

/-- Bytes 0 to 63 of an inner-product node. -/
def frameBytes (fr : List (Nat × Nat)) : List Byte :=
  let b := fr.map fun kp => BitVec.ofNat 8 (frameBase kp.1 + kp.2)
  b ++ List.replicate (64 - b.length) 0

/-- Child entry words 2 to 7 of a root (Table 3.2). -/
def headerWords (p : BuildParams) (e : Int) (h first : Nat) : List Nat :=
  [2 ^ 24 + h * 2 ^ 16 + ofSigned 1 e * 2 ^ 8 + p.locDims, p.count, p.keyBase % 2 ^ 32, p.keyBase / 2 ^ 32, ceilDiv p.count 16, first]

/-- An inner-product internal node (Table 3.1); head holds words 2 to 7. -/
def ipNode (p : BuildParams) (x : BuildIn) (e : Int) (set : List Nat) (kids : List (List Nat)) (firstChild : Nat) (leaves : Bool)
    (head : List Nat) : List Byte :=
  let d := p.locDims
  let fr := framesOf x e d set
  let codes := fun j => match kids[j]? with
    | some k =>
      ((List.range d).map fun i => BitVec.ofNat 8 (lowCode e (fr.getD i (0, 0)) (hullIp x k i).1)) ++
      ((List.range d).map fun i => BitVec.ofNat 8 (highCode e (fr.getD i (0, 0)) (hullIp x k i).2))
    | none => List.replicate (2 * d) (0 : Byte)
  let rmax := fun j => match kids[j]? with
    | some k => ((k.map fun i => magOf (x.res.getD i 0)).foldl max 0)
    | none => 0
  let word := fun j => if j = 0 then (if kids.isEmpty then 0 else firstChild)
    else if j = 1 then kids.length + 16 * bit (leaves && !kids.isEmpty) else head.getD (j - 2) 0
  frameBytes fr ++ ((List.range 8).map codes).flatten ++ ((List.range 8).map fun j => natLe 4 (rmax j) ++ natLe 4 (word j)).flatten

/-- An inner-product leaf (Table 3.4). -/
def ipLeaf (p : BuildParams) (x : BuildIn) (e : Int) (set : List Nat) : List Byte :=
  let d := p.locDims
  let fr := framesOf x e d set
  let codes := fun s => match set[s]? with
    | some j => (List.range d).map fun i => BitVec.ofNat 8 (lowCode e (fr.getD i (0, 0)) (fx ((x.locs.getD j []).getD i 0)))
    | none => List.replicate d (0 : Byte)
  frameBytes fr ++ ((List.range 16).map codes).flatten ++ ((List.range 16).map fun s => natLe 4 (set.getD s 0xFFFFFFFF)).flatten

/-- The key records of a leaf (Table 3.5). -/
def leafKeys (p : BuildParams) (x : BuildIn) (set : List Nat) : List Byte :=
  let n := keyStride p.keyFormat p.keyDims
  ((List.range 16).map fun s => match set[s]? with | some j => slice (x.keys.getD j []) 0 n | none => List.replicate n 0).flatten

/-! ## Geometric nodes -/

/-- The hull of a set of primitives on axis a. -/
def hullGeo (x : BuildIn) (set : List Nat) (a : Nat) : U32 × U32 :=
  let bs := set.map fun j => (x.boxes.getD j []).getD a (0, 0)
  (leastF (bs.map (·.1)), greatestF (bs.map (·.2)))

/-- step_exp of an axis (R102), when it lies within −120 to 100. -/
def stepExpOf (h : U32 × U32) : Option Int :=
  ((List.range 221).map fun (i : Nat) => (i : Int) - 120).find? fun e => fle h.2 (gHi h.1 e 255)

/-- The codes of a child hull under a frame (R101 under R99). -/
def geoCodes (o : U32) (e : Int) (h : U32 × U32) : Nat × Nat :=
  (((List.range 256).reverse.find? fun c => fle (gLo o e c) h.1).getD 0, ((List.range 256).find? fun c => fle h.2 (gHi o e c)).getD 255)

/-- Bytes 72 to 83 of a geometric root. -/
def geoHeader (p : BuildParams) (h : Nat) : List Byte :=
  [2, BitVec.ofNat 8 p.primKind, BitVec.ofNat 8 h, 0] ++ natLe 4 p.count ++ natLe 4 p.nodes

/-- A geometric node (Table 3.6). DESIGN CHOICE: of no primitive, every byte that R107 does not give is zero (log entry 100). -/
def geoNode (x : BuildIn) (set : List Nat) (kids : List (List Nat)) (firstChild : Nat) (leaves : Bool) (head : List Byte) :
    List Byte :=
  let hull := (List.range 3).map (hullGeo x set)
  let org := fun a => if set.isEmpty then 0 else (hull.getD a (0, 0)).1
  let ex := fun a => if set.isEmpty then 0 else (stepExpOf (hull.getD a (0, 0))).getD 0
  let code := fun j => match kids[j]? with
    | some k =>
      let cs := (List.range 3).map fun a => geoCodes (org a) (ex a) (hullGeo x k a)
      cs.map (fun c => BitVec.ofNat 8 c.1) ++ cs.map fun c => BitVec.ofNat 8 c.2
    | none => List.replicate 6 (0 : Byte)
  let counts := if leaves then ((List.range 8).map fun j => ((kids.getD j [0]).length - 1) * 4 ^ j).sum else 0
  ((List.range 3).map fun a => natLe 4 (org a).toNat).flatten ++ ((List.range 3).map fun a => BitVec.ofNat 8 (ofSigned 1 (ex a))) ++
  natLe 1 (kids.length + 16 * bit (leaves && !kids.isEmpty)) ++ natLe 4 (if kids.isEmpty then 0 else firstChild) ++ natLe 2 counts ++
  natLe 2 0 ++ ((List.range 8).map code).flatten ++ head ++ List.replicate (56 - head.length) 0

/-! ## The whole tree -/

/-- Running totals of a list: what stands before each element. -/
def before (l : List Nat) : List Nat := (l.foldl (fun (t : Nat × List Nat) n => (t.1 + n, t.2 ++ [t.1])) (0, [])).2

/-- The levels of a tree, root first. -/
def treeLevels (p : BuildParams) (x : BuildIn) : List (List (List Nat × List (List Nat))) :=
  levelsOf x p.geometric (if p.geometric then 3 else p.locDims) p.leafCap (treeHeight p.leafCap p.count) [List.range p.count]

/-- The node bytes of level k of a tree: base is the number of its first node. -/
def levelNodes (p : BuildParams) (x : BuildIn) (e : Int) (h base k : Nat) (lv : List (List Nat × List (List Nat))) : List (List Byte) :=
  let last := k + 1 = h
  let first := base + lv.length
  let offs := before (lv.map fun n => if p.geometric && last then (n.2.map (·.length)).sum else n.2.length)
  (lv.zip offs).map fun n =>
    let root := decide (k = 0)
    let at_ := if p.geometric && last then n.2 else first + n.2
    if p.geometric then geoNode x n.1.1 n.1.2 at_ last (if root then geoHeader p h else [])
    else ipNode p x e n.1.1 n.1.2 at_ last (if root then headerWords p e h (internalNodes 16 p.count) else [])

/-- Every node of a tree in level order, leaves last. -/
def treeNodes (p : BuildParams) (x : BuildIn) : List (List Byte) :=
  let lvs := treeLevels p x
  let e := rangeExpOf x.locs
  let bases := before (lvs.map (·.length))
  let leaves := (lvs.getLastD []).flatMap (·.2)
  ((lvs.zip bases).zipIdx.flatMap fun l => levelNodes p x e lvs.length l.1.2 l.2 l.1.1) ++
    if p.geometric then [] else leaves.map (ipLeaf p x e)

/-- The key or primitive records, in leaf order. -/
def treeRecords (p : BuildParams) (x : BuildIn) : List (List Byte) :=
  let leaves := ((treeLevels p x).getLastD []).flatMap (·.2)
  if p.geometric then leaves.flatten.map fun j => x.prims.getD j []
  else if p.keyCopy then leaves.map (leafKeys p x) else []

/-- Whether a geometric hull needs a step_exp above 100 (R106). -/
def stepTooLarge (p : BuildParams) (x : BuildIn) : Bool :=
  p.geometric && (treeLevels p x).any fun lv => lv.any fun n =>
    !n.1.isEmpty && (List.range 3).any fun a => (stepExpOf (hullGeo x n.1 a)).isNone

/-- What the admission of a BUILD finds (R106, R111). -/
def planBuild (s : State) (c : Nat) (x : Ctx) (f : Fetched) : Plan (BuildParams × BuildIn) :=
  let p := parseBuild f.block
  (planCheck (buildChecks s f p ++ buildRanges x p)).bind fun _ =>
    (planInputs s c p).bind fun i =>
      (planCheck [(stepTooLarge p i, ⟨stDesc, 4, 0xFFFF, p.primIn⟩)]).bind fun _ => .go (p, i)

/-- Pieces of an output, one after the other from an address. -/
def spread (a : Nat) (bs : List (List Byte)) : List (Nat × List Byte) :=
  (bs.zip (before (bs.map (·.length)))).map fun b => (a + b.2, b.1)

/-- How many input arrays a BUILD names. -/
def buildArrays (f : Fetched) : Nat :=
  let p := parseBuild f.block
  if p.geometric then 1 else if p.keyCopy then 3 else 2

/-- The work of a BUILD for its groups: records and nodes to be written, the root last (R109). -/
def buildWork (p : BuildParams) (x : BuildIn) : StockWork :=
  let nodes := spread p.treeAddr (treeNodes p x)
  let records := if p.geometric then (p.primStore, spread p.primOut (treeRecords p x)) else (p.keyStore, spread p.keyOut (treeRecords p x))
  { number := 3, left := Config.buildChunks p.count + 1, outs := [records, (p.treeStore, nodes.drop 1)],
    lastWrites := if p.treeStore then [] else nodes.take 1, lastStore := if p.treeStore then nodes.take 1 else [],
    truncated := false, detail0 := BitVec.ofNat 64 nodes.length, detail1 := BitVec.ofNat 64 (nodes.length * p.stride),
    detail2 := BitVec.ofNat 64 p.recordBytes }

/-- A BUILD admitted: its work waits for groups of the stock BUILD kernel (R222, R474, R476). -/
def buildGo (s : State) (slot : Nat) (b : BuildParams × BuildIn) : State :=
  let p := b.1
  match passOf s slot with
  | none => s
  | some q =>
    let s := if p.count = 0 then s else scratchUse s q.ctx p.scratchAddr p.scratchSize
    modPass s slot fun q => { q with body := .stock (buildWork p b.2) }

/-- BUILD (R105). -/
def execBuild (ctx : BitVec 12) (ring : BitVec 4) (s : State) : Host.Outcome State Fault Refusal :=
  .next (admitWith s ctx.toNat ring.toNat (isOp opBuild) (fun s x f => (planBuild s ctx.toNat x f).refusal) fun s f =>
    match ctxOf s ctx.toNat with
    | some x => admitPlan s ctx.toNat ring.toNat f .plain (buildArrays f) (planBuild s ctx.toNat x f) buildGo
    | none => s)

end Sys2Proof.Machine
end

