-- ==== Sys2Proof/Machine/Calib.lean ====
section
/-! DEFINITION. The CALIB pass (R414 to R417, R426 to R430, R566): calibration areas, margins, snapshots, the controller. A CALIB
runs to its end when it is admitted (log entry 20). -/
namespace Sys2Proof.Machine

/-! ## Parameters -/

/-- The CALIB descriptor (Tables 12.8 and 13.6). -/
structure CalibParams where
  op       : Nat
  memory   : Bool
  snapshot : U32
  areaAddr : Nat
  memAddr  : Nat
  memCount : Nat
  entries  : Nat
  capacity : Nat
  deriving DecidableEq, Repr

/-- The CALIB descriptor read. -/
def parseCalib (d : List Byte) : CalibParams :=
  { op := bitsOf (field d 16 1) 3 0, memory := bitOf (field d 16 1) 4, snapshot := BitVec.ofNat 32 (field d 20 4),
    areaAddr := field d 24 8, memAddr := field d 32 8, memCount := field d 40 4, entries := field d 44 4, capacity := field d 48 4 }

/-- Whether a fetched descriptor is a CALIB of an operation. -/
def isCalib (op : Nat) (f : Fetched) : Bool := isOp opCalib f && (parseCalib f.desc).op == op

/-! ## The area (Table 12.3) -/

/-- Where the working table lies. -/
def CalibArea.working (x : CalibArea) : Nat := x.addr + 256
/-- Where the sample buffer lies. -/
def CalibArea.buffer (x : CalibArea) : Nat := x.addr + 256 + 32 * x.entries
/-- The bytes of an area. -/
def calibSize (entries capacity : Nat) : Nat := 256 + 32 * entries + 32 * capacity

/-- samples_held of a header, no more than the buffer holds. -/
def samplesHeld (x : CalibArea) (h : List Byte) : Nat := min (field h 8 4) x.capacity

/-- A working entry (Table 12.5). -/
structure WorkEntry where
  delta    : U32
  integral : U32
  capture  : U32
  samples  : Nat
  deriving DecidableEq, Repr

/-- Working entry i of a table. -/
def workEntry (b : List Byte) (i : Nat) : WorkEntry :=
  let w := fun j => field b (16 * i + 4 * j) 4
  ⟨BitVec.ofNat 32 (w 0), BitVec.ofNat 32 (w 1), BitVec.ofNat 32 (w 2), w 3⟩

/-- The bytes of a working entry. -/
def WorkEntry.bytes (e : WorkEntry) : List Byte :=
  natLe 4 e.delta.toNat ++ natLe 4 e.integral.toNat ++ natLe 4 e.capture.toNat ++ natLe 4 e.samples

/-- A margin that a CALIB refuses: negative or NaN (R430). -/
def badMargin (m : U32) : Bool := isNan m || flt m 0

/-- The refusal of the first bad margin of a list whose elements lie step bytes apart from address a: a margin array's element fails
as a whole, a working entry at its delta (R562). -/
def marginCheck (a step : Nat) (ms : List U32) : List (Bool × Deny) :=
  match ms.zipIdx.find? fun m => badMargin m.1 with
  | some m => [(true, ⟨stDesc, 4, if step = 4 then 0xFFFF else 0, a + step * m.2⟩)]
  | none => []

/-- n margins of a list of bytes, step bytes apart. -/
def marginsOf (b : List Byte) (step n : Nat) : List U32 := (List.range n).map fun i => BitVec.ofNat 32 (field b (step * i) 4)

/-! ## Sample records (Table 12.6) -/

/-- The sort key of a sample record (R427): margin_index, key_base, j, pass_id, N_g, W_g, snapshot. -/
def sampleKey (r : List Byte) : List Nat :=
  [field r 0 2, field r 2 6 % 2 ^ 42, field r 8 4, field r 12 4, field r 16 4, field r 20 4, field r 24 4]

/-- Whether a list of numbers stands before another or equals it. -/
def lexLe : List Nat → List Nat → Bool
  | [], _ => true
  | _, [] => false
  | a :: x, b :: y => a < b || (a = b && lexLe x y)

/-- Sample records in the order of R427. -/
def sortSamples (rs : List (List Byte)) : List (List Byte) := sortBy (fun a b => lexLe (sampleKey a) (sampleKey b)) rs

/-- n records of 32 bytes. -/
def sampleList (b : List Byte) (n : Nat) : List (List Byte) := (List.range n).map fun i => slice b (32 * i) 32

/-! ## The controller (R427) -/

/-- clamp(x, lo, hi). -/
def clampF (x lo hi : U32) : U32 := fmin (fmax x lo) hi

/-- One update of a working entry by SN and SW of n records. -/
def controlStep (g : Regs) (e : WorkEntry) (n : Nat) (sn sw : U32) : WorkEntry :=
  let one : U32 := 0x3F800000
  let c := fmin one (fdiv .rn sn sw)
  let mu := fsub .rn one c
  let mt := fsub .rn one g.awlTarget
  let err := lnF (fdiv .rn (fmax mu (fdiv .rn mt 0x41800000)) mt)
  let i := clampF (fadd .rn e.integral err) (fneg g.awlILimit) g.awlILimit
  let d := clampF (fadd .rn (fmul .rn g.awlGp err) (fmul .rn g.awlGi i)) (fneg g.awlStep) g.awlStep
  { delta := clampF (fadd .rn e.delta d) g.awlDMin g.awlDMax, integral := i, capture := c, samples := n }

/-- What a PROPOSE has found so far: working entries by index, updated, held, largest increase and decrease, sums that overflow. -/
structure Proposal where
  entries : List (Nat × WorkEntry)
  updated : Nat
  held    : Nat
  up      : U32
  down    : U32
  wild    : Nat
  deriving DecidableEq, Repr

/-- One margin index with its records folded. -/
def foldEntry (g : Regs) (work : List Byte) (p : Proposal) (m : Nat × List (List Byte)) : Proposal :=
  let ns := m.2.map fun r => (BitVec.ofNat 32 (field r 16 4) : U32)
  let ws := m.2.map fun r => (BitVec.ofNat 32 (field r 20 4) : U32)
  let p := { p with wild := p.wild + bit (sumWild ns) + bit (sumWild ws) }
  if m.2.length < g.awlMinSamples.toNat || isZero (sumRn ws) then { p with held := p.held + 1 }
  else
    let old := workEntry work m.1
    let e := controlStep g old m.2.length (sumRn ns) (sumRn ws)
    let up := if flt old.delta e.delta then fsub .rn e.delta old.delta else 0
    let down := if flt e.delta old.delta then fsub .rn old.delta e.delta else 0
    { p with entries := smPut p.entries m.1 e, updated := p.updated + 1, up := if flt p.up up then up else p.up,
             down := if flt p.down down then down else p.down }

/-- The records of a PROPOSE by margin index, in the order of R427. -/
def byMargin (rs : List (List Byte)) : List (Nat × List (List Byte)) :=
  (sortSamples rs).foldl (fun m r => smPut m (field r 0 2) (smGet [] m (field r 0 2) ++ [r])) []

/-- R427 over records. -/
def propose (g : Regs) (work : List Byte) (rs : List (List Byte)) : Proposal :=
  (byMargin rs).foldl (foldEntry g work) ⟨[], 0, 0, 0, 0, 0⟩

/-- last_params of a header: Table 12.7 in its order. -/
def lastParams (g : Regs) : List Byte :=
  layout 64 [(0, 4, g.awlRate.toNat), (4, 4, g.awlStoreCap.toNat), (8, 4, g.awlTarget.toNat), (12, 4, g.awlGp.toNat),
    (16, 4, g.awlGi.toNat), (20, 4, g.awlILimit.toNat), (24, 4, g.awlStep.toNat), (28, 4, g.awlDMin.toNat),
    (32, 4, g.awlDMax.toNat), (36, 4, g.awlMinSamples.toNat)]

/-! ## Snapshots -/

/-- Whether slot k of a header holds a snapshot. -/
def slotHeld (h : List Byte) (k : Nat) : Bool := bitOf (field h 32 1) k
/-- The snapshot number of slot k. -/
def slotNumber (h : List Byte) (k : Nat) : Nat := field h (16 + 4 * k) 4

/-- Whether a number is at or below a held one (R430). -/
def numberTaken (h : List Byte) (n : U32) : Bool := (List.range 4).any fun k => slotHeld h k && n.toNat ≤ slotNumber h k

/-- The slot that a COMMIT takes (Table 12.9): the free slot of lowest index, else that of the lowest snapshot number. -/
def commitSlot (h : List Byte) : Nat :=
  match (List.range 4).find? fun k => !slotHeld h k with
  | some k => k
  | none => (bestBy (fun a b => slotNumber h a < slotNumber h b) (List.range 4)).getD 0

/-- Margins committed as a snapshot: the slot's margins, its number, its valid bit. -/
def commitWrites (x : CalibArea) (h : List Byte) (n : U32) (ms : List U32) : List (Nat × List Byte) :=
  let k := commitSlot h
  [(marginAddr x k 0, ms.flatMap fun m => natLe 4 m.toNat), (x.addr + 16 + 4 * k, natLe 4 n.toNat),
   (x.addr + 32, natLe 1 (field h 32 1 ||| 2 ^ k))]

/-! ## Admission -/

/-- Reads n bytes of the calibration area from a. -/
def planStore {α : Type} (s : State) (a n : Nat) (k : List Byte → Plan α) : Plan α := planRead s 0 true .command a n k

/-- The area of a context, and its header read: a CALIB other than SETUP without an area is refused (R430). -/
def planArea (s : State) (x : Ctx) (f : Fetched) : Plan (CalibArea × List Byte) :=
  match x.calib with
  | none => .deny (denyField f stDesc 16)
  | some a => planStore s a.addr 256 fun h => .go (a, h)

/-- A CALIB admitted: its work is done at once and it ends OK. All but a SAVE have then written the calibration area (R566). -/
def admitCalib {α : Type} (s : State) (c ring : Nat) (op : Nat) (plan : State → Ctx → Fetched → Plan α)
    (go : CalibParams → State → Nat → α → State) : State :=
  admitWith s c ring (isCalib op) (fun s x f => (plan s x f).refusal) fun s f =>
    match ctxOf s c with
    | some x => admitPlan s c ring f .plain 1 (plan s x f) fun s slot y =>
        modPass (go (parseCalib f.desc) s slot y) slot fun p => { p with status := some stOk, wrote := op != 4 }
    | none => s

/-- The state with writes made in the store. -/
def putStore (s : State) (ws : List (Nat × List Byte)) : State := { s with store := storeWrites s.store ws }

/-! ## SETUP -/

/-- A plan that a refusal later in the order of R430 overtakes unless it is itself a refusal. -/
def lateDeny {α : Type} (p : Plan α) (e : Option Deny) : Plan α := if p.refusal.isSome then p else orDeny e p

/-- What the admission of a SETUP finds: its margins, or what R430 refuses. -/
def planSetup (s : State) (c : Nat) (x : Ctx) (f : Fetched) : Plan (List U32) :=
  let p := parseCalib f.desc
  (planCheck [(x.calib.isSome, denyField f stDesc 16), (p.entries = 0 || 65536 < p.entries, denyField f stDesc 44),
      (p.capacity < 1024 || 262144 < p.capacity, denyField f stDesc 48)]).bind fun _ =>
    lateDeny
      (planRead s c false (.array 0 0) p.memAddr (4 * p.entries) fun b =>
        let ms := marginsOf b 4 p.entries
        (planCheck (marginCheck p.memAddr 4 ms)).bind fun _ => .go ms)
      (firstDeny [(p.areaAddr % 128 != 0, denyField f stDesc 24),
        denyRange stPermission x 0 24 p.areaAddr (calibSize p.entries p.capacity)])

/-- The store with n bytes from a cleared. -/
def storeClear (st : Store) (a n : Nat) : Store :=
  let inside := fun k => a ≤ k * 128 && k * 128 + 128 ≤ a + n
  { st with bytes := st.bytes.filter fun kv => !(a ≤ kv.1 && kv.1 < a + n), poison := st.poison.filter fun l => !inside l }

/-- A SETUP: the area is laid out afresh (Table 12.9). -/
def setupGo (c : Nat) (p : CalibParams) (s : State) (_slot : Nat) (ms : List U32) : State :=
  let a : CalibArea := ⟨p.areaAddr, p.entries, p.capacity⟩
  let s := { s with store := storeClear s.store p.areaAddr (calibSize p.entries p.capacity) }
  let s := putStore s [(a.addr, natLe 4 p.entries ++ natLe 4 p.capacity),
    (a.working, ms.flatMap fun m => (WorkEntry.bytes ⟨m, 0, nan32, 0⟩))]
  modCtx s c fun x => { x with calib := some a }

/-- CALIB_SETUP (R414). -/
def execCalibSetup (ctx : BitVec 12) (ring : BitVec 4) (s : State) : Host.Outcome State Fault Refusal :=
  .next (admitCalib s ctx.toNat ring.toNat 0 (fun s x f => planSetup s ctx.toNat x f) (setupGo ctx.toNat))

/-! ## EXPORT -/

/-- What an EXPORT finds: the area and the records of its buffer. -/
def planExport (s : State) (x : Ctx) (f : Fetched) : Plan (CalibArea × List (List Byte)) :=
  (planArea s x f).bind fun y =>
    let n := samplesHeld y.1 y.2
    planStore s y.1.buffer (32 * n) fun b => .go (y.1, sampleList b n)

/-- An EXPORT: a header and the sorted records go to memory, the buffer is empty. -/
def exportGo (p : CalibParams) (s : State) (slot : Nat) (y : CalibArea × List (List Byte)) : State :=
  let s := passWrite s slot p.memAddr (layout 16 [(0, 4, y.2.length)] ++ (sortSamples y.2).flatten)
  putStore s [(y.1.addr + 8, natLe 4 0)]

/-- EXPORT (R429). -/
def execCalibExport (ctx : BitVec 12) (ring : BitVec 4) (s : State) : Host.Outcome State Fault Refusal :=
  .next (admitCalib s ctx.toNat ring.toNat 1 planExport exportGo)

/-! ## PROPOSE -/

/-- The refusal of the first record whose margin_index is not below E (R430). -/
def recordCheck (a e : Nat) (rs : List (List Byte)) : List (Bool × Deny) :=
  match rs.zipIdx.find? fun r => e ≤ field r.1 0 2 with
  | some r => [(true, ⟨stDesc, 4, 0, a + 32 * r.2⟩)]
  | none => []

/-- What a PROPOSE finds: the area, its header, its working table and the records. -/
def planPropose (s : State) (c : Nat) (x : Ctx) (f : Fetched) : Plan (CalibArea × List Byte × List Byte × List (List Byte)) :=
  let p := parseCalib f.desc
  (planArea s x f).bind fun y =>
    let n := if p.memory then p.memCount else samplesHeld y.1 y.2
    let a := if p.memory then p.memAddr else y.1.buffer
    planRead s c (!p.memory) (.array 0 0) a (32 * n) fun b =>
      (planCheck (recordCheck a y.1.entries (sampleList b n))).bind fun _ =>
        planStore s y.1.working (16 * y.1.entries) fun w => .go (y.1, y.2, w, sampleList b n)

/-- The payload of CALIB_PROPOSAL (Table 13.14). -/
def proposalPayload (h : List Byte) (n : Nat) (o : Proposal) : List Byte :=
  layout 20 [(0, 4, n), (4, 4, o.updated), (8, 4, o.held), (12, 4, o.up.toNat), (16, 4, o.down.toNat)] ++ slice h 48 16 ++ List.replicate 12 0

/-- A PROPOSE: working entries and last_params are written, CALIB_PROPOSAL is posted, and a LOCAL one empties the buffer and its skip
counts (R426 to R428). -/
def proposeGo (c : Nat) (p : CalibParams) (s : State) (slot : Nat) (y : CalibArea × List Byte × List Byte × List (List Byte)) : State :=
  let a := y.1
  let o := propose s.regs y.2.2.1 y.2.2.2
  let n := y.2.2.2.length
  let s := putStore s ((o.entries.map fun e => (a.working + 16 * e.1, e.2.bytes)) ++ [(a.addr + 64, lastParams s.regs)])
  let s := if o.wild = 0 then s else countCtx s c 0 o.wild
  let s := match passOf s slot with | some q => postPassEvent s q evCalib (proposalPayload y.2.1 n o) | none => s
  let s := if p.memory then s else putStore s [(a.addr + 8, natLe 4 0), (a.addr + 48, List.replicate 16 0)]
  modPass s slot fun q => { q with detail1 := BitVec.ofNat 64 n, detail2 := BitVec.ofNat 64 o.updated }

/-- PROPOSE (R427). -/
def execCalibPropose (ctx : BitVec 12) (ring : BitVec 4) (s : State) : Host.Outcome State Fault Refusal :=
  .next (admitCalib s ctx.toNat ring.toNat 2 (fun s x f => planPropose s ctx.toNat x f) (proposeGo ctx.toNat))

/-! ## COMMIT -/

/-- What a COMMIT finds: the area, its header and the margins. -/
def planCommit (s : State) (c : Nat) (x : Ctx) (f : Fetched) : Plan (CalibArea × List Byte × List U32) :=
  let p := parseCalib f.desc
  (planArea s x f).bind fun y =>
    (planCheck [(numberTaken y.2 p.snapshot, denyField f stDesc 20)]).bind fun _ =>
      let step := if p.memory then 4 else 16
      let a := if p.memory then p.memAddr else y.1.working
      planRead s c (!p.memory) (.array 0 0) a (step * y.1.entries) fun b =>
        let ms := marginsOf b step y.1.entries
        (planCheck (marginCheck a step ms)).bind fun _ => .go (y.1, y.2, ms)

/-- A COMMIT. -/
def commitGo (p : CalibParams) (s : State) (slot : Nat) (y : CalibArea × List Byte × List U32) : State :=
  modPass (putStore s (commitWrites y.1 y.2.1 p.snapshot y.2.2)) slot fun q => { q with detail0 := p.snapshot.setWidth 64 }

/-- COMMIT (R429). -/
def execCalibCommit (ctx : BitVec 12) (ring : BitVec 4) (s : State) : Host.Outcome State Fault Refusal :=
  .next (admitCalib s ctx.toNat ring.toNat 3 (fun s x f => planCommit s ctx.toNat x f) commitGo)

/-! ## SAVE -/

/-- What a SAVE finds: the header and the working table. -/
def planSave (s : State) (x : Ctx) (f : Fetched) : Plan (List Byte × List Byte) :=
  (planArea s x f).bind fun y => planStore s y.1.working (16 * y.1.entries) fun w => .go (y.2, w)

/-- A SAVE: the working entries and the slot directory go to memory. -/
def saveGo (p : CalibParams) (s : State) (slot : Nat) (y : List Byte × List Byte) : State :=
  passWrite s slot p.memAddr (y.2 ++ slice y.1 16 17 ++ List.replicate 47 0)

/-- SAVE (R429). -/
def execCalibSave (ctx : BitVec 12) (ring : BitVec 4) (s : State) : Host.Outcome State Fault Refusal :=
  .next (admitCalib s ctx.toNat ring.toNat 4 planSave saveGo)

/-! ## RESTORE -/

/-- What a RESTORE finds: the area, its header and the working entries of the SAVE image. -/
def planRestore (s : State) (c : Nat) (x : Ctx) (f : Fetched) : Plan (CalibArea × List Byte × List Byte) :=
  let p := parseCalib f.desc
  (planArea s x f).bind fun y =>
    (planCheck [(numberTaken y.2 p.snapshot, denyField f stDesc 20)]).bind fun _ =>
      planRead s c false (.array 0 0) p.memAddr (16 * y.1.entries + 64) fun b =>
        (planCheck (marginCheck p.memAddr 16 (marginsOf b 16 y.1.entries))).bind fun _ =>
          .go (y.1, y.2, slice b 0 (16 * y.1.entries))

/-- A RESTORE: the working entries are loaded and their margins committed. -/
def restoreGo (p : CalibParams) (s : State) (slot : Nat) (y : CalibArea × List Byte × List Byte) : State :=
  let s := putStore s ((y.1.working, y.2.2) :: commitWrites y.1 y.2.1 p.snapshot (marginsOf y.2.2 16 y.1.entries))
  modPass s slot fun q => { q with detail0 := p.snapshot.setWidth 64 }

/-- RESTORE (R429). -/
def execCalibRestore (ctx : BitVec 12) (ring : BitVec 4) (s : State) : Host.Outcome State Fault Refusal :=
  .next (admitCalib s ctx.toNat ring.toNat 5 (fun s x f => planRestore s ctx.toNat x f) restoreGo)

/-! ## DISABLE -/

/-- What a DISABLE finds: the area. -/
def planDisable (_ : State) (x : Ctx) (f : Fetched) : Plan CalibArea :=
  match x.calib with
  | none => .deny (denyField f stDesc 16)
  | some a => .go a

/-- The area of a context given up (R429, R436): its incomplete samples are discarded, its slots freed. -/
def dropArea (s : State) (c : Nat) : State :=
  match (ctxOf s c).bind (·.calib) with
  | none => s
  | some a =>
    let s := dropAwl s fun x _ => x == c
    modCtx (putStore s [(a.addr + 32, [0])]) c fun x => { x with calib := none }

/-- DISABLE (R429). -/
def execCalibDisable (ctx : BitVec 12) (ring : BitVec 4) (s : State) : Host.Outcome State Fault Refusal :=
  .next (admitCalib s ctx.toNat ring.toNat 6 planDisable fun _ s _ _ => dropArea s ctx.toNat)

end Sys2Proof.Machine
end

