-- ==== Sys2Proof/Machine/RingLink.lean ====
section
/-! DEFINITION. The ring link layer (R198 to R205, R496 to R501): bring-up, alignment, acceptance in sequence, replay, credits, what a
link presents next, and the loss of a link (R219, R220). -/
namespace Sys2Proof.Machine

/-! ## Losing a link -/

/-- The counter of Table 16.11 at offset k of a link's block. -/
def linkCounter (l : LinkSide) (k : Nat) : Nat := 64 + 16 * linkIx l + k

/-- A lap once the ring is lost: a census under way returns no more, and fails at census_timeout (R210, Table 15.15). -/
def brokenLap (k : Lap) : Lap := if k == .census1 || k == .census2 || k == .broken then .broken else .none

/-- The ring is not ready (R220): no epoch is under way any more. -/
def ringUnready (s : State) : State :=
  { s with net := { s.net with censusState := if s.net.censusState = 2 then 0 else s.net.censusState, state := .stable,
                               lap := brokenLap s.net.lap, heldVote := none, openIn := none, epochPass := none } }

/-- Every pass of the ring context in flight ends with LINK_LOST and that context halts; the ring is not ready (R220). -/
def ringLost (s : State) (position cause link : Nat) : State :=
  let s := match ringCtx s with
    | some c => faultContext s c stLinkLost (linkLostPayload position cause link) 256 0xFF true
    | none => s
  ringUnready s

/-- RING_DOWN (Table 6.5). -/
def ringDownMsg (s : State) (position cause : Nat) : List Byte :=
  mkMsg cRingDown s.net.position.toNat lapDst [(2, position), (1, cause)]

/-- A link that is down; it presents electrical idle. -/
def downLink (st : BitVec 2) (k : Link) : Link :=
  { k with status := st, elecIdle := true, present := .idleElectrical, aligned := 0, outCtrl := [], outData := [], replay := [], resend := [],
           marginOwed := none, grants := 0 }

/-- A link goes down; one that was up is lost (R219): RING_DOWN leaves on the other link. retrain is raised under R201 and R203
(R498). -/
def dropLink (s : State) (l : LinkSide) (st : BitVec 2) (retrain : Bool) (cause : Nat) : State :=
  let up := (linkOf s l).status == 3
  let s := modLink s l fun k => { downLink st k with retrain := retrain }
  if !up then s
  else
    let me := s.net.position.toNat
    let s := if (linkOf s (otherSide l)).status = 3 then sendCtrl s (otherSide l) (ringDownMsg s me cause) else s
    ringLost s me cause (linkIx l)

/-! ## Bring-up (R501) -/

/-- A link whose bring-up begins: it leaves electrical idle and presents an alignment word-time first. -/
def bringLink (now : U64) (k : Link) : Link :=
  { Link.reset with clockOn := true, trained := true, status := 2, elecIdle := false, upSince := now, ackAt := now, ackSentAt := now,
                    marginSentAt := now, alignErrs := k.alignErrs, present := .alignment }

/-- Whether the ring port works: the quadrants are released and no engine-reach failure holds it (R519, R548). -/
def ringPort (s : State) : Bool := running s && s.bring.released && !s.bring.fatal

/-- Whether a link's bring-up may begin now: the ring port works, its clock runs, and its neighbour is not absent (R211). -/
def mayBring (s : State) (k : Link) : Bool := ringPort s && k.clockOn && !k.neighbourAbsent

/-- A PHY's trained indication rises. -/
def trainedRise (s : State) (l : LinkSide) : State :=
  let k := linkOf s l
  if !running s || k.trained then s
  else if mayBring s k then modLink s l (bringLink s.time)
  else modLink s l fun k => { k with trained := true }

/-- LINK_TRAINED_RISE (R501). -/
def execLinkTrainedRise (l : LinkSide) (now : U64) (s : State) : Host.Outcome State Fault Refusal := .next (trainedRise (atTime s now) l)

/-- The status of a link that is not trained: 1 once the quadrants are released and while its clock runs (R568). -/
def restStatus (s : State) (k : Link) : BitVec 2 := if s.bring.released && k.clockOn then 1 else 0

/-- A PHY's trained indication falls (R498). -/
def trainedFall (s : State) (l : LinkSide) : State :=
  if !running s || !(linkOf s l).trained then s
  else
    let s := modLink s l fun k => { k with trained := false }
    dropLink s l (restStatus s (linkOf s l)) false 2

/-- LINK_TRAINED_FALL (R498). -/
def execLinkTrainedFall (l : LinkSide) (s : State) : Host.Outcome State Fault Refusal := .next (trainedFall s l)

/-- A link not up within 100 µs of the rise: elec_idle is low, retrain rises, the attempt is counted and begins again (R501). -/
def bringupTimeout (s : State) (l : LinkSide) : State :=
  let k := linkOf s l
  if !running s || k.status != 2 || (s.time - k.upSince).toNat ≤ 100000 then s
  else count (modLink s l fun k => { bringLink s.time k with retrain := true }) (linkCounter l 4)

/-- LINK_BRINGUP_TIMEOUT (R501). -/
def execLinkBringupTimeout (l : LinkSide) (now : U64) (s : State) : Host.Outcome State Fault Refusal :=
  .next (bringupTimeout (atTime s now) l)

/-- A ring-link clock stops (R505). -/
def ringClockStop (s : State) (l : LinkSide) : State :=
  if !(linkOf s l).clockOn then s
  else
    let s := modLink s l fun k => { k with clockOn := false }
    if running s then dropLink s l 0 false 2 else s

/-- RING_LINK_CLOCK_STOP (R505). -/
def execRingLinkClockStop (l : LinkSide) (s : State) : Host.Outcome State Fault Refusal := .next (ringClockStop s l)

/-- A ring-link clock runs again (R568); a PHY that is trained still lets bring-up begin. -/
def ringClockStart (s : State) (l : LinkSide) : State :=
  if (linkOf s l).clockOn then s
  else
    let s := modLink s l fun k => { k with clockOn := true }
    if !running s then s
    else if mayBring s (linkOf s l) && (linkOf s l).trained then modLink s l (bringLink s.time)
    else modLink s l fun k => { k with status := restStatus s k }

/-- RING_LINK_CLOCK_START (R568). -/
def execRingLinkClockStart (l : LinkSide) (s : State) : Host.Outcome State Fault Refusal := .next (ringClockStart s l)

/-- The highest step of Table 15.14 that bring-up has completed. -/
def reachStep (s : State) (n : Nat) : State := { s with bring := { s.bring with step := max s.bring.step n } }

/-- A link that is aligned and holds both credit grants is up (R501); step 6 ends once both are. -/
def checkUp (s : State) (l : LinkSide) : State :=
  let k := linkOf s l
  if k.status = 2 && 2 ≤ k.aligned && 64 ≤ k.credCtrl && 256 ≤ k.credData then
    let s := modLink s l fun k => { k with status := 3, ackAt := s.time }
    if s.links.all (·.status == 3) then reachStep s 6 else s
  else s

/-! ## Alignment words (R203, R497, R501) -/

/-- Whether an alignment word-time gives every lane its number within 64 word-times of skew. -/
def alignGood (lanes : List LaneWord) (skew : Nat) : Bool :=
  lanes == (List.range 16).map (fun i => ⟨1, BitVec.ofNat 8 i⟩) && skew ≤ 64

/-- Whether a lane's word is an alignment error (R203, R497): a word of type 3 always; in an alignment word-time also a word that is no
alignment word, or that has a wrong lane number. -/
def laneWrong (lanes : List LaneWord) (i : Nat) : Bool :=
  let w := lanes.getD i ⟨0, 0⟩
  w.type == 3 || (lanes.any (·.type == 1) && !(w.type == 1 && w.number == BitVec.ofNat 8 i))

/-- The alignment errors of each lane after a word-time. -/
def laneErrors (errs : List U16) (lanes : List LaneWord) : List U16 :=
  (List.range 16).map fun i => errs.getD i 0 + (if laneWrong lanes i then 1 else 0)

/-- An alignment word-time received. -/
def alignReceive (s : State) (l : LinkSide) (lanes : List LaneWord) (skew : Nat) : State :=
  let k := linkOf s l
  if !running s || k.status.toNat < 2 || !(lanes.any fun w => w.type == 1 || w.type == 3) then s
  else if alignGood lanes skew then
    if k.aligned = 1 then checkUp (modLink s l fun k => { k with aligned := 2, owedCtrl := 64, owedData := 256, grants := 2 }) l
    else modLink s l fun k => { k with aligned := k.aligned + 1 }
  else
    let s := count (modLink s l fun k => { k with alignErrs := laneErrors k.alignErrs lanes }) (linkCounter l 3)
    if k.aligned < 2 then modLink s l fun k => { k with aligned := 0 } else dropLink s l 0 true 1

/-- ALIGNMENT_WORD_RECEIVE (R203). -/
def execAlignmentWordReceive (l : LinkSide) (lanes : List LaneWord) (skew : Nat) (now : U64) (s : State) :
    Host.Outcome State Fault Refusal := .next (alignReceive (atTime s now) l lanes skew)

/-- The word-time after 16,383 others is an alignment word on every lane. -/
def alignSend (s : State) (l : LinkSide) : State :=
  let k := linkOf s l
  if running s && 2 ≤ k.status.toNat && 16383 ≤ k.words then
    modLink s l fun k => { k with words := 0, retrain := false, present := .alignment }
  else s

/-- ALIGNMENT_WORD_SEND (R203). -/
def execAlignmentWordSend (l : LinkSide) (s : State) : Host.Outcome State Fault Refusal := .next (alignSend s l)

/-- The member-absent pattern received (R211): the neighbour is absent; a link that carried a member is lost (R219). -/
def absentReceive (s : State) (l : LinkSide) : State :=
  if !running s || (linkOf s l).status.toNat < 2 then s
  else dropLink (modLink s l fun k => { k with neighbourAbsent := true }) l 0 false 3

/-- MEMBER_ABSENT_RECEIVE (R211). -/
def execMemberAbsentReceive (l : LinkSide) (s : State) : Host.Outcome State Fault Refusal := .next (absentReceive s l)

/-! ## Receiving flits (R199 to R202) -/

/-- Whether a link takes flits: aligned, and the ring port works. -/
def hears (s : State) (l : LinkSide) : Bool := ringPort s && 2 ≤ (linkOf s l).status.toNat && 2 ≤ (linkOf s l).aligned

/-- Whether a flit is discarded whole (R199). -/
def badFlit (f : Flit) : Bool := f.crc != flitCrc f || 5 ≤ f.flitType.toNat

/-- A flit discarded: later flits are dropped until the one expected comes, and a nak is owed (R200, counter 64 + 16x). -/
def discardFlit (s : State) (l : LinkSide) : State :=
  count (modLink s l fun k => { k with rxDrop := true, nakOwed := true }) (linkCounter l 0)

/-- The flits of a replay buffer that an ack_seq covers, when it names one of them or the last one acknowledged. -/
def ackedBy (k : Link) (a : U16) : Nat := if (a - k.lastAck).toNat ≤ k.replay.length then (a - k.lastAck).toNat else 0

/-- A replay of every unacknowledged flit, or the end of the link after replay_limit fruitless ones (R200, R201). -/
def replayLink (s : State) (l : LinkSide) : State :=
  let k := linkOf s l
  if k.replay.isEmpty then s
  else if s.regs.replayLimit.toNat ≤ k.fruitless then dropLink s l 0 true 0
  else
    count (modLink s l fun k => { k with resend := k.replay, fruitless := k.fruitless + 1, ackAt := s.time,
                                         ackLimit := s.regs.linkAckTimeout.toNat }) (linkCounter l 1)

/-- ack_seq and nak of a received header. -/
def applyAck (s : State) (l : LinkSide) (f : Flit) : State :=
  let k := linkOf s l
  let n := ackedBy k f.ackSeq
  let s := if n = 0 then s else modLink s l fun k =>
    { k with lastAck := f.ackSeq, replay := k.replay.drop n, fruitless := 0, ackAt := s.time, ackLimit := s.regs.linkAckTimeout.toNat,
             resend := k.resend.filter fun r => !((k.replay.take n).any fun x => x.seq == r.seq) }
  if f.nak then replayLink s l else s

/-- The credits of a received header (R202). -/
def applyCredits (s : State) (l : LinkSide) (f : Flit) : State :=
  checkUp (modLink s l fun k => { k with credCtrl := k.credCtrl + f.credCtrl.toNat, credData := k.credData + f.credData.toNat }) l

/-- A flit without a sequence number taken by body when it is of the kind that is names. -/
def hearFlit (s : State) (l : LinkSide) (f : Flit) (is : Flit → Bool) (body : State → State) : State :=
  if !hears s l then s
  else if badFlit f then discardFlit s l
  else if !is f then s
  else
    let s := applyAck s l f
    if hears s l then body (applyCredits s l f) else s

/-- A buffer slot freed: its credit is owed to the sender. -/
def freeSlotOf (s : State) (l : LinkSide) (ctrl : Bool) : State :=
  modLink s l fun k => if ctrl then { k with owedCtrl := k.owedCtrl + 1 } else { k with owedData := k.owedData + 1 }

/-- A DATA or CTRL flit accepted in sequence (R200); after 32 of them an ack is owed (R201). -/
def acceptSeq (k : Link) : Link :=
  { k with rxSeq := k.rxSeq + 1, rxDrop := false, unacked := k.unacked + 1, ackOwed := k.ackOwed || 32 ≤ k.unacked + 1 }

/-- A DATA or CTRL flit that is of the kind that is names: taken by body when it is the next of its series; one seen already is dropped,
a later one opens a gap. -/
def hearSeq (s : State) (l : LinkSide) (f : Flit) (is : Flit → Bool) (body : State → State) : State :=
  if !hears s l then s
  else if badFlit f then discardFlit s l
  else if !is f then s
  else
    let s := applyAck s l f
    let d := (f.seq - (linkOf s l).rxSeq).toNat
    if !hears s l then s
    else if d = 0 then body (applyCredits (modLink s l acceptSeq) l f)
    else if 2 ^ 15 ≤ d then modLink s l fun k => { k with ackOwed := true }
    else modLink s l fun k => if k.rxDrop then k else { k with rxDrop := true, nakOwed := true }

/-- Whether a message opens or closes DATA flits and keeps its place among them (R189, R214). -/
def closesData (p : List Byte) : Bool := msgCode p == cEnd || msgCode p == cHoEnd || msgCode p == cHoBegin

/-- A flit relayed on the other link (R183): it holds its buffer slot until it is sent. -/
def relayFlit (s : State) (l : LinkSide) (f : Flit) : State :=
  let o : OutFlit := { ctrl := f.flitType == 2, poison := f.poison, dataKind := f.dataKind, handoffId := f.handoffId,
                       payloadLen := f.payloadLen.toNat, payload := f.payload, held := some l }
  modLink s (otherSide l) fun k =>
    if o.ctrl && !closesData f.payload then { k with outCtrl := k.outCtrl ++ [o] } else { k with outData := k.outData ++ [o] }

/-- A message that opens or closes DATA flits queued among them. -/
def sendClosing (s : State) (l : LinkSide) (payload : List Byte) : State :=
  let o : OutFlit := { ctrl := true, poison := false, dataKind := 0, handoffId := 0, payloadLen := payload.length,
                       payload := payload ++ List.replicate (496 - payload.length) 0, held := none }
  modLink s l fun k => { k with outData := k.outData ++ [o] }

/-- IDLE_FLIT_RECEIVE (R202). -/
def execIdleFlitReceive (l : LinkSide) (f : Flit) (now : U64) (s : State) : Host.Outcome State Fault Refusal :=
  .next (hearFlit (atTime s now) l f (·.flitType == 0) id)

/-- ACK_FLIT_RECEIVE (R201). -/
def execAckFlitReceive (l : LinkSide) (f : Flit) (now : U64) (s : State) : Host.Outcome State Fault Refusal :=
  .next (hearFlit (atTime s now) l f (·.flitType == 3) id)

/-- The report of a MARGIN flit in its eight counters (R204, Table 16.11). -/
def marginReport (l : LinkSide) (f : Flit) (s : State) : State :=
  (List.range 8).foldl (fun s k => setCounter s (linkCounter l (8 + k)) (BitVec.ofNat 64 (field f.payload (8 * k) 8))) s

/-- MARGIN_FLIT_RECEIVE (R204). -/
def execMarginFlitReceive (l : LinkSide) (f : Flit) (now : U64) (s : State) : Host.Outcome State Fault Refusal :=
  .next (hearFlit (atTime s now) l f (·.flitType == 4) (marginReport l f))

/-! ## Timers (R201, R204, R531) -/

/-- ack_seq has not advanced for link_ack_timeout. -/
def ackTimeout (s : State) (l : LinkSide) : State :=
  let k := linkOf s l
  if hears s l && !k.replay.isEmpty && 1000 * k.ackLimit ≤ (s.time - k.ackAt).toNat then replayLink s l else s

/-- ACK_TIMEOUT_REPLAY (R201). -/
def execAckTimeoutReplay (l : LinkSide) (now : U64) (s : State) : Host.Outcome State Fault Refusal := .next (ackTimeout (atTime s now) l)

/-- 1 µs without an ack_seq returned while flits wait for theirs. -/
def ackReturn (s : State) (l : LinkSide) : State :=
  let k := linkOf s l
  if hears s l && k.unacked != 0 && 1000 ≤ (s.time - k.ackSentAt).toNat then modLink s l fun k => { k with ackOwed := true } else s

/-- ACK_RETURN_TIMER (R201). -/
def execAckReturnTimer (l : LinkSide) (now : U64) (s : State) : Host.Outcome State Fault Refusal := .next (ackReturn (atTime s now) l)

/-- A MARGIN flit is owed every margin_interval, with the PHY's values as sampled (R204, R499). -/
def marginDue (s : State) (l : LinkSide) (margins : List U16) : State :=
  let k := linkOf s l
  if ringPort s && k.status = 3 && 100000 * s.regs.marginInterval.toNat ≤ (s.time - k.marginSentAt).toNat then
    modLink s l fun k => { k with marginOwed := some margins, marginSentAt := s.time }
  else s

/-- MARGIN_INTERVAL_SEND (R204). -/
def execMarginIntervalSend (l : LinkSide) (margins : List U16) (now : U64) (s : State) : Host.Outcome State Fault Refusal :=
  .next (marginDue (atTime s now) l margins)

/-! ## TX_TAKE (R202, R496) -/

/-- A flit with the link's own header fields, its CRC formed (R198, R199). -/
def mkFlit (k : Link) (ty : BitVec 4) (seq : U16) (poison : Bool) (len : Nat) (kind : BitVec 2) (id : U32) (payload : List Byte) : Flit :=
  let f : Flit :=
    { flitType := ty, seq := seq, ackSeq := k.rxSeq - 1, nak := k.nakOwed, poison := poison,
      credCtrl := BitVec.ofNat 7 (min 127 k.owedCtrl), credData := BitVec.ofNat 8 (min 255 k.owedData), payloadLen := BitVec.ofNat 9 len,
      dataKind := kind, handoffId := id, payload := payload, crc := 0 }
  { f with crc := flitCrc f }

/-- A link whose next flit carries its ack, its nak and its owed credits. -/
def sendHeader (now : U64) (k : Link) : Link :=
  { k with owedCtrl := k.owedCtrl - min 127 k.owedCtrl, owedData := k.owedData - min 255 k.owedData, nakOwed := false, ackOwed := false,
           unacked := 0, ackSentAt := now }

/-- A flit without sequence number presented. -/
def presentPlain (now : U64) (ty : BitVec 4) (len : Nat) (payload : List Byte) (k : Link) : Link :=
  { sendHeader now k with present := .flit (mkFlit k ty 0 false len 0 0 payload) }

/-- A DATA or CTRL flit presented: it takes the next sequence number and a credit, and stays in the replay buffer (R200, R202); c: it
stood in the control queue. -/
def presentOut (now : U64) (limit : Nat) (c : Bool) (o : OutFlit) (k : Link) : Link :=
  let f := mkFlit k (if o.ctrl then 2 else 1) k.txSeq o.poison o.payloadLen o.dataKind o.handoffId o.payload
  let k := { sendHeader now k with present := .flit f, txSeq := k.txSeq + 1, ackAt := (if k.replay.isEmpty then now else k.ackAt),
                                   ackLimit := (if k.replay.isEmpty then limit else k.ackLimit), replay := k.replay ++ [f] }
  let k := if o.ctrl then { k with credCtrl := k.credCtrl - 1 } else { k with credData := k.credData - 1 }
  if c then { k with outCtrl := k.outCtrl.drop 1 } else { k with outData := k.outData.drop 1 }

/-- The payload of a MARGIN flit (R204). -/
def marginPayload (k : Link) (margins : List U16) : List Byte :=
  ((List.range 16).flatMap fun l => natLe 2 (margins.getD l 0).toNat ++ natLe 2 (k.alignErrs.getD l 0).toNat) ++ List.replicate 432 0

/-- Whether a link holds a credit for a flit (R202). -/
def linkCredit (k : Link) (o : OutFlit) : Bool := if o.ctrl then k.credCtrl != 0 else k.credData != 0

/-- The DATA or CTRL flit that may be sent next, and whether it stands in the control queue: CTRL first, a credit and room in the
replay buffer of 512 (R200, R202). -/
def nextOut (k : Link) : Option (Bool × OutFlit) :=
  if k.status != 3 || k.neighbourAbsent || 512 ≤ k.replay.length then none
  else ((k.outCtrl.head?.filter (linkCredit k)).map (true, ·)).orElse fun _ => (k.outData.head?.filter (linkCredit k)).map (false, ·)

/-- What a link presents once the PHY has taken its word-time: the two ACK flits of its initial credits (R501), a MARGIN flit that is
owed, a flit of a replay, CTRL, DATA, ACK, IDLE. -/
def nextPresent (now : U64) (limit : Nat) (k : Link) : Link :=
  if k.grants != 0 then { presentPlain now 3 0 (List.replicate 496 0) k with grants := k.grants - 1 }
  else match k.marginOwed, k.resend with
  | some m, _ => { presentPlain now 4 64 (marginPayload k m) k with marginOwed := none }
  | none, f :: r => { k with present := .flit f, resend := r }
  | none, [] => match nextOut k with
    | some o => presentOut now limit o.1 o.2 k
    | none => presentPlain now (if k.ackOwed || k.nakOwed then 3 else 0) 0 (List.replicate 496 0) k

/-- The PHY takes the presented word-time; where an alignment word is due next, ALIGNMENT_WORD_SEND presents it instead. -/
def txTake (s : State) (l : LinkSide) : State :=
  let k := linkOf s l
  if !ringPort s || k.status.toNat < 2 || 16383 ≤ k.words then s
  else
    let quiet := k.grants == 0 && k.marginOwed.isNone && k.resend.isEmpty
    let freed := if quiet then (nextOut k).bind fun o => o.2.held.map fun h => (h, o.2.ctrl) else none
    let s := modLink s l fun k => { nextPresent s.time s.regs.linkAckTimeout.toNat k with words := k.words + 1, retrain := false }
    match freed with
    | some h => freeSlotOf s h.1 h.2
    | none => s

/-- TX_TAKE (R496). -/
def execTxTake (l : LinkSide) (s : State) : Host.Outcome State Fault Refusal := .next (txTake s l)

end Sys2Proof.Machine
end

