-- ==== Sys2Proof/Machine/Handoff.lean ====
section
/-! DEFINITION. Control messages received (R183, R206) and the handoff barrier (R189 to R193). -/
namespace Sys2Proof.Machine

/-! ## Control messages (R206) -/

/-- Whether a message is for this engine: a lap message, or one addressed to the position it took in the census. -/
def forMe (s : State) (p : List Byte) : Bool :=
  msgDst p == lapDst || (s.net.positionCount != 0 && !s.net.absent && msgDst p == s.net.position.toNat)

/-- A message with a reserved code, or an older census_id, discarded and counted (R206, counter 66 + 16x). -/
def discardMsg (s : State) (l : LinkSide) : State := count s (linkCounter l 2)

/-- A CTRL flit received that carries the message of a code: one for this engine is taken by body and its buffer slot freed, another is
relayed; a reserved code is discarded. -/
def hearMsg (s : State) (l : LinkSide) (f : Flit) (code : Nat) (body : State → State) : State :=
  hearSeq s l f (fun f => f.flitType == 2 && (msgCode f.payload == code || !msgDefined (msgCode f.payload))) fun s =>
    if !msgDefined (msgCode f.payload) then freeSlotOf (discardMsg s l) l true
    else if forMe s f.payload then freeSlotOf (body s) l true
    else relayFlit s l f

/-- A CTRL flit passed on over a link with its payload_len and its payload as they came (R183, R216). -/
def passFlit (s : State) (l : LinkSide) (f : Flit) : State :=
  modLink s l fun k => { k with outCtrl := k.outCtrl ++
    [{ ctrl := true, poison := f.poison, dataKind := f.dataKind, handoffId := f.handoffId, payloadLen := f.payloadLen.toNat,
       payload := f.payload, held := none }] }

/-- A lap message passed on downstream unchanged. -/
def passLap (s : State) (f : Flit) : State := passFlit s .down f

/-! ## The send half -/

/-- The DATA flits of n bytes from a store address: at most 496 bytes each, poisoned where a byte read is (R192). -/
def dataFlits (st : Store) (kind : BitVec 2) (id : U32) (a n : Nat) : List OutFlit :=
  (List.range (ceilDiv n 496)).map fun i =>
    let m := storeRead st (a + 496 * i) (min 496 (n - 496 * i))
    { ctrl := false, poison := m.bad.isSome, dataKind := kind, handoffId := id, payloadLen := m.bytes.length,
      payload := m.bytes ++ List.replicate (496 - m.bytes.length) 0, held := none }

/-- Flits queued on a link's data output. -/
def queueData (s : State) (l : LinkSide) (os : List OutFlit) : State := modLink s l fun k => { k with outData := k.outData ++ os }

/-- A READY matches a send half: too short, both halves end with DESC_ERROR and no byte is sent; else the bytes are sent, then
HANDOFF_END (R189). -/
def matchReady (s : State) (slot : Nat) (h : HandoffBody) (recvLen : Nat) : State :=
  if recvLen < h.sendLen then
    let s := sendCtrl s .down (handoffMsg s cAbort (downstream s) h [(1, stDesc.toNat)])
    setHandoff s slot { spoilHandoff h stDesc with send := .done }
  else
    let s := queueData (seenLines s h.sendAddr h.sendLen) .down (dataFlits s.store 0 h.step h.sendAddr h.sendLen)
    let s := sendClosing s .down (handoffMsg s cEnd (downstream s) h [(8, h.sendLen)])
    setHandoff s slot { h with send := .ended, sent := h.sendLen }

/-- What a handoff message does to the handoff that it matches; none where none does (R190). -/
def takeHandoffMsg (s : State) (p : List Byte) : Option State :=
  let e := msgField p 0 4
  let k := msgField p 4 4
  let c := msgCode p
  if c = cReady then
    (findHandoff s e k fun h => h.send == .waiting).map fun x => matchReady s x.1.slot x.2 (msgField p 8 8)
  else if c = cEnd then
    (findHandoff s e k readyOut).map fun x => retryReady (setHandoff s x.1.slot { x.2 with recv := .ended })
  else if c = cAck then
    (findHandoff s e k fun h => h.send == .ended).map fun x => setHandoff s x.1.slot { x.2 with send := .done }
  else none

/-- HANDOFF_ABORT: the half that faces the sender of the message ends, with DESC_ERROR when it carries that, else CANCELLED (R189,
R193). fromUp: it came from upstream, so it names the receive half. -/
def takeAbort (s : State) (fromUp : Bool) (p : List Byte) : Option State :=
  let st := if msgField p 8 1 = stDesc.toNat then stDesc else stCancelled
  (findHandoff s (msgField p 0 4) (msgField p 4 4) fun h => !halfDone (if fromUp then h.recv else h.send)).map fun x =>
    let h := spoilHandoff x.2 st
    let s := if fromUp then s else modLink s .down fun l => { l with outData := l.outData.filter (!ofHandoff h ·) }
    retryReady (setHandoff s x.1.slot (if fromUp then { h with recv := .done } else { h with send := .done }))

/-- A handoff message taken by the handoff that it matches. -/
def tryHandoffMsg (s : State) (l : LinkSide) (p : List Byte) : Option State :=
  if msgCode p = cAbort then takeAbort s (l == .up) p else takeHandoffMsg s p

/-- A handoff message that has come: taken, or held until a handoff that it matches is admitted (R190). -/
def handoffMsgIn (s : State) (l : LinkSide) (p : List Byte) : State :=
  (tryHandoffMsg s l p).getD { s with net := { s.net with heldMsgs := s.net.heldMsgs ++ [(l, p)] } }

/-- The held messages that match by now are taken, oldest first. -/
def takeHeld (s : State) : State :=
  s.net.heldMsgs.foldl (fun s m => handoffMsgIn s m.1 m.2) { s with net := { s.net with heldMsgs := [] } }

/-- HANDOFF_READY (R189). -/
def execHandoffReady (l : LinkSide) (f : Flit) (now : U64) (s : State) : Host.Outcome State Fault Refusal :=
  .next (hearMsg (atTime s now) l f cReady fun s => handoffMsgIn s l f.payload)

/-- HANDOFF_END (R189). -/
def execHandoffEnd (l : LinkSide) (f : Flit) (now : U64) (s : State) : Host.Outcome State Fault Refusal :=
  .next (hearMsg (atTime s now) l f cEnd fun s => handoffMsgIn s l f.payload)

/-- HANDOFF_ACK (R189). -/
def execHandoffAck (l : LinkSide) (f : Flit) (now : U64) (s : State) : Host.Outcome State Fault Refusal :=
  .next (hearMsg (atTime s now) l f cAck fun s => handoffMsgIn s l f.payload)

/-- HANDOFF_ABORT (R193). -/
def execHandoffAbort (l : LinkSide) (f : Flit) (now : U64) (s : State) : Host.Outcome State Fault Refusal :=
  .next (hearMsg (atTime s now) l f cAbort fun s => handoffMsgIn s l f.payload)

/-! ## The receive half -/

/-- The bytes of a DATA flit (Table 6.3). -/
def flitData (f : Flit) : List Byte := slice f.payload 0 (min 496 f.payloadLen.toNat)

/-- The receive half that a DATA flit of data_kind 0 belongs to (R190). -/
def receiverOf (s : State) (step : U32) : Option (Pass × HandoffBody) :=
  s.passes.findSome? fun p => (handoffOf p).bind fun h => if h.step = step && readyOut h then some (p, h) else none

/-- A DATA flit of data_kind 0, or of a reserved one, on link l: written, relayed past an engine that is no member, or discarded and
counted (R183, R189, R190, R192). -/
def handoffData (s : State) (l : LinkSide) (f : Flit) : State :=
  if 2 ≤ f.dataKind.toNat then freeSlotOf (discardMsg s l) l false
  else if !isMember s then relayFlit s l f
  else match (if l = .up then receiverOf s f.handoffId else none) with
    | none => freeSlotOf (discardMsg s l) l false
    | some (p, h) =>
      let b := (flitData f).take (h.recvLen - h.got)
      let s := { s with store := storeWrite s.store (h.recvAddr + h.got) b f.poison }
      freeSlotOf (setHandoff s p.slot { h with recv := .moving, got := h.got + b.length }) l false

/-- HANDOFF_DATA_RECEIVE (R190). -/
def execHandoffDataReceive (l : LinkSide) (f : Flit) (now : U64) (s : State) : Host.Outcome State Fault Refusal :=
  .next (hearSeq (atTime s now) l f (fun f => f.flitType == 1 && f.dataKind != 1) fun s => handoffData s l f)

/-- The last write of a receive half is accepted: HANDOFF_ACK goes upstream and the half is done (R189). -/
def recvDone (s : State) (slot : Nat) : State :=
  match (passOf s slot).bind handoffOf with
  | none => s
  | some h =>
    if h.recv != .ended then s
    else
      let s := sendCtrl s .up (handoffMsg s cAck (upstream s) h [])
      setHandoff s slot { h with recv := .done }

/-- HANDOFF_RECV_DONE (R189). -/
def execHandoffRecvDone (pass : Byte) (now : U64) (s : State) : Host.Outcome State Fault Refusal :=
  .next (recvDone (atTime s now) pass.toNat)

/-! ## Admission and timeout -/

/-- The HANDOFF parameters (Tables 6.1 and 13.6), nothing done. -/
def parseHandoff (s : State) (d : List Byte) : HandoffBody :=
  let f := field d 17 1
  { epoch := BitVec.ofNat 32 (field d 20 4), step := BitVec.ofNat 32 (field d 24 4), sendAddr := field d 32 8, sendLen := field d 40 8,
    recvAddr := field d 48 8, recvLen := field d 56 8, send := if bitOf f 0 then .waiting else .off,
    recv := if bitOf f 1 then .waiting else .off, readySent := false, sent := 0, got := 0, since := s.time,
    limit := s.regs.handoffTimeout.toNat, bad := none }

/-- The check of a HANDOFF (R191): its areas lie within the windows. -/
def handoffCheck (s : State) (x : Ctx) (f : Fetched) : Option Deny :=
  let h := parseHandoff s f.desc
  firstDeny [denyRange stPermission x 0 32 h.sendAddr (if h.send = .off then 0 else h.sendLen),
    denyRange stPermission x 0 48 h.recvAddr (if h.recv = .off then 0 else h.recvLen)]

/-- The store with n bytes copied; a destination line that takes a poisoned byte is poisoned (R192). -/
def storeCopy (st : Store) (src dst n : Nat) : Store :=
  let m := storeRead st src n
  let bad := ((List.range n).filter fun i => ((src + i) / 128) ∈ st.poison).map fun i => (dst + i) / 128
  let st := storeWrite st dst m.bytes false
  { st with poison := bad.foldl setAdd st.poison }

/-- A handoff on a ring of one member: a copy within the engine (R191). -/
def copyHandoff (s : State) (slot : Nat) (h : HandoffBody) : State :=
  if h.send = .off || h.recv = .off then setHandoff s slot { h with send := .done, recv := .done }
  else if h.recvLen < h.sendLen then setHandoff s slot { spoilHandoff h stDesc with send := .done, recv := .done }
  else
    let s := seenLines s h.sendAddr h.sendLen
    setHandoff { s with store := storeCopy s.store h.sendAddr h.recvAddr h.sendLen } slot
      { h with send := .done, recv := .done, sent := h.sendLen, got := h.sendLen }

/-- A handoff admitted. -/
def handoffGo (s : State) (c ring : Nat) (f : Fetched) : State :=
  let slot := freeSlot s
  let h := parseHandoff s f.desc
  let s := admitBody s c ring f (.handoff h)
  if h.send = .off && h.recv = .off then setHandoff s slot h
  else if s.net.members = [s.net.position.toNat] then copyHandoff s slot h
  else takeHeld (trySendReady s slot)

/-- BARRIER_HANDOFF (R189). -/
def execBarrierHandoff (ctx : BitVec 12) (ring : BitVec 4) (now : U64) (s : State) : Host.Outcome State Fault Refusal :=
  .next (admitWith (atTime s now) ctx.toNat ring.toNat (isBarrier 1) handoffCheck fun s f => handoffGo s ctx.toNat ring.toNat f)

/-- Whether a half of a handoff has found no match. -/
def unmatched (h : HandoffBody) : Bool :=
  h.send == .waiting || h.recv == .waiting || (match h.recv with | .ready _ => true | _ => false)

/-- A half without a match within handoff_timeout: TIMEOUT, and the context halts (R190). -/
def handoffTimeout (s : State) (slot : Nat) : State :=
  match passOf s slot with
  | none => s
  | some p => match handoffOf p with
    | none => s
    | some h =>
      let e := (s.time - h.since).toNat
      if unmatched h && 1000000 * h.limit < e then
        faultPass s p stTimeout (timeoutPayload 1 (h.epoch.toNat * 2 ^ 32 + h.step.toNat) e)
      else s

/-- HANDOFF_TIMEOUT (R190). -/
def execHandoffTimeout (pass : Byte) (now : U64) (s : State) : Host.Outcome State Fault Refusal :=
  .next (handoffTimeout (atTime s now) pass.toNat)

end Sys2Proof.Machine
end

