-- ==== Sys2Proof/Machine/Epoch.lean ====
section
/-! DEFINITION. Membership epochs (R212 to R217): the EPOCH descriptor, the four laps, the handover entries. -/
namespace Sys2Proof.Machine

/-! ## The EPOCH descriptor (Tables 6.6 and 13.6) -/

/-- An EPOCH descriptor. -/
structure EpochParams where
  epoch    : U32
  log2     : Nat
  restart  : Bool
  count    : Nat
  mapAddr  : Nat
  hoAddr   : Nat
  deriving DecidableEq, Repr

/-- The EPOCH descriptor read. -/
def parseEpoch (d : List Byte) : EpochParams :=
  { epoch := BitVec.ofNat 32 (field d 16 4), log2 := bitsOf (field d 20 1) 3 0, restart := bitOf (field d 21 1) 0, count := field d 22 2,
    mapAddr := field d 24 8, hoAddr := field d 32 8 }

/-- The positions that a member map names, ascending. -/
def mapMembers (b : List Byte) : List Nat :=
  (b.take 512).zipIdx.flatMap fun x => ((List.range 8).filter (bitOf x.1.toNat)).map (8 * x.2 + ·)

/-- The handover entry in 32 bytes (R214). -/
def parseEntry (b : List Byte) : Nat × Nat × U16 × Nat := (field b 0 8, field b 8 8, BitVec.ofNat 16 (field b 16 2), field b 24 8)

/-- The digest of an EPOCH (R213): the CRC-32 over its number, S and its member map. -/
def epochDigest (epoch : U32) (log2 : Nat) (map : List Byte) : U32 := crc32 (natLe 4 epoch.toNat ++ natLe 4 (2 ^ log2) ++ map)

/-- Whether the ring is ready: its census has closed (R207, R220). -/
def ringReady (s : State) : Bool := s.net.censusState == 2

/-- Whether an EPOCH may be decided now: on a ready ring while no other is under way, or where no link has come up (R519). -/
def epochTurn (s : State) (f : Fetched) : Bool :=
  isOp opEpoch f && ((ringReady s && s.net.state == .stable) || s.bring.step < 6)

/-- The checks of R212 that the descriptor decides. -/
def epochFields (s : State) (f : Fetched) : List (Bool × Deny) :=
  let p := parseEpoch f.desc
  [(s.bring.step < 6, denyField f stDesc 16),
   (p.epoch.toNat != s.net.epoch.toNat + 1, denyField f stDesc 16),
   (14 < p.log2, denyField f stDesc 20),
   (!p.restart && s.net.shards.isSome && s.net.shards != some p.log2, denyField f stDesc 20)]

/-- The checks of R212 on the member map. -/
def mapChecks (s : State) (f : Fetched) (ms : List Nat) : List (Bool × Deny) :=
  let p := parseEpoch f.desc
  [(!ms.contains 0 || ms.any (s.net.positionCount ≤ ·), ⟨stDesc, 4, 0xFFFF, p.mapAddr⟩),
   (2 ^ p.log2 < ms.length, denyField f stDesc 20)]

/-- The checks on the handover entries: reserved bytes are zero, and the source lies within the windows. -/
def entryChecks (x : Ctx) (a : Nat) (b : List Byte) (n : Nat) : List (Bool × Deny) :=
  (List.range n).flatMap fun i =>
    let e := slice b (32 * i) 32
    let p := parseEntry e
    [(!zeroAt e [(18, 6)], ⟨stDesc, 4, firstNonzero e [(18, 6)], a + 32 * i⟩), denyRange stPermission x 4 0 p.1 p.2.1]

/-- What the admission of an EPOCH finds: its member map and its handover entries. -/
def planEpoch (s : State) (c : Nat) (x : Ctx) (f : Fetched) : Plan (List Byte × List (Nat × Nat × U16 × Nat)) :=
  let p := parseEpoch f.desc
  (planCheck (epochFields s f)).bind fun _ =>
    planRead s c false (.array 0 0) p.mapAddr 512 fun m =>
      (planCheck (mapChecks s f (mapMembers m))).bind fun _ =>
        planRead s c false (.array 0 1) p.hoAddr (32 * p.count) fun b =>
          (planCheck (entryChecks x p.hoAddr b p.count)).bind fun _ =>
            .go (m, (List.range p.count).map fun i => parseEntry (slice b (32 * i) 32))

/-- An EPOCH admitted: the engine is DRAINING. -/
def epochGo (p : EpochParams) (s : State) (slot : Nat) (y : List Byte × List (Nat × Nat × U16 × Nat)) : State :=
  { s with net := { s.net with
      state := .draining, newEpoch := p.epoch, newMembers := mapMembers y.1, newShards := p.log2,
      digest := epochDigest p.epoch p.log2 y.1, epochPass := some slot, entries := y.2, entryNo := 0,
      failedIn := false } }

/-- EPOCH (R212). -/
def execEpoch (ctx : BitVec 12) (ring : BitVec 4) (s : State) : Host.Outcome State Fault Refusal :=
  .next (admitWith s ctx.toNat ring.toNat (epochTurn s) (fun s x f => (planEpoch s ctx.toNat x f).refusal) fun s f =>
    match ctxOf s ctx.toNat with
    | some x => admitPlan s ctx.toNat ring.toNat f .epoch 2 (planEpoch s ctx.toNat x f) (epochGo (parseEpoch f.desc))
    | none => s)

/-! ## What an engine is in an epoch -/

/-- The EPOCH pass at work on this engine. -/
def epochPassOf (s : State) : Option Pass := (s.net.epochPass.bind (passOf s)).filter fun p => p.cancelAt.isNone && p.status.isNone

/-- Whether this engine holds an EPOCH for the epoch that a message names (R216). -/
def holdsEpoch (s : State) (p : List Byte) : Bool := (epochPassOf s).isSome && s.net.newEpoch.toNat == msgField p 0 4

/-- Whether this engine is the ring's origin (R181). -/
def isOrigin (s : State) : Bool := s.straps.ringOrigin

/-- An epoch message of this engine: a lap message. -/
def epochMsg (s : State) (code : Nat) (more : List (Nat × Nat)) : List Byte :=
  mkMsg code s.net.position.toNat lapDst ((4, s.net.newEpoch.toNat) :: more)

/-- The EPOCH pass ends. -/
def endEpoch (s : State) (st : Byte) : State :=
  match epochPassOf s with
  | none => s
  | some p =>
    let s := modPass s p.slot fun p => { p with status := some st }
    { s with net := { s.net with state := .stable, epochPass := none, lap := .none, heldVote := none } }

/-- The commit on one engine (R217). -/
def commitEpoch (s : State) : State :=
  let n := s.net
  endEpoch { s with net := { n with epoch := n.newEpoch, members := n.newMembers, shards := some n.newShards } } stOk

/-- The abort on one engine: back to STABLE(e); a TIMEOUT halts the context (R215, Table 17.1). -/
def abortEpoch (s : State) (st : Byte) : State :=
  if st = stTimeout then
    match epochPassOf s with
    | none => s
    | some p =>
      let s := faultPass s p stTimeout (timeoutPayload 2 (s.net.newEpoch.toNat * 2 ^ 32) (s.time - s.net.voteSince).toNat)
      { s with net := { s.net with state := .stable, epochPass := none, lap := .none, heldVote := none } }
  else endEpoch s st

/-- The origin sends EPOCH_ABORT and aborts itself (R215). -/
def originAbort (s : State) (st : Byte) : State :=
  abortEpoch (sendCtrl s .down (epochMsg s cEpochAbort [(1, st.toNat)])) st

/-! ## The vote lap (R215, R216) -/

/-- V: the positions that are members of the epoch in force, or named in the new map, or both (R215). -/
def voteCount (n : RingNet) : Nat := (n.members ++ n.newMembers.filter (!n.members.contains ·)).length

/-- A lap of the origin begins. -/
def startLap (s : State) (k : Lap) (limit : Nat) : State := { s with net := { s.net with lap := k, lapAt := s.time, lapLimit := limit } }

/-- The origin starts a vote lap with its own vote. -/
def startVote (s : State) : State :=
  sendCtrl (startLap s .vote s.regs.epochTimeout.toNat) .down (epochMsg s cVote [(4, s.net.digest.toNat), (2, 1), (1, 0)])

/-- An EPOCH_VOTE with this engine's vote added, or mismatch set (Table 6.7). -/
def addVote (s : State) (p : List Byte) : List Byte :=
  let d := msgField p 4 4
  let same := d == s.net.digest.toNat
  mkMsg cVote (msgSrc p) (msgDst p) [(4, msgField p 0 4), (4, d), (2, msgField p 8 2 + (if same then 1 else 0)),
    (1, if same then msgField p 10 1 else 1)]

/-- An EPOCH_VOTE at an engine that is not the origin: voted on, held, or forwarded unchanged. -/
def voteIn (s : State) (f : Flit) : State :=
  if holdsEpoch s f.payload then
    if s.net.state == .voted then sendCtrl { s with net := { s.net with heldVote := none } } .down (addVote s f.payload)
    else if s.net.state == .draining then { s with net := { s.net with heldVote := some f } }
    else passLap s f
  else if isMember s then { s with net := { s.net with heldVote := some f } }
  else passLap s f

/-- Whether every earlier pass of the ring context has completed (Table 6.7). -/
def epochDrainedNow (s : State) (p : Pass) : Bool := s.passes.all fun q => !(q.ctx == p.ctx && q.order < p.order)

/-- A DRAINING engine has drained: VOTED; the origin starts the vote lap, another takes up a vote that it held. -/
def epochDrained (s : State) : State :=
  match epochPassOf s with
  | none => s
  | some p =>
    if s.net.state != .draining || !epochDrainedNow s p then s
    else
      let s := { s with net := { s.net with state := .voted, voteSince := s.time, voteLimit := s.regs.epochTimeout.toNat } }
      if isOrigin s then startVote s
      else match s.net.heldVote with
        | some v => voteIn s v
        | none => s

/-- EPOCH_DRAINED (R215). -/
def execEpochDrained (now : U64) (s : State) : Host.Outcome State Fault Refusal := .next (epochDrained (atTime s now))

/-! ## The handover lap (R214) -/

/-- The next handover entry is sent: BEGIN, its bytes, END; with none left to send, EPOCH_HANDOVER goes on. -/
def sendEntries (s : State) : State :=
  let n := s.net
  match n.entries[n.entryNo]? with
  | some e =>
    let hdr := fun (code : Nat) (more : List (Nat × Nat)) =>
      mkMsg code n.position.toNat e.2.2.1.toNat ([(4, n.newEpoch.toNat), (2, n.entryNo)] ++ more)
    let s := sendClosing s .down (hdr cHoBegin [(8, e.2.2.2), (8, e.2.1)])
    let s := queueData (seenLines s e.1 e.2.1) .down (dataFlits s.store 1 (BitVec.ofNat 32 n.entryNo) e.1 e.2.1)
    sendClosing s .down (hdr cHoEnd [(8, e.2.1)])
  | none => sendCtrl s .down (epochMsg s cHandover [(1, bit n.failedIn)])

/-- HANDOVER entered: failed as it arrived; at the origin the lap begins with its own entries (R215). -/
def enterHandover (s : State) (failed : Bool) : State :=
  let s := if isOrigin s then startLap s .handover s.regs.epochTimeout.toNat else s
  sendEntries { s with net := { s.net with state := .handover, entryNo := 0, failedIn := failed } }

/-- The vote returned to the origin (R215). -/
def voteReturned (s : State) (p : List Byte) : State :=
  let v := msgField p 8 2
  let need := voteCount s.net
  if bitOf (msgField p 10 1) 0 || need < v then originAbort s stDesc
  else if v = need then enterHandover s false
  else if 1000000 * s.net.voteLimit ≤ (s.time - s.net.voteSince).toNat then originAbort s stTimeout
  else startVote s

/-- EPOCH_VOTE (R215). -/
def execEpochVote (l : LinkSide) (f : Flit) (now : U64) (s : State) : Host.Outcome State Fault Refusal :=
  .next (hearMsg (atTime s now) l f cVote fun s =>
    if !isOrigin s then voteIn s f
    else if s.net.lap == .vote && holdsEpoch s f.payload then voteReturned s f.payload
    else s)

/-- EPOCH_HANDOVER returned to the origin: an abort, or the commit lap. -/
def handoverReturned (s : State) (p : List Byte) : State :=
  if bitOf (msgField p 4 1) 0 then originAbort s stPermission
  else sendCtrl (startLap s .commit s.regs.epochTimeout.toNat) .down (epochMsg s cCommit [])

/-- EPOCH_HANDOVER at an engine that is not the origin. -/
def handoverIn (s : State) (f : Flit) : State :=
  if holdsEpoch s f.payload && s.net.state == .voted then enterHandover s (bitOf (msgField f.payload 4 1) 0) else passLap s f

/-- EPOCH_HANDOVER (R214). -/
def execEpochHandover (l : LinkSide) (f : Flit) (now : U64) (s : State) : Host.Outcome State Fault Refusal :=
  .next (hearMsg (atTime s now) l f cHandover fun s =>
    if !isOrigin s then handoverIn s f
    else if s.net.lap == .handover && s.net.entries.length ≤ s.net.entryNo && holdsEpoch s f.payload then handoverReturned s f.payload
    else s)

/-! ## Commit, abort, timeout (R215, R217) -/

/-- The number of the epoch that a passing EPOCH_COMMIT puts in force, noted by an engine that holds no EPOCH for it: the current epoch of
R212 (log entry 92). -/
def noteEpoch (s : State) (p : List Byte) : State := { s with net := { s.net with epoch := BitVec.ofNat 32 (msgField p 0 4) } }

/-- EPOCH_COMMIT (R217): an engine in HANDOVER commits and forwards it; at the origin its return commits. -/
def execEpochCommit (l : LinkSide) (f : Flit) (now : U64) (s : State) : Host.Outcome State Fault Refusal :=
  .next (hearMsg (atTime s now) l f cCommit fun s =>
    let mine := holdsEpoch s f.payload && s.net.state == .handover
    if isOrigin s then (if mine && s.net.lap == .commit then commitEpoch s else s)
    else passLap (if mine then commitEpoch s else if holdsEpoch s f.payload then s else noteEpoch s f.payload) f)

/-- EPOCH_ABORT (R215): an engine with that EPOCH aborts and forwards it; at the origin the lap ends. -/
def execEpochAbort (l : LinkSide) (f : Flit) (now : U64) (s : State) : Host.Outcome State Fault Refusal :=
  .next (hearMsg (atTime s now) l f cEpochAbort fun s =>
    if isOrigin s then s
    else passLap (if holdsEpoch s f.payload then abortEpoch s (BitVec.ofNat 8 (msgField f.payload 4 1)) else s) f)

/-- Whether a lap is one of an epoch. -/
def epochLap (k : Lap) : Bool := k == .vote || k == .handover || k == .commit

/-- A lap of the origin that has not returned within epoch_timeout: EPOCH_ABORT with TIMEOUT. -/
def epochTimeout (s : State) : State :=
  if isOrigin s && epochLap s.net.lap && 1000000 * s.net.lapLimit < (s.time - s.net.lapAt).toNat then originAbort s stTimeout else s

/-- EPOCH_TIMEOUT (R215). -/
def execEpochTimeout (now : U64) (s : State) : Host.Outcome State Fault Refusal := .next (epochTimeout (atTime s now))

/-! ## Handover entries at their destination (R214) -/

/-- HANDOVER_ACK to the source of the open entry, which is closed. -/
def ackEntry (s : State) (o : HandoverOpen) (st : Byte) : State :=
  let s := sendCtrl s .up (mkMsg cHoAck s.net.position.toNat o.source.toNat [(4, o.epoch.toNat), (2, o.entry.toNat), (1, st.toNat)])
  { s with net := { s.net with openIn := none } }

/-- Whether a node-store range lies within the windows of the ring context. -/
def inRingWindows (s : State) (a n : Nat) : Bool :=
  match (ringCtx s).bind (ctxOf s) with
  | some x => (firstOutside x.windows a n).isNone
  | none => false

/-- HANDOVER_BEGIN at its destination. -/
def handoverOpen (s : State) (p : List Byte) : State :=
  let a := msgField p 6 8
  let n := msgField p 14 8
  let o : HandoverOpen := { epoch := BitVec.ofNat 32 (msgField p 0 4), source := BitVec.ofNat 16 (msgSrc p), entry := BitVec.ofNat 16 (msgField p 4 2), addr := a, len := n, got := 0,
                            ended := false, ok := inRingWindows s a n }
  { s with net := { s.net with openIn := some o } }

/-- HANDOVER_BEGIN (R214). -/
def execHandoverBegin (l : LinkSide) (f : Flit) (now : U64) (s : State) : Host.Outcome State Fault Refusal :=
  .next (hearMsg (atTime s now) l f cHoBegin fun s => handoverOpen s f.payload)

/-- A DATA flit of data_kind 1: written at the destination of the open entry, in arrival order, or relayed (R183, R214). -/
def handoverData (s : State) (l : LinkSide) (f : Flit) : State :=
  match s.net.openIn with
  | none => relayFlit s l f
  | some o =>
    if o.ended then relayFlit s l f
    else
      let b := (flitData f).take (o.len - o.got)
      let s := if o.ok then { s with store := storeWrite s.store (o.addr + o.got) b f.poison } else s
      freeSlotOf { s with net := { s.net with openIn := some { o with got := o.got + b.length } } } l false

/-- HANDOVER_DATA_RECEIVE (R214). -/
def execHandoverDataReceive (l : LinkSide) (f : Flit) (now : U64) (s : State) : Host.Outcome State Fault Refusal :=
  .next (hearSeq (atTime s now) l f (fun f => f.flitType == 1 && f.dataKind == 1) fun s => handoverData s l f)

/-- HANDOVER_END at its destination: a range outside the windows is answered with PERMISSION, another once its writes are done. -/
def handoverClose (s : State) (p : List Byte) : State :=
  match s.net.openIn with
  | none => s
  | some o =>
    if o.epoch.toNat != msgField p 0 4 || o.entry.toNat != msgField p 4 2 || o.source.toNat != msgSrc p then s
    else if o.ok then { s with net := { s.net with openIn := some { o with ended := true } } }
    else ackEntry s o stPermission

/-- HANDOVER_END (R214). -/
def execHandoverEnd (l : LinkSide) (f : Flit) (now : U64) (s : State) : Host.Outcome State Fault Refusal :=
  .next (hearMsg (atTime s now) l f cHoEnd fun s => handoverClose s f.payload)

/-- The last write of the open entry is accepted by the store: HANDOVER_ACK with OK. -/
def handoverDone (s : State) : State :=
  match s.net.openIn with
  | some o => if o.ended && o.ok then ackEntry s o stOk else s
  | none => s

/-- HANDOVER_WRITES_DONE (R214). -/
def execHandoverWritesDone (now : U64) (s : State) : Host.Outcome State Fault Refusal := .next (handoverDone (atTime s now))

/-- HANDOVER_ACK at the source: the next entry, or, after a status other than OK, EPOCH_HANDOVER with failed set. -/
def handoverAcked (s : State) (p : List Byte) : State :=
  if !(holdsEpoch s p && s.net.state == .handover && s.net.entryNo < s.net.entries.length &&
       s.net.entryNo == msgField p 4 2) then s
  else if msgField p 6 1 = stOk.toNat then sendEntries { s with net := { s.net with entryNo := s.net.entryNo + 1 } }
  else sendEntries { s with net := { s.net with failedIn := true, entryNo := s.net.entries.length } }

/-- HANDOVER_ACK (R214). -/
def execHandoverAck (l : LinkSide) (f : Flit) (now : U64) (s : State) : Host.Outcome State Fault Refusal :=
  .next (hearMsg (atTime s now) l f cHoAck fun s => handoverAcked s f.payload)

end Sys2Proof.Machine
end

