-- ==== Sys2Proof/Machine/Census.lean ====
section
/-! DEFINITION. The census (R207 to R210, R532) and the flooded RING_DOWN (R219, R220). -/
namespace Sys2Proof.Machine

/-- The ring that was ready is declared not ready (R220, R532): LINK_LOST for the ring context; the manual names no cause and no link
for it (log entry 3). -/
def ringAgain (s : State) : State :=
  if ringReady s then
    let f := fresh s
    let v := f.1.toNat
    ringLost f.2 s.net.position.toNat (v % 256) (v / 256 % 256)
  else s

/-- A new census begins on this engine: every mark of the last one but the epoch in force is gone. -/
def openCensus (s : State) (id : U32) (absent : Bool) (position : U16) : State :=
  { s with net := { s.net with censusState := 1, censusId := id, absent := absent, position := position, downSeen := false } }

/-- A census message of this engine. -/
def censusMsg (s : State) (code : Nat) (more : List (Nat × Nat)) : List Byte :=
  mkMsg code s.net.position.toNat lapDst ((4, s.net.censusId.toNat) :: more)

/-- Whether a start write takes effect (R532): on the origin, both its links up, no census running, Drover at work (R520, R556). -/
def mayStart (s : State) : Bool :=
  running s && isOrigin s && s.links.all (·.status == 3) && s.net.censusState != 1 && s.drover.running

/-- The origin starts a census: CENSUS_1 goes downstream with next_position 1 (R207). -/
def censusStart (s : State) : State :=
  if !mayStart s then s
  else
    let s := openCensus (ringAgain s) (s.net.censusId + 1) false 0
    let s := { s with net := { s.net with lastAssigned := 0 } }
    sendCtrl (startLap s .census1 s.regs.censusTimeout.toNat) .down
      (censusMsg s cCensus1 [(2, 1), (4, s.straps.engineId.toNat)])

/-- CENSUS_START (R532). -/
def execCensusStart (now : U64) (s : State) : Host.Outcome State Fault Refusal := .next (censusStart (atTime s now))

/-- Whether this engine takes a position in a census (R207): Keeper has started Drover and the store is initialised. -/
def mayJoin (s : State) : Bool := s.bring.bootState == 2 && s.bring.initDone

/-- CENSUS_1 at an engine that is not the origin: its position taken and the message forwarded, or recorded absent. -/
def census1In (s : State) (f : Flit) : State :=
  let p := f.payload
  let next := msgField p 4 2
  let s := openCensus (ringAgain s) (BitVec.ofNat 32 (msgField p 0 4)) (!mayJoin s) (if mayJoin s then BitVec.ofNat 16 next else 0)
  if mayJoin s then sendCtrl s .down (mkMsg cCensus1 (msgSrc p) (msgDst p) [(4, msgField p 0 4), (2, next + 1), (4, msgField p 6 4)])
  else passLap s f

/-- CENSUS_1 returned to the origin: CENSUS_2 carries the number of positions. -/
def census1Back (s : State) (p : List Byte) : State :=
  let n := msgField p 4 2
  let s := { s with net := { s.net with lastAssigned := BitVec.ofNat 16 (n - 1) } }
  sendCtrl (startLap s .census2 s.regs.censusTimeout.toNat) .down (censusMsg s cCensus2 [(2, n), (2, 0)])

/-- CENSUS_1 (R207). -/
def execCensus1 (l : LinkSide) (f : Flit) (now : U64) (s : State) : Host.Outcome State Fault Refusal :=
  .next (hearMsg (atTime s now) l f cCensus1 fun s =>
    if msgField f.payload 0 4 < s.net.censusId.toNat then s
    else if !isOrigin s then census1In s f
    else if s.net.lap == .census1 && msgField f.payload 0 4 == s.net.censusId.toNat then census1Back s f.payload
    else s)

/-- The position count recorded. An engine that took part sets its epoch in force to 0 and records no member and no S (R208). -/
def closeCensus (s : State) (n : Nat) : State :=
  let net := { s.net with positionCount := n, censusState := 2, heldMsgs := [] }
  reachStep { s with net := if net.absent then net else { net with epoch := 0, members := [], shards := none, state := .stable } } 8

/-- CENSUS_2 (R207): recorded and forwarded; at the origin its return declares the ring ready. -/
def execCensus2 (l : LinkSide) (f : Flit) (now : U64) (s : State) : Host.Outcome State Fault Refusal :=
  .next (hearMsg (atTime s now) l f cCensus2 fun s =>
    let n := msgField f.payload 4 2
    if msgField f.payload 0 4 < s.net.censusId.toNat then s
    else if !isOrigin s then passLap (closeCensus s n) f
    else if s.net.lap == .census2 then closeCensus { s with net := { s.net with lap := .none } } n
    else s)

/-- A census lap that has not returned within census_timeout: the census fails, the ring stays not ready, Keeper logs CENSUS_FAILED
(R210, Table 17.3). -/
def censusTimeout (s : State) : State :=
  if (s.net.lap == .census1 || s.net.lap == .census2 || s.net.lap == .broken) && 1000000 * s.net.lapLimit < (s.time - s.net.lapAt).toNat then
    logWide { s with net := { s.net with censusState := 3, lap := .none } } 0x07 0
      (natLe 4 s.net.censusId.toNat ++ natLe 2 s.net.lastAssigned.toNat)
  else s

/-- CENSUS_TIMEOUT (R210). -/
def execCensusTimeout (now : U64) (s : State) : Host.Outcome State Fault Refusal := .next (censusTimeout (atTime s now))

/-- RING_DOWN received: forwarded once on the other link, and the ring context's passes end with LINK_LOST (R219, R220). -/
def ringDownIn (s : State) (l : LinkSide) (f : Flit) : State :=
  let p := f.payload
  let s := if s.net.downSeen then s
    else
      let s := { s with net := { s.net with downSeen := true } }
      if (linkOf s (otherSide l)).status = 3 then passFlit s (otherSide l) f else s
  ringLost s (msgField p 0 2) (msgField p 2 1) (linkIx l)

/-- RING_DOWN (R220). -/
def execRingDown (l : LinkSide) (f : Flit) (now : U64) (s : State) : Host.Outcome State Fault Refusal :=
  .next (hearMsg (atTime s now) l f cRingDown fun s => ringDownIn s l f)

end Sys2Proof.Machine
end

