-- ==== Sys2Proof/Machine/Contexts.lean ====
section
/-! DEFINITION. Context entries and their commits (R433 to R437, R567). -/
namespace Sys2Proof.Machine

/-! ## The checks of R434 -/

/-- The other valid contexts. -/
def otherCtxs (s : State) (c : Nat) : List Ctx := (s.ctxs.filter fun kv => kv.1 != c && kv.2.valid).map (·.2)

/-- The result code that refuses an entry, when one does (R434); the read of the entry decides before what it holds. -/
def commitRefusal (s : State) (c : Nat) (m : MemRead) : Option (BitVec 3) :=
  let x := parseCtx m.bytes
  let others := otherCtxs s c
  if m.bad.isSome then some 6
  else if ctxReserved m.bytes (nodeMib s) then some 1
  else if x.valid && (x.asid == 0 || others.any (·.asid == x.asid)) then some 2
  else if others.any (fun y => y.windows &&& x.windows != 0) then some 3
  else if x.ringContext && others.any (·.ringContext) then some 4
  else none

/-! ## What may take effect at once (R435) -/

/-- Whether a change of a header address concerns no ring that is set up. -/
def headersFree (s : State) (c : Nat) (x y : Ctx) : Bool :=
  (List.range 16).all fun r => x.headerAddr.getD r 0 == y.headerAddr.getD r 0 || !(ringOf s (ringKey c r)).active

/-- Whether a new entry y only adds to the entry x in force. -/
def onlyAdds (s : State) (c : Nat) (x y : Ctx) : Bool :=
  x.valid == y.valid && x.ringContext == y.ringContext && x.mgmtAllowed == y.mgmtAllowed && x.memModel == y.memModel &&
  x.asid == y.asid && (x.engineEvents == y.engineEvents || y.engineEvents) && x.windows &&& y.windows == x.windows &&
  x.ringAllow &&& y.ringAllow == x.ringAllow && headersFree s c x y

/-! ## Taking effect -/

/-- The MiB that an entry adds to those its context holds. -/
def addedMib (old : Option Ctx) (y : Ctx) : List Nat :=
  let had : BitVec 512 := match old with | some x => if x.valid then x.windows else 0 | none => 0
  (List.range 512).filter fun u => bitOf y.windows.toNat u && !bitOf had.toNat u

/-- A ring torn down by its context's end: the header says so (R436, R440). -/
def endRing (s : State) (c r : Nat) : State :=
  let key := ringKey c r
  let k := ringOf s key
  if !k.active then s
  else
    let h := k.headerAddr.toNat
    let s := if k.kind = 0 then cpWriteRaw s c (h + 36) (natLe 4 k.consumer) else s
    cpWriteRaw (idleRing s key) c (h + 32) [0, 0]

/-- A context ended (R436): its rings are torn down, its calibration area discarded. -/
def endContext (s : State) (c : Nat) : State := dropArea ((List.range 16).foldl (fun s r => endRing s c r) s) c

/-- An entry in force: windows it adds are zeroed (R32); a halt and the calibration area last while the context stays valid. -/
def applyEntry (s : State) (c : Nat) (y : Ctx) : State :=
  if !y.valid then
    let s := if (ctxOf s c).isSome then endContext s c else s
    { s with ctxs := smPut s.ctxs c y }
  else
    let old := ctxOf s c
    let s := { s with store := (addedMib old y).foldl storeZeroMib s.store }
    let y := match old with
      | some x => { y with halted := x.halted, fault := x.fault, calib := x.calib }
      | none => y
    { s with ctxs := smPut s.ctxs c y }

/-- The commit status written. -/
def commitStatus (s : State) (c : Nat) (busy : Bool) (result : BitVec 3) : State :=
  { s with regs := { s.regs with commitBusy := busy, commitResult := result, commitLast := BitVec.ofNat 12 c } }

/-- A commit refused: the previous entry stays in force, and Keeper logs COMMIT_REFUSED (R434). -/
def refuseCommit (s : State) (c : Nat) (result : BitVec 3) : State :=
  let s := modCtx (commitStatus s c false result) c fun x => { x with commitWaits := false }
  logCtx s 0x06 (result.setWidth 8) c []

/-- The entry of a context as memory holds it: an untranslated read (R433), of class MGMT (R466). -/
def readEntry (s : State) (c : Nat) : MemRead := chipRead s.chip 0 (s.regs.ctxBase.toNat + 256 * c) 256

/-- A commit decided on its entry: refused, taken, or made to wait for the passes of its context (R435, R567). -/
def commitEntry (s : State) (c : Nat) : State :=
  let m := readEntry s c
  let s := cpRead s 0 3 (s.regs.ctxBase.toNat + 256 * c) 256
  match commitRefusal s c m with
  | some r => refuseCommit s c r
  | none =>
    let y := parseCtx m.bytes
    let now := (passesOf s c).isEmpty || (match ctxOf s c with | some x => onlyAdds s c x y | none => true)
    if now then applyEntry (commitStatus s c false 0) c y
    else modCtx (commitStatus s c true 5) c fun x => { x with commitWaits := true }

/-- A write of MLD_CTX_COMMIT: ignored while a commit waits (R527). -/
def commitWrite (s : State) (c : Nat) : State :=
  if !running s || s.regs.commitBusy then s
  else commitEntry { s with regs := { s.regs with commitCtx := BitVec.ofNat 12 c } } c

/-- CTX_COMMIT (R434). -/
def execCtxCommit (ctx : BitVec 12) (agents : List (Nat × Byte)) (s : State) : Host.Outcome State Fault Refusal :=
  .next (commitWrite (agentsWrite s agents) ctx.toNat)

/-- A commit that waited, once no pass of its context is in flight: the entry is read and checked again, and acted on (R567). -/
def commitLater (s : State) : State :=
  let c := s.regs.commitLast.toNat
  if !s.regs.commitBusy || !(passesOf s c).isEmpty then s else commitEntry s c

/-- CTX_COMMIT_DEFERRED (R567). -/
def execCtxCommitDeferred (s : State) : Host.Outcome State Fault Refusal := .next (commitLater s)

end Sys2Proof.Machine
end

