-- ==== Sys2Proof/Machine/Issue.lean ====
section
/-! DEFINITION. Issuing a bundle: readiness and the issue arbiter (R223), the results that fall due (R261), the effects of each
slot, and the faults of a bundle that fails (R285). -/
namespace Sys2Proof.Machine

/-! ## Readiness -/

/-- The weak memory model of a context (R289). -/
def isWeak (s : State) (c : Nat) : Bool := match ctxOf s c with | some x => x.memModel == 0 | none => true

/-- Whether a request belongs to a group's store or atomic. -/
def ofGroup (core slot : Nat) (r : Req) : Bool :=
  match r.sink with
  | .storeTag c sl _ _ _ => c == core && sl == slot
  | .atomicRet c sl _ _ _ _ _ => c == core && sl == slot
  | _ => false

/-- The stores and atomics of a group not yet accepted by their port. -/
def storesWaiting (s : State) (core slot : Nat) : Bool := s.ports.any fun p => p.waiting.any (ofGroup core slot)

/-- The stores and atomics of a group whose response has not returned. -/
def storesInFlight (s : State) (core slot : Nat) : Bool :=
  s.ports.any fun p => (p.outRd ++ p.outWr).any fun f => f.burst.parts.any (ofGroup core slot)

/-- Whether a tag belongs to a GLOBAL or FLOCK access or a FETCH. -/
def tagMemory (t : TagOp) : Bool := match t.op with | .mma _ _ _ _ => false | _ => true

/-- Whether a FENCE of a scope releases its group (R298). -/
def fenceDone (s : State) (core : Nat) (g : Group) (scope : Nat) : Bool :=
  !g.tags.any tagMemory && (scope = 0 || !storesWaiting s core g.slot) && (scope < 3 || !storesInFlight s core g.slot)

/-- Whether neither a barrier nor a WAIT or FENCE holds a group. -/
def holdsOpen (s : State) (core : Nat) (g : Group) : Bool :=
  g.hold == .none &&
  (match g.wait with
   | .tag t => !tagOut g t
   | .fence sc => fenceDone s core g sc
   | _ => true)

/-- MMAs queued or running on a core. -/
def mmasOn (k : Core) : Nat :=
  (k.groups.map fun g => (g.tags.filter fun t => !tagMemory t).length).sum

/-- Entries of a core's request buffer in use (Table 8.2). -/
def requestsOn (k : Core) : Nat := (k.groups.map fun g => (g.tags.filter tagMemory).length).sum

/-- The next bundle of a group, when its index names one. -/
def nextBundle (g : Group) : Option Bundle := g.code[g.next]?

/-- The entries of the request buffer that a bundle takes (Table 8.2). -/
def entriesOf (b : Bundle) : Nat := bit (b.x.any (·.op == .fetch)) + bit (b.m.any (mAsync ·.op))

/-- Whether every unit that a bundle names can accept it (R268): the bound unit free, the matrix queue of 4, the request buffer of 256. -/
def unitsAccept (k : Core) (b : Bundle) : Bool :=
  (b.b.isNone || k.boundBusy = 0) && (!b.x.any (·.op == .mma) || mmasOn k < 4) &&
  (entriesOf b = 0 || requestsOn k + entriesOf b ≤ 256)

/-- Whether a group's time has passed its kernel's bound (R280). -/
def overBound (g : Group) : Bool := g.stock == .user && !g.stopping && g.bound != 0xFFFFFFFF && g.bound.toNat < g.cycles

/-- Whether a group is ready (R223, R559): it has not ended, is not held, is within its time bound (R280), and its next bundle's units
accept it. -/
def groupReady (s : State) (core : Nat) (g : Group) : Bool :=
  g.stock == .user && !g.ended && !g.stopping && !overBound g && ((!g.halted && !g.haltAsked) || g.stepAsked) && holdsOpen s core g &&
  (match nextBundle g with | some b => unitsAccept (coreOf s core) b | none => true)

/-- The slot whose group the arbiter starts next (R223): the first ready one after the last it started, round the 16 slots. -/
def arbiter (s : State) (core : Nat) : Option Nat :=
  let k := coreOf s core
  ((List.range 16).map fun i => (k.lastSlot + 1 + i) % 16).find? fun sl =>
    k.groups.any fun g => g.slot == sl && groupReady s core g

/-! ## Results that fall due -/

/-- A group with a register result written. -/
def applyReg (g : Group) (d : Due) : Group :=
  match d with
  | .vreg r vals => vals.foldl (fun g x => setVreg g r x.1 x.2) g
  | .sreg r mask v => { g with sregs := smSet 0 g.sregs r ((sregOf g r &&& ~~~mask) ||| (v &&& mask)) }
  | .local _ => g

/-- The registers of a tag whose WAIT has released the group are no longer pending (R273). -/
def clearPending (g : Group) : Group :=
  match g.wait with
  | .tag t => { g with pendRegs := g.pendRegs.filter fun r => r.2 != t.toNat, wait := .none }
  | _ => { g with wait := .none }

/-- The group as its bundle reads it (R261): results due now written. -/
def dueGroup (g : Group) : Group :=
  { (dueNow g).foldl applyReg g with pend := g.pend.filter (·.vis != g.issue) }

/-- The vector registers (thread, register) that results due now write. -/
def dueWrites (g : Group) : List (Nat × Nat) :=
  (dueNow g).flatMap fun d => match d with | .vreg r vals => vals.map fun v => (v.1, r) | _ => []

/-- A FENCE of flock, engine or system scope drops the core's L0 as it releases the group, in scoped-weak mode (R298, R303). -/
def fenceDrop (s : State) (core : Nat) (g : Group) : State :=
  match g.wait with
  | .fence sc => if sc ≥ 1 && isWeak s g.ctx then emptyL0 s core else s
  | _ => s

/-! ## Faults -/

/-- A contract fault (R285, R286): the context faults, nothing of the bundle is performed. -/
def contractFault (s : State) (core : Nat) (g : Group) (f : Fail) : State :=
  match passOf s g.pass with
  | none => s
  | some p => faultPass (count s 50) p stContract
      (contractPayload f.kind f.slot core g.slot g.number f.detail g.herd g.next g.issue)

/-- n core cycles pass on a core (R279): they count toward the time of each group that has issued its first bundle, but of one that a
debugger holds halted only while its own bundle is on the lanes; the bound unit's occupancy runs down. -/
def passCycles (s : State) (core : Nat) (lane : Option Nat) (n : Nat) : State :=
  modCore s core fun k => { k with
    boundBusy := k.boundBusy - n,
    groups := k.groups.map fun g =>
      if g.stock = .user && g.issue > 0 && (!g.halted || lane = some g.slot) then { g with cycles := g.cycles + n } else g }

/-- Every group of a core whose time has passed its bound: its context faults (R280), in the order of the group slots. -/
def timeFaults (s : State) (core : Nat) : State :=
  (coreOf s core).groups.filter overBound |>.foldl (fun s g => contractFault s core g ⟨0xF, 0x0B, g.cycles⟩) s

/-- A poisoned value consumed by a group: source 2, the address in local store or the register number (R382, R543). -/
def localPoison (s : State) (g : Group) (a : Nat) : State :=
  match passOf s g.pass with
  | none => s
  | some p => faultPass s p stPoison (poisonPayload 0xFFFF 2 a)

/-- The first offset of an LD.L in a marked line (R382). -/
def loadMarked (g : Group) (h : Herd) (m : MSlot) : Option Nat :=
  if m.op != .ldL then none
  else (threadsOf g (selection g m.pred)).findSome? fun t =>
    ((List.range (mBytes m)).map (mAddr g m t + ·)).find? fun a => (a / 64) ∈ h.marks

/-- A FETCH from the node store outside the windows of its context (R380): the first such address. -/
def fetchOutside (s : State) (g : Group) (x : XSlot) : Option Nat :=
  let w := fetchWord x.imm
  if x.op != .fetch || selection g x.pred = 0 || !w.inStore then none
  else match ctxOf s g.ctx with
    | none => none
    | some c => (List.range w.rows).findSome? fun i => firstOutside c.windows (fetchSrc g x i) w.rowBytes

/-- What else stops a bundle: a FETCH outside the windows, an LD.L of a marked line, a double-bit error in the register file or in
local memory (R543). -/
def bundleStop (s : State) (g : Group) (h : Herd) (b : Bundle) (eccReg eccLocal : Bool) : Option State :=
  match b.x.bind (fetchOutside s g) with
  | some a => (passOf s g.pass).map fun p => faultPass s p stPermission (denyPayload ⟨stPermission, 4, 0xFFFF, a⟩)
  | none =>
    match b.m.bind (loadMarked g h) with
    | some a => some (localPoison s g a)
    | none =>
      let reg := if eccReg then (b.v0.toList ++ b.v1.toList).find? (fun v => selection g v.pred != 0) else none
      let mem := if eccLocal then b.m.filter (fun m => m.op == .ldL && selection g m.pred != 0) else none
      match reg, mem with
      | some v, _ => some (localPoison s g ((vReads v).headD v.dst.toNat))
      | none, some m => some (localPoison s g (((threadsOf g (selection g m.pred)).head?.map (mAddr g m)).getD 0))
      | none, none => none

/-! ## The control slot -/

/-- The bundle that a taken BR or BRNONE makes the group's next (R266). -/
def branchTarget (g : Group) (c : CSlot) : Option Nat :=
  if !cActs g c then none
  else match c.op with
    | .br => some (bitsOf c.imm.toNat 31 0)
    | .brnone => if g.exec.toNat % 2 ^ g.width = 0 then some (bitsOf c.imm.toNat 31 0) else none
    | _ => none

/-- What a C operation makes of exec, the mask stack, the hold and the end of its group (R228, R266). -/
def controlGroup (g : Group) (c : CSlot) : Group :=
  if !cActs g c then g
  else match c.op with
    | .br => g
    | .brnone => g
    | .ifm =>
      let v := (srcScalar g c.imm c.a).toNat % 2 ^ g.width
      let p := if c.inv then fullMask g.width - v else v
      { g with stack := g.exec :: g.stack, exec := BitVec.ofNat 64 (g.exec.toNat &&& p) }
    | .elsem => { g with exec := (g.stack.headD 0) &&& ~~~g.exec }
    | .endifm => { g with exec := g.stack.headD 0, stack := g.stack.tail }
    | .barH => { g with hold := .barH (bitsOf c.imm.toNat 1 0) }
    | .barF => { g with hold := .barF (bitsOf c.imm.toNat 2 0) }
    | .endg => { g with ended := true, pend := [] }

/-- The WAIT and FENCE of an X slot (R272, R298). -/
def waitGroup (g0 : Group) (x : XSlot) (g : Group) : Group :=
  if selection g0 x.pred = 0 then g
  else match x.op with
    | .wait => { g with wait := .tag x.tag }
    | .fence => { g with wait := .fence x.scope.toNat }
    | _ => g

/-- A barrier the group has just reached may open (R241, R242). -/
def arrive (s : State) (core : Nat) (g : Group) (c : CSlot) : State :=
  match c.op with
  | .barH => openBarH s core g.pass g.herd (bitsOf c.imm.toNat 1 0)
  | .barF => match herdOf (coreOf s core) g.pass g.herd with
    | some h => openBarF s (flockOfCore core) g.pass h.launch (bitsOf c.imm.toNat 2 0)
    | none => s
  | .endg => endIfDone s core g.slot
  | _ => s

/-! ## The memory slot -/

/-- A tag made outstanding; one with nothing to wait for completes at once. -/
def startTag (s : State) (core slot : Nat) (tag : BitVec 6) (n : Nat) (op : AsyncOp) (spans : Spans) : State :=
  if n = 0 then s else modGroup s core slot fun g => { g with tags := g.tags ++ [⟨tag, n, op, spans, []⟩] }

/-- The spans of an operation that neither writes nor reads local store on its own. -/
def noSpans : Spans := ⟨[], [], []⟩

/-- The source registers (thread, register) of a store (R274). -/
def storeSrcs (m : MSlot) (ts : List Nat) : Spans := ⟨[], [], ts.flatMap fun t => (srcRegs m.a (mRegs m)).map (t, ·)⟩

/-- A GLOBAL request of a group (R290). -/
def globalReq (s : State) (core : Nat) (g : Group) (kind : ReqKind) (a n : Nat) (data : List Byte) (sink : Consumer) : Req :=
  { kind := kind, asid := BitVec.ofNat 20 (asidOf s g.ctx), ctx := g.ctx, addr := a, len := n, data := data, poison := false,
    cls := ((passOf s g.pass).map (·.cls)).getD 0,
    stream := if kind = .write then outStream g.pass else 1536 + core % 64, quad := core / 64, pass := g.pass, formed := 0,
    sink := sink, atomicOp := 0, wide := false, opA := 0, opB := 0 }

/-- A write or atomic of a kernel, which its pass waits for (R246). -/
def kernelWrite (s : State) (a : Nat) (r : Req) : State :=
  modPass (formReq s (globalPort a) r) r.pass fun p => { p with writesOut := p.writesOut + 1 }

/-- Whether the L0 may serve a GLOBAL load (R295, R304). -/
def l0May (s : State) (g : Group) (m : MSlot) : Bool := !isWeak s g.ctx || m.scope = 0

/-- The bytes of a span in a core's L0, when it holds all of them. -/
def l0Read (k : Core) (asid a n : Nat) : Option (List Byte) :=
  let r := (List.range n).map fun i => smFind k.l0 (memKey asid (a + i))
  if r.all Option.isSome then some (r.filterMap id) else none

/-- One thread's GLOBAL load: from the L0 where it holds the bytes and a free value says so (log entry 18), else by requests cut at
128-B lines; the answer is the number of requests. -/
def loadThread (core : Nat) (g : Group) (m : MSlot) (st : Nat × State) (t : Nat) : Nat × State :=
  let s := st.2
  let a := mAddr g m t
  let asid := asidOf s g.ctx
  let viaL0 := l0May s g m
  let f := fresh s
  match (if viaL0 then l0Read (coreOf s core) asid a (mBytes m) else none) with
  | some b =>
    if f.1.toNat % 2 = 0 then (st.1, modGroup f.2 core g.slot fun g => loadBytes g m.dst.toNat t 0 b)
    else
      let ps := pieces 128 a (mBytes m)
      (st.1 + ps.length, ps.foldl (fun s x => formReq s (globalPort x.1)
        (globalReq s core g .read x.1 x.2.2 [] (.load core g.slot m.tag.toNat t m.dst.toNat x.2.1 viaL0))) f.2)
  | none =>
    let ps := pieces 128 a (mBytes m)
    (st.1 + ps.length, ps.foldl (fun s x => formReq s (globalPort x.1)
      (globalReq s core g .read x.1 x.2.2 [] (.load core g.slot m.tag.toNat t m.dst.toNat x.2.1 viaL0))) s)

/-- The destination registers of a load cleared before a sub-word value arrives in their low bytes (log entry 4). -/
def clearDst (g : Group) (m : MSlot) (ts : List Nat) : Group :=
  if mBytes m < 4 then ts.foldl (fun g t => setVreg g m.dst.toNat t 0) g else g

/-- A core's first GLOBAL load or atomic opens its Core load stream (Table 11.1). -/
def openLoad (s : State) (core : Nat) (g : Group) : State :=
  openStream s (core / 64) (1536 + core % 64) g.pass (((passOf s g.pass).map (·.cls)).getD 0)

/-- LD.G (R295). -/
def loadGlobal (s : State) (core : Nat) (g : Group) (m : MSlot) (ts : List Nat) : State :=
  let s := openLoad s core g
  let s := modGroup s core g.slot fun x => clearDst x m ts
  let r := ts.foldl (loadThread core g m) (0, s)
  startTag r.2 core g.slot m.tag r.1 .remote noSpans

/-- The L0 line of each byte that a store writes takes the new byte where it is present. -/
def l0Update (k : Core) (asid a : Nat) (b : List Byte) : Core :=
  { k with l0 := (List.range b.length).foldl (fun m i =>
      if (smFind m (memKey asid (a + i))).isSome then smPut m (memKey asid (a + i)) (b.getD i 0) else m) k.l0 }

/-- One thread's GLOBAL store; the answer is the number of requests whose acceptance or response its tag waits for (R294). -/
def storeThread (core : Nat) (g : Group) (m : MSlot) (st : Nat × State) (t : Nat) : Nat × State :=
  let a := mAddr g m t
  let b := mData g m t
  let asid := asidOf st.2 g.ctx
  let s := noInstall (modCore st.2 core fun k => l0Update k asid a b) core (reqMeets asid a b.length)
  let ps := pieces 128 a b.length
  (st.1 + (if m.scope = 0 then 0 else ps.length), ps.foldl (fun s x => kernelWrite s x.1
    (globalReq s core g .write x.1 x.2.2 (slice b x.2.1 x.2.2) (.storeTag core g.slot m.tag.toNat m.scope.toNat t))) s)

/-- ST.G (R294, R296). -/
def storeGlobal (s : State) (core : Nat) (g : Group) (m : MSlot) (ts : List Nat) : State :=
  let r := (storeOrder ts (ts.map (mAddr g m)) (mBytes m)).foldl (storeThread core g m) (0, s)
  startTag r.2 core g.slot m.tag r.1 .remote (storeSrcs m ts)

/-- The aligned word of an atomic (R307). -/
def atomWord (g : Group) (m : MSlot) (t : Nat) : Nat := let n := mBytes m; mAddr g m t / n * n

/-- Operand a of an atomic request over its list: the tree root, the EXCH value that memory ends with, the first CAS new value (R310, R312,
Table 15.5). -/
def atomicOperand (m : MSlot) (l : List U64) : U64 :=
  if m.atomic = 11 then l.getLast?.getD 0
  else if isSerial m.atomic.toNat then l.headD 0
  else BitVec.ofNat 64 (treeRoot (atomStep m.atomic.toNat (m.size == 1)) (l.map (·.toNat)))

/-- One word's atomic: its list in ascending thread order, one request to P(a) (R309), its L0 line dropped (R303). -/
def atomicWord (core : Nat) (g : Group) (m : MSlot) (ts : List Nat) (ret : Bool) (s : State) (a : Nat) : State :=
  let l := (ts.filter fun t => atomWord g m t == a).map fun t => (t, mOperands g m t)
  let cmp := if m.atomic = 12 then (l.head?.map fun x => x.2.2).getD 0 else 0
  let r := globalReq s core g .atomic a (mBytes m) []
    (.atomicRet core g.slot m.tag.toNat m.dst.toNat ret m.scope.toNat l)
  let asid := asidOf s g.ctx
  let s := modCore s core fun k => { k with l0 := k.l0.filter fun x => x.1 / 128 != memKey asid a / 128 }
  kernelWrite (noInstall s core (reqMeets asid (a / 128 * 128) 128)) a
    { r with atomicOp := m.atomic, wide := m.size == 1, opA := atomicOperand m (l.map (·.2.1)), opB := cmp }

/-- AT.G and ATF.G (R309 to R312). -/
def atomicGlobal (s : State) (core : Nat) (g : Group) (m : MSlot) (ts : List Nat) (ret : Bool) : State :=
  let words := (ts.map (atomWord g m)).eraseDups
  let s := words.foldl (atomicWord core g m ts ret) (openLoad s core g)
  startTag s core g.slot m.tag (if ret || m.scope != 0 then words.length else 0) .remote noSpans

/-- The M slot of a bundle. -/
def issueM (s : State) (core : Nat) (g : Group) (m : MSlot) : State :=
  let ts := threadsOf g (selection g m.pred)
  if ts.isEmpty then s
  else
    let s := modGroup s core g.slot fun x =>
      { x with pendRegs := x.pendRegs ++ (if mAsync m.op then (mWrites m).map (·, m.tag.toNat) else []) }
    match m.op with
    | .ldL => s
    | .stL =>
      let o := storeOrder ts (ts.map (mAddr g m)) (mBytes m)
      modGroup s core g.slot fun x => { x with pend := x.pend ++ [storeLocal g m o] }
    | .ldF => startTag s core g.slot m.tag 1
        (.loadF m.dst.toNat (mBytes m) (ts.map fun t => (t, flockMember (mAddr g m t), flockOffset (mAddr g m t)))) noSpans
    | .stF =>
      let o := storeOrder ts (ts.map fun t => mAddr g m t % 2 ^ 22) (mBytes m)
      startTag s core g.slot m.tag 1 (.storeF (o.flatMap fun t =>
        (mData g m t).zipIdx.map fun b => (t, flockMember (mAddr g m t), flockOffset (mAddr g m t) + b.2, b.1))) (storeSrcs m ts)
    | .ldG => loadGlobal s core g m ts
    | .stG => storeGlobal s core g m ts
    | .atG => atomicGlobal s core g m ts false
    | .atfG => atomicGlobal s core g m ts true

/-! ## The X slot -/

/-- The spans of local store that a FETCH writes (R380). -/
def fetchSpans (g : Group) (x : XSlot) : Spans :=
  let w := fetchWord x.imm
  ⟨(List.range w.rows).map fun i => (fetchDst g x i, w.rowBytes), [], []⟩

/-- The spans of an MMA: the C tile it writes, the rows and columns, and C without .zero, that it reads (R247, R248). -/
def mmaSpans (g : Group) (x : XSlot) : Spans :=
  let sh := shapeOf x.imm
  let c := (mmaC g x, 4 * sh.m * sh.n)
  ⟨[c], ((List.range sh.m).map fun i => (mmaA g x + i * sh.aStride, rowBytes sh)) ++
    ((List.range sh.n).map fun j => (mmaB g x + j * sh.bStride, rowBytes sh)) ++ (if sh.zero then [] else [c]), []⟩

/-- A FETCH from memory: its rows as requests of the group slot's Core fetch stream (R380, Table 11.1). -/
def fetchMemory (s : State) (core : Nat) (g : Group) (x : XSlot) : State :=
  let w := fetchWord x.imm
  let n := 256 + 16 * (core % 64) + g.slot
  let cls := ((passOf s g.pass).map (·.cls)).getD 0
  let s := openStream s (core / 64) n g.pass cls
  let ps := (List.range w.rows).flatMap fun i =>
    (pieces 512 (fetchSrc g x i) w.rowBytes).map fun p => (p.1, fetchDst g x i + p.2.1, p.2.2)
  let s := startTag s core g.slot x.tag ps.length (.fetchMem [] []) (fetchSpans g x)
  ps.foldl (fun s p => formReq s (streamPort p.1)
    { globalReq s core g .read p.1 p.2.2 [] (.fetchRow core g.slot x.tag.toNat g.herd p.2.1) with stream := n }) s

/-- The X slot of a bundle: an MMA or a FETCH goes out on its tag (R247, R278, R380). -/
def issueX (s : State) (core : Nat) (g : Group) (x : XSlot) : State :=
  if selection g x.pred = 0 then s
  else match x.op with
    | .mma => startTag s core g.slot x.tag 1 (.mma (mmaA g x) (mmaB g x) (mmaC g x) x.imm) (mmaSpans g x)
    | .fetch =>
      let w := fetchWord x.imm
      if w.inStore then
        startTag s core g.slot x.tag 1 (.fetchStore ((List.range w.rows).map fun i => (fetchSrc g x i, fetchDst g x i, w.rowBytes))) (fetchSpans g x)
      else fetchMemory s core g x
    | _ => s

/-! ## A bundle -/

/-- The fixed-latency results of a bundle. -/
def newResults (g : Group) (h : Herd) (b : Bundle) : List Pending :=
  let acts := fun (p : Pred) => selection g p != 0
  ((b.v0.toList ++ b.v1.toList).filter fun v => acts v.pred).map (vResult g) ++
  (b.b.toList.filter fun x => acts x.pred).flatMap (bResults g h) ++
  (b.p.toList.filter fun x => acts x.pred).flatMap (pResults g h) ++
  (b.m.toList.filter fun m => acts m.pred && m.op == .ldL).flatMap (loadLocal g h) ++
  (b.s.toList.filter fun x => acts x.pred).map (sResult g)

/-- The group after the register side of its bundle: results under way, the next bundle, exec, holds, counts (R260, R266). -/
def issueGroup (g : Group) (h : Herd) (b : Bundle) : Group :=
  let n := { g with pend := g.pend ++ newResults g h b, next := g.next + 1, issue := g.issue + 1,
                    stepAsked := false }
  let n := match b.c with
    | some c =>
      let k := controlGroup g c
      { n with exec := k.exec, stack := k.stack, hold := k.hold, ended := k.ended, next := (branchTarget g c).getD n.next,
               pend := if k.ended then [] else n.pend }
    | none => n
  match b.x with
  | some x => waitGroup g x n
  | none => n

/-- The arbiter notes the slot it started; a step asked of that group is done (R558). -/
def noteStart (s : State) (core : Nat) (g : Group) : State :=
  let s := modCore s core fun k => { k with lastSlot := g.slot }
  if g.stepAsked then { s with regs := { s.regs with dbgBusy := false } } else s

/-- The node that a B slot which acts reads. -/
def bNode (g : Group) (h : Herd) (b : BSlot) : List Byte := herdBytes h (sregOf g b.addr.toNat).toNat (bNodeBytes b.op)

/-- The offsets of local store that a bundle reads: an LD.L, the node of a B slot, the slot of a P slot. -/
def localReads (g : Group) (b : Bundle) : List Nat :=
  let from_ := fun (r : BitVec 7) (n : Nat) => (List.range n).map ((sregOf g r.toNat).toNat + ·)
  (b.m.toList.filter (·.op == .ldL)).flatMap (fun m =>
    (threadsOf g (selection g m.pred)).flatMap fun t => (List.range (mBytes m)).map (mAddr g m t + ·)) ++
  (b.b.toList.filter fun x => selection g x.pred != 0).flatMap (fun x => from_ x.addr (bNodeBytes x.op)) ++
  (b.p.toList.filter fun x => selection g x.pred != 0).flatMap (fun x => from_ x.addr 64)

/-- The core cycles for which a B operation occupies the bound unit (Table 8.2). -/
def boundCycles (g : Group) (b : BSlot) : Nat :=
  match b.op with | .rayBox => g.width / 16 | .innerProduct d8 => 8 * d8.toNat * g.width / 128

/-- The B slot of a bundle: the bound unit is occupied, and a malformed node leaves the pass DEGRADED (R94, R125, R268). -/
def issueB (s : State) (core : Nat) (g : Group) (h : Herd) (b : BSlot) : State :=
  if selection g b.pred = 0 then s
  else
    let s := modCore s core fun k => { k with boundBusy := boundCycles g b }
    if bDegrades b.op (bNode g h b) then modPass s g.pass fun p => { p with degrade := { p.degrade with tree := true } } else s

/-- A bundle of a ready group issued. -/
def issueBundle (s : State) (core : Nat) (g0 : Group) (h0 : Herd) (b : Bundle) (eccReg eccLocal : Bool) : State :=
  let g1 := clearPending g0
  let g := dueGroup g1
  let h := dueHerd g1 h0
  match dueFails g1 ++ bundleFails g h b with
  | f :: _ => contractFault s core g f
  | [] =>
    match bundleStop s g h b eccReg eccLocal with
    | some s' => s'
    | none =>
      let s := fenceDrop s core g0
      let s := landLocal s core g1
      let s := mixHerd s core g.pass g.herd none (localReads g b) []
      let h := (herdOf (coreOf s core) g.pass g.herd).getD h
      let s := noteStart s core g0
      let s := modGroup s core g.slot fun x => { issueGroup g h b with tags := x.tags }
      let s := spoilStores s core g.slot (dueWrites g1)
      let s := match b.b with | some x => issueB s core g h x | none => s
      let s := match b.m with | some m => issueM s core g m | none => s
      let s := match b.x with | some x => issueX s core g x | none => s
      let s := passCycles s core (some g.slot) (g.width / 16)
      timeFaults (match b.c with | some c => arrive s core g c | none => s) core

/-- A core none of whose groups is ready waits until its bound unit is free (R268), its groups' time passing (R279). -/
def awaitBound (s : State) (core : Nat) : State :=
  let busy := (coreOf s core).boundBusy
  if busy = 0 || (arbiter s core).isSome then s else timeFaults (passCycles s core none busy) core

/-- The next bundle of the group in a slot issued, where the core's clock runs, the arbiter picks the slot and the bundle is one
that pick names; a group past its last bundle meets CODE_END on the command that pick's none names (R223, R285). -/
def issueIf (pick : Option Bundle → Bool) (s : State) (core slot : Nat) (eccReg eccLocal : Bool) : State :=
  let t := awaitBound s core
  if !(coreOf s core).clockOn || arbiter t core != some slot then s
  else match groupOf t core slot with
    | none => s
    | some g =>
      if !pick (nextBundle g) then s
      else match nextBundle g, herdOf (coreOf t core) g.pass g.herd with
        | some b, some h => issueBundle t core g h b eccReg eccLocal
        | _, _ => contractFault (noteStart t core g) core g ⟨0xF, 3, g.next⟩

end Sys2Proof.Machine
end

