-- ==== Sys2Proof/Machine/Registers.lean ====
section
/-! DEFINITION. The setup space (chapter "Setup Register Map"): what a read of each register answers, and the writes of the registers
that have no behaviour of their own (R522 to R525, R529 to R531, R533, R535, R540). -/
namespace Sys2Proof.Machine

/-! ## Reading (R523) -/

/-- A register word put together from (lowest bit, value) pairs. -/
def wordOf (fs : List (Nat × Nat)) : Nat := (fs.map fun f => f.2 * 2 ^ f.1).sum

/-- The half of a 64-bit register at base that an offset names. -/
def halfOf (v base off : Nat) : Nat := if off = base then v % 2 ^ 32 else v / 2 ^ 32

/-- Table 16.2. -/
def readIdentity (s : State) (off : Nat) : Nat :=
  let t := s.straps
  match off with
  | 0x0 => 0x58570200
  | 0x4 => wordOf [(9, 1), (8, bit t.irqEn), (4, 6), (0, 6)]
  | 0x8 => wordOf [(24, 8), (16, 32), (0, 512)]
  | 0xC => 256
  | 0x10 => strapsWord t
  | 0x14 => bringupWord s.bring
  | _ => 0

/-- Table 16.3. -/
def readClock (s : State) (off : Nat) : Nat :=
  match off with
  | 0x1000 => s.regs.coreFreq.toNat
  | 0x1004 => s.regs.govLimit.toNat
  | 0x1008 => thrStatusWord s.thr
  | _ => 0

/-- Table 16.4. -/
def readContexts (s : State) (off : Nat) : Nat :=
  let r := s.regs
  if off < 0x2008 then halfOf r.ctxBase.toNat 0x2000 off
  else if off = 0x2008 then r.commitCtx.toNat
  else if off = 0x200C then commitStatusWord r
  else if 0x2100 ≤ off && off < 0x2500 then
    let n := (off - 0x2100) / 16
    let o := off % 16
    if o < 8 then halfOf (smGet 0 r.msgAddr n).toNat 0 o
    else if o < 12 then (smGet 0 r.msgData n).toNat
    else if s.straps.irqEn then (smGet 0 r.msgWire n).toNat % 2 else 0
  else 0

/-- Table 16.5. -/
def readStore (s : State) (off : Nat) : Nat :=
  let b := s.bring
  match off with
  | 0x4000 => b.storePart.toNat
  | 0x4004 => if b.initDone then b.partUsed.toNat else 0
  | 0x4008 => storeStatusWord b
  | _ => 0

/-- Table 16.6. -/
def readParams (r : Regs) (off : Nat) : Nat :=
  match off with
  | 0x4100 => r.ageLimit.toNat
  | 0x4104 => wordOf [(8, r.highWater.toNat), (0, r.holdFill.toNat)]
  | 0x4200 => wordOf [(16, r.bgSlotMax.toNat), (0, r.streamSlotMax.toNat)]
  | 0x4204 => r.cancelTimeout.toNat
  | 0x4300 => r.dlFlockMask.toNat
  | 0x4304 => r.dlLead.toNat
  | 0x4308 => wordOf [(24, r.bgFlockMax.toNat), (0, r.dlPassSlots.toNat)]
  | 0x4400 => wordOf [(16, r.replayLimit.toNat), (0, r.linkAckTimeout.toNat)]
  | 0x4404 => r.marginInterval.toNat
  | 0x4408 => r.handoffTimeout.toNat
  | 0x440C => r.censusTimeout.toNat
  | 0x4410 => r.epochTimeout.toNat
  | 0x4414 => r.barrierPoll.toNat
  | 0x4418 => r.barrierTimeout.toNat
  | 0x4500 => wordOf [(8, r.awlStoreCap.toNat), (0, r.awlRate.toNat)]
  | 0x4504 => r.awlTarget.toNat
  | 0x4508 => r.awlGp.toNat
  | 0x450C => r.awlGi.toNat
  | 0x4510 => r.awlILimit.toNat
  | 0x4514 => r.awlStep.toNat
  | 0x4518 => r.awlDMin.toNat
  | 0x451C => r.awlDMax.toNat
  | 0x4520 => r.awlMinSamples.toNat
  | _ => 0

/-- Table 16.7. -/
def readRing (s : State) (off : Nat) : Nat :=
  let n := s.net
  match off with
  | 0x4424 => ringStatusWord n (linkOf s .up).status (linkOf s .down).status
  | 0x4428 => wordOf [(16, n.members.length), (0, n.positionCount)]
  | 0x442C => n.censusId.toNat
  | 0x4430 => n.epoch.toNat
  | 0x4434 => n.shards.getD 0
  | _ => 0

/-- The page of the trouble-log window that a requester sees (R533). -/
def logPage (r : Regs) (by_ : Requester) : Nat :=
  match by_ with
  | .host => r.logPageHost.toNat
  | .keeper => r.logPageKeeper.toNat
  | .drover => r.logPageDrover.toNat

/-- The 64 bytes of an entry of the trouble log; zero where none was written. -/
def logEntryBytes (t : TroubleLog) (i : Nat) : List Byte := ((smFind t.entries i).map logBytes).getD (List.replicate 64 0)

/-- Table 16.8. -/
def readLog (s : State) (by_ : Requester) (off : Nat) : Nat :=
  let t := s.log
  if off = 0x8000 then wordOf [(31, bit t.cleared), (16, t.count), (0, t.head.toNat)]
  else if off = 0x8004 then logPage s.regs by_
  else if off = 0x8008 || off = 0x800C then halfOf t.seq.toNat 0x8008 off
  else if 0xC000 ≤ off && off < 0x10000 then
    field (logEntryBytes t (256 * logPage s.regs by_ + (off - 0xC000) / 64)) (off % 64) 4
  else 0

/-- The group that the debug block names (R535). -/
def dbgGroup (s : State) : Option Group := groupOf s s.regs.dbgCore.toNat s.regs.dbgSlot.toNat

/-- The register of a pending result, as the detail word of a WRITE_CLASH (Table 8.5). -/
def dueRegister (d : Due) : Option Nat :=
  match d with
  | .vreg r _ => some r
  | .sreg n _ _ => some (0x100 + n)
  | .local _ => none

/-- The pending-result list of a group: visibility point and register of each entry (R282). -/
def pendList (g : Group) : List (Nat × Nat) := g.pend.filterMap fun p => (dueRegister p.due).map (p.vis, ·)

/-- The state of a halted group (Table 16.9, offsets from 0x1_0010 upward). -/
def readGroup (r : Regs) (g : Group) (off : Nat) : Nat :=
  if off < 0x10018 then halfOf g.issue 0x10010 off
  else if off = 0x10018 then g.next
  else if 0x10020 ≤ off && off < 0x10028 then halfOf (g.exec.toNat % 2 ^ g.width) 0x10020 off
  else if off = 0x10028 then wordOf [(16, (pendList g).length), (8, g.number), (0, g.stack.length)]
  else if 0x10030 ≤ off && off < 0x10038 then halfOf ((List.range 64).map fun t => if tagOut g (BitVec.ofNat 6 t) then 2 ^ t else 0).sum 0x10030 off
  else if 0x10100 ≤ off && off < 0x10200 then
    let t := (off - 0x10100) / 4
    if t < g.width then (vregOf g r.dbgVsel.toNat t).toNat else 0
  else if 0x10400 ≤ off && off < 0x10800 then halfOf (sregOf g ((off - 0x10400) / 8)).toNat (off / 8 * 8) off
  else if 0x10800 ≤ off && off < 0x10900 then
    match (pendList g)[(off - 0x10800) / 16]? with
    | some p => if off % 16 < 8 then halfOf p.1 0 (off % 16) else if off % 16 = 8 then p.2 else 0
    | none => 0
  else 0

/-- Table 16.9; Drover reads zero, and what a group shows reads zero while it is not halted (R522, R535). -/
def readDebug (s : State) (by_ : Requester) (off : Nat) : Nat :=
  let r := s.regs
  let h := (dbgGroup s).filter (·.halted)
  if by_ = .drover then 0
  else match off with
    | 0x10000 => wordOf [(16, r.dbgCtx.toNat), (0, bit r.dbgEnabled)]
    | 0x10004 => wordOf [(8, r.dbgSlot.toNat), (0, r.dbgCore.toNat)]
    | 0x10008 => 0
    | 0x1000C => wordOf [(2, bit r.dbgRefused), (1, bit r.dbgBusy), (0, bit h.isSome)]
    | 0x10038 => if h.isSome then r.dbgVsel.toNat else 0
    | _ => match h with
      | some g => readGroup r g off
      | none => 0

/-- The key of a context's counter k in a snapshot image. -/
def imageKey (c k : Nat) : Nat := 65536 + 3 * c + k

/-- A performance counter (R537, R538): live, or as the last snapshot took it. -/
def readCounter (s : State) (off : Nat) : Nat :=
  let base := off / 8 * 8
  let v := if off < 0x28000 then smGet 0 (if s.regs.snapMode then s.image else s.counters) ((off - 0x20000) / 8)
    else
      let k := (off - 0x28000) / 8
      if k < 3 * 4096 then (if s.regs.snapMode then smGet 0 s.image (imageKey 0 k) else smGet 0 s.ctxCounters k) else 0
  halfOf v.toNat base off

/-- Tables 16.10 and 16.11. -/
def readCounters (s : State) (off : Nat) : Nat :=
  if off = 0x20000 then bit s.regs.snapMode
  else if off = 0x20004 then 0
  else if off < 0x20010 then halfOf s.regs.snapTime.toNat 0x20008 off
  else readCounter s off

/-- Table 16.12. -/
def readMailbox (s : State) (off : Nat) : Nat :=
  let r := s.regs
  if off < 0x40008 then halfOf s.bring.bootAddr.toNat 0x40000 off
  else if off = 0x40008 then wordOf [(8, s.bring.failCode.toNat), (0, s.bring.bootState.toNat)]
  else if 0x40100 ≤ off && off < 0x40140 then halfOf (smGet 0 r.kmArgs ((off - 0x40100) / 8)).toNat (off / 8 * 8) off
  else if off = 0x40144 then wordOf [(16, r.kmRequest.toNat), (8, r.kmResult.toNat), (0, bit r.kmBusy)]
  else if 0x40150 ≤ off && off < 0x40170 then halfOf (smGet 0 r.kmData ((off - 0x40150) / 8)).toNat (off / 8 * 8) off
  else 0

/-- What a 4-B read at a 4-B aligned offset of the setup space answers (Table 16.1, R523). -/
def readSetup (s : State) (by_ : Requester) (off : Nat) : Nat :=
  if off < 0x1000 then readIdentity s off
  else if off < 0x2000 then readClock s off
  else if off < 0x4000 then readContexts s off
  else if off < 0x4100 then readStore s off
  else if off < 0x4420 || (0x4500 ≤ off && off < 0x5000) then readParams s.regs off
  else if off < 0x4500 then readRing s off
  else if off < 0x8000 then 0
  else if off < 0x10000 then readLog s by_ off
  else if off < 0x20000 then readDebug s by_ off
  else if off < 0x40000 then readCounters s off
  else readMailbox s off

/-! ## Writing -/

/-- A field's new value where it lies within its range, else its previous one (R524). -/
def ranged {w : Nat} (old : BitVec w) (lo hi v : Nat) : BitVec w := if lo ≤ v && v ≤ hi then BitVec.ofNat w v else old

/-- Whether an FP32 value lies within [lo, hi]; a NaN does not. -/
def inRange (lo hi v : U32) : Bool := !isNan v && !flt v lo && !flt hi v

/-- An FP32 field's new value where ok holds, else its previous one (R524). -/
def keepIf (ok : Bool) (old v : U32) : U32 := if ok then v else old

/-- The parameter block after a 4-B write at an offset (Table 16.6). -/
def writeParams (r : Regs) (off : Nat) (v : U32) : Regs :=
  let f := bitsOf v.toNat
  match off with
  | 0x4100 => { r with ageLimit := BitVec.ofNat 16 (f 15 0) }
  | 0x4104 => { r with highWater := ranged r.highWater 4 7 (f 10 8), holdFill := ranged r.holdFill 1 64 (f 6 0) }
  | 0x4200 => { r with bgSlotMax := ranged r.bgSlotMax 0 2048 (f 27 16), streamSlotMax := ranged r.streamSlotMax 16 4096 (f 12 0) }
  | 0x4204 => { r with cancelTimeout := ranged r.cancelTimeout 1 10000 (f 13 0) }
  | 0x4300 => { r with dlFlockMask := v }
  | 0x4304 => { r with dlLead := ranged r.dlLead 0 100000 (f 16 0) }
  | 0x4308 => { r with bgFlockMax := ranged r.bgFlockMax 0 32 (f 29 24), dlPassSlots := ranged r.dlPassSlots 0 64 (f 6 0) }
  | 0x4400 => { r with replayLimit := ranged r.replayLimit 1 64 (f 22 16), linkAckTimeout := ranged r.linkAckTimeout 1 1000 (f 9 0) }
  | 0x4404 => { r with marginInterval := ranged r.marginInterval 1 1000 (f 9 0) }
  | 0x4408 => { r with handoffTimeout := ranged r.handoffTimeout 1 10000 (f 13 0) }
  | 0x440C => { r with censusTimeout := ranged r.censusTimeout 10 1000 (f 9 0) }
  | 0x4410 => { r with epochTimeout := ranged r.epochTimeout 10 100000 (f 16 0) }
  | 0x4414 => { r with barrierPoll := ranged r.barrierPoll 5 1000 (f 9 0) }
  | 0x4418 => { r with barrierTimeout := ranged r.barrierTimeout 1 100000 (f 16 0) }
  | 0x4500 => { r with awlStoreCap := ranged r.awlStoreCap 0 25 (f 12 8),
                       awlRate := if f 4 0 = 0 then 0 else ranged r.awlRate 8 16 (f 4 0) }
  | 0x4504 => { r with awlTarget := keepIf (!isNan v && flt 0x3F000000 v && flt v 0x3F800000) r.awlTarget v }
  | 0x4508 => { r with awlGp := keepIf (inRange 0 0x41800000 v) r.awlGp v }
  | 0x450C => { r with awlGi := keepIf (inRange 0 0x41800000 v) r.awlGi v }
  | 0x4510 => { r with awlILimit := keepIf (inRange 0 0x44800000 v) r.awlILimit v }
  | 0x4514 => { r with awlStep := keepIf (inRange 0 0x42800000 v && flt 0 v) r.awlStep v }
  | 0x4518 => { r with awlDMin := keepIf (inRange 0 r.awlDMax v) r.awlDMin v }
  | 0x451C => { r with awlDMax := keepIf (inRange r.awlDMin 0x49800000 v) r.awlDMax v }
  | 0x4520 => { r with awlMinSamples := ranged r.awlMinSamples 1 65535 (f 15 0) }
  | _ => r

/-- Whether a requester may write the RW fields of the block at an offset (Table 16.1), or its RWK fields. -/
def mayWrite (s : State) (by_ : Requester) (off : Nat) : Bool :=
  if off < 0x1000 then false
  else if off = 0x1004 || (0x2000 ≤ off && off < 0x4000) || off = 0x10000 then by_ == .keeper
  else if off < 0x2000 then by_ != .host
  else if off < 0x4100 then by_ != .drover
  else if off < 0x8000 then by_ != .host
  else if off < 0x10000 then true
  else if off < 0x20000 then by_ == .keeper || (by_ == .host && s.regs.dbgEnabled)
  else if off < 0x40000 then by_ != .host
  else by_ == .host

/-- A group that the host's HALT stopped issues again (R536). -/
def resumeGroup (g : Group) : Group :=
  if g.haltByHost then { g with halted := false, haltAsked := false, stepAsked := false, haltByHost := false } else g

/-- The debug authorisation written; with enabled cleared, every group halted by the host resumes (R536). -/
def setAuth (s : State) (c : BitVec 12) (enabled : Bool) : State :=
  let busy := s.regs.dbgBusy && (enabled || !((dbgGroup s).map (·.haltByHost)).getD false)
  let s := { s with regs := { s.regs with dbgCtx := c, dbgEnabled := enabled, dbgBusy := busy } }
  if enabled then s
  else
    let all := fun (kv : Nat × Core) => (kv.1, { kv.2 with groups := kv.2.groups.map resumeGroup })
    { s with cores := s.cores.map all }

/-- Every performance counter copied to the image that reads return while snap_mode is 1 (R537). -/
def takeSnap (s : State) : State :=
  { s with image := s.counters ++ s.ctxCounters.map (fun kv => (imageKey 0 kv.1, kv.2)), regs := { s.regs with snapTime := s.time } }

/-- A 4-B write to a debug register. -/
def writeDebug (s : State) (off : Nat) (v : U32) : State :=
  let f := bitsOf v.toNat
  match off with
  | 0x10000 => setAuth s (BitVec.ofNat 12 (f 27 16)) (bitOf v.toNat 0)
  | 0x10004 => if s.regs.dbgBusy then s
      else { s with regs := { s.regs with dbgSlot := BitVec.ofNat 4 (f 11 8), dbgCore := BitVec.ofNat 8 (f 7 0) } }
  | 0x10038 => if s.regs.dbgBusy then s else { s with regs := { s.regs with dbgVsel := BitVec.ofNat 8 (f 7 0) } }
  | _ => s

/-- A 4-B write to the message table (Table 16.4). -/
def writeMsg (s : State) (off : Nat) (v : U32) : State :=
  let n := (off - 0x2100) / 16
  if off < 0x2100 || 0x2500 ≤ off then s
  else if off % 16 = 8 then { s with regs := { s.regs with msgData := smSet 0 s.regs.msgData n (v.setWidth 64) } }
  else if off % 16 = 12 then
    { s with regs := { s.regs with msgWire := smSet 0 s.regs.msgWire n (if s.straps.irqEn && bitOf v.toNat 0 then 1 else 0) } }
  else s

/-- The page select of a requester (R533). -/
def setLogPage (r : Regs) (by_ : Requester) (v : U32) : Regs :=
  let p := BitVec.ofNat 4 (bitsOf v.toNat 3 0)
  match by_ with
  | .host => { r with logPageHost := p }
  | .keeper => { r with logPageKeeper := p }
  | .drover => { r with logPageDrover := p }

/-- A 4-B write at a 4-B aligned offset by a requester that may write there. A write of dl_flock_mask is seen at once by R478. -/
def writeWord (s : State) (by_ : Requester) (off : Nat) (v : U32) : State :=
  if !mayWrite s by_ off then s
  else if off = 0x1000 then { s with regs := { s.regs with coreFreq := ranged s.regs.coreFreq 100 1600 (bitsOf v.toNat 10 0) } }
  else if off = 0x1004 then { s with regs := { s.regs with govLimit := ranged s.regs.govLimit 100 300 (bitsOf v.toNat 8 0) } }
  else if off = 0x4000 then { s with bring := { s.bring with storePart := v } }
  else if off = 0x4300 then strand { s with regs := writeParams s.regs off v }
  else if off = 0x8004 then { s with regs := setLogPage s.regs by_ v }
  else if off = 0x20000 then
    let s := if bitOf v.toNat 1 then takeSnap s else s
    { s with regs := { s.regs with snapMode := bitOf v.toNat 0 } }
  else if off < 0x4000 then writeMsg s off v
  else if off < 0x8000 then { s with regs := writeParams s.regs off v }
  else writeDebug s off v

/-- Whether a 64-bit register that can be written by this command lies at an offset: the context table base, a message address, a
mailbox argument. -/
def isLong (off : Nat) : Bool :=
  off == 0x2000 || (0x2100 ≤ off && off < 0x2500 && off % 16 == 0) || (0x40100 ≤ off && off < 0x40140 && off % 8 == 0)

/-- An 8-B write to a 64-bit register. -/
def writeLong (s : State) (by_ : Requester) (off : Nat) (v : U64) : State :=
  if !mayWrite s by_ off then s
  else if off = 0x2000 then { s with regs := { s.regs with ctxBase := BitVec.ofNat 64 (v.toNat / 4096 * 4096) } }
  else if off < 0x2500 then
    { s with regs := { s.regs with msgAddr := smSet 0 s.regs.msgAddr ((off - 0x2100) / 16) (BitVec.ofNat 64 (v.toNat / 4 * 4)) } }
  else if s.regs.kmBusy then s
  else { s with regs := { s.regs with kmArgs := smSet 0 s.regs.kmArgs ((off - 0x40100) / 8) v } }

/-- Whether a 4-B write at an offset goes to half of a 64-bit register, which ignores it (R523). -/
def inLong (off : Nat) : Bool := isLong (off / 8 * 8)

/-- Whether a requester reaches the setup space: the host through the completer, Keeper out of reset, Drover while it runs. -/
def reaches (s : State) (by_ : Requester) : Bool :=
  s.pins.powered && s.pins.rstN && 1 ≤ s.bring.step &&
  (match by_ with
   | .host => !s.pins.parked
   | .keeper => (strapsNow s).present
   | .drover => s.drover.running)

/-- The answer to a write of the host's to the setup space, which the completer has taken (R494). -/
def hostAnswer (s : State) (by_ : Requester) : State := if by_ == .host && reaches s .host then okWrite s else s

/-- A write to the setup space (R522 to R525). -/
def registerWrite (s : State) (by_ : Requester) (off : Nat) (wide : Bool) (v : U64) : State :=
  if !reaches s by_ || off % 4 != 0 then s
  else if !wide then (if inLong off then s else writeWord s by_ off (v.setWidth 32))
  else if off % 8 != 0 then s
  else if isLong off then writeLong s by_ off v
  else
    let s := writeWord s by_ off (v.setWidth 32)
    writeWord s by_ (off + 4) (BitVec.ofNat 32 (v.toNat / 2 ^ 32))

/-- REGISTER_WRITE (R522); the host's is answered through the completer (R494). -/
def execRegisterWrite (by_ : Requester) (offset : BitVec 20) (wide : Bool) (value : U64) (s : State) : Host.Outcome State Fault Refusal :=
  .next (registerWrite (hostAnswer s by_) by_ offset.toNat wide value)

/-! ## Reads through the completer (R446, R494) -/

/-- A 4-B word of the doorbell window: the last value accepted at a doorbell, zero elsewhere (R446). -/
def readDoorbell (s : State) (off : Nat) : Nat :=
  if off % 64 = 0 then (ringOf s (ringKey (off / 1024) (off % 1024 / 64))).doorbell.toNat else 0

/-- The beat that answers a READ (R494): the word at its offset, 8 B at an 8-B aligned offset of the setup space (log entry 94), every
other byte zero. -/
def readBeatData (s : State) (a : Nat) : BitVec 512 :=
  let v := if bitOf a 22 then readDoorbell s (bitsOf a 21 0)
    else
      let o := bitsOf a 19 0
      if o % 8 = 0 then readSetup s .host o + readSetup s .host (o + 4) * 2 ^ 32 else readSetup s .host o
  BitVec.ofNat 512 (v * 2 ^ (8 * (a % 64)))

/-- A request that the completer takes from the end of bring-up step 1 on (R494): ADDR_ERR where the rule says so, a READ its word. A WRITE
that it serves is a command of its own and answered there. -/
def completerTake (s : State) (req : EppRequest) : State :=
  if !engineUp s || s.bring.step < 1 then s
  else if isAddrErr req then { s with answer := some (addrErr req) }
  else if req.opcode = 0 then { s with answer := some ⟨0, false, some req.tag, readBeatData s req.address.toNat⟩ }
  else s

/-- COMPLETER_ADDR_ERR (R494). -/
def execCompleterAddrErr (req : EppRequest) (s : State) : Host.Outcome State Fault Refusal := .next (completerTake s req)

end Sys2Proof.Machine
end

