-- ==== Sys2Proof/Machine/Debug.lean ====
section
/-! DEFINITION. The debugger's operations on one group (R535, R536, R557 to R560) and the counters' snapshot (R537). -/
namespace Sys2Proof.Machine

/-- The state with refused as the last operation left it (R535). -/
def dbgAnswer (s : State) (refused : Bool) : State := { s with regs := { s.regs with dbgRefused := refused } }

/-- Whether an operation of MLD_DBG_CMD is refused whatever it is: the host without authorisation, no group in the slot, a group of
another context (R535). -/
def dbgRefuses (s : State) (by_ : Requester) : Bool :=
  (by_ == .host && !s.regs.dbgEnabled) ||
  (match dbgGroup s with
   | some g => g.ctx != s.regs.dbgCtx.toNat
   | none => true)

/-- The state with the target group changed, and whether an operation is in progress on it. -/
def dbgTarget (s : State) (busy : Bool) (f : Group → Group) : State :=
  let s := modGroup s s.regs.dbgCore.toNat s.regs.dbgSlot.toNat f
  { s with regs := { s.regs with dbgBusy := busy } }

/-- An operation written to MLD_DBG_CMD by the host or Keeper: Drover's writes are ignored (R522). -/
def dbgOp (s : State) (by_ : Requester) (bad : Group → Bool) (body : State → Group → State) : State :=
  let s := hostAnswer s by_
  if by_ == .drover || !reaches s by_ then s
  else match dbgGroup s with
    | some g => if dbgRefuses s by_ || bad g then dbgAnswer s true else body (dbgAnswer s false) g
    | none => dbgAnswer s true

/-- A group that a HALT has stopped. -/
def haltGroup (byHost : Bool) (g : Group) : Group := { g with halted := true, haltAsked := false, haltByHost := byHost }

/-- HALT: at once for a group that is held at a boundary, else at its next one; firmware code refuses it (R557, R559). -/
def debugHalt (s : State) (by_ : Requester) : State :=
  dbgOp s by_ (fun g => g.halted || g.stock != .user) fun s g =>
    if groupReady s s.regs.dbgCore.toNat g then dbgTarget s true fun g => { g with haltAsked := true, haltByHost := by_ == .host }
    else dbgTarget s false (haltGroup (by_ == .host))

/-- HALT (R557). -/
def execHalt (by_ : Requester) (s : State) : Host.Outcome State Fault Refusal := .next (debugHalt s by_)

/-- The target group reaches a bundle boundary and is halted. -/
def haltTaken (s : State) : State :=
  match dbgGroup s with
  | some g => if g.haltAsked && !g.ended && !g.stopping then dbgTarget s false (haltGroup g.haltByHost) else s
  | none => s

/-- DEBUG_HALT_TAKEN (R557). -/
def execDebugHaltTaken (s : State) : Host.Outcome State Fault Refusal := .next (haltTaken s)

/-- STEP (R558). -/
def execDebugStep (by_ : Requester) (s : State) : Host.Outcome State Fault Refusal :=
  .next (dbgOp s by_ (fun g => !g.halted) fun s _ => dbgTarget s true fun g => { g with stepAsked := true })

/-- RESUME (R558). -/
def execDebugResume (by_ : Requester) (s : State) : Host.Outcome State Fault Refusal :=
  .next (dbgOp s by_ (fun g => !g.halted) fun s _ => dbgTarget s false fun g =>
    { g with halted := false, haltAsked := false, stepAsked := false, haltByHost := false })

/-- SNAP (R537): written by Keeper or Drover; the host's write is answered, and ignored (R494, R522). -/
def execSnap (by_ : Requester) (now : U64) (s : State) : Host.Outcome State Fault Refusal :=
  let s := hostAnswer (atTime s now) by_
  .next (if reaches s by_ && mayWrite s by_ 0x20000 then takeSnap s else s)

end Sys2Proof.Machine
end

