-- ==== Sys2Proof/Machine/Keeper.lean ====
section
/-! DEFINITION. Bring-up from the boot write to the quadrants' release (R28, R29, R519, R539, R551, R552), Keeper's mailbox (R554), Drover
(R555, R556), the scrubber (R26) and engine-reach failures (R548). -/
namespace Sys2Proof.Machine

/-! ## Boot -/

/-- Other agents' writes, then MLD_KM_BOOT: one write is accepted after each reset release (R539); it starts verification. -/
def kmBoot (s : State) (image : U64) : State :=
  let s := hostAnswer s .host
  if !reaches s .host || s.bring.bootWritten || s.bring.fatal then s
  else
    reachStep { s with bring := { s.bring with
      bootWritten := true, bootAddr := BitVec.ofNat 64 (image.toNat / 128 * 128), bootState := 1, bootAt := s.time } } 2

/-- KM_BOOT (R539). -/
def execKmBoot (image : U64) (agents : List (Nat × Byte)) (now : U64) (s : State) : Host.Outcome State Fault Refusal :=
  .next (kmBoot (agentsWrite (atTime s now) agents) image)

/-- The boot fails (R552, R539): state 3, its code, bring-up held; BOOT is logged. -/
def failBoot (s : State) (code : Byte) : State :=
  let s := { s with bring := { s.bring with bootState := 3, failCode := code, held := true }, drover := { s.drover with running := false } }
  logWide s 0x08 code (natLe 8 s.bring.bootAddr.toNat ++ natLe 8 s.bring.buildId.toNat)

/-- A read of the firmware image: untranslated (R489, R551). -/
def imageRead (s : State) (o n : Nat) : MemRead := chipRead s.chip 0 (s.bring.bootAddr.toNat + o) n

/-- A section entry of the image: type, offset, length (Table 17.4). -/
def sectionOf (b : List Byte) (i : Nat) : Nat × Nat × Nat := (field b (64 * i) 4, field b (64 * i + 4) 4, field b (64 * i + 8) 4)

/-- Whether the fields of the header and the section table are those of Table 17.4 (fail code 0x01). -/
def imageFields (h t : List Byte) (n : Nat) : Bool :=
  field h 0 4 == 0x4D4C4657 && field h 4 1 == 1 && field h 5 1 == 2 && zeroAt h [(12, 4), (24, 104)] &&
  (List.range n).all fun i =>
    let x := sectionOf t i
    1 ≤ x.1 && x.1 ≤ 5 && field t (64 * i + 12) 4 == 0

/-- The length of the sections of a type. -/
def sectionBytes (xs : List (Nat × Nat × Nat)) (ty : Nat) : Nat := ((xs.filter (·.1 == ty)).map (·.2.2)).sum

/-- Whether the sizes are those of R552 step 2 (fail code 0x02). -/
def imageSizes (h t : List Byte) (n : Nat) : Bool :=
  let xs := (List.range n).map (sectionOf t)
  let total := field h 8 4
  1 ≤ n && n ≤ 16 && 224 + 64 * n ≤ total && xs.all (fun x => x.2.1 % 128 == 0 && x.2.1 + x.2.2 ≤ total) &&
  [1, 2, 3, 4, 5].all (fun ty => (xs.filter (·.1 == ty)).length == 1) && sectionBytes xs 1 ≤ 262144 &&
  sectionBytes xs 2 + sectionBytes xs 3 ≤ 8 * mib

/-- The bytes of the image that verification reads: the length that its header gives. -/
def imageTotal (s : State) : Nat := min (field (imageRead s 0 128).bytes 8 4) (16 * mib)

/-- What the sender of FIRMWARE_VERIFIED reports of steps 3 and 4 of R552. -/
def verdictCode (v : CryptoVerdict) : Option Byte :=
  match v with
  | .ok => none
  | .badSignature => some 0x04
  | .badDigest => some 0x05
  | .readError => some 0x06

/-- The first failure of R552, when there is one. -/
def bootFailure (s : State) (v : CryptoVerdict) : Option Byte :=
  let h := imageRead s 0 128
  let n := field h.bytes 7 1
  let t := imageRead s 128 (64 * n)
  if h.bad.isSome || t.bad.isSome then some 0x06
  else if !imageFields h.bytes t.bytes n then some 0x01
  else if !imageSizes h.bytes t.bytes n then some 0x02
  else if field h.bytes 6 1 != 0 then some 0x03
  else verdictCode v

/-- Whether partition sizes are within their ranges and within 512 MiB (R29, Table 16.5). -/
def partOk (v : U32) : Bool :=
  let f := bitsOf v.toNat
  16 ≤ f 7 0 && f 7 0 ≤ 28 && 2 ≤ f 15 8 && f 15 8 ≤ 8 && f 23 16 ≤ 4 && 1 ≤ f 31 24 && f 31 24 ≤ 4 && f 7 0 + f 15 8 + f 23 16 + f 31 24 ≤ 32

/-- The partition of Table 0.5. -/
def partDefault : U32 := 0x02020418

/-- Store initialisation starts: the partition registers are read; refused sizes give way to the defaults, and Keeper logs PART_REJECTED
(R28, R29). -/
def takePartition (s : State) : State :=
  let v := s.bring.storePart
  if partOk v then { s with bring := { s.bring with partUsed := v, partRejected := false } }
  else logWide { s with bring := { s.bring with partUsed := partDefault, partRejected := true } } 0x04 0 (natLe 4 v.toNat ++ natLe 4 partDefault.toNat)

/-- Verification ends: on success Keeper's SRAM is locked, Drover is started, BOOT is logged with code 0, and store initialisation starts. -/
def firmwareVerified (s : State) (v : CryptoVerdict) : State :=
  if !running s || s.bring.bootState != 1 then s
  else
    let s := cpRead s 0 3 s.bring.bootAddr.toNat (max 128 (imageTotal s))
    match bootFailure s v with
    | some c => failBoot s c
    | none =>
      let id : U64 := BitVec.ofNat 64 (field (imageRead s 0 128).bytes 16 8)
      let s := reachStep { s with
        bring := { s.bring with bootState := 2, buildId := id, keeperLocked := true }, drover := ⟨true, false, s.time, s.time⟩ } 3
      takePartition (logWide s 0x08 0 (natLe 8 s.bring.bootAddr.toNat ++ natLe 8 id.toNat))

/-- FIRMWARE_VERIFIED (R552). -/
def execFirmwareVerified (verdict : CryptoVerdict) (now : U64) (s : State) : Host.Outcome State Fault Refusal :=
  .next (firmwareVerified (atTime s now) verdict)

/-- 8 ms after the boot write without a boot (Table 17.5). -/
def bootTimeout (s : State) : State :=
  if running s && s.bring.bootState = 1 && 8000000 < (s.time - s.bring.bootAt).toNat then failBoot s 0x08 else s

/-- BOOT_TIMEOUT (R552). -/
def execBootTimeout (now : U64) (s : State) : Host.Outcome State Fault Refusal := .next (bootTimeout (atTime s now))

/-- 1 ms after Drover's start at boot without its report (Table 17.5). -/
def droverReadyTimeout (s : State) : State :=
  if running s && s.bring.bootState = 2 && s.drover.running && !s.drover.ready && 1000000 < (s.time - s.drover.startedAt).toNat then failBoot s 0x07
  else s

/-- DROVER_READY_TIMEOUT (R552). -/
def execDroverReadyTimeout (now : U64) (s : State) : Host.Outcome State Fault Refusal := .next (droverReadyTimeout (atTime s now))

/-! ## Store initialisation and the quadrants' release (steps 4 and 5 of Table 15.14) -/

/-- A line that fails its read-back: a hard defect is logged and bring-up held at step 4 (R519). -/
def lineFailed (s : State) (bank : Byte) (line : BitVec 14) (bitNo : BitVec 7) : State :=
  logWide { s with bring := { s.bring with initFail := true, failBank := bank, failLine := line, held := true } } 0x05 0
    (natLe 2 bank.toNat ++ natLe 2 line.toNat ++ natLe 1 bitNo.toNat)

/-- A link as the quadrants are released: its bring-up begins where the PHY is trained (R501, R568). -/
def linkReleased (now : U64) (k : Link) : Link :=
  if k.clockOn && k.trained && !k.neighbourAbsent then bringLink now k else { k with status := if k.clockOn then 1 else 0 }

/-- Store initialisation ends; the quadrants are released and the doorbell window opens. -/
def quadrantRelease (s : State) (lineFail : Option (Byte × BitVec 14 × BitVec 7)) : State :=
  if !running s || s.bring.bootState != 2 || s.bring.held || s.bring.initDone then s
  else
    let s := { s with store := ⟨[], [], s.store.scrub, []⟩ }
    match lineFail with
    | some x => lineFailed s x.1 x.2.1 x.2.2
    | none =>
      let s := reachStep { s with bring := { s.bring with initDone := true, released := true } } 5
      let s := if s.bring.fatal then s else { s with links := s.links.map (linkReleased s.time) }
      if s.pins.pwrWarnN then s else startDip s

/-- QUADRANT_RELEASE (R519). -/
def execQuadrantRelease (lineFail : Option (Byte × BitVec 14 × BitVec 7)) (now : U64) (s : State) : Host.Outcome State Fault Refusal :=
  .next (quadrantRelease (atTime s now) lineFail)

/-! ## The mailbox (R540, R554) -/

/-- A request begins: its arguments and its code stand in the mailbox. -/
def kmStart (s : State) (code : U16) (args : List U64) : State :=
  let put := args.zipIdx.foldl (fun m (x : U64 × Nat) => smSet 0 m x.2 x.1) s.regs.kmArgs
  { s with regs := { s.regs with kmArgs := put, kmRequest := code } }

/-- The result of the last request. -/
def kmEnd (s : State) (result : Byte) : State := { s with regs := { s.regs with kmResult := result, kmBusy := false } }

/-- A request served: not at all where the host does not reach the mailbox or Keeper is busy, with result 0x04 before state 2 (R540). -/
def kmServe (s : State) (code : U16) (args : List U64) (body : State → State) : State :=
  let s := hostAnswer s .host
  if !reaches s .host || s.regs.kmBusy || s.bring.fatal then s
  else
    let s := kmStart s code args
    if s.bring.bootState != 2 then kmEnd s 0x04 else body s

/-- What a request that names a context is answered while a commit is busy (R554); commits: it is one itself. -/
def busyResult (s : State) (c : U64) (commits : Bool) : Option Byte :=
  if !s.regs.commitBusy then none
  else if s.regs.commitLast.toNat = c.toNat then some 0x05
  else if commits then some 0x06 else none

/-- The result that follows a commit: done, waiting, or refused. -/
def commitAnswer (s : State) : Byte :=
  if s.regs.commitBusy then 0x05 else if s.regs.commitResult = 0 then 0x00 else 0x03

/-- The address of a context's entry in the table. -/
def entryAddr (s : State) (c : Nat) : Nat := s.regs.ctxBase.toNat + 256 * c

/-- A request that writes a context's table entry and commits it. -/
def entryRequest (s : State) (c : U64) (write : State → State) : State :=
  if 4096 ≤ c.toNat then kmEnd s 0x02
  else match busyResult s c true with
    | some r => kmEnd s r
    | none =>
      let s := commitWrite (write s) c.toNat
      kmEnd s (commitAnswer s)

/-- The 256 bytes at a physical address copied to the table. -/
def copyEntry (c entry : U64) (s : State) : State :=
  let m := chipRead s.chip 0 entry.toNat 256
  let s := cpRead s 0 3 entry.toNat 256
  { s with chip := chipWrite s.chip 0 (entryAddr s c.toNat) m.bytes m.bad.isSome }

/-- CTX_WRITE (R554). -/
def execCtxWrite (ctx : U64) (entry : U64) (agents : List (Nat × Byte)) (s : State) : Host.Outcome State Fault Refusal :=
  .next (kmServe (agentsWrite s agents) 0x0001 [ctx, entry] fun s => entryRequest s ctx (copyEntry ctx entry))

/-- The valid bit of a table entry cleared. -/
def clearValid (c : U64) (s : State) : State :=
  let a := entryAddr s c.toNat
  let b := chipByte s.chip 0 a
  { s with chip := { s.chip with bytes := smSet 0 s.chip.bytes (memKey 0 a) (b &&& 0xFE) } }

/-- CTX_RETIRE (R436, R554). -/
def execCtxRetire (ctx : U64) (s : State) : Host.Outcome State Fault Refusal :=
  .next (kmServe s 0x0002 [ctx] fun s => entryRequest s ctx (clearValid ctx))

/-- A message table entry written (R528, Table 16.4). -/
def msgSet (s : State) (n addr data wire : U64) : State :=
  if 64 ≤ n.toNat || 2 ^ 32 ≤ data.toNat || 2 ≤ wire.toNat then kmEnd s 0x02
  else
    let base := 0x2100 + 16 * n.toNat
    let s := writeLong s .keeper base addr
    let s := writeWord s .keeper (base + 8) (data.setWidth 32)
    kmEnd (writeWord s .keeper (base + 12) (wire.setWidth 32)) 0x00

/-- MSG_SET (R528). -/
def execMsgSet (n : U64) (addr : U64) (data : U64) (wire : U64) (s : State) : Host.Outcome State Fault Refusal :=
  .next (kmServe s 0x0003 [n, addr, data, wire] fun s => msgSet s n addr data wire)

/-- MLD_DBG_AUTH written at the host's request, and DEBUG_AUTH logged (R554). -/
def debugAuth (s : State) (c enable : U64) : State :=
  if 4096 ≤ c.toNat || 2 ≤ enable.toNat then kmEnd s 0x02
  else match busyResult s c false with
    | some r => kmEnd s r
    | none => kmEnd (logCtx (setAuth s (c.setWidth 12) (enable == 1)) 0x0A (enable.setWidth 8) c.toNat []) 0x00

/-- DEBUG_AUTH (R554). -/
def execDebugAuth (ctx : U64) (enable : U64) (s : State) : Host.Outcome State Fault Refusal :=
  .next (kmServe s 0x0004 [ctx, enable] fun s => debugAuth s ctx enable)

/-- GOV_LIMIT (R526, R554). -/
def execGovLimit (watts : U64) (s : State) : Host.Outcome State Fault Refusal :=
  .next (kmServe s 0x0005 [watts] fun s =>
    if watts.toNat < 100 || 300 < watts.toNat then kmEnd s 0x02
    else kmEnd { s with regs := { s.regs with govLimit := watts.setWidth 9 } } 0x00)

/-- DROVER_FAULT logged (Table 17.3). -/
def logDrover (s : State) (code : Byte) (addr : U64) : State := logWide s 0x0B code (natLe 8 addr.toNat)

/-- DROVER_RESTART (R554, R556). -/
def execDroverRestart (now : U64) (s : State) : Host.Outcome State Fault Refusal :=
  .next (kmServe (atTime s now) 0x0006 [] fun s =>
    kmEnd (logDrover { s with drover := { s.drover with running := true, startedAt := s.time, reportAt := s.time } } 3 0) 0x00)

/-- KM_REQUEST_UNKNOWN (R554). -/
def execKmRequestUnknown (code : U16) (s : State) : Host.Outcome State Fault Refusal :=
  .next (if 1 ≤ code.toNat && code.toNat ≤ 6 then s else kmServe s code [] fun s => kmEnd s 0x01)

/-! ## Drover (R555, R556) -/

/-- DROVER_REPORT (R556). -/
def execDroverReport (now : U64) (s : State) : Host.Outcome State Fault Refusal :=
  let s := atTime s now
  .next (if running s && s.drover.running then { s with drover := { s.drover with ready := true, reportAt := s.time } } else s)

/-- Drover stopped, with a DROVER_FAULT entry. -/
def stopDrover (s : State) (code : Byte) (addr : U64) : State :=
  if running s && s.drover.running then logDrover { s with drover := { s.drover with running := false } } code addr else s

/-- DROVER_WATCHDOG (R556): no report for more than 100 ms. -/
def execDroverWatchdog (now : U64) (s : State) : Host.Outcome State Fault Refusal :=
  let s := atTime s now
  .next (if 100000000 < (s.time - s.drover.reportAt).toNat then stopDrover s 1 0 else s)

/-- DROVER_SANDBOX_VIOLATION (R555): the access is not performed. -/
def execDroverSandboxViolation (addr : U64) (s : State) : Host.Outcome State Fault Refusal := .next (stopDrover s 2 addr)

/-- A DROVER_NOTE entry (R555, Table 17.3). -/
def droverNote (s : State) (code : Byte) (payload : List Byte) : State :=
  if running s && s.drover.running then
    let e := mkLog s 0x0C code payload
    { s with log := logPush s.log { e with fromDrover := true } }
  else s

/-- DROVER_NOTE (R555). -/
def execDroverNote (code : Byte) (payload : List Byte) (s : State) : Host.Outcome State Fault Refusal := .next (droverNote s code payload)

/-! ## The scrubber (R25, R26) -/

/-- The lines of the store. -/
def storeLines : Nat := 4194304

/-- Bits of some lines flip; then the scrubber reads its next line: a single-bit error is corrected and counted, a double-bit error is
counted and leaves the line poisoned. It begins at line 0 after a reset; quadrant release leaves its place (log entry 91). -/
def scrubLine (s : State) (upsets : List (Nat × Bool)) : State :=
  if !running s || !s.bring.initDone then s
  else
    let l := s.store.scrub
    let s := seenLines { s with store := strikeLines s.store upsets } (128 * l) 128
    let s := { s with store := { s.store with scrub := (l + 1) % storeLines } }
    if l + 1 = storeLines then count s 42 else s

/-- SCRUB_LINE (R26). -/
def execScrubLine (upsets : List (Nat × Bool)) (s : State) : Host.Outcome State Fault Refusal := .next (scrubLine s upsets)

/-! ## Engine reach (R548) -/

/-- A link of an engine that failed whole: it presents the member-absent pattern. -/
def absentLink (k : Link) : Link := { downLink k.status k with elecIdle := false, present := .absent }

/-- A double-bit error in the management complex: every context in flight halts with POISON_CONSUMED of source 5, nothing more is
admitted, the ring port shows the member-absent pattern, ENGINE_FATAL is logged. -/
def engineFatal (s : State) (code : Byte) (addr : U64) : State :=
  if !running s || s.bring.fatal then s
  else
    let s := { s with bring := { s.bring with fatal := true } }
    let live := (s.ctxs.map (·.1)).filter fun c => !(passesOf s c).isEmpty
    let s := live.foldl (fun s c => faultContext s c stPoison (poisonPayload 0xFFFF 5 addr.toNat) 256 0xFF true) s
    let s := { s with links := s.links.map absentLink }
    logWide s 0x0D code (natLe 8 addr.toNat)

/-- ENGINE_FATAL (R548). -/
def execEngineFatal (code : Byte) (addr : U64) (s : State) : Host.Outcome State Fault Refusal := .next (engineFatal s code addr)

end Sys2Proof.Machine
end

