-- ==== Sys2Proof/Machine/Raster.lean ====
section
/-! DEFINITION. What the raster path computes (R333 to R342, R349 to R351, R359 to R364): tiles, culling, fragments, samples of an
atlas, compositing, the reverse walk, target blocks. -/
namespace Sys2Proof.Machine

/-! ## Tiles (R333, R43) -/

/-- The pixels of a tile within the frame, by number within the tile. -/
def tilePixels (p : RenderParams) (t : Nat) : List (Nat × Nat) :=
  let x0 := 16 * (t % tilesAcross p)
  let y0 := 16 * (t / tilesAcross p)
  ((List.range 256).map fun i => (x0 + i % 16, y0 + i / 16)).filter fun q => q.1 < p.width && q.2 < p.height

/-- The element number of a pixel. -/
def pixelIx (p : RenderParams) (x y : Nat) : Nat := y * p.width + x

/-! ## Parameters in force (Table 10.1) -/

/-- alpha_min and alpha_max, +0 selecting the default. -/
def RenderParams.amin (p : RenderParams) : U32 := if p.alphaMin = 0 then 0x3B800000 else p.alphaMin
def RenderParams.amax (p : RenderParams) : U32 := if p.alphaMax = 0 then 0x3F7D70A4 else p.alphaMax
/-- Whether a pass writes depth only. -/
def RenderParams.depthOnly (p : RenderParams) : Bool := !p.bwd && p.mode == 1
/-- The size of a primitive record. -/
def RenderParams.recSize (p : RenderParams) : Nat := if p.primKind = 1 then 64 else 32
/-- P (Table 10.5). -/
def RenderParams.gradLen (p : RenderParams) : Nat := if p.primKind = 1 then 1 + 3 * p.channels else 6 + p.channels

/-! ## Primitives (R334, R335) -/

/-- Word i of a primitive record. -/
def recW (r : List Byte) (i : Nat) : U32 := BitVec.ofNat 32 (field r (4 * i) 4)

/-- Whether a coordinate lies in the guard band. -/
def inGuard (a : U32) : Bool := fle 0xC7000000 a && flt a 0x47000000

/-- Whether a primitive is culled (R335). -/
def isCulled (p : RenderParams) (r : List Byte) : Bool :=
  let w := recW r
  if p.primKind = 1 then !([0, 1, 2, 3, 4, 5, 6, 7, 8].all fun i => isFin (w i)) || !([0, 1, 3, 4, 6, 7].all fun i => inGuard (w i))
  else !(isFin (w 0) && isFin (w 1) && isFin (w 6) && inGuard (w 0) && inGuard (w 1)) || flt (w 6) 0 || flt 0x47000000 (w 6)

/-! ## Ellipses (R336) -/

/-- RN(x + 0.5 − μ): the offset of a pixel from a centre. -/
def pixelOff (x : Nat) (mu : U32) : U32 := fsub .rn (ofIntExp .rn (2 * x + 1 : Nat) (-1)) mu

/-- Whether a pixel lies within an ellipse's footprint on one axis. -/
def inReach (x : Nat) (mu r : U32) : Bool := fle (fabs (pixelOff x mu)) r

/-- The fragment of an ellipse at a pixel, without its features. -/
def ellipseFrag (p : RenderParams) (pos : Nat) (r : List Byte) (x y : Nat) : Option Fragment :=
  let dx := pixelOff x (recW r 0)
  let dy := pixelOff y (recW r 1)
  let gx := fadd .rn (fmul .rn (recW r 2) dx) (fmul .rn (recW r 3) dy)
  let gy := fadd .rn (fmul .rn (recW r 3) dx) (fmul .rn (recW r 4) dy)
  let m := fadd .rn (fmul .rn dx gx) (fmul .rn dy gy)
  if !inReach x (recW r 0) (recW r 6) || !inReach y (recW r 1) (recW r 6) || isNan m || flt m 0 then none
  else
    let em := expHalf m
    let raw := fmul .rn (recW r 5) em
    if fle p.amin raw then
      some { x := x, y := y, pos := pos, alpha := fmin raw p.amax, alphaRaw := raw, clamped := flt p.amax raw, m := m, b1 := 0, b2 := 0,
             z := 0, dx := dx, dy := dy, gx := gx, gy := gy, opacity := recW r 5, em := em, feats := [], samp := [] }
    else none

/-! ## Triangles (R337, R338) -/

/-- RNE(x × 256) of a finite value. -/
def snap (a : U32) : Int :=
  let q := scaledDiv (magFx a) (2 ^ 141) 0
  let n : Int := (q.1 + (if roundsUp .rn false q.1 q.2 then 1 else 0) : Nat)
  if negOf a then -n else n

/-- The snapped vertices of a triangle. -/
def snapped (r : List Byte) : List (Int × Int) := (List.range 3).map fun v => (snap (recW r (3 * v)), snap (recW r (3 * v + 1)))

/-- E_AB(P). -/
def edgeOf (a b q : Int × Int) : Int := (b.1 - a.1) * (q.2 - a.2) - (b.2 - a.2) * (q.1 - a.1)

/-- Whether a zero edge from a to b is owned, area positive or not. -/
def ownsEdge (pos : Bool) (a b : Int × Int) : Bool :=
  let d : Int × Int := if pos then (b.1 - a.1, b.2 - a.2) else (a.1 - b.1, a.2 - b.2)
  decide (0 < d.2) || (decide (d.2 = 0) && decide (d.1 < 0))

/-- The area and E_BC, E_CA, E_AB of a triangle at a pixel it covers. -/
def coverage (v : List (Int × Int)) (x y : Nat) : Option (Int × List Int) :=
  let a := v.getD 0 (0, 0)
  let b := v.getD 1 (0, 0)
  let c := v.getD 2 (0, 0)
  let q : Int × Int := (256 * x + 128, 256 * y + 128)
  let area := edgeOf a b c
  let pos := decide (0 < area)
  let ok := fun (e : Int) s t => if e = 0 then ownsEdge pos s t else decide (0 < e) == pos
  let es := [edgeOf b c q, edgeOf c a q, edgeOf a b q]
  if area = 0 then none
  else if ok (es.getD 0 0) b c && ok (es.getD 1 0) c a && ok (es.getD 2 0) a b then some (area, es) else none

/-- The correctly rounded quotient of exact integers; zero is +0. -/
def ratio (n d : Int) : U32 :=
  if n = 0 then 0 else packF (decide (n < 0) != decide (d < 0)) (roundQ fmt32 .rn (decide (n < 0) != decide (d < 0)) n.natAbs d.natAbs)

/-- Barycentric interpolation of a quantity. -/
def interp (b q : List U32) : U32 :=
  fadd .rn (fadd .rn (fmul .rn (b.getD 0 0) (q.getD 0 0)) (fmul .rn (b.getD 1 0) (q.getD 1 0))) (fmul .rn (b.getD 2 0) (q.getD 2 0))

/-- The weights b0, b1, b2 and the depth of a triangle at a pixel it covers. -/
def triangleAt (r : List Byte) (x y : Nat) : Option (List U32 × U32) :=
  (coverage (snapped r) x y).map fun c =>
    let b := c.2.map fun e => ratio e c.1
    (b, interp b [recW r 2, recW r 5, recW r 8])

/-! ## Atlases (R362, R363) -/

/-- The size of a texel. -/
def RenderParams.texel (p : RenderParams) : Nat := p.channels * elemSize p.atlasFmt

/-- The dimensions of an atlas tile (Table 10.8). -/
def atlasTile (texel : Nat) : Option (Nat × Nat) :=
  [(2, 256, 128), (4, 128, 128), (8, 128, 64), (16, 64, 64), (32, 64, 32), (64, 32, 32), (128, 32, 16), (256, 16, 16)].findSome?
    fun t => if t.1 = texel then some t.2 else none

/-- The texel column of a coordinate: clamp(⌊RN(u × width)⌋, 0, width − 1); 0 for a NaN. -/
def texelAt (u : U32) (width : Nat) : Nat :=
  let v := if isFin u then packF (negOf u) (roundQ fmt32 .rn (negOf u) (magFx u * width) (2 ^ 149)) else if width = 0 then nan32 else u
  if isNan v || negOf v then 0 else if isInf v then width - 1 else min (magFx v / 2 ^ 149) (width - 1)

/-- The atlas tile of a texel, and the texel's offset within it. -/
def texelPlace (p : RenderParams) (col row : Nat) : Nat × Nat :=
  let d := (atlasTile p.texel).getD (1, 1)
  ((row / d.2) * (p.atlasWidth / d.1) + col / d.1, ((row % d.2) * d.1 + col % d.1) * p.texel)

/-- The tiles of an atlas. -/
def atlasTiles (p : RenderParams) : Nat :=
  let d := (atlasTile p.texel).getD (1, 1)
  (p.atlasWidth / d.1) * (p.atlasHeight / d.2)

/-- The ranges that a pass reads. -/
def renderInputs (p : RenderParams) : List (Nat × Bool × Nat × Nat) :=
  let px := p.width * p.height
  let r := fun (o a n : Nat) => (o, false, a, n)
  [r 0 p.primAddr (p.primCount * p.recSize)] ++
  (if p.depthOnly then [] else
    [r 8 p.featAddr (p.primCount * p.channels * (if p.primKind = 1 then 3 else 1) * elemSize p.featFmt)] ++
    (if p.bgAddr = 0 then [] else [r 16 p.bgAddr (4 * p.channels)]) ++
    (if p.depthTest then [r 48 p.depthAddr (4 * px)] else []) ++
    (if p.bwd then [r 40 p.stateAddr (16 * px), r 120 p.gradPixAddr (4 * px * p.channels)] else []) ++
    (if p.atlasAddr = 0 then [] else
      [r 88 p.atlasAddr (65536 * atlasTiles p), r 96 p.resMapAddr (ceilDiv (atlasTiles p) 8)] ++
      (if p.fallbackAddr = 0 then [] else [r 104 p.fallbackAddr (4 * p.channels)])))

/-- The reader of an input array, by the offset of the field that names it: the stream of that array in a quadrant. What is no input
array (save area, running sums, old gradients, watch record) is read through the first array's stream (log entry 13). -/
def arrayReader (p : RenderParams) (quad off : Nat) : Reader := .array quad (((renderInputs p).findIdx? (·.1 == off)).getD 0)

/-- The quadrant of the raster unit that owns a tile. -/
def tileQuad (p : RenderParams) (t : Nat) : Nat := tileUnit p t / 2

/-- A sample of an atlas: its C values and, of a tile that is not resident, its number. -/
def planSample (s : State) (c quad : Nat) (p : RenderParams) (u v : U32) : Plan (List U32 × List Nat) :=
  let t := texelPlace p (texelAt u p.atlasWidth) (texelAt v p.atlasHeight)
  let n := p.channels
  let z := elemSize p.atlasFmt
  (planRead s c false (arrayReader p quad 96) (p.resMapAddr + t.1 / 8) 1 .go).bind fun mb =>
    if bitOf (leNat mb) (t.1 % 8) then
      (planRead s c false (arrayReader p quad 88) (p.atlasAddr + t.1 * 65536 + t.2) p.texel .go).bind fun b =>
        .go ((List.range n).map fun i => widenElem p.atlasFmt (slice b (i * z) z), [])
    else if p.fallbackAddr = 0 then .go (List.replicate n 0, [t.1])
    else (planRead s c false (arrayReader p quad 104) p.fallbackAddr (4 * n) .go).bind fun b =>
      .go ((List.range n).map fun i => BitVec.ofNat 32 (field b (4 * i) 4), [t.1])

/-! ## Fragments of a tile -/

/-- The features from element first of the feature array. -/
def planFeats (s : State) (c quad : Nat) (p : RenderParams) (first n : Nat) : Plan (List U32) :=
  let z := elemSize p.featFmt
  (planRead s c false (arrayReader p quad 8) (p.featAddr + first * z) (n * z) .go).bind fun b =>
    .go ((List.range n).map fun i => widenElem p.featFmt (slice b (i * z) z))

/-- The depth test of a fragment (R339). -/
def planDepth (s : State) (c quad : Nat) (p : RenderParams) (x y : Nat) (z : U32) : Plan Bool :=
  if !p.depthTest then .go true
  else (planRead s c false (arrayReader p quad 48) (p.depthAddr + 4 * pixelIx p x y) 4 .go).bind fun b => .go (fle z (BitVec.ofNat 32 (leNat b)))

/-- The fragment of a triangle at a pixel, with its sample and its miss. -/
def planTriangle (s : State) (c quad : Nat) (p : RenderParams) (pos : Nat) (r : List Byte) (x y : Nat) : Plan (List Fragment × List Nat) :=
  let o := recW r 9
  match triangleAt r x y with
  | none => .go ([], [])
  | some (b, z) =>
    if !fle p.amin o then .go ([], [])
    else (planDepth s c quad p x y z).bind fun pass =>
      if !pass then .go ([], [])
      else (planFeats s c quad p (3 * pos * p.channels) (3 * p.channels)).bind fun fs =>
        let f := (List.range p.channels).map fun i =>
          interp b [fs.getD i 0, fs.getD (p.channels + i) 0, fs.getD (2 * p.channels + i) 0]
        let mk := fun (feats samp : List U32) => ({
          x := x, y := y, pos := pos, alpha := fmin o p.amax, alphaRaw := o, clamped := flt p.amax o, m := b.getD 0 0,
          b1 := b.getD 1 0, b2 := b.getD 2 0, z := z, dx := 0, dy := 0, gx := 0, gy := 0, opacity := o, em := 0, feats := feats,
          samp := samp } : Fragment)
        if p.atlasAddr = 0 then .go ([mk f (List.replicate p.channels 0x3F800000)], [])
        else
          (planSample s c quad p (interp b [recW r 10, recW r 12, recW r 14]) (interp b [recW r 11, recW r 13, recW r 15])).bind fun sm =>
            .go ([mk ((f.zip sm.1).map fun q => fmul .rn q.1 q.2) sm.1], sm.2)

/-- The fragment of a primitive at a pixel. -/
def planFrag (s : State) (c quad : Nat) (p : RenderParams) (pos : Nat) (r : List Byte) (q : Nat × Nat) : Plan (List Fragment × List Nat) :=
  if p.primKind = 1 then planTriangle s c quad p pos r q.1 q.2
  else match ellipseFrag p pos r q.1 q.2 with
    | none => .go ([], [])
    | some f => (planFeats s c quad p (pos * p.channels) p.channels).bind fun fs => .go ([{ f with feats := fs }], [])

/-- A primitive record read. -/
def planRec (s : State) (c quad : Nat) (p : RenderParams) (pos : Nat) : Plan (List Byte) :=
  planRead s c false (arrayReader p quad 0) (p.primAddr + pos * p.recSize) p.recSize .go

/-- The records of primitives read, each with its position. -/
def planRecs (s : State) (c quad : Nat) (p : RenderParams) (ps : List Nat) : Plan (List (Nat × List Byte)) :=
  planList (fun pos => (planRec s c quad p pos).bind fun r => .go (pos, r)) ps

/-- The fragments of a primitive within a tile, and the tiles of the atlas it missed. -/
def planPrim (s : State) (c : Nat) (p : RenderParams) (t : Nat) (r : Nat × List Byte) : Plan (List Fragment × List Nat) :=
  if isCulled p r.2 then .go ([], [])
  else (planList (planFrag s c (tileQuad p t) p r.1 r.2) (tilePixels p t)).bind fun fs => .go (fs.flatMap (·.1), fs.flatMap (·.2))

/-- The fragments of primitives within a tile, in the primitives' order. -/
def planFrags (s : State) (c : Nat) (p : RenderParams) (t : Nat) (rs : List (Nat × List Byte)) : Plan (List Fragment × List Nat) :=
  (planList (planPrim s c p t) rs).bind fun fs => .go (fs.flatMap (·.1), fs.flatMap (·.2))

/-- The background values. -/
def planBg (s : State) (c quad : Nat) (p : RenderParams) : Plan (List U32) :=
  if p.bgAddr = 0 || p.depthOnly then .go (List.replicate p.channels 0)
  else (planRead s c false (arrayReader p quad 16) p.bgAddr (4 * p.channels) .go).bind fun b =>
    .go ((List.range p.channels).map fun i => BitVec.ofNat 32 (field b (4 * i) 4))

/-! ## Compositing (R341) -/

/-- A fragment composited into a pixel. -/
def compositeStep (floor : U32) (st : PixelState) (f : Fragment) : PixelState :=
  if flt st.t floor then st
  else
    let w := fmul .rn f.alpha st.t
    { t := ffma .rn (fneg f.alpha) st.t st.t, n := st.n + 1, last := f.pos,
      acc := (f.feats.zip st.acc).map fun q => ffma .rn w q.1 q.2,
      wild := (f.feats.zip st.wild).map fun q => q.2 || !isFin q.1 }

/-- A pixel before its first fragment. -/
def pixelStart (channels : Nat) : PixelState := ⟨0x3F800000, 0, 0xFFFFFFFF, List.replicate channels 0, List.replicate channels false⟩

/-- The output features of a pixel that are infinite or NaN although every value added into them was finite (R413). -/
def overflowed (st : PixelState) (bg : List U32) : Nat :=
  if st.n = 0 then 0
  else ((List.range bg.length).filter fun c =>
    !isFin (ffma .rn st.t (bg.getD c 0) (st.acc.getD c 0)) && isFin (bg.getD c 0) && !st.wild.getD c false).length

/-- An output feature of a pixel (R342). -/
def outFeature (st : PixelState) (bg : List U32) (c : Nat) : U32 :=
  if st.n = 0 then bg.getD c 0 else ffma .rn st.t (bg.getD c 0) (st.acc.getD c 0)

/-- The state record of a pixel (Table 10.3). -/
def stateRecord (floor : U32) (st : PixelState) : List Byte :=
  natLe 4 st.t.toNat ++ natLe 4 st.n ++ natLe 4 st.last ++ natLe 4 (bit (flt st.t floor))

/-! ## The reverse walk (R349, R350) -/

/-- dα and dF_c of a fragment, and the pixel after it. -/
def reverseStep (g : List U32) (st : PixelState) (f : Fragment) : U32 × List U32 × PixelState :=
  let q := fsub .rn 0x3F800000 f.alpha
  let tk := fdiv .rn st.t q
  let w := fmul .rn f.alpha tk
  let h := (f.feats.zip st.acc).map fun x => ffma .rn tk x.1 (fneg (fdiv .rn x.2 q))
  let da := (g.zip h).foldl (fun a x => fadd .rn a (fmul .rn x.1 x.2)) 0
  (da, g.map (fmul .rn w), { st with t := tk, n := st.n - 1, acc := (f.feats.zip st.acc).map fun x => ffma .rn w x.1 x.2 })

/-- The feature gradients of a fragment without a kernel: dF_c, or of a triangle those of its three vertices. -/
def featureGrads (p : RenderParams) (f : Fragment) (df : List U32) : List U32 :=
  if p.primKind = 1 then
    [f.m, f.b1, f.b2].flatMap fun b => (df.zip f.samp).map fun x => fmul .rn (fmul .rn x.1 x.2) b
  else df

/-- The contributions of a fragment, j ascending (R350, Table 10.5); fg are its feature gradients. -/
def contribsOf (p : RenderParams) (f : Fragment) (da : U32) (fg : List U32) : List Contribution :=
  let dr := if f.clamped then 0 else da
  let dm := fmul .rn (fmul .rn dr f.alphaRaw) 0xBF000000
  let two := fun (m : U32) (v : U32) => fmul .rn m v
  let shape := if p.primKind = 1 then [dr] else
    [fmul .rn dm (two 0xC0000000 f.gx), fmul .rn dm (two 0xC0000000 f.gy), fmul .rn dm (fmul .rn f.dx f.dx),
     fmul .rn dm (two 0x40000000 (fmul .rn f.dx f.dy)), fmul .rn dm (fmul .rn f.dy f.dy), fmul .rn dr f.em]
  ((shape ++ fg).zipIdx).map fun x => ⟨f.pos * p.gradLen + x.2, x.1⟩

/-! ## Depth only (R339) -/

/-- The depth of each pixel of a tile after triangles, and how many times a depth entered a minimum. -/
def tileDepths (p : RenderParams) (t : Nat) (start : List U32) (rs : List (Nat × List Byte)) : List U32 × Nat :=
  let live := rs.filter fun r => !isCulled p r.2
  let zs := fun (q : Nat × Nat) => (live.filterMap fun r => (triangleAt r.2 q.1 q.2).map (·.2)).filter fun z => !isNan z
  let px := (tilePixels p t).zip start
  (px.map fun x => (zs x.1).foldl fmin x.2, (px.map fun x => (zs x.1).length).sum)

/-! ## Blocks (R359 to R361) -/

/-- The bit width of a number. -/
def bitWidth (n : Nat) : Nat := if n = 0 then 0 else n.log2 + 1

/-- A channel plane encoded (R361). -/
def encodePlane (e : Nat) (v : List Nat) : List Byte :=
  let r := (v.zip (v.drop 1)).map fun x => x.1 ^^^ x.2
  let k := bitWidth (r.foldl max 0)
  natLe 1 k ++ natLe e (v.headD 0) ++ natLe (ceilDiv (63 * k) 8) ((r.zipIdx.map fun x => x.1 * 2 ^ (k * x.2)).sum)

/-- The code and the bytes written of a block whose planes hold values; clear: no pixel of it has a fragment. -/
def encodeBlock (compress clear : Bool) (e : Nat) (planes : List (List Nat)) : Nat × List Byte :=
  if clear then (0, [])
  else
    let raw := (planes.flatMap fun v => v.flatMap (natLe e))
    let enc := planes.flatMap (encodePlane e)
    let k := ceilDiv (8 * enc.length) raw.length
    if compress && k ≤ 7 then (k + 1, enc ++ List.replicate (k * raw.length / 8 - enc.length) 0) else (1, raw)

/-- Blocks across and down. -/
def blocksAcross (p : RenderParams) : Nat := ceilDiv p.width 8
def blockCount (p : RenderParams) : Nat := blocksAcross p * ceilDiv p.height 8

/-- The raw size of a block. -/
def rawSize (p : RenderParams) : Nat := 64 * p.channels * elemSize p.targetFmt

/-- The blocks of a tile within the frame: their numbers with their first pixels. -/
def tileBlocks (p : RenderParams) (t : Nat) : List (Nat × Nat × Nat) :=
  let x0 := 2 * (t % tilesAcross p)
  let y0 := 2 * (t / tilesAcross p)
  ([(0, 0), (1, 0), (0, 1), (1, 1)].map fun d => (x0 + d.1, y0 + d.2)).filterMap fun b =>
    if b.1 < blocksAcross p && b.2 < ceilDiv p.height 8 then some (b.2 * blocksAcross p + b.1, 8 * b.1, 8 * b.2) else none

/-- A block of a composited tile: px gives the state of a pixel within the frame. -/
def blockOf (p : RenderParams) (bg : List U32) (px : Nat → Nat → Option PixelState) (x0 y0 : Nat) : Nat × List Byte :=
  let sts := (List.range 64).map fun i => (px (x0 + i % 8) (y0 + i / 8)).getD (pixelStart p.channels)
  let plane := fun c => sts.map fun st => leNat (narrowElem p.targetFmt (outFeature st bg c))
  encodeBlock p.compress (sts.all (·.n == 0)) (elemSize p.targetFmt) ((List.range p.channels).map plane)

end Sys2Proof.Machine
end

