-- ==== Sys2Proof/Machine/Scatter.lean ====
section
/-! DEFINITION. SCATTER (R316 to R323) and the underflow watch (R325 to R328): ordered sums, element updates, the watch record. -/
namespace Sys2Proof.Machine

/-! ## Sums and updates, shared with RENDER_BWD (R352) -/

/-- The sum of an element's contributions in their order (R320): a starts as the first, a = RN32(a + v). -/
def sumContrib : List U32 → U32
  | [] => 0
  | a :: r => r.foldl (fadd .rn) a

/-- Contributions (element, value) in order, gathered by element, elements ascending. -/
def gather (cs : List (Nat × U32)) : List (Nat × List U32) :=
  cs.foldl (fun m c => smPut m c.1 ((smGet [] m c.1) ++ [c.2])) []

/-- An element update (R321): its new bytes, its new carry, what the watch counts of it (R325), and whether a final FP32 value is
infinite or NaN although every value added into it was finite (R413). -/
structure Update where
  bytes     : List Byte
  carry     : List Byte
  zeroEffect : Bool
  nonfinite : Bool
  overflow  : Bool
  deriving DecidableEq, Repr

/-- The update of an element of format fmt (0 FP32, 1 BF16) that reads old, by contributions vs, with carry element c when one is
in use (R321). -/
def updateElem (fmt : Nat) (old : List Byte) (c : Option U32) (vs : List U32) : Update :=
  let x := widenElem fmt old
  let a := sumContrib vs
  let u := match c with | some c => fadd .rn a c | none => a
  let t := fadd .rn x u
  let bytes := narrowElem fmt t
  let y := widenElem fmt bytes
  let r := if !isFin y then 0 else if fmt = 0 then ofFx .rn (fx x + fx u - fx t) 149 false else fadd .rn t (fneg y)
  { bytes := bytes, carry := natLe 2 (toBf16 r).toNat, zeroEffect := !isZero u && !isNan u && bytes == old,
    nonfinite := !isFin y && isFin x, overflow := !isFin t && isFin x && vs.all isFin && c.all isFin }

/-- The watch record after a pass (R326, R327), and whether SILENT_TENSOR is posted. -/
def watchStep (rec : List Byte) (updated noEffect nonfin dropped frac passes : Nat) : List Byte × Bool :=
  let f := if frac = 0 then 128 else frac
  let p := if passes = 0 then 64 else passes
  let sat := fun (a : Nat) => min a 0xFFFFFFFF
  let counted := decide (updated > 0)
  let run := if !counted then field rec 0 4 else if f * updated < noEffect * 256 then field rec 0 4 + 1 else 0
  let post := counted && decide (p ≤ run)
  (natLe 4 (if post then 0 else run) ++ natLe 4 (if counted then sat (field rec 4 4 + 1) else field rec 4 4) ++
   natLe 8 (if counted then updated else field rec 8 8) ++ natLe 8 (if counted then noEffect else field rec 16 8) ++
   natLe 4 (sat (field rec 24 4 + nonfin)) ++ natLe 4 (sat (field rec 28 4 + dropped)), post)

/-- The payload of SILENT_TENSOR (Table 13.14). -/
def silentPayload (addr : Nat) (rec : List Byte) : List Byte := layout 16 [(8, 8, addr)] ++ slice rec 0 32

/-! ## Parameters and checks -/

/-- The SCATTER block (Tables 9.5 and 13.10). -/
structure ScatterParams where
  indexAddr : Nat
  valueAddr : Nat
  targetAddr : Nat
  carryAddr : Nat
  watchAddr : Nat
  scratchAddr : Nat
  scratchSize : Nat
  targetCount : Nat
  count : Nat
  indexWidth : Nat
  valueFmt : Nat
  targetFmt : Nat
  carry : Bool
  watch : Bool
  frac : Nat
  passes : Nat
  deriving DecidableEq, Repr

/-- The SCATTER block read. -/
def parseScatter (b : List Byte) : ScatterParams :=
  let w := fun i => field b (8 * i) 8
  let g := field b 68 1
  { indexAddr := w 0, valueAddr := w 1, targetAddr := w 2, carryAddr := w 3, watchAddr := w 4, scratchAddr := w 5, scratchSize := w 6,
    targetCount := w 7, count := field b 64 4, indexWidth := bitsOf g 1 0, valueFmt := bitsOf g 3 2, targetFmt := bitsOf g 4 4,
    carry := bitOf g 5, watch := !bitOf g 6, frac := field b 69 1, passes := field b 70 2 }

/-- The bytes of an index. -/
def ScatterParams.width (p : ScatterParams) : Nat := if p.indexWidth = 1 then 8 else 4

/-- The ranges that a SCATTER writes, with the offsets of their fields (R317). -/
def ScatterParams.outputs (p : ScatterParams) : List (Nat × Bool × Nat × Nat) :=
  [(16, false, p.targetAddr, p.targetCount * elemSize p.targetFmt)] ++
  (if p.carry then [(24, false, p.carryAddr, 2 * p.targetCount)] else []) ++
  (if p.watch then [(32, false, p.watchAddr, 32)] else []) ++ [(40, false, p.scratchAddr, p.scratchSize)]

/-- The arrays that a SCATTER reads. -/
def ScatterParams.inputs (p : ScatterParams) : List (Nat × Bool × Nat × Nat) :=
  [(0, false, p.indexAddr, p.count * p.width), (8, false, p.valueAddr, p.count * elemSize p.valueFmt)]

/-- The checks of R451 and R317, in order. -/
def scatterChecks (f : Fetched) (p : ScatterParams) : List (Bool × Deny) :=
  let b := f.block
  let ovl := firstOverlap p.outputs [] p.inputs
  [(p.valueFmt = 3 || bitOf (field b 68 1) 7, denyBlock f stDesc 68),
   (!zeroAt b [(72, 56)], denyBlock f stDesc (firstNonzero b [(72, 56)])), (2 ≤ p.indexWidth, denyBlock f stDesc 68),
   (p.scratchSize < 32 * p.count, denyBlock f stDesc 48),
   (p.watch && (p.watchAddr = 0 || p.watchAddr % 32 != 0), denyBlock f stDesc 32), (ovl.isSome, denyBlock f stDesc (ovl.getD 0))]

/-! ## The pass -/

/-- What a SCATTER is to write: elements with their updates, the watch record and whether it posts, the contributions discarded. -/
structure ScatterOut where
  elems   : List (Nat × Update)
  record  : List Byte
  post    : Bool
  dropped : Nat
  deriving DecidableEq, Repr

/-- The contributions of a SCATTER in array order (R319, R320): those kept, and the number discarded. -/
def contributions (p : ScatterParams) (ib vb : List Byte) : List (Nat × U32) × Nat :=
  let w := p.width
  let z := elemSize p.valueFmt
  let cs := (List.range p.count).map fun n => (field ib (n * w) w, widenElem p.valueFmt (slice vb (n * z) z))
  let kept := cs.filter fun c => c.1 < p.targetCount
  (kept, cs.length - kept.length)

/-- One element updated: its old value and its carry read (R321 to R323). -/
def planElem (s : State) (c : Nat) (p : ScatterParams) (e : Nat × List U32) : Plan (Nat × Update) :=
  let z := elemSize p.targetFmt
  (planRead s c false (.array (e.1 % 4) 2) (p.targetAddr + e.1 * z) z .go).bind fun old =>
    (planRead s c false (.array (e.1 % 4) 3) (p.carryAddr + 2 * e.1) (if p.carry then 2 else 0) .go).bind fun cb =>
      .go (e.1, updateElem p.targetFmt old (if p.carry then some (ofBf16 (BitVec.ofNat 16 (leNat cb))) else none) e.2)

/-- How many elements of a list satisfy a test. -/
def countIf {α : Type} (t : α → Bool) (l : List α) : Nat := (l.filter t).length

/-- What the admission of a SCATTER finds; with no contribution it reads nothing (R318). -/
def planScatter (s : State) (c : Nat) (f : Fetched) : Plan (ScatterParams × ScatterOut) :=
  let p := parseScatter f.block
  (planCheck (scatterChecks f p)).bind fun _ =>
    if p.count = 0 then .go (p, ⟨[], [], false, 0⟩)
    else
      (planRead s c false (.array 0 0) p.indexAddr (p.count * p.width) .go).bind fun ib =>
        (planRead s c false (.array 0 1) p.valueAddr (p.count * elemSize p.valueFmt) .go).bind fun vb =>
          let k := contributions p ib vb
          (planList (planElem s c p) (gather k.1)).bind fun es =>
            (planRead s c false (.array 0 0) p.watchAddr (if p.watch then 32 else 0) .go).bind fun wb =>
              let r := watchStep wb es.length (countIf (·.2.zeroEffect) es) (countIf (·.2.nonfinite) es) k.2 p.frac p.passes
              .go (p, ⟨es, if p.watch then r.1 else [], p.watch && r.2, k.2⟩)

/-- A SCATTER admitted: its targets and carries are written, then the watch record (R328). -/
def scatterGo (s : State) (slot : Nat) (x : ScatterParams × ScatterOut) : State :=
  let p := x.1
  let o := x.2
  match passOf s slot with
  | none => s
  | some q =>
    if p.count = 0 then modPass s slot fun q => { q with status := some stOk }
    else
      let s := scratchUse s q.ctx p.scratchAddr p.scratchSize
      let s := passWrites s slot (o.elems.map fun e => (p.targetAddr + e.1 * elemSize p.targetFmt, e.2.bytes))
      let s := if p.carry then passWrites s slot (o.elems.map fun e => (p.carryAddr + 2 * e.1, e.2.carry)) else s
      let n := countIf (·.2.overflow) o.elems
      let s := if n = 0 then s else countCtx s q.ctx 0 n
      modPass s slot fun q =>
        { q with status := some stOk, degrade := { q.degrade with input := q.degrade.input || decide (0 < o.dropped) },
                 lastWrites := if p.watch then [(p.watchAddr, o.record)] else [],
                 preEvents := if o.post then [(evSilent, silentPayload p.watchAddr o.record)] else [],
                 detail0 := BitVec.ofNat 64 o.elems.length, detail1 := BitVec.ofNat 64 (countIf (·.2.zeroEffect) o.elems),
                 detail2 := BitVec.ofNat 64 o.dropped }

/-- SCATTER (R316). -/
def execScatter (ctx : BitVec 12) (ring : BitVec 4) (s : State) : Host.Outcome State Fault Refusal :=
  .next (admitWith s ctx.toNat ring.toNat (isOp opScatter) (fun s _ f => (planScatter s ctx.toNat f).refusal) fun s f =>
    admitPlan s ctx.toNat ring.toNat f .plain 4 (planScatter s ctx.toNat f) scatterGo)

end Sys2Proof.Machine
end

