-- ==== Sys2Proof/Machine/Render.lean ====
section
/-! DEFINITION. RENDER_FWD and RENDER_BWD (R330 to R332, R352 to R358, R364): admission, organisation, binning and overflow, tiles,
the end of a pass; the commands PRIMITIVE_BIN and TILE_START. -/
namespace Sys2Proof.Machine

/-! ## Admission -/

/-- The save area of a frame (R357), and the record of one tile. -/
def saveRecord (p : RenderParams) : Nat := 64 + 256 * (16 + 4 * p.channels)
def saveRule (p : RenderParams) : Nat := tileCount p * saveRecord p

/-- Whether a pass has nothing to do (R332). -/
def emptyRender (p : RenderParams) : Bool := p.primCount == 0 || p.width == 0 || p.height == 0

/-- The reduction space of a reverse pass (R352). -/
def scratchRule (p : RenderParams) : Nat := 4 * p.primCount * p.gradLen + ceilDiv (p.primCount * p.gradLen) 8

/-- The ranges that a pass writes, with the offsets of the fields that name them (R331). -/
def renderOutputs (p : RenderParams) : List (Nat × Bool × Nat × Nat) :=
  let px := p.width * p.height
  let r := fun (o a n : Nat) => (o, false, a, n)
  (if p.bwd then
    [r 128 p.gradPrimAddr (4 * p.primCount * p.gradLen), r 136 p.scratchAddr (scratchRule p)] ++
      (if p.watchDisable then [] else [r 152 p.watchAddr 32])
  else if p.depthOnly then [r 48 p.depthAddr (4 * px)]
  else [r 24 p.targetAddr (blockCount p * rawSize p), r 32 p.metaAddr (ceilDiv (blockCount p) 2), r 40 p.stateAddr (16 * px)]) ++
  (if p.atlasAddr != 0 && !p.depthOnly then [r 112 p.missAddr (16 + 4 * p.missCapacity)] else [])

/-- Parameters that the other of the two passes reads and this one does not (R330), with their offsets. -/
def foreignFields (p : RenderParams) : List (Bool × Nat) :=
  if p.bwd then
    [(p.targetAddr != 0, 24), (p.metaAddr != 0, 32), (p.mode != 0, 198), (p.compress, 198), (p.targetFmt != 0, 199)]
  else
    [(p.gradPixAddr != 0, 120), (p.gradPrimAddr != 0, 128), (p.scratchAddr != 0, 136), (p.scratchSize != 0, 144),
     (p.watchAddr != 0, 152), (p.accumulate, 199), (p.watchDisable, 199), (p.watchFrac != 0, 200), (p.watchPasses != 0, 202)]

/-- The checks of R330 and R331 up to the shader image. -/
def renderChecks (s : State) (f : Fetched) (p : RenderParams) : List (Bool × Deny) :=
  let b := f.block
  let d := fun o => denyBlock f stDesc o
  let ell := p.primKind = 0
  [(!zeroAt b [(201, 1), (204, 52)], d (firstNonzero b [(201, 1), (204, 52)]))] ++
  ((foreignFields p).map fun x => (x.1, d x.2)) ++
  [(2 ≤ p.primKind || 2 ≤ p.mode || p.organisation = 3, d 198), (p.featFmt = 3 || p.targetFmt = 3 || p.atlasFmt = 3, d 199),
   (p.channels = 0 || 64 < p.channels, d 196), (16384 < p.width, d 164), (16384 < p.height, d 166), (ell && p.mode = 1, d 198),
   (ell && p.depthTest, d 198), (ell && p.atlasAddr != 0, d 88), (!(flt 0 p.amin && flt p.amin 0x3F800000), d 180),
   (!(fle p.amin p.amax && fle p.amax 0x3F7D70A4), d 184), (!(fle 0 p.tFloor && fle p.tFloor 0x3F800000), d 188),
   (p.organisation = 0 && tileMib s = 0, d 198), (p.organisation = 0 && p.saveSize < saveRule p, d 64)]

/-- The checks of R331 that follow the shader image; an empty pass uses no range (R332). -/
def renderLater (f : Fetched) (p : RenderParams) : List (Bool × Deny) :=
  let d := fun o => denyBlock f stDesc o
  let at_ := atlasTile p.texel
  let dim := at_.getD (1, 1)
  let ovl := firstOverlap (renderOutputs p) [] (renderInputs p)
  [(p.atlasAddr != 0 && at_.isNone, d 199), (p.atlasAddr != 0 && p.atlasWidth % dim.1 != 0, d 168),
   (p.atlasAddr != 0 && p.atlasHeight % dim.2 != 0, d 172), (p.bwd && p.scratchSize < scratchRule p, d 144),
   (p.bwd && !p.watchDisable && (p.watchAddr = 0 || p.watchAddr % 32 != 0), d 152), (!emptyRender p && ovl.isSome, d (ovl.getD 0))]

/-- Whether the pass names a shader image and has a fragment to send to it. -/
def hasShader (p : RenderParams) : Bool := p.shaderAddr != 0 && !emptyRender p

/-- The conditions of R331 on the header of the shader image. -/
def planShaderHead (s : State) (c : Nat) (p : RenderParams) : Plan Unit :=
  let a := p.shaderAddr
  if !hasShader p then .go ()
  else (planRead s c false (.array 0 0) a 128 .go).bind fun h =>
    let i := parseImage a h []
    planCheck [(!i.shader, ⟨stDesc, 2, 20, a⟩),
      (4096 * i.lsHerd < i.groups * packetSize i.width (packetValues p), ⟨stDesc, 2, 4, a⟩)]

/-- The shader image of a pass with its argument words; the checks of R229, R256 and R467 (R331, R346). -/
def planShader (s : State) (c : Nat) (f : Fetched) (p : RenderParams) : Plan (Option Image × List U64) :=
  let a := p.shaderAddr
  if !hasShader p then .go (none, [])
  else match loadImage s c a 0 (denyBlock f stDesc 72) with
    | .fault r => (match r.xlate with | some x => .xlate (.array 0 0) x | none => .poison 0 (.array 0 0) (r.bad.getD a))
    | .deny e => .deny e
    | .ok i =>
      (planCheck [(i.timeBound == 0xFFFFFFFF && (dClass f.desc = 1 || dClass f.desc = 3), denyField f stDesc 1)]).bind fun _ =>
        (planRead s c false (.array 0 0) p.shaderArgs (8 * i.argSregs) .go).bind fun b => .go (some i, wordsOf b i.argSregs)

/-- The tiles owned by a raster unit. -/
def ownedTiles (p : RenderParams) (u : Nat) : Nat := ((List.range (tileCount p)).filter fun t => tileUnit p t == u).length

/-- The sweeps of a DIRECT pass (R354). -/
def directSweeps (p : RenderParams) : Nat := ceilDiv (((List.range 8).map (ownedTiles p)).foldl max 0) 16

/-- Whether a pass runs TILED (R355). -/
def isTiled (s : State) (p : RenderParams) : Bool :=
  if p.organisation != 2 then p.organisation == 0
  else
    let k : Int := 62 * ((tileMib s * 4096 : Nat) - (ceilDiv (8 * tileCount p) 256 : Nat) : Int)
    let hint := if p.tilesHint = 0 then 4 else p.tilesHint
    !(p.depthOnly || tileMib s = 0 || p.saveSize < saveRule p || k ≤ 0 || directSweeps p ≤ ceilDiv (p.primCount * hint) k.toNat)

/-- What the admission of a render pass finds: its shader and the shader's arguments. -/
def planRender (s : State) (c : Nat) (bwd : Bool) (f : Fetched) : Plan (Option Image × List U64) :=
  let p := parseRender f.block bwd
  (planCheck (renderChecks s f p)).bind fun _ =>
    (planShaderHead s c p).bind fun _ => (planCheck (renderLater f p)).bind fun _ => planShader s c f p

/-- A render pass admitted, nothing binned. -/
def newRender (s : State) (p : RenderParams) (shader : Option Image) (args : List U64) : RenderBody :=
  { par := p, tiled := isTiled s p, tilesX := tilesAcross p, tilesY := tilesDown p, cursor := 0, binned := 0, lists := [], overflowing := false,
    saved := [], done := [], culled := 0, overflows := 0, frags := 0, misses := [], shader := if p.depthOnly then none else shader, args := args,
    packets := [], asked := [], herds := 0, contribs := [], reduced := 0, wilds := [], codes := [] }

/-- Where the touched flags of the running sums lie in the scratch space: after the N × P sums (R352, log entry 90). -/
def flagBase (p : RenderParams) : Nat := p.scratchAddr + 4 * p.primCount * p.gradLen

/-- A render pass admitted; an empty one is done (R332). A reverse pass clears the touched flags of its running sums. -/
def renderGo (bwd : Bool) (f : Fetched) (s : State) (slot : Nat) (x : Option Image × List U64) : State :=
  let p := parseRender f.block bwd
  match passOf s slot with
  | none => s
  | some q =>
    if emptyRender p then modPass s slot fun q => { q with status := some stOk }
    else
      let s := if bwd then scratchUse s q.ctx p.scratchAddr p.scratchSize else s
      let s := if bwd then passWrite s slot (flagBase p) (List.replicate (ceilDiv (p.primCount * p.gradLen) 8) 0) else s
      let b := newRender s p x.1 x.2
      modPass s slot fun q => { q with body := .render b }

/-- The input arrays that a render pass opens a stream for: an empty pass reads none. -/
def renderArrays (bwd : Bool) (f : Fetched) : Nat :=
  let p := parseRender f.block bwd
  if emptyRender p then 0 else (renderInputs p).length

/-- RENDER_FWD (R330). -/
def execRenderFwd (ctx : BitVec 12) (ring : BitVec 4) (s : State) : Host.Outcome State Fault Refusal :=
  .next (admitWith s ctx.toNat ring.toNat (isOp opRenderFwd) (fun s _ f => (planRender s ctx.toNat false f).refusal) fun s f =>
    admitPlan s ctx.toNat ring.toNat f .plain (renderArrays false f) (planRender s ctx.toNat false f) (renderGo false f))

/-- RENDER_BWD (R330). -/
def execRenderBwd (ctx : BitVec 12) (ring : BitVec 4) (s : State) : Host.Outcome State Fault Refusal :=
  .next (admitWith s ctx.toNat ring.toNat (isOp opRenderBwd) (fun s _ f => (planRender s ctx.toNat true f).refusal) fun s f =>
    admitPlan s ctx.toNat ring.toNat f .plain (renderArrays true f) (planRender s ctx.toNat true f) (renderGo true f))

/-! ## The body of a pass at work -/

/-- The render body of a pass that is at work. -/
def renderOf (s : State) (slot : Nat) : Option (Pass × RenderBody) :=
  match passOf s slot with
  | some p => (match p.body with
    | .render b => if p.status.isNone && p.cancelAt.isNone then some (p, b) else none
    | _ => none)
  | none => none

/-- The state with the render body of a pass set. -/
def setRender (s : State) (slot : Nat) (b : RenderBody) : State := modPass s slot fun p => { p with body := .render b }

/-- The primitives of a pass that a tile composites, in walking order: its list, or the whole stream. -/
def tilePrims (b : RenderBody) (t : Nat) : List Nat :=
  if b.tiled then smGet [] b.lists t
  else if b.par.bwd then (List.range b.par.primCount).reverse else List.range b.par.primCount

/-- Misses added to a pass. -/
def addMisses (b : RenderBody) (ms : List Nat) : RenderBody := { b with misses := ms.foldl setAdd b.misses }

/-! ## One tile -/

/-- What compositing a tile leaves: its pixels, its contributions, and what it counts. -/
structure TileOut where
  states   : List PixelState
  contribs : List Contribution
  entered  : Nat
  deriving DecidableEq, Repr

/-- The state of a pixel at the start of a reverse pass (R349). -/
def planReverse (s : State) (c quad : Nat) (p : RenderParams) (bg : List U32) (q : Nat × Nat) : Plan PixelState :=
  (planRead s c false (arrayReader p quad 40) (p.stateAddr + 16 * pixelIx p q.1 q.2) 16 .go).bind fun r =>
    let t : U32 := BitVec.ofNat 32 (field r 0 4)
    .go ⟨t, field r 4 4, field r 8 4, bg.map (fmul .rn t), List.replicate p.channels false⟩

/-- The save record of a tile (R356, R357): its cursor in bytes 0–3, then of each pixel T, n, last position and F_c or B_c (log
entry 90). -/
def saveBytes (p : RenderParams) (cursor : Nat) (l : List PixelState) : List Byte :=
  natLe 4 cursor ++ List.replicate 60 0 ++
  l.flatMap fun x => natLe 4 x.t.toNat ++ natLe 4 x.n ++ natLe 4 x.last ++ natLe 4 0 ++
    (List.range p.channels).flatMap fun i => natLe 4 (x.acc.getD i 0).toNat

/-- Where the save record of a tile lies. -/
def saveAt (p : RenderParams) (t : Nat) : Nat := p.saveAddr + t * saveRecord p

/-- The pixels that a save record holds, with the wild marks kept beside it; a depth-only pass keeps no features. -/
def savedPixels (p : RenderParams) (b : List Byte) (wild : List (List Bool)) : List PixelState :=
  wild.zipIdx.map fun w =>
    let o := 64 + w.2 * (16 + 4 * p.channels)
    ⟨BitVec.ofNat 32 (field b o 4), field b (o + 4) 4, field b (o + 8) 4,
     if p.depthOnly then [] else (List.range p.channels).map fun i => BitVec.ofNat 32 (field b (o + 16 + 4 * i) 4), w.1⟩

/-- The pixels of a tile as its compositing finds them: reloaded from the save area, or fresh. -/
def planStart (s : State) (c : Nat) (b : RenderBody) (bg : List U32) (t : Nat) : Plan (List PixelState) :=
  let p := b.par
  match smFind b.saved t with
  | some w => (planRead s c false (arrayReader p (tileQuad p t) 0) (saveAt p t) (saveRecord p) .go).bind fun r =>
      .go (savedPixels p r w)
  | none =>
    let px := tilePixels p t
    if p.bwd then planList (planReverse s c (tileQuad p t) p bg) px
    else if p.depthOnly then .go (px.map fun _ => ⟨p.depthClear, 0, 0xFFFFFFFF, [], []⟩)
    else .go (px.map fun _ => pixelStart p.channels)

/-- The gradients G_c of a pixel (R349). -/
def planGrad (s : State) (c quad : Nat) (p : RenderParams) (q : Nat × Nat) : Plan (List U32) :=
  (planRead s c false (arrayReader p quad 120) (p.gradPixAddr + 4 * (pixelIx p q.1 q.2 * p.channels)) (4 * p.channels) .go).bind fun r =>
    .go ((List.range p.channels).map fun i => BitVec.ofNat 32 (field r (4 * i) 4))

/-- The reverse walk of a pixel over its fragments, highest position first: what it contributes and how it is left; of each fragment
walked its dα and dF_c. -/
def walkPixel (g : List U32) (st : PixelState) (fs : List (Fragment × Option (List U32))) :
    List (Fragment × Option (List U32) × U32 × List U32) × PixelState :=
  fs.foldl (fun (t : List (Fragment × Option (List U32) × U32 × List U32) × PixelState) f =>
    if t.2.n = 0 || t.2.last < f.1.pos then t
    else
      let r := reverseStep g t.2 f.1
      (t.1 ++ [(f.1, f.2, r.1, r.2.1)], r.2.2)) ([], st)

/-- One pixel of a reverse pass. -/
def planWalk (s : State) (c quad : Nat) (p : RenderParams) (frs : List (Fragment × Option (List U32)))
    (x : (Nat × Nat) × PixelState) : Plan (List (Fragment × Option (List U32) × U32 × List U32) × PixelState) :=
  if x.2.n = 0 then .go ([], x.2)
  else (planGrad s c quad p x.1).bind fun g => .go (walkPixel g x.2 (frs.filter fun f => f.1.x == x.1.1 && f.1.y == x.1.2))

/-- A tile composited over fragments in walking order, each with the values its kernel gave when there is one; rs are the records of a
depth-only pass. -/
def workTile (s : State) (c : Nat) (b : RenderBody) (t : Nat) (rs : List (Nat × List Byte)) (frs : List (Fragment × Option (List U32))) :
    Plan TileOut :=
  let p := b.par
  let quad := tileQuad p t
  (planBg s c quad p).bind fun bg =>
    (planStart s c b bg t).bind fun start =>
      if p.depthOnly then
        let r := tileDepths p t (start.map (·.t)) rs
        .go ⟨(start.zip r.1).map fun x => { x.1 with t := x.2 }, [], r.2⟩
      else if p.bwd then
        (planList (planWalk s c quad p frs) ((tilePixels p t).zip start)).bind fun r =>
          let out := r.flatMap fun x => x.1.flatMap fun w =>
            contribsOf p w.1 w.2.2.1 (w.2.1.getD (featureGrads p w.1 w.2.2.2))
          .go ⟨r.map (·.2), out, 0⟩
      else
        let shaded := frs.map fun f => match f.2 with | some v => { f.1 with feats := v } | none => f.1
        let one := fun (x : (Nat × Nat) × PixelState) =>
          (shaded.filter fun f => f.x == x.1.1 && f.y == x.1.2).foldl (compositeStep p.tFloor) x.2
        .go ⟨((tilePixels p t).zip start).map one, [], 0⟩

/-! ## Fragment packets (R345, R346) -/

/-- What is known of a fragment and its pixel when its reverse packet is formed. -/
def fragKey (f : Fragment) (st : PixelState) : List Nat :=
  [f.x, f.y, f.pos, f.alpha.toNat, f.m.toNat, f.z.toNat, st.t.toNat, st.n, st.last] ++ st.acc.map (·.toNat)

/-- The values that the fragments of a tile carry into a kernel: their features, or in a reverse pass dF_c; where the walk does not reach
a fragment the manual gives none, and they are free (log entry 24). -/
def planEntry (s : State) (c : Nat) (b : RenderBody) (t : Nat) (fs : List Fragment) : Plan (List (List U32)) :=
  let p := b.par
  let quad := tileQuad p t
  if !p.bwd then .go (fs.map (·.feats))
  else (planBg s c quad p).bind fun bg =>
    (planStart s c b bg t).bind fun start =>
      let px := (tilePixels p t).zip start
      (planList (planWalk s c quad p (fs.map (·, none))) px).bind fun r =>
        let w := r.flatMap (·.1)
        let dead := fun (f : Fragment) =>
          let st := ((px.find? fun x => x.1 == (f.x, f.y)).map (·.2)).getD (pixelStart p.channels)
          (List.range p.channels).map (Config.deadGrad (fragKey f st))
        .go (fs.map fun f => match w.find? fun x => x.1 == f with | some x => x.2.2.2 | none => dead f)

/-- The packets of a tile: up to w fragments each, in walking order. -/
def packetsOf (t w : Nat) (fs : List (Fragment × List U32)) : List Packet :=
  (chunks w (fs.length + 1) fs).map fun l => ⟨t, l.map (·.1), l.map (·.2), 0⟩

/-- The records that tiles need read: of a TILED pass those of each tile's list, of a DIRECT pass the whole stream once for all of them
(R354). -/
def planStream (s : State) (c : Nat) (b : RenderBody) (ts : List Nat) : Plan (List (Nat × List (Nat × List Byte))) :=
  let p := b.par
  if b.tiled then planList (fun t => (planRecs s c (tileQuad p t) p (tilePrims b t)).bind fun rs => .go (t, rs)) ts
  else (planRecs s c (tileQuad p (ts.headD 0)) p (tilePrims b 0)).bind fun rs => .go (ts.map (·, rs))

/-- The fragments of a tile with the values that go to the kernel, and the atlas tiles missed. -/
def planAsk (s : State) (c : Nat) (b : RenderBody) (x : Nat × List (Nat × List Byte)) : Plan (Nat × List (Fragment × List U32) × List Nat) :=
  (planFrags s c b.par x.1 x.2).bind fun fm =>
    (planEntry s c b x.1 fm.1).bind fun vs => .go (x.1, fm.1.zip vs, fm.2)

/-- A pass with the packets of a tile formed. -/
def addPackets (w : Nat) (b : RenderBody) (x : Nat × List (Fragment × List U32) × List Nat) : RenderBody :=
  addMisses { b with packets := b.packets ++ packetsOf x.1 w x.2.1, asked := setAdd b.asked x.1 } x.2.2

/-- The packets of tiles formed. -/
def askTiles (s : State) (p : Pass) (b : RenderBody) (i : Image) (ts : List Nat) : State :=
  onPlan s p ((planStream s p.ctx b ts).bind (planList (planAsk s p.ctx b))) fun s xs =>
    setRender s p.slot (xs.foldl (addPackets i.width) b)

/-- Whether every packet of a tile has been read back. -/
def tileBack (b : RenderBody) (t : Nat) : Bool := t ∈ b.asked && b.packets.all fun k => k.tile != t || 2 ≤ k.state

/-- The fragments of a tile with the values its kernel returned. -/
def tileValues (b : RenderBody) (t : Nat) : List (Fragment × Option (List U32)) :=
  (b.packets.filter fun k => k.tile == t && k.state == 2).flatMap fun k => k.frags.zip (k.vals.map some)

/-- A pass past the packets of a tile. -/
def usePackets (b : RenderBody) (t : Nat) : RenderBody :=
  { b with asked := setDel b.asked t,
           packets := b.packets.map fun k => if k.tile = t && k.state = 2 then { k with frags := [], vals := [], state := 3 } else k }

/-- One tile's compositing: the atlas tiles it missed, and what it leaves. -/
def planTile (s : State) (c : Nat) (b : RenderBody) (x : Nat × List (Nat × List Byte)) : Plan (Nat × List Nat × TileOut) :=
  if b.shader.isSome then (workTile s c b x.1 [] (tileValues b x.1)).bind fun o => .go (x.1, [], o)
  else if b.par.depthOnly then (workTile s c b x.1 x.2 []).bind fun o => .go (x.1, [], o)
  else (planFrags s c b.par x.1 x.2).bind fun fm =>
    (workTile s c b x.1 [] (fm.1.map (·, none))).bind fun o => .go (x.1, fm.2, o)

/-- Tiles composited, their misses noted and their packets used; each is then k's. -/
def composeTiles (s : State) (p : Pass) (b : RenderBody) (ts : List Nat) (k : State → Nat → TileOut → State) : State :=
  let recs := if b.shader.isSome then .go (ts.map (·, [])) else planStream s p.ctx b ts
  onPlan s p (recs.bind (planList (planTile s p.ctx b))) fun s xs =>
    xs.foldl (fun s x => match renderOf s p.slot with
      | some (_, b) => k (setRender s p.slot (usePackets (addMisses b x.2.1) x.1)) x.1 x.2.2
      | none => s) s

/-! ## The end of a pass -/

/-- The block metadata of a target (R359). -/
def metaBytes (b : RenderBody) : List Byte :=
  (List.range (ceilDiv (blockCount b.par) 2)).map fun i =>
    BitVec.ofNat 8 (smGet 0 b.codes (2 * i) + 16 * smGet 0 b.codes (2 * i + 1))

/-- The miss list (R364). -/
def missWrites (p : Pass) (b : RenderBody) : List (Nat × List Byte) :=
  let n := min b.misses.length b.par.missCapacity
  [(b.par.missAddr, natLe 4 b.misses.length ++ natLe 4 n ++ natLe 4 p.passId.toNat ++ natLe 4 0)] ++
  ((b.misses.take n).zipIdx.map fun m => (b.par.missAddr + 16 + 4 * m.2, natLe 4 m.1))

/-- The miss list written and RESIDENCY_MISS noted (R364). -/
def reportMisses (s : State) (p : Pass) (b : RenderBody) : State :=
  if b.par.atlasAddr = 0 || b.par.depthOnly then s
  else
    let s := passWrites s p.slot (missWrites p b)
    if b.misses.isEmpty then s
    else modPass s p.slot fun q => { q with preEvents := q.preEvents ++
      [(evResidency, layout 48 [(0, 4, b.misses.length), (4, 4, min b.misses.length b.par.missCapacity)])] }

/-- The details that both passes report (Table 13.12). -/
def renderDetail (b : RenderBody) (last : Nat) (q : Pass) : Pass :=
  { q with detail0 := BitVec.ofNat 64 b.culled, detail1 := BitVec.ofNat 64 (b.overflows % 2 ^ 32 + 2 ^ 32 * bit (!b.tiled)),
           detail2 := BitVec.ofNat 64 last }

/-- The save area after its use: its contents are no output (R357, log entry 22). -/
def dropSaved (s : State) (p : Pass) (b : RenderBody) : State :=
  if b.overflows = 0 then s else scratchUse s p.ctx b.par.saveAddr (saveRule b.par)

/-- A forward pass whose tiles are all done. -/
def finishForward (s : State) (p : Pass) (b : RenderBody) : State :=
  let s := dropSaved s p b
  let s := if b.par.depthOnly then s else passWrite s p.slot b.par.metaAddr (metaBytes b)
  modPass (reportMisses s p b) p.slot fun q => renderDetail b b.frags { q with status := some stOk }

/-- The update of a gradient element that received a contribution (R352): its running sum, and with accumulate set its old value, read. -/
def planGradElem (s : State) (c : Nat) (b : RenderBody) (e : Nat) : Plan (Nat × Update) :=
  let p := b.par
  let rdr := arrayReader p 0 0
  (planRead s c false rdr (p.scratchAddr + 4 * e) 4 .go).bind fun sum =>
    (planRead s c false rdr (p.gradPrimAddr + 4 * e) (if p.accumulate then 4 else 0) .go).bind fun old =>
      let o := if p.accumulate then old else [0, 0, 0, 0]
      let u := updateElem 0 o none [BitVec.ofNat 32 (leNat sum)]
      .go (e, { u with overflow := !isFin (BitVec.ofNat 32 (leNat u.bytes)) && isFin (BitVec.ofNat 32 (leNat o)) && !(e ∈ b.wilds) })

/-- The elements whose touched flag is set. -/
def planTouched (s : State) (c : Nat) (p : RenderParams) : Plan (List Nat) :=
  let n := p.primCount * p.gradLen
  (planRead s c false (arrayReader p 0 0) (flagBase p) (ceilDiv n 8) .go).bind fun fb =>
    .go ((List.range n).filter fun i => bitOf (field fb (i / 8) 1) (i % 8))

/-- A reverse pass whose tiles are all done and reduced. -/
def finishReverse (s : State) (p : Pass) (b : RenderBody) : State :=
  let r := b.par
  onPlan s p ((planTouched s p.ctx r).bind fun ts => (planList (planGradElem s p.ctx b) ts).bind fun es =>
      (planRead s p.ctx false (arrayReader r 0 0) r.watchAddr (if r.watchDisable then 0 else 32) .go).bind fun wb => .go (es, wb)) fun s x =>
    let es := x.1
    let w := watchStep x.2 es.length (countIf (·.2.zeroEffect) es) (countIf (·.2.nonfinite) es) 0 r.watchFrac r.watchPasses
    let put := es.map fun e => (r.gradPrimAddr + 4 * e.1, e.2.bytes)
    let zeros := if r.accumulate then [] else
      ((List.range (r.primCount * r.gradLen)).filter fun i => (smFind es i).isNone).map fun i => (r.gradPrimAddr + 4 * i, natLe 4 0)
    let s := passWrites (scratchUse (dropSaved s p b) p.ctx r.scratchAddr r.scratchSize) p.slot (zeros ++ put)
    let n := countIf (·.2.overflow) es
    let s := if n = 0 then s else countCtx s p.ctx 0 n
    let s := modPass s p.slot fun q =>
      { q with lastWrites := if r.watchDisable then [] else [(r.watchAddr, w.1)],
               preEvents := if !r.watchDisable && w.2 then [(evSilent, silentPayload r.watchAddr w.1)] else [] }
    modPass (reportMisses s p b) p.slot fun q => renderDetail b es.length { q with status := some stOk }

/-- A sum so far, absent before its first contribution, with one more (R320, R352). -/
def addSum (a : Option U32) (v : U32) : Option U32 := match a with | some x => some (fadd .rn x v) | none => some v

/-- The running sum of an element with a tile's contributions to it added in their order: its flag and, where that is set, its sum read. -/
def planSum (s : State) (c : Nat) (p : RenderParams) (cs : List Contribution) (e : Nat) : Plan (Nat × U32) :=
  let rdr := arrayReader p 0 0
  (planRead s c false rdr (flagBase p + e / 8) 1 .go).bind fun fb =>
    let held := bitOf (leNat fb) (e % 8)
    (planRead s c false rdr (p.scratchAddr + 4 * e) (if held then 4 else 0) .go).bind fun sb =>
      let a0 := if held then some (BitVec.ofNat 32 (leNat sb)) else none
      .go (e, (((cs.filter (·.elem == e)).map (·.val)).foldl addSum a0).getD 0)

/-- The flag bytes of elements, with those of the elements set. -/
def planFlags (s : State) (c : Nat) (p : RenderParams) (es : List Nat) : Plan (List (Nat × List Byte)) :=
  planList (fun i => (planRead s c false (arrayReader p 0 0) (flagBase p + i) 1 .go).bind fun fb =>
    .go (flagBase p + i, [(es.filter (· / 8 == i)).foldl (fun b e => b ||| BitVec.ofNat 8 (2 ^ (e % 8))) (fb.getD 0 0)]))
    ((es.map (· / 8)).foldl setAdd [])

/-- Whether a write to some of n bytes at a is still to be acknowledged. -/
def writePending (s : State) (c a n : Nat) : Bool :=
  s.ports.any fun p => (p.waiting ++ p.outWr.flatMap (·.burst.parts)).any fun r =>
    r.kind != .read && r.asid.toNat == asidOf s c && overlaps r.addr r.len a n

/-- Tiles reduced in order as far as they are done and the sums of the tile before have landed, at most n of them (R352). -/
def reduceTiles (slot : Nat) : Nat → State → State
  | 0, s => s
  | n + 1, s =>
    match renderOf s slot with
    | none => s
    | some (p, b) =>
      if !(b.reduced ∈ b.done) || writePending s p.ctx b.par.scratchAddr (scratchRule b.par) then s
      else
        let cs := smGet [] b.contribs b.reduced
        let es := (cs.map (·.elem)).foldl setAdd []
        let b' := { b with reduced := b.reduced + 1, contribs := smErase b.contribs b.reduced,
                           wilds := (cs.filter fun x => !isFin x.val).foldl (fun l x => setAdd l x.elem) b.wilds }
        reduceTiles slot n (onPlan s p ((planList (planSum s p.ctx b.par cs) es).bind fun xs =>
          (planFlags s p.ctx b.par es).bind fun fs => .go (xs, fs)) fun s x =>
            passWrites (setRender s slot b') slot ((x.1.map fun e => (b.par.scratchAddr + 4 * e.1, natLe 4 e.2.toNat)) ++ x.2))

/-- A pass looked at after one of its tiles is done, and whenever a raster unit looks for work: its reduction goes on, and it ends when
everything is done. -/
def settleRender (s : State) (slot : Nat) : State :=
  match renderOf s slot with
  | none => s
  | some (_, b) =>
    let s := if b.par.bwd then reduceTiles slot (tileCount b.par) s else s
    match renderOf s slot with
    | none => s
    | some (p, b) =>
      if b.done.length != tileCount b.par then s
      else if !b.par.bwd then finishForward s p b
      else if b.reduced = tileCount b.par && !writePending s p.ctx b.par.scratchAddr (scratchRule b.par) then finishReverse s p b
      else s

/-! ## TILE_START -/

/-- The writes of a finished forward tile (R342, R360), and its block codes. -/
def tileWrites (b : RenderBody) (t : Nat) (bg : List U32) (o : TileOut) : List (Nat × List Byte) × List (Nat × Nat) :=
  let p := b.par
  let px := (tilePixels p t).zip o.states
  if p.depthOnly then (px.map fun x => (p.depthAddr + 4 * pixelIx p x.1.1 x.1.2, natLe 4 x.2.t.toNat), [])
  else
    let look := fun (x y : Nat) => (px.find? fun q => q.1 == (x, y)).map (·.2)
    let bs := (tileBlocks p t).map fun k => (k.1, blockOf p bg look k.2.1 k.2.2)
    ((bs.filter fun k => !k.2.2.isEmpty).map (fun k => (p.targetAddr + k.1 * rawSize p, k.2.2)) ++
      px.map fun x => (p.stateAddr + 16 * pixelIx p x.1.1 x.1.2, stateRecord p.tFloor x.2), bs.map fun k => (k.1, k.2.1))

/-- Contributions of a tile added to those that wait (R352). -/
def addContribs (b : RenderBody) (t : Nat) (cs : List Contribution) : RenderBody :=
  if cs.isEmpty then b else { b with contribs := smPut b.contribs t (smGet [] b.contribs t ++ cs) }

/-- A tile done. -/
def tileDone (slot : Nat) (s : State) (t : Nat) (o : TileOut) : State :=
  match renderOf s slot with
  | none => s
  | some (p, b) =>
    let b := { addContribs b t o.contribs with done := setAdd b.done t, saved := smErase b.saved t, lists := smErase b.lists t }
    if b.par.bwd then settleRender (setRender s slot b) slot
    else onPlan s p (planBg s p.ctx (tileQuad b.par t) b.par) fun s bg =>
      let w := tileWrites b t bg o
      let frags := if b.par.depthOnly then o.entered else (o.states.map (·.n)).sum
      let n := (o.states.map (overflowed · bg)).sum
      let s := if n = 0 || b.par.depthOnly then s else countCtx s p.ctx 0 n
      let s := setRender s slot { b with codes := w.2.foldl (fun m k => smSet 0 m k.1 k.2) b.codes, frags := b.frags + frags }
      settleRender (passWrites s slot w.1) slot

/-- The culled primitives of a stream counted (R335). -/
def countCulled (s : State) (p : Pass) (b : RenderBody) (n : Nat) : State :=
  if n = 0 then setRender s p.slot b
  else
    let s := setRender (count s 49 n) p.slot { b with culled := b.culled + n }
    modPass s p.slot fun q => { q with degrade := { q.degrade with input := true } }

/-- A DIRECT pass reads its stream for the first time: the primitives culled are counted. -/
def directCull (s : State) (slot : Nat) : State :=
  match renderOf s slot with
  | none => s
  | some (p, b) =>
    if b.tiled || b.cursor = b.par.primCount then s
    else onPlan s p (planRecs s p.ctx 0 b.par (List.range b.par.primCount)) fun s rs =>
      countCulled s p { b with cursor := b.par.primCount } (rs.filter fun r => isCulled b.par r.2).length

/-- The tiles in flight in a raster unit. -/
def inFlight (s : State) (u : Nat) : Nat :=
  (s.passes.map fun p => match p.body with
    | .render b => (b.asked.filter fun t => tileUnit b.par t == u).length
    | _ => 0).sum

/-- Whether the state that a tile starts from can be read: what an overflow saved of it has been acknowledged (R356). -/
def reloadable (s : State) (p : Pass) (b : RenderBody) (t : Nat) : Bool :=
  (smFind b.saved t).isNone || !writePending s p.ctx (saveAt b.par t) (saveRecord b.par)

/-- What a raster unit does next for a pass: composites tiles, or sends the fragments of tiles to its kernel. A tile whose fragments are
back comes first; else, once its stream is binned, the lowest tile of a TILED pass, or the lowest 16 of a DIRECT pass, which share one
read of the stream (R353, R354); at most 16 tiles are in flight. -/
def unitWork (s : State) (u : Nat) (p : Pass) (b : RenderBody) : Option (Bool × List Nat) :=
  let mine := (List.range (tileCount b.par)).filter fun t => tileUnit b.par t == u && !(t ∈ b.done)
  match mine.find? fun t => tileBack b t && reloadable s p b t with
  | some t => some (false, [t])
  | none =>
    let ts := ((mine.filter (!b.asked.contains ·)).take (if b.tiled then 1 else 16))
    if ts.isEmpty || (b.tiled && (b.cursor != b.par.primCount || b.overflowing)) || !ts.all (reloadable s p b) then none
    else if b.shader.isNone then some (false, ts)
    else if inFlight s u + ts.length ≤ 16 then some (true, ts)
    else none

/-- The work of a raster unit on a pass done. -/
def runTiles (s : State) (slot : Nat) (w : Bool × List Nat) : State :=
  match renderOf s slot with
  | none => s
  | some (p, b) =>
    match w.1, b.shader with
    | true, some i => askTiles s p b i w.2
    | _, _ => composeTiles s p b w.2 (tileDone slot)

/-- The passes whose tiles a unit takes, in the order of R469. -/
def renderOrder (s : State) : List Pass :=
  let r := fun (p : Pass) => if p.cls = 1 then 0 else 1
  let le := fun (a b : Pass) => decide (r a < r b || (r a = r b && (r a = 0 && a.deadline.toNat < b.deadline.toNat ||
    (r a = 1 || a.deadline = b.deadline) && a.order ≤ b.order)))
  sortBy le (s.passes.filter fun p => (renderOf s p.slot).isSome)

/-- The pass that a unit works on next, and what it does for it. -/
def nextTiles (s : State) (u : Nat) : Option (Nat × Bool × List Nat) :=
  (renderOrder s).findSome? fun p => match p.body with
    | .render b => (unitWork s u p b).map (p.slot, ·)
    | _ => none

/-- A raster unit takes its next tiles; a double-bit error of its tile state memory ends the pass (R469, R543). -/
def tileStart (s : State) (u : Nat) (ecc : Ecc) : State :=
  let s := (renderOrder s).foldl (fun s p => settleRender s p.slot) s
  match nextTiles s u with
  | none => s
  | some (slot, w) =>
    match passOf s slot with
    | none => s
    | some p =>
      if ecc = .double then faultPass s p stPoison (poisonPayload 0xFFFF 2 (w.2.headD 0))
      else runTiles (directCull (countSingle s ecc) slot) slot w

/-- TILE_START (R469). -/
def execTileStart (unit : BitVec 3) (ecc : Ecc) (s : State) : Host.Outcome State Fault Refusal :=
  .next (tileStart s unit.toNat ecc)

/-! ## PRIMITIVE_BIN and overflow (R353, R356) -/

/-- The tiles that a primitive's footprint touches. -/
def footprint (p : RenderParams) (r : List Byte) : List Nat :=
  let axis := fun (n mu rad : Nat) (t : Nat) =>
    (List.range 16).any fun i => 16 * t + i < n && inReach (16 * t + i) (recW r mu) (recW r rad)
  (List.range (tileCount p)).filter fun t =>
    if p.primKind = 1 then (tilePixels p t).any fun q => (coverage (snapped r) q.1 q.2).isSome
    else axis p.width 0 6 (t % tilesAcross p) && axis p.height 1 6 (t / tilesAcross p)

/-- The tile-list blocks that a pass holds (Table 10.6). -/
def listBlocks (b : RenderBody) : Nat :=
  if b.lists.isEmpty then 0 else ceilDiv (8 * tileCount b.par) 256 + (b.lists.map fun l => ceilDiv l.2.length 62).sum

/-- The free tile-list blocks. -/
def freeBlocks (s : State) : Nat :=
  tileMib s * 4096 - (s.passes.map fun p => match p.body with | .render b => listBlocks b | _ => 0).sum

/-- The tiles of a pass with a list. -/
def listedTiles (b : RenderBody) : List Nat := b.lists.map (·.1)

/-- A tile composited at an overflow: its state goes to the save area (R356), its list is freed. -/
def saveTile (slot : Nat) (s : State) (t : Nat) (o : TileOut) : State :=
  match renderOf s slot with
  | none => s
  | some (_, b) =>
    let b := addContribs b t o.contribs
    let s := passWrite s slot (saveAt b.par t) (saveBytes b.par b.cursor o.states)
    setRender s slot { b with saved := smPut b.saved t (o.states.map (·.wild)), lists := smErase b.lists t, frags := b.frags + o.entered }

/-- One listed tile of an overflow: composited and saved, or its fragments sent to the pass's kernel while its unit has room, or left for
later. -/
def overflowTile (slot : Nat) (s : State) (t : Nat) : State :=
  match renderOf s slot with
  | none => s
  | some (p, b) =>
    if !reloadable s p b t then s
    else match b.shader with
      | none => composeTiles s p b [t] (saveTile slot)
      | some i =>
        if t ∈ b.asked then (if tileBack b t then composeTiles s p b [t] (saveTile slot) else s)
        else if inFlight s (tileUnit b.par t) < 16 then askTiles s p b i [t]
        else s

/-- An overflow begun or carried on: the tiles with a list are composited and saved; when none is left, binning resumes. -/
def overflow (s : State) (slot : Nat) : State :=
  match renderOf s slot with
  | none => s
  | some (_, b) =>
    let s := if b.overflowing then s else setRender s slot { b with overflowing := true, overflows := b.overflows + 1 }
    let s := (listedTiles b).foldl (overflowTile slot) s
    match renderOf s slot with
    | some (_, b) => if b.lists.isEmpty then setRender s slot { b with overflowing := false } else s
    | none => s

/-- A position appended to the lists of a primitive's tiles, one by one from the first not yet done. With no block free the pass
overflows or, holding none, waits; n bounds the tiles. -/
def binTiles (slot pos : Nat) (ts : List Nat) : Nat → State → State
  | 0, s => s
  | n + 1, s =>
    match renderOf s slot with
    | none => s
    | some (_, b) =>
      match ts[b.binned]? with
      | none => setRender s slot { b with cursor := b.cursor + 1, binned := 0 }
      | some t =>
        let l := smGet [] b.lists t
        let need := (if l.length % 62 = 0 then 1 else 0) + (if b.lists.isEmpty then ceilDiv (8 * tileCount b.par) 256 else 0)
        if b.overflowing || freeBlocks s < need then
          (if b.lists.isEmpty && !b.overflowing then s
          else
            let s' := overflow s slot
            match renderOf s' slot with
            | some (_, b') => if b'.lists.isEmpty then binTiles slot pos ts n s' else s'
            | none => s')
        else binTiles slot pos ts n (setRender s slot { b with lists := smPut b.lists t (l ++ [pos]), binned := b.binned + 1 })

/-- The next primitive of a TILED pass set up and binned (R335, R353). -/
def primitiveBin (s : State) (slot : Nat) : State :=
  match renderOf s slot with
  | none => s
  | some (p, b) =>
    if !b.tiled || b.cursor = b.par.primCount then s
    else
      let pos := if b.par.bwd then b.par.primCount - 1 - b.cursor else b.cursor
      onPlan s p (planRec s p.ctx 0 b.par pos) fun s r =>
        if isCulled b.par r then countCulled s p { b with cursor := b.cursor + 1 } 1
        else
          let ts := footprint b.par r
          binTiles slot pos ts (2 * ts.length + 2) s

/-- PRIMITIVE_BIN (R353). -/
def execPrimitiveBin (pass : Byte) (s : State) : Host.Outcome State Fault Refusal := .next (primitiveBin s pass.toNat)

end Sys2Proof.Machine
end

