-- ==== Sys2Proof/Machine/Tags.lean ====
section
/-! DEFINITION. Walker commands: one per operation whose bundle is issued; the completion of tags (R270); the time bound (R280). -/
namespace Sys2Proof.Machine

/-! ## Tags -/

/-- The bytes (member, offset) that a FLOCK operation touches. -/
def flockTouches (op : AsyncOp) : List (Nat × Nat) :=
  match op with
  | .loadF _ n ths => ths.flatMap fun t => (List.range n).map fun i => (t.2.1, t.2.2 + i)
  | .storeF bs => bs.map fun b => (b.2.1, b.2.2.1)
  | _ => []

/-- Whether a FLOCK operation stores. -/
def flockStores (op : AsyncOp) : Bool := match op with | .storeF _ => true | _ => false

/-- Whether an earlier FLOCK operation of the group must come first (R293): they share a byte and not both only read. -/
def flockWaits (g : Group) (t : TagOp) : Bool :=
  (g.tags.takeWhile (·.tag != t.tag)).any fun u =>
    (flockStores u.op || flockStores t.op) && (flockTouches u.op).any fun x => x ∈ flockTouches t.op

/-- The herd of a member of a flock launch, with its core. -/
def memberHerd (s : State) (core : Nat) (h : Herd) (member : Nat) : Option (Nat × Herd) :=
  if h.size ≤ 1 then some (core, h)
  else (launchHerds s (flockOfCore core) h.pass h.launch).find? (·.2.member == member)

/-- An MMA's result written (R253); a marked line it reads ends the pass (R382). Its tiles under another outstanding operation, and what
was touched under it, are a mixture (R274). -/
def finishMma (s : State) (core : Nat) (g : Group) (h : Herd) (t : TagOp) (a b c : Nat) (w : U64) : State :=
  let x := shapeOf w
  match (mmaLines x a b c).find? (· ∈ h.marks) with
  | some l => localPoison s g (l * 64)
  | none =>
    let s := mixHerd s core g.pass g.herd (some (g.slot, t.tag.toNat)) (spanBytes t.spans.reads) (spanBytes t.spans.writes)
    let r := mmaResult ((herdOf (coreOf s core) g.pass g.herd).getD h) x a b c
    modCore s core fun k => modHerd k g.pass g.herd fun h =>
      { herdWrite h c r with marks := remark h.marks [(c, 4 * x.m * x.n)] [] }

/-- A row of a FETCH from the node store written into local store. -/
def storeRow (s : State) (core : Nat) (g : Group) (tag : Nat) (r : Nat × Nat × Nat) : State :=
  let bytes := (storeRead s.store r.1 r.2.2).bytes
  let s := modCore (seenLines s r.1 r.2.2) core fun k => modHerd k g.pass g.herd fun h => herdWrite h r.2.1 bytes
  mixHerd s core g.pass g.herd (some (g.slot, tag)) [] ((List.range r.2.2).map (r.2.1 + ·))

/-- The marks of local store after the rows of a FETCH from the node store: the lines they write in full lose theirs, those that a
poisoned line reaches are marked (R25, R382). -/
def markRows (s : State) (core : Nat) (g : Group) (rows : List (Nat × Nat × Nat)) : State :=
  let bad := rows.flatMap fun r =>
    ((List.range r.2.2).filter fun i => ((r.1 + i) / 128) ∈ s.store.poison).map fun i => (r.2.1 + i) / 64
  modCore s core fun k => modHerd k g.pass g.herd fun h => { h with marks := remark h.marks (rows.map fun r => (r.2.1, r.2.2)) bad }

/-- An LD.F's values arrive; a marked line it reads ends the pass (R382). -/
def finishLoadF (s : State) (core : Nat) (g : Group) (h : Herd) (reg n : Nat) (ths : List (Nat × Nat × Nat)) : State :=
  let marked := ths.find? fun t => match memberHerd s core h t.2.1 with
    | some ch => (localLines t.2.2 n).any (· ∈ ch.2.marks)
    | none => false
  match marked with
  | some t => localPoison s g (t.2.1 * 2 ^ 19 + t.2.2)
  | none => ths.foldl (fun s t => match memberHerd s core h t.2.1 with
      | some ch =>
        let s := mixHerd s ch.1 ch.2.pass ch.2.number none ((List.range n).map (t.2.2 + ·)) []
        let b := herdBytes ((herdOf (coreOf s ch.1) ch.2.pass ch.2.number).getD ch.2) t.2.2 n
        let s := modGroup s core g.slot fun g => loadBytes (setVreg g reg t.1 0) reg t.1 0 b
        spoilStores s core g.slot [(t.1, reg), (t.1, reg + (n - 1) / 4)]
      | none => s) s

/-- An ST.F's bytes are written into their members' local stores. -/
def finishStoreF (s : State) (core : Nat) (h : Herd) (bs : List (Nat × Nat × Nat × Byte)) : State :=
  (bs.map (·.2.1)).eraseDups.foldl (fun s m =>
    match memberHerd s core h m with
    | some ch =>
      let mine := (bs.filter (·.2.1 == m)).map (·.2.2)
      let s := modCore s ch.1 fun k => modHerd k ch.2.pass ch.2.number fun h => applyLocal h (.local mine)
      mixHerd s ch.1 ch.2.pass ch.2.number none [] (mine.map (·.1))
    | none => s) s

/-- An asynchronous operation that the core completes by itself does so while the core's clock runs (R281): MMA, FETCH from the node
store, FLOCK accesses. Those that wait for memory complete with their responses. -/
def completeTag (s : State) (core slot : Nat) (tag : BitVec 6) : State :=
  match (if (coreOf s core).clockOn then groupOf s core slot else none) with
  | none => s
  | some g =>
    match g.tags.find? (·.tag == tag), herdOf (coreOf s core) g.pass g.herd with
    | some t, some h =>
      match t.op with
      | .mma a b c w => tagReturn (finishMma s core g h t a b c w) core slot tag.toNat
      | .fetchStore rows => tagReturn (markRows (rows.foldl (storeRow · core g tag.toNat) s) core g rows) core slot tag.toNat
      | .loadF reg n ths =>
        if flockWaits g t then s else tagReturn (finishLoadF s core g h reg n ths) core slot tag.toNat
      | .storeF bs => if flockWaits g t then s else tagReturn (finishStoreF s core h bs) core slot tag.toNat
      | _ => s
    | _, _ => s

/-! ## The time bound -/

/-- waited core cycles pass on a core with a group in a slot, none of them with a bundle on its lanes (R279): a group whose time is then
above its kernel's bound issues no further bundle, and its context faults (R280). While the core's clock is stopped none passes. -/
def timeBound (s : State) (core slot waited : Nat) : State :=
  if !(coreOf s core).clockOn || (groupOf s core slot).isNone then s else timeFaults (passCycles s core none waited) core

/-! ## Which command issues which bundle -/

/-- Whether a bundle holds a C operation. -/
def holdsC (op : COp) (b : Option Bundle) : Bool := match b with | some b => b.c.any (·.op == op) | none => false

/-- Whether a bundle holds an X operation. -/
def holdsX (op : XOp) (b : Option Bundle) : Bool := match b with | some b => b.x.any (·.op == op) | none => false

/-- Whether a bundle holds an M operation. -/
def holdsM (op : MOp) (b : Option Bundle) : Bool := match b with | some b => b.m.any (·.op == op) | none => false

/-- Whether a bundle holds a B operation, a P operation, an S operation. -/
def holdsB (b : Option Bundle) : Bool := match b with | some b => b.b.isSome | none => false
def holdsP (b : Option Bundle) : Bool := match b with | some b => b.p.isSome | none => false
def holdsS (b : Option Bundle) : Bool := match b with | some b => b.s.isSome | none => false

/-- Whether a bundle holds a V0 or V1 operation or no operation at all; a group past its code is met here too (log entry 19). -/
def holdsV (b : Option Bundle) : Bool :=
  match b with
  | some b => b.v0.isSome || b.v1.isSome || b == Bundle.empty
  | none => true

/-- BR (R266). -/
def execBr (core : BitVec 8) (slot : BitVec 4) (s : State) : Host.Outcome State Fault Refusal :=
  .next (issueIf (holdsC .br) s core.toNat slot.toNat false false)
/-- BRNONE (R266). -/
def execBrnone (core : BitVec 8) (slot : BitVec 4) (s : State) : Host.Outcome State Fault Refusal :=
  .next (issueIf (holdsC .brnone) s core.toNat slot.toNat false false)
/-- IF (R228). -/
def execIfMask (core : BitVec 8) (slot : BitVec 4) (s : State) : Host.Outcome State Fault Refusal :=
  .next (issueIf (holdsC .ifm) s core.toNat slot.toNat false false)
/-- ELSE (R228). -/
def execElseMask (core : BitVec 8) (slot : BitVec 4) (s : State) : Host.Outcome State Fault Refusal :=
  .next (issueIf (holdsC .elsem) s core.toNat slot.toNat false false)
/-- ENDIF (R228). -/
def execEndifMask (core : BitVec 8) (slot : BitVec 4) (s : State) : Host.Outcome State Fault Refusal :=
  .next (issueIf (holdsC .endifm) s core.toNat slot.toNat false false)
/-- BAR.H (R241). -/
def execBarH (core : BitVec 8) (slot : BitVec 4) (s : State) : Host.Outcome State Fault Refusal :=
  .next (issueIf (holdsC .barH) s core.toNat slot.toNat false false)
/-- BAR.F (R242). -/
def execBarF (core : BitVec 8) (slot : BitVec 4) (s : State) : Host.Outcome State Fault Refusal :=
  .next (issueIf (holdsC .barF) s core.toNat slot.toNat false false)
/-- FETCH (R380); upsets are the store lines in which bits have flipped since (R25). -/
def execFetch (group : GroupRef) (upsets : List (Nat × Bool)) (s : State) : Host.Outcome State Fault Refusal :=
  .next (issueIf (holdsX .fetch) { s with store := strikeLines s.store upsets } group.core.toNat group.slot.toNat false false)
/-- WAIT (R272). -/
def execWait (core : BitVec 8) (slot : BitVec 4) (s : State) : Host.Outcome State Fault Refusal :=
  .next (issueIf (holdsX .wait) s core.toNat slot.toNat false false)
/-- FENCE of the X slot (R298). -/
def execKernelFence (core : BitVec 8) (slot : BitVec 4) (s : State) : Host.Outcome State Fault Refusal :=
  .next (issueIf (holdsX .fence) s core.toNat slot.toNat false false)
/-- LD.L (R264); ecc is what local memory's decoder reports of the read (R543). -/
def execLdL (core : BitVec 8) (slot : BitVec 4) (ecc : Ecc) (s : State) : Host.Outcome State Fault Refusal :=
  .next (issueIf (holdsM .ldL) (countSingle s ecc) core.toNat slot.toNat false (ecc == .double))
/-- ST.L (R264). -/
def execStL (core : BitVec 8) (slot : BitVec 4) (s : State) : Host.Outcome State Fault Refusal :=
  .next (issueIf (holdsM .stL) s core.toNat slot.toNat false false)
/-- LD.F (R235). -/
def execLdF (core : BitVec 8) (slot : BitVec 4) (s : State) : Host.Outcome State Fault Refusal :=
  .next (issueIf (holdsM .ldF) s core.toNat slot.toNat false false)
/-- ST.F (R302). -/
def execStF (core : BitVec 8) (slot : BitVec 4) (s : State) : Host.Outcome State Fault Refusal :=
  .next (issueIf (holdsM .stF) s core.toNat slot.toNat false false)
/-- LD.G (R295). -/
def execLdG (core : BitVec 8) (slot : BitVec 4) (s : State) : Host.Outcome State Fault Refusal :=
  .next (issueIf (holdsM .ldG) s core.toNat slot.toNat false false)
/-- ST.G (R294). -/
def execStG (core : BitVec 8) (slot : BitVec 4) (s : State) : Host.Outcome State Fault Refusal :=
  .next (issueIf (holdsM .stG) s core.toNat slot.toNat false false)
/-- AT.G (R310). -/
def execAtG (core : BitVec 8) (slot : BitVec 4) (s : State) : Host.Outcome State Fault Refusal :=
  .next (issueIf (holdsM .atG) s core.toNat slot.toNat false false)
/-- ATF.G (R311). -/
def execAtfG (core : BitVec 8) (slot : BitVec 4) (s : State) : Host.Outcome State Fault Refusal :=
  .next (issueIf (holdsM .atfG) s core.toNat slot.toNat false false)
/-- What an upset of a bundle's reads counts as. -/
def bundleEcc : BundleUpset → Ecc
  | .none => .ok
  | .register d => if d then .double else .single
  | .code d => if d then .double else .single
/-- The kernel image address of a group's next bundle (R255, R543). -/
def bundleAddr (s : State) (g : Group) : Nat :=
  let image := match (passOf s g.pass).map (·.body) with
    | some (.kernel k) => k.image.addr
    | some (.render b) => (b.shader.map (·.addr)).getD 0
    | _ => 0
  image + 128 * (g.next + 1)
/-- The bundle that a core is to issue next is read from its instruction cache with a double-bit error, whatever it holds: it is not
issued, and its pass ends (R543). -/
def poisonedBundle (s : State) (core slot : Nat) : State :=
  let t := awaitBound s core
  if !(coreOf s core).clockOn || arbiter t core != some slot then s
  else match groupOf t core slot with
    | some g => if (nextBundle g).isSome then localPoison (noteStart t core g) g (bundleAddr t g) else s
    | none => s
/-- A V0 or V1 operation (R264); upset is what the decoders report of the bundle's reads (R543). -/
def execVectorAlu (core : BitVec 8) (slot : BitVec 4) (upset : BundleUpset) (s : State) : Host.Outcome State Fault Refusal :=
  .next (if upset = .code true then poisonedBundle s core.toNat slot.toNat
    else issueIf holdsV (countSingle s (bundleEcc upset)) core.toNat slot.toNat (upset == .register true) false)
/-- An S operation (R264). -/
def execScalarAlu (core : BitVec 8) (slot : BitVec 4) (s : State) : Host.Outcome State Fault Refusal :=
  .next (issueIf holdsS s core.toNat slot.toNat false false)
/-- TAG_COMPLETE (R270). -/
def execTagComplete (core : BitVec 8) (slot : BitVec 4) (tag : BitVec 6) (s : State) : Host.Outcome State Fault Refusal :=
  .next (completeTag s core.toNat slot.toNat tag)
/-- TIME_BOUND (R280). -/
def execTimeBound (core : BitVec 8) (slot : BitVec 4) (waited : Nat) (s : State) : Host.Outcome State Fault Refusal :=
  .next (timeBound s core.toNat slot.toNat waited)

end Sys2Proof.Machine
end

