-- ==== Sys2Proof/Machine/Trace.lean ====
section
/-! DEFINITION. TRACE (R112 to R151): admission, rays, visits, running limits (R127), leaf children, results (R146 to R150). -/
namespace Sys2Proof.Machine

/-! ## Admission -/

/-- The header of a geometric tree (Table 3.6), from the bytes of its root. -/
def parseGeoRoot (b : List Byte) : TreeRoot :=
  { geometric := true, dims := 3, rangeExp := 0, keySpan := 0, keyBase := 0, leafCount := 0, firstLeaf := 0, nodeCount := field b 80 4,
    primKind := field b 73 1, primCount := field b 76 4 }

/-- The checks of Table 13.9 for reserved bits. -/
def traceReserved (f : Fetched) : List (Bool × Deny) :=
  [(!zeroAt f.block [(68, 4), (75, 5)], denyBlock f stDesc (firstNonzero f.block [(68, 4), (75, 5)])),
   (16 ≤ field f.block 80 1, denyBlock f stDesc 80),
   (!zeroAt f.block [(81, 47)], denyBlock f stDesc (firstNonzero f.block [(81, 47)]))]

/-- The checks of R113 in its order; those of the root apply where it could be read. -/
def traceChecks (f : Fetched) (p : TraceParams) (root : Option (List Byte)) : List (Bool × Deny) :=
  let at4 := fun o => (⟨stDesc, 4, o, p.treeAddr⟩ : Deny)
  [(p.query = 3, denyBlock f stDesc 80), (p.rayAddr % 32 != 0, denyBlock f stDesc 0), (p.treeAddr % 128 != 0, denyBlock f stDesc 8),
   (p.primAddr % 64 != 0, denyBlock f stDesc 16), (root.any (fun b => field b 72 1 != 2), at4 72),
   (root.any (fun b => field b 73 1 > 2), at4 73), (p.query = 2 && p.segSize < (p.rayCount + 1) * 8, denyBlock f stDesc 56)]

/-- The node-store ranges that a TRACE names (R564). -/
def traceRanges (x : Ctx) (p : TraceParams) (h : TreeRoot) : List (Bool × Deny) :=
  (if p.treeInStore then [denyRange stPermission x 1 8 p.treeAddr (h.nodeCount * 128)] else []) ++
  (if p.primInStore then [denyRange stPermission x 1 16 p.primAddr (h.primCount * 64)] else [])

/-- What the admission of a TRACE in context c finds (R113, R125, R564). -/
def planTrace (s : State) (c : Nat) (x : Ctx) (f : Fetched) : Plan TreeRoot :=
  let p := parseTrace f.block
  match firstDeny (traceReserved f) with
  | some e => .deny e
  | none =>
    let e0 := firstDeny (traceChecks f p none)
    match (if p.treeInStore then firstOutside x.windows p.treeAddr 128 else none) with
    | some b => orDeny e0 (.deny ⟨stPermission, 1, 8, b⟩)
    | none =>
      let rdr := Reader.array 0 0
      let root := planSee s c p.treeInStore rdr p.treeAddr 128 fun r =>
        planSound s c p.treeInStore rdr (p.treeAddr + 72) 12 (
          let h := parseGeoRoot r.bytes
          orDeny (firstDeny (traceChecks f p (some r.bytes) ++ traceRanges x p h)) (.go h))
      match root.out with
      | .xlate _ _ => orDeny e0 root
      | .poison _ _ _ => orDeny e0 root
      | _ => root

/-- A TRACE whose every ray is placed (R148, R149): its last segment entry, and its header once the rest is acknowledged. -/
def finishTrace (s : State) (slot : Nat) : State :=
  match passOf s slot with
  | none => s
  | some p => match p.body with
    | .trace b =>
      if b.walk.placed != b.walk.count || p.status.isSome then s
      else
        let w := b.walk
        let q := b.par
        if q.query = 2 then
          let s := passWrite s slot (q.segAddr + 8 * w.count) (segEntry w.total false)
          modPass s slot fun p =>
            { p with status := some stOk, truncated := decide (q.hitCapacity < w.total),
                     lastWrites := [(q.hitAddr, hitHeader p.passId w.count w.total q.hitCapacity false false)],
                     detail0 := BitVec.ofNat 64 w.total, detail1 := BitVec.ofNat 64 (min w.total q.hitCapacity),
                     detail2 := BitVec.ofNat 64 w.cappedN }
        else modPass s slot fun p => { p with status := some stOk, detail0 := BitVec.ofNat 64 w.anyN }
    | _ => s

/-- A TRACE admitted; with no ray it ends at once (R114). -/
def traceGo (f : Fetched) (s : State) (slot : Nat) (h : TreeRoot) : State :=
  let q := parseTrace f.block
  let s := modPass s slot fun p => { p with body := .trace { par := q, root := h, walk := newWalk q.rayCount } }
  finishTrace s slot

/-- TRACE (R112). -/
def execTrace (ctx : BitVec 12) (ring : BitVec 4) (s : State) : Host.Outcome State Fault Refusal :=
  .next (admitWith s ctx.toNat ring.toNat (isOp opTrace) (fun s x f => (planTrace s ctx.toNat x f).refusal) fun s f =>
    match ctxOf s ctx.toNat with
    | some x => admitPlan s ctx.toNat ring.toNat f .plain 1 (planTrace s ctx.toNat x f) (traceGo f)
    | none => s)

/-! ## Limits and the order of hits -/

/-- The order of R120: t_r ascending, equal t_r by ascending index. -/
def hitBefore (a b : Cand) : Bool := realKey a.val < realKey b.val || (realKey a.val = realKey b.val && a.key < b.key)

/-- Hits in the order of R120. -/
def hitsInOrder (l : List Cand) : List Cand := sortBy (fun a b => !hitBefore b a) l

/-- The running limit of a ray (R127). -/
def rayLimit (q : TraceParams) (i : Item) : U32 :=
  if q.query = 0 then i.best
  else if q.query = 2 then
    let l := sortBy (fun a b => decide (realKey a ≤ realKey b)) (i.cands.map (·.val) ++ i.ranked.toList)
    l.getD (q.hitCapM1 + 1) (rayTmax i.words)
  else rayTmax i.words

/-- Step 1 of R79 for a ray (R150): candidates beyond K by rank go, the least of them noted. -/
def thinRay (k : Nat) (i : Item) : Item :=
  let l := hitsInOrder i.cands
  let gone := l.drop k
  let least := fun (r : Option U32) (c : Cand) => match r with
    | some v => if flt c.val v then some c.val else some v
    | none => some c.val
  { i with cands := l.take k, capped := i.capped || !gone.isEmpty, ranked := gone.foldl least i.ranked }

/-! ## Visits -/

/-- What the admission of a ray reads: its record (R115, R117). -/
def planRay (s : State) (c quad : Nat) (q : TraceParams) (j : Nat) : Plan (List U32) :=
  planRead s c false (.array quad 0) (q.rayAddr + 32 * j) 32 fun b => .go (rayWords b)

/-- A ray admitted with its record's words. An inert ray retires at once as a miss (R116). -/
def admitRay (p : Pass) (b : TraceBody) (gen : U16) (s : State) (x : Nat × List U32) : State :=
  let q := b.par
  if rayInert x.2 then retire s p.slot { index := x.1, entries := [], capped := false, best := inf32, any := false }
  else addItem s (newItem p x.1 gen x.2 false false (rayTmax x.2)) fun ref =>
    rootRecord p q.treeAddr q.treeInStore true (rayTmin x.2) (rayTmax x.2) ref x.1 gen

/-- The record of leaf child j: its primitives (R98, R155). -/
def leafRecord (q : TraceParams) (r : Record) (slot prims : Nat) (lo hi : U32) (ref : Nat) : Record :=
  { childRecord r q.primAddr 64 slot true lo hi prims ref with inMemory := !q.primInStore }

/-- What the bytes of a geometric node give a TRACE record: the reachable children that R128 does not skip; bad tells poison in bytes
0–14 or 24–71. Of a root with child_count 0 nothing degrades the pass (R114). -/
def geoVisit (b : TraceBody) (i : Item) (r : Record) (nb : List Byte) (bad : Bool) : Visit :=
  let q := b.par
  let absent := gAbsent r.number b.root.nodeCount nb
  let n := if absent then 0 else gCount nb
  let lim := rayLimit q i
  let kids := ((List.range n).map fun j => (j, childSpan i.words nb bad j r.valueLo r.valueHi)).filter fun k =>
    fle k.2.1 k.2.2 && !flt lim k.2.1
  let void := emptyRoot r.number (gCount nb)
  let deg : Degrade := ⟨bad && !void, absent || (gBadStep nb && !void), false, false⟩
  ⟨kids.map fun k =>
    if gLeafKids nb then leafRecord q r (gLeafSlot nb k.1) (gLeafCount nb k.1) k.2.1 k.2.2 i.ref
    else childRecord r q.treeAddr 128 (gFirst nb + k.1) false k.2.1 k.2.2 0 i.ref, [], deg, 0⟩

/-- The visit of a TRACE record to a geometric node. Poison in bytes 15–21, which say what children there are, ends the pass. -/
def visitGeo (s : State) (c : Nat) (rdr : Reader) (b : TraceBody) (i : Item) (r : Record) : Plan Visit :=
  let q := b.par
  let bad := fun o n => (passRead s c q.treeInStore (r.target + o) n).bad.isSome
  planSee s c q.treeInStore rdr r.target 128 fun m =>
    planSound s c q.treeInStore rdr (r.target + 15) 7 (.go (geoVisit b i r m.bytes (bad 0 15 || bad 24 48)))

/-- What the tests of a leaf child's primitives have gathered so far: hits, an absent slot met, an ANY ray's first hit found. -/
structure Testing where
  out  : List Scored
  tree : Bool
  stop : Bool

/-- What a primitive slot's record gives a ray (R119, R126, R128, R135). -/
def testPrim (b : TraceBody) (i : Item) (r : Record) (t : Testing) (m : List Byte) : Testing :=
  let q := b.par
  if primIndex m = noPrim then { t with tree := true }
  else if primMask m &&& q.rayMask = 0 then t
  else match primTest b.root.primKind i.words m with
    | none => t
    | some h =>
      let tr := fmax h.tp r.valueLo
      if flt (rayLimit q i) tr then t
      else { t with out := t.out ++ [scoredKey r (primIndex m) tr h.aux h.side (q.query != 0)], stop := q.query == 1 }

/-- Primitive slot n read and tested against a ray, unless an ANY ray has its hit (R130). -/
def testSlot (s : State) (c : Nat) (rdr : Reader) (b : TraceBody) (i : Item) (r : Record) (t : Testing) (n : Nat) : Plan Testing :=
  let q := b.par
  if t.stop then .go t
  else if b.root.primCount ≤ n then .go { t with tree := true }
  else planRead s c q.primInStore rdr (q.primAddr + 64 * n) 64 fun m => .go (testPrim b i r t m)

/-- The tests of a leaf child's primitives. -/
def visitPrims (s : State) (c : Nat) (rdr : Reader) (b : TraceBody) (i : Item) (r : Record) : Plan Visit :=
  (planFold (testSlot s c rdr b i r) ⟨[], false, false⟩ ((List.range (r.primsM1 + 1)).map (r.number + ·))).bind fun t =>
    .go ⟨[], t.out, ⟨false, t.tree, false, false⟩, 0⟩

/-! ## Retirement and placement -/

/-- What a ray's retirement keeps (R120, R150). -/
def filterRay (q : TraceParams) (i : Item) : Retired :=
  let l := hitsInOrder i.cands
  let k := q.hitCapM1 + 1
  { index := i.index, entries := if q.query = 2 then l.take k else l.take 1, capped := i.capped || decide (k < l.length),
    best := i.best, any := i.stop || !l.isEmpty }

/-- A candidate as a hit record (Table 4.5). -/
def candRecord (c : Cand) : List Byte := hitRecord c.val c.aux c.side c.key

/-- A walk past a placed ray of a query that reports no list. -/
def placedRay (any : Bool) (byte : Byte) (r : Retired) (w : Walk) : Walk :=
  { placedWalk { r with entries := [], capped := false } w with anyN := w.anyN + bit any, anyByte := byte }

/-- The lowest unplaced ray of a TRACE written, when it has retired (R147 to R150). -/
def placeRay (s : State) (slot : Nat) (b : TraceBody) (r : Retired) : State :=
  let q := b.par
  let w := b.walk
  if q.query = 2 then
    let fit := (r.entries.zipIdx.map fun e => (w.total + e.2, e.1)).filter fun e => e.1 < q.hitCapacity
    let s := passWrites s slot (fit.map fun e => (q.hitAddr + 64 + 16 * e.1, candRecord e.2))
    let s := passWrite s slot (q.segAddr + 8 * r.index) (segEntry w.total r.capped)
    finishTrace (modPass s slot (modWalk (placedWalk r))) slot
  else if q.query = 0 then
    let s := passWrite s slot (q.outAddr + 16 * r.index) (match r.entries with | c :: _ => candRecord c | [] => missRecord)
    finishTrace (modPass s slot (modWalk (placedRay r.any 0 r))) slot
  else
    let byte := (if r.index % 8 = 0 then 0 else w.anyByte) ||| BitVec.ofNat 8 (bit r.any * 2 ^ (r.index % 8))
    let s := if r.index % 8 = 7 || r.index + 1 = w.count then passWrite s slot (q.outAddr + r.index / 8) [byte] else s
    finishTrace (modPass s slot (modWalk (placedRay r.any byte r))) slot

end Sys2Proof.Machine
end

