-- ==== Sys2Proof/Machine/Stock.lean ====
section
/-! DEFINITION. The stock kernels of SEARCH and TRACE at work (R156 to R174): batches, pens taken, records processed, running bests,
candidates, settling, retirement and placement; the commands MMA, BOUND_TEST, PRIMITIVE_TEST and END of user groups. -/
namespace Sys2Proof.Machine

/-! ## BATCH_ADMIT -/

/-- A batch admitted: its items, one by one (R156, R161); the streams of the fetch engine of the root's slice read them. -/
def batchAdmit (s : State) (slot : Nat) : State :=
  match passOf s slot with
  | none => s
  | some p =>
    match (passWalk p).bind nextBatch with
    | none => s
    | some b =>
      if p.cancelAt.isSome || p.status.isSome || !batchFits s p then s
      else
        let js := (List.range b.count).map (b.first + ·)
        let take := fun (s : State) => modPass { s with formed := s.formed + 1 } slot (modWalk (takeBatch b s.formed))
        match p.body with
        | .search x =>
          onReads s p (planList (fun j => (planLocator s p.ctx (homeSlice x.par.treeAddr) x.par j).bind fun y => .go (j, y)) js)
            fun s ys => ys.foldl (admitQuery p x b.gen) (take s)
        | .trace x =>
          onReads s p (planList (fun j => (planRay s p.ctx (homeSlice x.par.treeAddr) x.par j).bind fun y => .go (j, y)) js)
            fun s ys => ys.foldl (admitRay p x b.gen) (take s)
        | _ => s

/-- BATCH_ADMIT (R156). -/
def execBatchAdmit (pass : Byte) (s : State) : Host.Outcome State Fault Refusal := .next (batchAdmit s pass.toNat)

/-! ## PEN_REQUEST -/

/-- Whether a record taken from a pen is dropped unfetched (R64, R129, R130). -/
def dropped (p : Pass) (i : Item) (r : Record) : Bool :=
  match p.body with
  | .search b => !b.par.threshold && pruned r.valueLo i.best b.delta
  | .trace b => i.stop || flt (rayLimit b.par i) r.valueLo
  | _ => true

/-- A record delivered to a group: kept, dropped and settled, or discarded with its batch or its pass (R64, R167, R177). One read poisoned,
or a TRACE item entry read poisoned, ends its pass (R180); a SEARCH item entry read poisoned is for the bounds to meet. -/
def deliverRecord (core slot : Nat) (s : State) (r : Record) : State :=
  match passOf s r.pass, itemFor s r.pass r.item r.gen with
  | some p, some i =>
    if p.cancelAt.isSome then s
    else if r.poison || (r.trace && i.poison) then consumePoison s p 3 .command 0
    else if dropped p i r then formSettle s r [] []
    else modGroup s core slot fun g => match g.stock with
      | .walk held => { g with stock := .walk (held ++ [r]) }
      | _ => g
  | _, _ => s

/-- Whether a stock walk group may take a further pen: on a reserved flock only while R473 holds for its unit of work (R474). -/
def mayTake (s : State) (core : Nat) (g : Group) (p : Pen) : Bool :=
  !reserved s (flockOfCore core) || p.cls == 1 || launchTest s g.ctx (Config.stockBound (if p.trace then 2 else 1))

/-- A pen handed over by slice q to a group (R165 to R167): counted, its blocks read back, its records and item entries read and delivered. -/
def deliverPen (s : State) (core slot q : Nat) (p : Pen) (u : FoldUpset) : State :=
  let s := countEcc (countDelivery s q (core / 64) p p.aged) (upsetEcc u)
  let s := recallPen s q p
  let rs := readPen u (penAt s q p)
  let s := poisonItem (modSlice s q fun sl => takePen sl p) u rs
  rs.foldl (deliverRecord core slot) s

/-- Writes of a pass to a space: to the store at once, to memory through its Output stream. -/
def outputs (s : State) (slot : Nat) (inStore : Bool) (ws : List (Nat × List Byte)) : State :=
  if inStore then { s with store := storeWrites s.store ws } else passWrites s slot ws

/-- The last unit of a stock kernel's work done: the outputs are written, the last of them to follow (R77, R109). -/
def finishStock (s : State) (slot : Nat) (w : StockWork) : State :=
  let s := w.outs.foldl (fun s o => outputs s slot o.1 o.2) s
  modPass s slot fun p =>
    { p with status := some stOk, truncated := w.truncated, lastWrites := w.lastWrites, lastStore := w.lastStore,
             detail0 := w.detail0, detail1 := w.detail1, detail2 := w.detail2 }

/-- A group of a BUILD or a stock KERNEL takes a unit of work, or ends where none is left or R474 lets it take no more (log entry 98). -/
def builderStep (s : State) (core slot : Nat) (g : Group) : State :=
  match passOf s g.pass with
  | none => finishGroup s core slot
  | some p =>
    match p.body with
    | .stock w =>
      let may := !reserved s (flockOfCore core) || p.cls == 1 || launchTest s g.ctx (Config.stockBound w.number)
      if w.left = 0 || !may then finishGroup s core slot
      else
        let s := modPass s g.pass fun p => { p with body := .stock { w with left := w.left - 1 } }
        if w.left = 1 then finishStock s g.pass w else s
    | _ => finishGroup s core slot

/-- A stock walk group with nothing left to do asks for a pen (R165 to R167); it ends where none of its context is left, or where R474
lets it take no more. A group of a BUILD or a stock KERNEL asks for its next unit of work. -/
def penRequest (s : State) (core slot : Nat) (u : FoldUpset) : State :=
  match groupOf s core slot with
  | some g =>
    match g.stock with
    | .walk [] =>
      if !(coreOf s core).clockOn then s
      else
        let s := ageSlices s
        match findPen s (core / 64) g.ctx with
        | none => finishGroup s core slot
        | some (q, p) => if !mayTake s core g p then finishGroup s core slot else deliverPen s core slot q p u
    | .builder => if (coreOf s core).clockOn then builderStep s core slot g else s
    | _ => s
  | none => s

/-- PEN_REQUEST (R165). -/
def execPenRequest (group : GroupRef) (upset : FoldUpset) (now : U64) (s : State) : Host.Outcome State Fault Refusal :=
  .next (penRequest (atTime s now) group.core.toNat group.slot.toNat upset)

/-! ## Processing a record -/

/-- What a visit found, applied: its records and scored keys on their way (R161), results that were not finite counted (R413). -/
def applyVisit (p : Pass) (r : Record) (s : State) (v : Visit) : State :=
  let s := degradePass s p.slot v.deg
  let s := if v.nonfinite = 0 then s else countCtx s p.ctx 0 v.nonfinite
  formSettle s r v.out v.sc

/-- The visit of a record by a group of a core: nodes, keys and primitives through its Core fetch stream, full queries through the
streams of its pass (Table 11.1). -/
def visitOf (s : State) (core slot : Nat) (p : Pass) (i : Item) (r : Record) : Option (Plan Visit) :=
  let rdr := Reader.group core slot
  match p.body with
  | .search b => some (if r.leaf then visitLeaf s p.ctx rdr (core / 64) b r else visitNode s p.ctx rdr b i r)
  | .trace b => some (if r.leaf then visitPrims s p.ctx rdr b i r else visitGeo s p.ctx rdr b i r)
  | _ => none

/-- Whether a record that a group holds is still worth a fetch: its pass and its batch stand, and its ray has not stopped (R130, R172,
R177). none: it has no effect; false: it settles with zero emitted. -/
def heldWork (s : State) (r : Record) : Option (Pass × Item × Bool) :=
  match passOf s r.pass, itemFor s r.pass r.item r.gen with
  | some p, some i => if p.cancelAt.isSome then none else some (p, i, !(r.trace && i.stop))
  | _, _ => none

/-- Whether the reads that a record needs can be made now (R371, R372). -/
def recordReads (s : State) (core slot : Nat) (r : Record) : Bool :=
  match heldWork s r with
  | some (p, i, true) => (match visitOf s core slot p i r with
      | some v => v.reads.all (spanFits s p.slot p.cls)
      | none => true)
  | _ => true

/-- A held record processed: of a pass gone or cut, or of an evicted batch, it has no effect (R172, R177); of a stopped ray it fetches
nothing and settles (R130). -/
def processRecord (s : State) (core slot : Nat) (r : Record) : State :=
  match heldWork s r with
  | some (p, i, true) => (match visitOf s core slot p i r with
      | some v => onPlan s p v (applyVisit p r)
      | none => s)
  | some (_, _, false) => formSettle s r [] []
  | none => s

/-- The records that a stock walk group holds. -/
def heldBy (s : State) (core slot : Nat) : Option (List Record) :=
  match groupOf s core slot with
  | some g => (match g.stock with | .walk held => some held | _ => none)
  | none => none

/-- The first record that a stock group holds and pick names, taken from it and processed once its reads can be made; other groups are
the business of k. -/
def stockStep (pick : Record → Bool) (k : State → State) (s : State) (core slot : Nat) : State :=
  match heldBy s core slot with
  | some held =>
    if !(coreOf s core).clockOn then s
    else match held.find? pick with
      | none => s
      | some r =>
        if !recordReads s core slot r then s
        else
          let s := modGroup s core slot fun g => { g with stock := .walk (dropFirst (· == r) held) }
          processRecord s core slot r
  | none => k s

/-- BOUND_TEST (R61, R122). -/
def execBoundTest (core : BitVec 8) (slot : BitVec 4) (s : State) : Host.Outcome State Fault Refusal :=
  .next (stockStep (fun r => !r.leaf) (fun s => issueIf holdsB s core.toNat slot.toNat false false) s core.toNat slot.toNat)

/-- MMA (R247). -/
def execMma (core : BitVec 8) (slot : BitVec 4) (s : State) : Host.Outcome State Fault Refusal :=
  .next (stockStep (fun r => r.leaf && !r.trace) (fun s => issueIf (holdsX .mma) s core.toNat slot.toNat false false) s core.toNat
    slot.toNat)

/-- PRIMITIVE_TEST (R136 to R145). -/
def execPrimitiveTest (core : BitVec 8) (slot : BitVec 4) (s : State) : Host.Outcome State Fault Refusal :=
  .next (stockStep (fun r => r.leaf && r.trace) (fun s => issueIf holdsP s core.toNat slot.toNat false false) s core.toNat slot.toNat)

/-- END (R277). -/
def execEndGroup (core : BitVec 8) (slot : BitVec 4) (s : State) : Host.Outcome State Fault Refusal :=
  .next (issueIf (holdsC .endg) s core.toNat slot.toNat false false)

/-! ## RUNNING_BEST_MAX and CANDIDATE_APPEND -/

/-- Whether a scored key belongs to a TRACE. -/
def isTrace (s : State) (slot : Nat) : Bool :=
  match passOf s slot with
  | some p => (match p.body with | .trace _ => true | _ => false)
  | none => false

/-- The running best raised by an FP32 maximum, or the limit of a ray lowered by an FP32 minimum (R41, R127). -/
def raiseBest (trace : Bool) (v : U32) (i : Item) : Item := { i with best := if trace then fmin i.best v else fmax i.best v }

/-- The first scored key whose maximum is still to be made reaches its store hub. -/
def runningBest (s : State) : State :=
  match s.fold.scored.find? (!·.raised) with
  | none => s
  | some x =>
    let s := { s with fold := { s.fold with scored := modFirst (· == x) (fun x => { x with raised := true }) s.fold.scored } }
    if (itemFor s x.pass x.item x.gen).isSome then modItem s x.pass x.item (raiseBest (isTrace s x.pass) x.cand.val) else s

/-- RUNNING_BEST_MAX (R41). -/
def execRunningBestMax (s : State) : Host.Outcome State Fault Refusal := .next (runningBest s)

/-- Whether a scored key becomes a candidate as its item stands (R66, R71, R128). -/
def isCandidate (p : Pass) (i : Item) (c : Cand) : Bool :=
  match p.body with
  | .search b => b.par.threshold || exactGe c.val b.delta i.best
  | .trace b => !flt (rayLimit b.par i) c.val
  | _ => false

/-- Whether the candidates of a pass take entries of hit staging: those of CLOSEST and ANY stay in the state entry. -/
def takesEntries (p : Pass) : Bool := match p.body with | .trace b => b.par.query == 2 | _ => true

/-- Step 1 of R79 for a pass. -/
def thinFor (s : State) (p : Pass) : State :=
  match p.body with
  | .search b => thinPass s p.slot b.par.threshold b.delta (b.par.kMaxM1 + 1)
  | .trace b =>
    let thin := fun (i : Item) => if i.pass = p.slot then thinRay (b.par.hitCapM1 + 1) i else i
    { s with fold := { s.fold with items := s.fold.items.map thin } }
  | _ => s

/-- Whether one more candidate of a pass fits hit staging. -/
def candFits (s : State) (p : Pass) : Bool := candsOf s p % 4096 != 0 || hitBlocks s < hitLimit s

/-- Evictions of a pass's batches until one more candidate fits, at most n of them (R79 steps 2 and 3). -/
def relieve (slot : Nat) : Nat → State → State
  | 0, s => s
  | n + 1, s => match passOf s slot with
    | none => s
    | some p =>
      if candFits s p then s
      else match (passWalk p).bind (evictOf s slot) with
        | some s => relieve slot n s
        | none => s

/-- An item with a candidate: of a CLOSEST ray the first in the order of R120 stays, of an ANY ray that there is one. -/
def appendTo (p : Pass) (c : Cand) (i : Item) : Item :=
  match p.body with
  | .trace b =>
    if b.par.query = 0 then { i with cands := (hitsInOrder (c :: i.cands)).take 1 }
    else if b.par.query = 1 then { i with stop := true }
    else { i with cands := i.cands ++ [c] }
  | _ => { i with cands := i.cands ++ [c] }

/-- A scored key is done with: its settle update waits for it no longer. -/
def doneScored (s : State) (x : Scored) : State :=
  settleAccept { s with fold := { s.fold with scored := dropFirst (· == x) s.fold.scored } } x.settle

/-- A scored key that is a candidate, appended. -/
def putCandidate (s : State) (x : Scored) (p : Pass) : State := modItem (doneScored s x) x.pass x.item (appendTo p x.cand)

/-- Whether a scored key can be dealt with as things stand: found to be no candidate, or placed where there is room. -/
def canAppend (s : State) (x : Scored) : Bool :=
  match passOf s x.pass, itemFor s x.pass x.item x.gen with
  | some p, some i => !isCandidate p i x.cand || !takesEntries p || candFits s p
  | _, _ => true

/-- A scored key that can be dealt with: dropped with its item, found to be no candidate, or appended. -/
def appendOne (s : State) (x : Scored) : State :=
  match passOf s x.pass, itemFor s x.pass x.item x.gen with
  | some p, some i => if isCandidate p i x.cand then putCandidate s x p else doneScored s x
  | _, _ => doneScored s x

/-- The steps of R79 for the pass of a scored key that found no free block; the key is appended when they free one. -/
def pressAppend (s : State) (x : Scored) : State :=
  match passOf s x.pass with
  | some p =>
    let s := relieve x.pass 4096 (thinFor s p)
    if canAppend s x then appendOne s x else s
  | none => s

/-- The first scored key whose maximum has been made and that hit staging has room for is appended, or found to be no candidate: one
pass that waits holds up no other (R48). Where none has room, the first starts R79. -/
def appendCandidate (s : State) : State :=
  let ready := s.fold.scored.filter (·.raised)
  match ready.find? (canAppend s) with
  | some x => appendOne s x
  | none => match ready.head? with
    | some x => pressAppend s x
    | none => s

/-- CANDIDATE_APPEND (R66). -/
def execCandidateAppend (s : State) : Host.Outcome State Fault Refusal := .next (appendCandidate s)

/-! ## SETTLE_UPDATE and QUERY_PLACEMENT -/

/-- An item that has retired: its final filter or all-hits sort (R67 to R69, R162). -/
def retireItem (s : State) (p : Pass) (i : Item) : State :=
  match p.body with
  | .search b => let r := filterItem b.par b.delta i; retire (noteNarrow s p.slot r) p.slot r
  | .trace b => retire s p.slot (filterRay b.par i)
  | _ => s

/-- The first settle update that waits for nothing more adds emitted − 1 to its item's count (R161); at zero the item retires. -/
def settleUpdate (s : State) : State :=
  match s.fold.settles.find? (·.waiting == 0) with
  | none => s
  | some x =>
    let s := { s with fold := { s.fold with settles := dropFirst (· == x) s.fold.settles } }
    match passOf s x.pass, itemFor s x.pass x.item x.gen with
    | some p, some i =>
      let i := { i with count := i.count + x.emitted - 1 }
      if i.count = 0 then retireItem s p i else modItem s x.pass x.item fun _ => i
    | _, _ => s

/-- SETTLE_UPDATE (R161). -/
def execSettleUpdate (s : State) : Host.Outcome State Fault Refusal := .next (settleUpdate s)

/-- The lowest unplaced item of a pass placed, when it has retired (R78). -/
def queryPlacement (s : State) (slot : Nat) : State :=
  match passOf s slot with
  | none => s
  | some p =>
    if p.cancelAt.isSome then s
    else match p.body with
      | .search b => (match b.walk.retired.find? (·.index == b.walk.placed) with
          | some r => placeQuery s slot b r
          | none => s)
      | .trace b => (match b.walk.retired.find? (·.index == b.walk.placed) with
          | some r => placeRay s slot b r
          | none => s)
      | _ => s

/-- QUERY_PLACEMENT (R78). -/
def execQueryPlacement (pass : Byte) (s : State) : Host.Outcome State Fault Refusal := .next (queryPlacement s pass.toNat)

end Sys2Proof.Machine
end

