-- ==== Sys2Proof/Machine/TestAccess.lean ====
section
/-! DEFINITION. Test access (R502 to R504, Tables 15.9 and 15.10): the wrapper's instruction register, its registers between mld_wsi and
mld_wso, the BIST instruments. -/
namespace Sys2Proof.Machine

/-! ## The instruction register -/

/-- Whether the wrapper works: the engine is powered and not tied absent (R515). -/
def wrapperUp (s : State) : Bool := s.pins.powered && (strapsNow s).present

/-- The WIR loaded with an instruction; what it has in effect follows (R502). -/
def loadWir (s : State) (w : BitVec 4) : State :=
  if wrapperUp s then testEffect { s with wrapper := { s.wrapper with wir := w } } else s

/-- WS_BYPASS (R502). -/
def execWsBypass (s : State) : Host.Outcome State Fault Refusal := .next (loadWir s 0x0)
/-- WS_EXTEST (R502). -/
def execWsExtest (s : State) : Host.Outcome State Fault Refusal := .next (loadWir s 0x1)
/-- WS_PRELOAD (R502). -/
def execWsPreload (s : State) : Host.Outcome State Fault Refusal := .next (loadWir s 0x2)
/-- WS_INTEST_SCAN (R502). -/
def execWsIntestScan (s : State) : Host.Outcome State Fault Refusal := .next (loadWir s 0x3)
/-- WS_CLAMP (R502). -/
def execWsClamp (s : State) : Host.Outcome State Fault Refusal := .next (loadWir s 0x4)
/-- MLD_IDCODE (R502). -/
def execMldIdcode (s : State) : Host.Outcome State Fault Refusal := .next (loadWir s 0x8)
/-- MLD_IJTAG (R504). -/
def execMldIjtag (s : State) : Host.Outcome State Fault Refusal := .next (loadWir s 0x9)

/-- mld_wrstn: the wrapper is reset; the instruments of the 1687 network keep what they hold. -/
def wrapperReset (s : State) : State :=
  if wrapperUp s then testEffect { s with wrapper := { Wrapper.reset with bists := s.wrapper.bists, ignored := s.wrapper.ignored } } else s

/-- WRAPPER_RESET (R502). -/
def execWrapperReset (s : State) : Host.Outcome State Fault Refusal := .next (wrapperReset s)

/-! ## The registers between mld_wsi and mld_wso -/

/-- The cells of the boundary register: one on every input and output of Tables 15.2 and 15.3, and on mld_irq_n. -/
def boundaryCells : Nat := 64297

/-- A register after one shift: its new cells and the bit that leaves it. -/
def shiftReg (n : Nat) (cells : List Bool) (wsi : Bool) : List Bool × Bool := ((wsi :: cells).take n, cells.getD (n - 1) false)

/-- The 32 bits of MLD_ID, the bit that leaves first last. -/
def idBits : List Bool := ((List.range 32).map fun i => bitOf 0x58570200 i).reverse

/-- The 1687 network as its capture finds it: one cell for each SIB, the cells of its instrument behind it where it is open. -/
def captureChain (w : Wrapper) (k : Nat) : Wrapper :=
  let got := fun i => if w.sibs.getD i false then Config.instrumentBits i k else []
  { w with chain := (List.range 10).flatMap (fun i => w.sibs.getD i false :: got i), lens := (List.range 10).map fun i => (got i).length }

/-- The SIBs as an update takes them from their cells. -/
def updateSibs (w : Wrapper) : Wrapper :=
  let place := fun i => i + ((w.lens.take i)).sum
  { w with sibs := (List.range 10).map fun i => w.chain.getD (place i) false }

/-- The instruction that a pulse of mld_wrck acts under: a barred one out of reset, and a reserved one, act as WS_BYPASS. -/
def wirNow (s : State) : Nat :=
  let w := s.wrapper.wir.toNat
  if (wirBarred s.wrapper.wir && s.pins.rstN) || !(w ∈ [1, 2, 3, 8, 9]) then 0 else w

/-- A capture. -/
def captureWr (s : State) : State :=
  let w := s.wrapper
  match wirNow s with
  | 0 => { s with wrapper := { w with bypass := false } }
  | 3 => s
  | 8 => { s with wrapper := { w with idShift := idBits } }
  | 9 => { s with wrapper := captureChain w s.freeCtr, freeCtr := s.freeCtr + 1 }
  | _ => { s with wrapper := { w with boundary := (Config.boundaryPins s.freeCtr).take boundaryCells }, freeCtr := s.freeCtr + 1 }

/-- A shift. What leaves the internal scan chains the manual does not state (log entry 3). -/
def shiftWr (s : State) (wsi : Bool) : State :=
  let w := s.wrapper
  match wirNow s with
  | 0 => { s with wrapper := { w with wso := w.bypass, bypass := wsi } }
  | 3 => let f := fresh s
         { f.2 with wrapper := { w with wso := bitOf f.1.toNat 0 } }
  | 8 => let r := shiftReg 32 w.idShift wsi
         { s with wrapper := { w with idShift := r.1, wso := r.2 } }
  | 9 => let r := shiftReg w.chain.length w.chain wsi
         { s with wrapper := { w with chain := r.1, wso := r.2 } }
  | _ => let r := shiftReg boundaryCells w.boundary wsi
         { s with wrapper := { w with boundary := r.1, wso := r.2 } }

/-- An update. -/
def updateWr (s : State) : State :=
  let w := s.wrapper
  match wirNow s with
  | 1 => { s with wrapper := { w with latched := w.boundary } }
  | 2 => { s with wrapper := { w with latched := w.boundary } }
  | 9 => { s with wrapper := updateSibs w }
  | _ => s

/-- WRAPPER_SHIFT (R521): a pulse of mld_wrck in one of its three phases; reset does not stop it. -/
def execWrapperShift (phase : WrapperPhase) (wsi : Bool) (s : State) : Host.Outcome State Fault Refusal :=
  .next (if !wrapperUp s then s
    else match phase with
      | .capture => captureWr s
      | .shift => shiftWr s wsi
      | .update => updateWr s)

/-! ## BIST -/

/-- Whether a BIST instrument is in the scan path (Table 15.10: SIB 1 to 9). -/
def bistOpen (s : State) (sib : Nat) : Bool := wrapperUp s && s.wrapper.wir == 9 && 1 ≤ sib && sib ≤ 9 && s.wrapper.sibs.getD sib false

/-- A start written to an instrument: it runs in reset; out of reset it is ignored and counted (R504). -/
def bistStart (s : State) (sib : Nat) : State :=
  if !bistOpen s sib then s
  else if s.pins.rstN then { s with wrapper := { s.wrapper with ignored := s.wrapper.ignored + 1 } }
  else { s with wrapper := { s.wrapper with bists := modAt s.wrapper.bists sib fun b => { b with running := true, done := false } } }

/-- BIST_START (R504). -/
def execBistStart (sib : BitVec 4) (s : State) : Host.Outcome State Fault Refusal := .next (bistStart s sib.toNat)

/-- A BIST that runs finishes: its instrument shows what it found. -/
def bistDone (s : State) (sib : Nat) (b : Bist) : State :=
  if wrapperUp s && (s.wrapper.bists.getD sib .reset).running then
    { s with wrapper := { s.wrapper with bists := modAt s.wrapper.bists sib fun _ => b } }
  else s

/-- BIST_DONE (R504). -/
def execBistDone (sib : BitVec 4) (fails : U32) (firstBank : Byte) (firstLine : BitVec 14) (firstBit : BitVec 7) (mask : BitVec 512)
    (s : State) : Host.Outcome State Fault Refusal :=
  .next (bistDone s sib.toNat ⟨false, true, fails, firstBank, firstLine, firstBit, mask⟩)

end Sys2Proof.Machine
end

