-- ==== Sys2Proof/Machine/Xfer.lean ====
section
/-! DEFINITION. XFER (R383 to R385): its checks, its elements, and the reads it issues in ascending linear number (R386). -/
namespace Sys2Proof.Machine

/-- The lowest and the highest offset of an element of a side from its element 0, exact (R384). -/
def sideExtent (dims : Nat) (counts : List Nat) (strides : List Int) : Int × Int :=
  (List.range dims).foldl (fun (t : Int × Int) k =>
    let d := ((counts.getD k 1 : Nat) - 1 : Int) * strides.getD k 0
    if d < 0 then (t.1 + d, t.2) else (t.1, t.2 + d)) (0, 0)

/-- The bounding range of a side: its first byte and the byte after its last, exact. -/
def boundingRange (x : XferParams) (src : Bool) : Int × Int :=
  let e := sideExtent x.dims x.counts (if src then x.srcStride else x.dstStride)
  let a : Int := (if src then x.srcAddr else x.dstAddr : Nat)
  (a + e.1, a + e.2 + x.elemBytes)

/-- The offset of element k (its cursor) on a side. -/
def cursorOffset (strides : List Int) (k : List Nat) : Int := ((k.zip strides).map fun p => (p.1 : Int) * p.2).sum

/-- The address of element e on a side. -/
def elemAddr (x : XferParams) (src : Bool) (e : Nat) : Nat :=
  let k := xferCursor x e
  if src then ((x.srcAddr : Int) + cursorOffset x.srcStride k).toNat else ((x.dstAddr : Int) + cursorOffset x.dstStride k).toNat

/-- The number of elements of an XFER. -/
def elemCount (x : XferParams) : Nat := (x.counts.take x.dims).foldl (· * ·) 1

/-- The first store byte of a range, exact, outside the windows; below address 0 its own first byte, modulo 2^64. -/
def rangeOutside (w : BitVec 512) (r : Int × Int) : Option Nat :=
  if r.1 < 0 then some (ofSigned 8 r.1) else firstOutside w r.1.toNat (r.2 - r.1).toNat

/-- The checks of R451 and R384, in order; those of the ranges apply where there is an element. -/
def xferChecks (c : Ctx) (f : Fetched) (x : XferParams) : List (Bool × Deny) :=
  let high := (List.range 5).drop x.dims
  let some_ := elemCount x != 0
  let s := boundingRange x true
  let d := boundingRange x false
  let cnt := high.find? fun k => x.counts.getD k 0 != 0
  let ss := high.find? fun k => x.srcStride.getD k 0 != 0
  let ds := high.find? fun k => x.dstStride.getD k 0 != 0
  let mem := fun (r : Int × Int) => decide (r.1 < 0 || (2 ^ 64 : Int) < r.2)
  let out := fun (r : Int × Int) (off : Nat) => match rangeOutside c.windows r with
    | some a => (true, (⟨stPermission, 0, (denyField f stPermission off).off, a⟩ : Deny))
    | none => (false, denyField f stPermission off)
  [(x.elemBytes = 0 || 2 ^ 24 < x.elemBytes, denyField f stDesc 40), (x.dims = 0 || 5 < x.dims, denyField f stDesc 44),
   (cnt.isSome, denyBlock f stDesc (4 * cnt.getD 0)), (!zeroAt f.block [(20, 4)], denyBlock f stDesc (firstNonzero f.block [(20, 4)])),
   (ss.isSome, denyBlock f stDesc (24 + 8 * ss.getD 0)), (ds.isSome, denyBlock f stDesc (64 + 8 * ds.getD 0)),
   (!zeroAt f.block [(104, 24)], denyBlock f stDesc (firstNonzero f.block [(104, 24)])),
   (some_ && x.srcStore == x.dstStore && decide (s.1 < d.2 && d.1 < s.2), denyField f stDesc 16),
   (some_ && !x.srcStore && mem s, denyField f stDesc 16), (some_ && !x.dstStore && mem d, denyField f stDesc 24)] ++
  (if some_ && x.srcStore then [out s 16] else []) ++ (if some_ && x.dstStore then [out d 24] else [])

/-- Whether the destinations of two elements overlap. -/
def destsOverlap (x : XferParams) (n : Nat) : Bool :=
  let as := sortBy (fun a b => decide (a ≤ b)) ((List.range n).map (elemAddr x false))
  (as.zip (as.drop 1)).any fun p => p.2 < p.1 + x.elemBytes

/-- The number of the Transfer stream of a pass. -/
def xferStream (s : State) (slot : Nat) : Nat :=
  ((s.streams.find? fun t => t.pass == slot && 1280 ≤ t.number && t.number < 1536).map (·.number)).getD 1280

/-- A read of an element's bytes from memory. -/
def xferReadReq (s : State) (p : Pass) (number a n e dst : Nat) : Req :=
  { kind := .read, asid := BitVec.ofNat 20 (asidOf s p.ctx), ctx := p.ctx, addr := a, len := n, data := [], poison := false,
    cls := p.cls, stream := number, quad := 0, pass := p.slot, formed := 0, sink := .xferRead e dst, atomicOp := 0, wide := false,
    opA := 0, opB := 0 }

/-- The reads of element e: formed at the ports, or made of the store, whose bytes go on at once; a poisoned beat that the
element before ends in is counted with that one (R389). -/
def xferElem (slot : Nat) (p : Pass) (x : XferParams) (number : Nat) (s : State) (e : Nat) : State :=
  let a := elemAddr x true e
  let d := elemAddr x false e
  if x.srcStore then
    let after := decide (0 < e) && elemAddr x true (e - 1) + x.elemBytes == a && a % 64 != 0
    (pieces 64 a x.elemBytes).foldl (fun s y =>
      let m := storeRead s.store y.1 y.2.2
      let new := m.bad.isSome && !(after && y.2.1 == 0)
      xferDeliver (xferPoison (seenLines s y.1 y.2.2) slot (bit new)) slot e (d + y.2.1) m.bytes m.bad.isSome) s
  else
    (pieces 512 a x.elemBytes).foldl (fun s y =>
      formReq s (streamPort y.1) (xferReadReq s p number y.1 y.2.2 e (d + y.2.1))) s

/-- An XFER admitted: its stream opens and its elements are read (R386); with a count of 0 it is done (R385). -/
def xferGo (c ring : Nat) (s : State) (f : Fetched) : State :=
  let x := parseXfer f.desc f.block
  let n := elemCount x
  if n = 0 then admitDone s c ring f stOk
  else
    let slot := freeSlot s
    let left := (List.range n).map fun e => (e, x.elemBytes)
    let s := admitBody s c ring f (.xfer ⟨x, left, none, destsOverlap x n, []⟩)
    match passOf s slot with
    | none => s
    | some p =>
      let s := openLowest s 0 1280 256 slot p.cls
      (List.range n).foldl (xferElem slot p x (xferStream s slot)) s

/-- XFER (R383). -/
def execXfer (ctx : BitVec 12) (ring : BitVec 4) (s : State) : Host.Outcome State Fault Refusal :=
  .next (admitWith s ctx.toNat ring.toNat (isOp opXfer) (fun _ x f => firstDeny (xferChecks x f (parseXfer f.desc f.block)))
    fun s f => xferGo ctx.toNat ring.toNat s f)

end Sys2Proof.Machine
end

