-- ==== Sys2Proof/Machine/Dispatch.lean ====
section
/-! DEFINITION. exec: what each command does to the state, one arm per constructor of Instr. The queue of waiting commands
is step's alone. -/
namespace Sys2Proof.Machine

/-- The effect of a command. -/
def exec (i : Instr) (s : State) : Host.Outcome State Fault Refusal :=
  match i with
  | .resetAssert => Sys2Proof.Machine.execResetAssert s
  | .resetRelease => Sys2Proof.Machine.execResetRelease s
  | .parkEnter cause => Sys2Proof.Machine.execParkEnter cause s
  | .parkExit cause => Sys2Proof.Machine.execParkExit cause s
  | .parkResponse req => Sys2Proof.Machine.execParkResponse req s
  | .supplyWarningFall now => Sys2Proof.Machine.execSupplyWarningFall now s
  | .supplyWarningRise now => Sys2Proof.Machine.execSupplyWarningRise now s
  | .throttleRecoveryEnd now => Sys2Proof.Machine.execThrottleRecoveryEnd now s
  | .dutyStop core ran => Sys2Proof.Machine.execDutyStop core ran s
  | .dutyRun core stopped => Sys2Proof.Machine.execDutyRun core stopped s
  | .linkTrainedRise l now => Sys2Proof.Machine.execLinkTrainedRise l now s
  | .linkTrainedFall l => Sys2Proof.Machine.execLinkTrainedFall l s
  | .linkBringupTimeout l now => Sys2Proof.Machine.execLinkBringupTimeout l now s
  | .ringLinkClockStop l => Sys2Proof.Machine.execRingLinkClockStop l s
  | .alignmentWordReceive l lanes skew now => Sys2Proof.Machine.execAlignmentWordReceive l lanes skew now s
  | .alignmentWordSend l => Sys2Proof.Machine.execAlignmentWordSend l s
  | .memberAbsentReceive l => Sys2Proof.Machine.execMemberAbsentReceive l s
  | .idleFlitReceive l f now => Sys2Proof.Machine.execIdleFlitReceive l f now s
  | .ackFlitReceive l f now => Sys2Proof.Machine.execAckFlitReceive l f now s
  | .handoffDataReceive l f now => Sys2Proof.Machine.execHandoffDataReceive l f now s
  | .handoverDataReceive l f now => Sys2Proof.Machine.execHandoverDataReceive l f now s
  | .marginFlitReceive l f now => Sys2Proof.Machine.execMarginFlitReceive l f now s
  | .ackTimeoutReplay l now => Sys2Proof.Machine.execAckTimeoutReplay l now s
  | .ackReturnTimer l now => Sys2Proof.Machine.execAckReturnTimer l now s
  | .marginIntervalSend l margins now => Sys2Proof.Machine.execMarginIntervalSend l margins now s
  | .census1 l f now => Sys2Proof.Machine.execCensus1 l f now s
  | .census2 l f now => Sys2Proof.Machine.execCensus2 l f now s
  | .censusTimeout now => Sys2Proof.Machine.execCensusTimeout now s
  | .handoffReady l f now => Sys2Proof.Machine.execHandoffReady l f now s
  | .handoffEnd l f now => Sys2Proof.Machine.execHandoffEnd l f now s
  | .handoffRecvDone pass now => Sys2Proof.Machine.execHandoffRecvDone pass now s
  | .handoffAck l f now => Sys2Proof.Machine.execHandoffAck l f now s
  | .handoffAbort l f now => Sys2Proof.Machine.execHandoffAbort l f now s
  | .handoffTimeout pass now => Sys2Proof.Machine.execHandoffTimeout pass now s
  | .epochVote l f now => Sys2Proof.Machine.execEpochVote l f now s
  | .epochHandover l f now => Sys2Proof.Machine.execEpochHandover l f now s
  | .epochCommit l f now => Sys2Proof.Machine.execEpochCommit l f now s
  | .epochAbort l f now => Sys2Proof.Machine.execEpochAbort l f now s
  | .epochDrained now => Sys2Proof.Machine.execEpochDrained now s
  | .epochTimeout now => Sys2Proof.Machine.execEpochTimeout now s
  | .handoverBegin l f now => Sys2Proof.Machine.execHandoverBegin l f now s
  | .handoverEnd l f now => Sys2Proof.Machine.execHandoverEnd l f now s
  | .handoverWritesDone now => Sys2Proof.Machine.execHandoverWritesDone now s
  | .handoverAck l f now => Sys2Proof.Machine.execHandoverAck l f now s
  | .ringDown l f now => Sys2Proof.Machine.execRingDown l f now s
  | .registerWrite by_ offset wide value => Sys2Proof.Machine.execRegisterWrite by_ offset wide value s
  | .completerAddrErr req => Sys2Proof.Machine.execCompleterAddrErr req s
  | .ctxCommit ctx agents => Sys2Proof.Machine.execCtxCommit ctx agents s
  | .ctxCommitDeferred => Sys2Proof.Machine.execCtxCommitDeferred s
  | .kmBoot image agents now => Sys2Proof.Machine.execKmBoot image agents now s
  | .firmwareVerified verdict now => Sys2Proof.Machine.execFirmwareVerified verdict now s
  | .quadrantRelease lineFail now => Sys2Proof.Machine.execQuadrantRelease lineFail now s
  | .bootTimeout now => Sys2Proof.Machine.execBootTimeout now s
  | .droverReadyTimeout now => Sys2Proof.Machine.execDroverReadyTimeout now s
  | .ctxWrite ctx entry agents => Sys2Proof.Machine.execCtxWrite ctx entry agents s
  | .ctxRetire ctx => Sys2Proof.Machine.execCtxRetire ctx s
  | .msgSet n addr data wire => Sys2Proof.Machine.execMsgSet n addr data wire s
  | .debugAuth ctx enable => Sys2Proof.Machine.execDebugAuth ctx enable s
  | .govLimit watts => Sys2Proof.Machine.execGovLimit watts s
  | .droverRestart now => Sys2Proof.Machine.execDroverRestart now s
  | .kmRequestUnknown code => Sys2Proof.Machine.execKmRequestUnknown code s
  | .halt by_ => Sys2Proof.Machine.execHalt by_ s
  | .debugHaltTaken => Sys2Proof.Machine.execDebugHaltTaken s
  | .debugStep by_ => Sys2Proof.Machine.execDebugStep by_ s
  | .debugResume by_ => Sys2Proof.Machine.execDebugResume by_ s
  | .snap by_ now => Sys2Proof.Machine.execSnap by_ now s
  | .censusStart now => Sys2Proof.Machine.execCensusStart now s
  | .index ctx ring asid value agents => Sys2Proof.Machine.execIndex ctx ring asid value agents s
  | .setup ctx ring asid value agents => Sys2Proof.Machine.execSetup ctx ring asid value agents s
  | .teardown ctx ring asid value => Sys2Proof.Machine.execTeardown ctx ring asid value s
  | .ringTeardownComplete ctx ring => Sys2Proof.Machine.execRingTeardownComplete ctx ring s
  | .doorbellDiscard offset bytes asid value => Sys2Proof.Machine.execDoorbellDiscard offset bytes asid value s
  | .descriptorFetch ctx ring now => Sys2Proof.Machine.execDescriptorFetch ctx ring now s
  | .nop ctx ring => Sys2Proof.Machine.execNop ctx ring s
  | .fence ctx ring => Sys2Proof.Machine.execFence ctx ring s
  | .fenceRelease pass => Sys2Proof.Machine.execFenceRelease pass s
  | .barrierCounter ctx ring now => Sys2Proof.Machine.execBarrierCounter ctx ring now s
  | .barrierPoll pass now => Sys2Proof.Machine.execBarrierPoll pass now s
  | .barrierTimeout pass now => Sys2Proof.Machine.execBarrierTimeout pass now s
  | .barrierHandoff ctx ring now => Sys2Proof.Machine.execBarrierHandoff ctx ring now s
  | .epoch ctx ring => Sys2Proof.Machine.execEpoch ctx ring s
  | .xfer ctx ring => Sys2Proof.Machine.execXfer ctx ring s
  | .scatter ctx ring => Sys2Proof.Machine.execScatter ctx ring s
  | .build ctx ring => Sys2Proof.Machine.execBuild ctx ring s
  | .search ctx ring => Sys2Proof.Machine.execSearch ctx ring s
  | .trace ctx ring => Sys2Proof.Machine.execTrace ctx ring s
  | .renderFwd ctx ring => Sys2Proof.Machine.execRenderFwd ctx ring s
  | .renderBwd ctx ring => Sys2Proof.Machine.execRenderBwd ctx ring s
  | .kernel ctx ring => Sys2Proof.Machine.execKernel ctx ring s
  | .calibSetup ctx ring => Sys2Proof.Machine.execCalibSetup ctx ring s
  | .calibExport ctx ring => Sys2Proof.Machine.execCalibExport ctx ring s
  | .calibPropose ctx ring => Sys2Proof.Machine.execCalibPropose ctx ring s
  | .calibCommit ctx ring => Sys2Proof.Machine.execCalibCommit ctx ring s
  | .calibSave ctx ring => Sys2Proof.Machine.execCalibSave ctx ring s
  | .calibRestore ctx ring => Sys2Proof.Machine.execCalibRestore ctx ring s
  | .calibDisable ctx ring => Sys2Proof.Machine.execCalibDisable ctx ring s
  | .cancelPass ctx ring now => Sys2Proof.Machine.execCancelPass ctx ring now s
  | .cancelRing ctx ring now => Sys2Proof.Machine.execCancelRing ctx ring now s
  | .cancelComplete pass now => Sys2Proof.Machine.execCancelComplete pass now s
  | .cancelTimeout pass now => Sys2Proof.Machine.execCancelTimeout pass now s
  | .passCompletion pass now => Sys2Proof.Machine.execPassCompletion pass now s
  | .completionRingSpace pass now => Sys2Proof.Machine.execCompletionRingSpace pass now s
  | .messageWrite ctx ring now => Sys2Proof.Machine.execMessageWrite ctx ring now s
  | .batchAdmit pass => Sys2Proof.Machine.execBatchAdmit pass s
  | .recordAccept read now => Sys2Proof.Machine.execRecordAccept read now s
  | .penAgeLimit slice now => Sys2Proof.Machine.execPenAgeLimit slice now s
  | .penRequest group upset now => Sys2Proof.Machine.execPenRequest group upset now s
  | .settleUpdate => Sys2Proof.Machine.execSettleUpdate s
  | .runningBestMax => Sys2Proof.Machine.execRunningBestMax s
  | .candidateAppend => Sys2Proof.Machine.execCandidateAppend s
  | .queryPlacement pass => Sys2Proof.Machine.execQueryPlacement pass s
  | .herdLaunch pass core now => Sys2Proof.Machine.execHerdLaunch pass core now s
  | .flockLaunch pass flock now => Sys2Proof.Machine.execFlockLaunch pass flock now s
  | .br core slot => Sys2Proof.Machine.execBr core slot s
  | .brnone core slot => Sys2Proof.Machine.execBrnone core slot s
  | .ifMask core slot => Sys2Proof.Machine.execIfMask core slot s
  | .elseMask core slot => Sys2Proof.Machine.execElseMask core slot s
  | .endifMask core slot => Sys2Proof.Machine.execEndifMask core slot s
  | .barH core slot => Sys2Proof.Machine.execBarH core slot s
  | .barF core slot => Sys2Proof.Machine.execBarF core slot s
  | .endGroup core slot => Sys2Proof.Machine.execEndGroup core slot s
  | .mma core slot => Sys2Proof.Machine.execMma core slot s
  | .fetch group upsets => Sys2Proof.Machine.execFetch group upsets s
  | .wait core slot => Sys2Proof.Machine.execWait core slot s
  | .kernelFence core slot => Sys2Proof.Machine.execKernelFence core slot s
  | .ldL core slot ecc => Sys2Proof.Machine.execLdL core slot ecc s
  | .stL core slot => Sys2Proof.Machine.execStL core slot s
  | .ldF core slot => Sys2Proof.Machine.execLdF core slot s
  | .stF core slot => Sys2Proof.Machine.execStF core slot s
  | .ldG core slot => Sys2Proof.Machine.execLdG core slot s
  | .stG core slot => Sys2Proof.Machine.execStG core slot s
  | .atG core slot => Sys2Proof.Machine.execAtG core slot s
  | .atfG core slot => Sys2Proof.Machine.execAtfG core slot s
  | .boundTest core slot => Sys2Proof.Machine.execBoundTest core slot s
  | .primitiveTest core slot => Sys2Proof.Machine.execPrimitiveTest core slot s
  | .vectorAlu core slot upset => Sys2Proof.Machine.execVectorAlu core slot upset s
  | .scalarAlu core slot => Sys2Proof.Machine.execScalarAlu core slot s
  | .tagComplete core slot tag => Sys2Proof.Machine.execTagComplete core slot tag s
  | .timeBound core slot waited => Sys2Proof.Machine.execTimeBound core slot waited s
  | .contextDrained ctx now => Sys2Proof.Machine.execContextDrained ctx now s
  | .drainStalled ctx now => Sys2Proof.Machine.execDrainStalled ctx now s
  | .portReadGrant port => Sys2Proof.Machine.execPortReadGrant port s
  | .portWriteGrant port => Sys2Proof.Machine.execPortWriteGrant port s
  | .mergeWindowExpire port => Sys2Proof.Machine.execMergeWindowExpire port s
  | .eppResponse at_ ecc now => Sys2Proof.Machine.execEppResponse at_ ecc now s
  | .scrubLine upsets => Sys2Proof.Machine.execScrubLine upsets s
  | .awlWindow => Sys2Proof.Machine.execAwlWindow s
  | .sweepStart now => Sys2Proof.Machine.execSweepStart now s
  | .sampleComplete => Sys2Proof.Machine.execSampleComplete s
  | .primitiveBin pass => Sys2Proof.Machine.execPrimitiveBin pass s
  | .tileStart unit ecc => Sys2Proof.Machine.execTileStart unit ecc s
  | .droverReport now => Sys2Proof.Machine.execDroverReport now s
  | .droverWatchdog now => Sys2Proof.Machine.execDroverWatchdog now s
  | .droverSandboxViolation addr => Sys2Proof.Machine.execDroverSandboxViolation addr s
  | .droverNote code payload => Sys2Proof.Machine.execDroverNote code payload s
  | .engineFatal code addr => Sys2Proof.Machine.execEngineFatal code addr s
  | .wsBypass => Sys2Proof.Machine.execWsBypass s
  | .wsExtest => Sys2Proof.Machine.execWsExtest s
  | .wsPreload => Sys2Proof.Machine.execWsPreload s
  | .wsIntestScan => Sys2Proof.Machine.execWsIntestScan s
  | .wsClamp => Sys2Proof.Machine.execWsClamp s
  | .mldIdcode => Sys2Proof.Machine.execMldIdcode s
  | .mldIjtag => Sys2Proof.Machine.execMldIjtag s
  | .wrapperReset => Sys2Proof.Machine.execWrapperReset s
  | .bistStart sib => Sys2Proof.Machine.execBistStart sib s
  | .txTake l => Sys2Proof.Machine.execTxTake l s
  | .ringLinkClockStart l => Sys2Proof.Machine.execRingLinkClockStart l s
  | .powerUp => Sys2Proof.Machine.execPowerUp s
  | .powerDown => Sys2Proof.Machine.execPowerDown s
  | .bistDone sib fails firstBank firstLine firstBit mask => Sys2Proof.Machine.execBistDone sib fails firstBank firstLine firstBit mask s
  | .governorLimiting limiting => Sys2Proof.Machine.execGovernorLimiting limiting s
  | .wrapperShift phase wsi => Sys2Proof.Machine.execWrapperShift phase wsi s

end Sys2Proof.Machine
end

