-- ==== Sys2Proof/Safety.lean ====
section
/-! DEFINITION. What claims about runs are stated in: the canonical form of memory, the shape of a state that a run keeps, what commands
of the engine's own units leave alone, safe runs. -/
namespace Sys2Proof.Machine

/-- The canonical form of a memory: addresses strictly rising, no entry equal to the zero an unlisted address reads as. -/
abbrev Memory.wf (m : List Host.Cell) : Bool := smWf 0 m

/-- The shape every run keeps: 32 memory ports, 2 ring links, 32 flocks, 4 fold slices (Tables 0.1 and 15.3, R20). -/
def State.shaped (s : State) : Prop :=
  s.ports.length = 32 ∧ s.links.length = 2 ∧ s.flocks.length = 32 ∧ s.fold.slices.length = 4

/-- The invariant of every step: both memories in canonical form, and the shape. -/
def State.canonical (s : State) : Prop :=
  Memory.wf s.chip.bytes = true ∧ Memory.wf s.store.bytes = true ∧ s.shaped

/-- The queue, the pins, the sampled straps, the throttle, Drover and the wrapper, unchanged. -/
def State.sameEdge (s t : State) : Prop :=
  t.pending = s.pending ∧ t.pins = s.pins ∧ t.straps = s.straps ∧ t.thr = s.thr ∧ t.drover = s.drover ∧ t.wrapper = s.wrapper

/-- The commands that may change a pin, a strap, the throttle, Drover or the wrapper: reset, park and supply events, firmware boot and
Drover, the test wrapper. -/
def Instr.atEdge : Instr → Bool
  | .resetAssert | .resetRelease | .parkEnter _ | .parkExit _ | .parkResponse _ | .supplyWarningFall _ | .supplyWarningRise _
  | .throttleRecoveryEnd _ | .dutyStop .. | .governorLimiting _ | .powerUp | .powerDown
  | .firmwareVerified .. | .quadrantRelease .. | .bootTimeout _ | .droverReadyTimeout _ | .droverRestart _ | .droverReport _
  | .droverWatchdog _ | .droverSandboxViolation _ | .wsBypass | .wsExtest | .wsPreload | .wsIntestScan | .wsClamp | .mldIdcode
  | .mldIjtag | .wrapperReset | .wrapperShift .. | .bistStart _ | .bistDone .. => true
  | _ => false

/-- The commands that stand for an access of the host through the completer, which it answers (R446, R494). -/
def Instr.answered : Instr → Bool
  | .registerWrite .. | .completerAddrErr _ | .ctxCommit .. | .kmBoot .. | .ctxWrite .. | .ctxRetire _ | .msgSet .. | .debugAuth ..
  | .govLimit _ | .kmRequestUnknown _ | .halt _ | .debugStep _ | .debugResume _ | .snap .. | .censusStart _ | .index .. | .setup ..
  | .teardown .. | .doorbellDiscard .. => true
  | _ => false

/-! ## Flits and messages that a link takes -/

/-- The state in which the header of a flit has been taken: mld_time, ack_seq and nak (R200). -/
def State.headerTaken (s : State) (now : U64) (l : LinkSide) (f : Flit) : State := applyAck (atTime s now) l f

/-- The link takes flits, the flit's CRC and type are right, and its ack or nak does not end the link. -/
def State.takesFlit (s : State) (now : U64) (l : LinkSide) (f : Flit) : Prop :=
  hears s l = true ∧ badFlit f = false ∧ hears (s.headerTaken now l f) l = true

/-- The flit is also the next of its series of sequence numbers. -/
def State.takesNext (s : State) (now : U64) (l : LinkSide) (f : Flit) : Prop :=
  s.takesFlit now l f ∧ f.seq = (linkOf (s.headerTaken now l f) l).rxSeq

/-- The state that what such a flit carries meets: its sequence number accepted, its credits taken. -/
def State.accepted (s : State) (now : U64) (l : LinkSide) (f : Flit) : State :=
  applyCredits (modLink (s.headerTaken now l f) l acceptSeq) l f

/-- The flit is the next of its series, a CTRL flit that carries a message of this code for this engine. -/
def State.takesMsg (s : State) (now : U64) (l : LinkSide) (f : Flit) (code : Nat) : Prop :=
  s.takesNext now l f ∧ f.flitType = 2 ∧ msgCode f.payload = code ∧ forMe (s.accepted now l f) f.payload = true

/-! ## Descriptors at a ring's head -/

/-- A descriptor of an opcode stands admissible at the head of a ring of a context. -/
def State.heads (s : State) (c r : Nat) (o : Byte) (f : Fetched) (x : Ctx) : Prop :=
  admissible s c r = some f ∧ ctxOf s c = some x ∧ dOpcode f.desc = o

/-- A doorbell of a context passes R446 and R437: the window is open, the asid is the context's, and the ring is no submission ring of
a halted context. -/
def State.rings446 (s : State) (c r : Nat) (asid : BitVec 20) : Prop :=
  engineUp s = true ∧ s.bring.released = true ∧ asidMatches s c asid = true ∧
  (∀ x, ctxOf s c = some x → x.halted = true → (ringOf s (ringKey c r)).active = true → (ringOf s (ringKey c r)).kind ≠ 0)

/-- The state after a doorbell is accepted: answered OKAY, and noted in its word. -/
def State.rung (s : State) (c r : Nat) (v : U32) : State := modRing (okWrite s) (ringKey c r) fun k => { k with doorbell := v }

/-- How the descriptor at a ring's head whose admission a plan decides is dealt with: a plan that refuses completes it with the refusal;
else its pass is admitted with a body, its Pass input streams open in each quadrant and the plan's reads are made; a read that failed ends
the pass, or go follows. -/
def State.planned {α : Type} (s : State) (c r : Nat) (f : Fetched) (body : Body) (arrays : Nat) (z : Plan α)
    (out : Host.Outcome State Fault Refusal) (go : State → Pass → α → State) : Prop :=
  let a := admitPass s (newPass s c r f.desc body)
  (∀ y, z.out = .deny y → out = .next (refuse s c r f.desc y)) ∧
  ∀ p, passOf a (freeSlot s) = some p →
    let u := seeSpans (openInputs a p arrays) p.ctx z.reads
    (∀ rd v, z.out = .xlate rd v → out = .next (xlatePass u p rd v)) ∧
    (∀ n rd v, z.out = .poison n rd v → out = .next (consumePoison u p n rd v)) ∧
    (∀ y, z.out = .go y → out = .next (go u p y))

/-! ## Bundles -/

/-- A group whose slot the arbiter of a core starts next, with its herd and its next bundle, in the state t in which the bound unit of
the core no longer holds back every group (R223, R268). -/
def State.starts (s : State) (core slot : Nat) (t : State) (g : Group) (h : Herd) (b : Bundle) : Prop :=
  t = awaitBound s core ∧ (coreOf s core).clockOn = true ∧ arbiter t core = some slot ∧ groupOf t core slot = some g ∧ g.stock = .user ∧
  nextBundle g = some b ∧ herdOf (coreOf t core) g.pass g.herd = some h

/-- The group and the herd as the bundle reads them: results due have been written (R261). -/
def Group.reading (g : Group) : Group := dueGroup (clearPending g)
def Herd.reading (g : Group) (h : Herd) : Herd := dueHerd (clearPending g) h

/-- The checks of Table 8.5 that a bundle fails. -/
def Group.failing (g : Group) (h : Herd) (b : Bundle) : List Fail :=
  dueFails (clearPending g) ++ bundleFails g.reading (h.reading g) b

/-- Nothing stops a bundle: no check fails, no poison, no double-bit error in what it reads. -/
def State.performs (s : State) (g : Group) (h : Herd) (b : Bundle) (eccReg eccLocal : Bool) : Prop :=
  g.failing h b = [] ∧ bundleStop s g.reading (h.reading g) b eccReg eccLocal = none

/-- The herd's due bytes written, and its bytes that an MMA or FETCH is at work on mixed where the bundle reads them (R253, R274). -/
def State.landed (s : State) (core : Nat) (g : Group) (b : Bundle) : State :=
  let r := g.reading
  mixHerd (landLocal (fenceDrop s core g) core (clearPending g)) core r.pass r.herd none (localReads r b) []

/-- The herd that a bundle reads. -/
def State.herdRead (s : State) (core : Nat) (g : Group) (h : Herd) : Herd :=
  (herdOf (coreOf s core) g.reading.pass g.reading.herd).getD (h.reading g)

/-- The register side of a bundle: the due bytes, the arbiter's note, the group after it, the registers of its due results that are
sources of a store under way, its B slot. -/
def State.registerSide (s : State) (core : Nat) (g : Group) (h : Herd) (b : Bundle) : State :=
  let r := g.reading
  let s := s.landed core g b
  let k := s.herdRead core g h
  let s := modGroup (noteStart s core g) core r.slot fun x => { issueGroup r k b with tags := x.tags }
  let s := spoilStores s core r.slot (dueWrites (clearPending g))
  match b.b with | some x => issueB s core r k x | none => s

/-- The whole effect of a bundle: its register side, its memory slot, its X slot, the core cycles it takes, the barrier or end it arrives
at, the time bounds that have passed. -/
def State.bundleDone (s : State) (core : Nat) (g : Group) (h : Herd) (b : Bundle) : State :=
  let s := s.registerSide core g h b
  let s := match b.m with | some m => issueM s core g.reading m | none => s
  let s := match b.x with | some x => issueX s core g.reading x | none => s
  let s := passCycles s core (some g.reading.slot) (g.reading.width / 16)
  timeFaults (match b.c with | some c => arrive s core g.reading c | none => s) core

/-- Whether a step answers a next state: no command of this engine faults or is refused. -/
def State.goesOn (s : State) : Prop := ∃ t, step s = .next t

/-- A run of n steps that goes on. -/
def State.safe (s : State) : Nat → Prop
  | 0 => True
  | n + 1 => ∃ t, step s = .next t ∧ t.safe n

end Sys2Proof.Machine
end

