-- ==== Sys2Proof/WellFormed.lean ====
section
/-! DEFINITION. Well-formed commands: what a sender can send. A command that is not well formed has no counterpart at the engine's
boundary (log entry 25). -/
namespace Sys2Proof

/-- A flit as the 512 bytes of a word-time hold it: 496 bytes of payload, no more of them valid (Table 6.3). -/
def Flit.wf (f : Flit) : Bool := f.payload.length == 496 && f.payloadLen.toNat ≤ 496

/-- Bytes other agents wrote: each key is one of an address space of 20 bits and an address of 64 (R489). -/
def keysOk (l : List (Nat × Byte)) : Bool := l.all fun kv => kv.1 < 2 ^ 84

/-- The SIBs of Table 15.10 behind which a BIST lies. -/
def sibOk (sib : BitVec 4) : Bool := 1 ≤ sib.toNat && sib.toNat ≤ 9

/-- Whether a command is well formed. -/
def Instr.wf (i : Instr) : Bool :=
  match i with
  | .alignmentWordReceive _ lanes _ _ => lanes.length == 16
  | .idleFlitReceive _ f _ => f.wf
  | .ackFlitReceive _ f _ => f.wf
  | .handoffDataReceive _ f _ => f.wf
  | .handoverDataReceive _ f _ => f.wf
  | .marginFlitReceive _ f _ => f.wf
  | .marginIntervalSend _ margins _ => margins.length == 16
  | .census1 _ f _ => f.wf
  | .census2 _ f _ => f.wf
  | .handoffReady _ f _ => f.wf
  | .handoffEnd _ f _ => f.wf
  | .handoffAck _ f _ => f.wf
  | .handoffAbort _ f _ => f.wf
  | .epochVote _ f _ => f.wf
  | .epochHandover _ f _ => f.wf
  | .epochCommit _ f _ => f.wf
  | .epochAbort _ f _ => f.wf
  | .handoverBegin _ f _ => f.wf
  | .handoverEnd _ f _ => f.wf
  | .handoverAck _ f _ => f.wf
  | .ringDown _ f _ => f.wf
  | .registerWrite _ offset wide _ => offset.toNat % (if wide then 8 else 4) == 0
  | .ctxCommit _ agents => keysOk agents
  | .kmBoot _ agents _ => keysOk agents
  | .quadrantRelease lineFail _ => match lineFail with | some x => x.2.2.toNat ≤ 71 | none => true
  | .ctxWrite _ _ agents => keysOk agents
  | .index _ _ _ _ agents => keysOk agents
  | .setup _ _ _ _ agents => keysOk agents
  | .droverNote _ payload => payload.length == 36
  | .engineFatal code _ => code == 1 || code == 2
  | .bistStart sib => sibOk sib
  | .bistDone sib _ _ _ _ _ => sibOk sib
  | .resetAssert | .resetRelease | .parkEnter _ | .parkExit _ | .parkResponse _ | .supplyWarningFall _
  | .supplyWarningRise _ | .throttleRecoveryEnd _ | .dutyStop _ _ | .dutyRun _ _ | .linkTrainedRise _ _ | .linkTrainedFall _
  | .linkBringupTimeout _ _ | .ringLinkClockStop _ | .alignmentWordSend _ | .memberAbsentReceive _ | .ackTimeoutReplay _ _
  | .ackReturnTimer _ _ | .censusTimeout _ | .handoffRecvDone _ _ | .handoffTimeout _ _ | .epochDrained _ | .epochTimeout _
  | .handoverWritesDone _ | .completerAddrErr _ | .ctxCommitDeferred | .firmwareVerified _ _ | .bootTimeout _
  | .droverReadyTimeout _ | .ctxRetire _ | .msgSet _ _ _ _ | .debugAuth _ _ | .govLimit _ | .droverRestart _
  | .kmRequestUnknown _ | .halt _ | .debugHaltTaken | .debugStep _ | .debugResume _ | .snap _ _ | .censusStart _
  | .teardown _ _ _ _ | .ringTeardownComplete _ _ | .doorbellDiscard _ _ _ _ | .descriptorFetch _ _ _ | .nop _ _
  | .fence _ _ | .fenceRelease _ | .barrierCounter _ _ _ | .barrierPoll _ _ | .barrierTimeout _ _ | .barrierHandoff _ _ _
  | .epoch _ _ | .xfer _ _ | .scatter _ _ | .build _ _ | .search _ _ | .trace _ _ | .renderFwd _ _ | .renderBwd _ _
  | .kernel _ _ | .calibSetup _ _ | .calibExport _ _ | .calibPropose _ _ | .calibCommit _ _ | .calibSave _ _
  | .calibRestore _ _ | .calibDisable _ _ | .cancelPass _ _ _ | .cancelRing _ _ _ | .cancelComplete _ _ | .cancelTimeout _ _
  | .passCompletion _ _ | .completionRingSpace _ _ | .messageWrite _ _ _ | .batchAdmit _ | .recordAccept _ _
  | .penAgeLimit _ _ | .penRequest _ _ _ | .settleUpdate | .runningBestMax | .candidateAppend | .queryPlacement _
  | .herdLaunch _ _ _ | .flockLaunch _ _ _ | .br _ _ | .brnone _ _ | .ifMask _ _ | .elseMask _ _ | .endifMask _ _
  | .barH _ _ | .barF _ _ | .endGroup _ _ | .mma _ _ | .fetch _ _ | .wait _ _ | .kernelFence _ _ | .ldL _ _ _ | .stL _ _
  | .ldF _ _ | .stF _ _ | .ldG _ _ | .stG _ _ | .atG _ _ | .atfG _ _ | .boundTest _ _ | .primitiveTest _ _
  | .vectorAlu _ _ _ | .scalarAlu _ _ | .tagComplete _ _ _ | .timeBound _ _ _ | .contextDrained _ _ | .drainStalled _ _
  | .portReadGrant _ | .portWriteGrant _ | .mergeWindowExpire _ | .eppResponse _ _ _ | .scrubLine _ | .awlWindow
  | .sweepStart _ | .sampleComplete | .primitiveBin _ | .tileStart _ _ | .droverReport _ | .droverWatchdog _
  | .droverSandboxViolation _ | .wsBypass | .wsExtest | .wsPreload | .wsIntestScan | .wsClamp | .mldIdcode | .mldIjtag
  | .wrapperReset | .txTake _ | .ringLinkClockStart _ | .powerUp | .powerDown | .governorLimiting _ | .wrapperShift _ _ => true

end Sys2Proof
end

