-- ==== Sys2Proof/Certificates/Slice0/Obligations.lean ====
section
/-! DEFINITION. The statements for the provers, family by family. Each docstring says what its statement formalises; OBLIGATIONS.json
lists them with the rules they cite. -/
open Sys2Proof Sys2Proof.Machine

/-- O1. When a command waits at the front of the queue, a step is exec of that command on the state with the queue's rest. The queue
is the model's form of the order in which commands arrive. [spec/opcode_table.json, spec/INDEX.md] -/
def Obligations.FrontCommandRuns : Prop :=
  ∀ (s : State) (c : Instr) (rest : List Instr), s.pending = c :: rest → step s = exec c { s with pending := rest }

/-- O2. With no command waiting a step advances mld_time by 10 ns, one period of mld_tref_clk, lowers the retrain of every link, and
changes nothing else. That it does so is the model's choice (log entry 2). [spec/15_ports_clocks_power_reset.md Table 15.1] -/
def Obligations.EmptyQueueTicks : Prop :=
  ∀ s : State, s.pending = [] → step s = .next { s with
    time := s.time + 10, links := s.links.map fun k => { k with retrain := false } }

/-- O3. At State.reset every parameter register holds the value of its Reset column, MLD_STORE_PART is 0x0202_0418, bring-up stands
at step 1, no context, ring, pass, group, pen or item exists, every counter is zero and both links are down.
[spec/16_setup_registers.md Tables 16.3 to 16.6, 16.9, 16.10, spec/15_ports_clocks_power_reset.md Table 15.14] -/
def Obligations.ResetValues : Prop :=
  State.reset.regs = Regs.reset ∧ Regs.reset.coreFreq = 0x640 ∧ Regs.reset.govLimit = 0x12C ∧ Regs.reset.ageLimit = 0x190 ∧
  Regs.reset.highWater = 7 ∧ Regs.reset.holdFill = 16 ∧ Regs.reset.bgSlotMax = 0x200 ∧ Regs.reset.streamSlotMax = 0x200 ∧
  Regs.reset.cancelTimeout = 0x64 ∧ Regs.reset.dlFlockMask = 0x01010101 ∧ Regs.reset.dlLead = 0x3E8 ∧ Regs.reset.bgFlockMax = 4 ∧
  Regs.reset.dlPassSlots = 16 ∧ Regs.reset.replayLimit = 8 ∧ Regs.reset.linkAckTimeout = 0x14 ∧ Regs.reset.marginInterval = 0xA ∧
  Regs.reset.handoffTimeout = 0x64 ∧ Regs.reset.censusTimeout = 0x32 ∧ Regs.reset.epochTimeout = 0x3E8 ∧ Regs.reset.barrierPoll = 0x19 ∧
  Regs.reset.barrierTimeout = 0x64 ∧ Regs.reset.awlRate = 0xC ∧ Regs.reset.awlStoreCap = 3 ∧ Regs.reset.awlTarget = 0x3F7FBE77 ∧
  Regs.reset.awlGp = 0x3F000000 ∧ Regs.reset.awlGi = 0x3D4CCCCD ∧ Regs.reset.awlILimit = 0x42800000 ∧ Regs.reset.awlStep = 0x3F800000 ∧
  Regs.reset.awlDMin = 0 ∧ Regs.reset.awlDMax = 0x42800000 ∧ Regs.reset.awlMinSamples = 0x10 ∧
  State.reset.bring.storePart = 0x02020418 ∧ State.reset.bring.step = 1 ∧ State.reset.thr.duty = 0 ∧
  State.reset.ctxs = [] ∧ State.reset.rings = [] ∧ State.reset.passes = [] ∧ State.reset.cores = [] ∧ State.reset.fold = Fold.reset ∧
  State.reset.counters = [] ∧ State.reset.ctxCounters = [] ∧ State.reset.net = RingNet.reset ∧ (∀ l, (linkOf State.reset l).status = 0)

/-- O4. At State.reset the chip's memory and the store are in canonical form, and the engine has 32 memory ports, 2 ring links, 32
flocks and 4 fold slices. The form of the memories is the model's (log entry 27). [spec/15_ports_clocks_power_reset.md,
spec/01_engine_organisation.md] -/
def Obligations.ResetIsCanonical : Prop :=
  State.reset.canonical

/-- O5. From every state whose memories are in canonical form and that has 32 ports, 2 links, 32 flocks and 4 slices, every step,
whatever the command and its operands, answers a state of the same form. [spec/01_engine_organisation.md, spec/05_fold_and_pens.md,
spec/15_ports_clocks_power_reset.md] -/
def Obligations.StepKeepsCanonicalForm : Prop :=
  ∀ s t : State, s.canonical → step s = .next t → t.canonical

/-- O6. A command that is not a reset, park or supply event, a firmware boot or Drover event or a test-wrapper command leaves the
queue, the pins, the sampled straps, the supply throttle, Drover and the test wrapper as they were; one that is no access of the
host through the completer either leaves the completer's last answer as it was. [spec/15_ports_clocks_power_reset.md,
spec/17_faults_log_firmware_debug.md] -/
def Obligations.EngineCommandsKeepBoundary : Prop :=
  ∀ (c : Instr) (s t : State), Instr.atEdge c = false → exec c s = .next t →
    s.sameEdge t ∧ (Instr.answered c = false → t.answer = s.answer)

/-- O7. In every state and with every operand, exec answers a next state: the engine reports its own faults in status bytes, events
and the trouble log, and no command stops it. [spec/00_scope.md R19, spec/opcode_table.json] -/
def Obligations.EveryCommandCompletes : Prop :=
  ∀ (c : Instr) (s : State), ∃ t, exec c s = .next t

/-- O8. POWER_UP with the engine isolated and in reset powers the engine: nothing of the state survives, not the trouble log, not
MLD_STORE_PART, not the wrapper. POWER_DOWN of a powered engine in reset does the same and leaves it without power. Pins, the chip's
memory, the clock of each link and its trained input are kept. [spec/15_ports_clocks_power_reset.md R507, R508] -/
def Obligations.PowerUpAndDown : Prop :=
  ∀ s : State, s.pins.rstN = false →
    (s.pins.powered = false → s.pins.isoEn = true →
      exec .powerUp s = .next { State.reset with
        pending := s.pending, time := s.time, pins := { s.pins with unsound := false, powered := true },
        bring := { Bringup.reset with step := 0, cold := true, sampled := false }, links := s.links.map linkAfterReset, chip := s.chip,
        freeCtr := s.freeCtr }) ∧
    (s.pins.powered = true →
      exec .powerDown s = .next { State.reset with
        pending := s.pending, time := s.time, pins := { s.pins with unsound := false, powered := false },
        bring := { Bringup.reset with step := 0, cold := true, sampled := false }, links := s.links.map linkAfterReset, chip := s.chip,
        freeCtr := s.freeCtr })

/-- O9. RESET_ASSERT on a running engine whose ports hold no request in flight leaves every register, ring, pass, group, pen and
counter at its reset value, keeps the trouble log, MLD_STORE_PART, the wrapper, the chip's memory and the link clocks, and bring-up
stands at step 0. RESET_RELEASE on a powered, present engine whose wrapper holds WS_BYPASS samples the straps, sets bring-up step 1
and keeps the log of a warm reset with a good check value. [spec/15_ports_clocks_power_reset.md R503, R510, R519,
spec/16_setup_registers.md R529] -/
def Obligations.ResetAssertAndRelease : Prop :=
  ∀ s : State, s.pins.powered = true → s.wrapper.wir = 0 →
    (s.pins.rstN = true → (strapsNow s).present = true → (∀ p ∈ s.ports, p.outRd = [] ∧ p.outWr = []) →
      exec .resetAssert s = .next { State.reset with
        pending := s.pending, time := s.time, pins := { s.pins with unsound := false, rstN := false }, straps := s.straps,
        bring := { Bringup.reset with
          step := 0, storePart := s.bring.storePart, scanOwed := s.bring.scanOwed, cold := s.bring.cold,
          sampled := s.bring.sampled },
        log := { s.log with cleared := false }, links := s.links.map linkAfterReset, chip := s.chip,
        wrapper := { s.wrapper with driving := false }, freeCtr := s.freeCtr }) ∧
    (s.pins.rstN = false → s.pins.straps.present = true → s.bring.cold = false → s.bring.scanOwed = false → s.log.checkOk = true →
      exec .resetRelease s = .next { State.reset with
        pending := s.pending, time := s.time, pins := { s.pins with unsound := false, rstN := true }, straps := s.pins.straps,
        bring := { Bringup.reset with step := 1, storePart := s.bring.storePart },
        thr := { Throttle.reset with warn := !s.pins.pwrWarnN },
        log := { s.log with cleared := false }, links := s.links.map linkAfterReset, chip := s.chip,
        wrapper := s.wrapper, freeCtr := s.freeCtr })

/-- O10. PARK_ENTER for a cause that then holds parks the outputs and empties the command port's channels; mld_engine_present that
falls after it was sampled parks nothing. PARK_EXIT that ends the last cause empties every EPP channel; while the engine is parked
with mld_park_cmd_mode 1, PARK_RESPONSE answers a request with ADDR_ERR. [spec/15_ports_clocks_power_reset.md R485, R515 to R518] -/
def Obligations.ParkValues : Prop :=
  ∀ s : State,
    let absent := { s.pins.straps with present := false }
    let parks := fun (p : Pins) => { s with pins := { p with parked := true }, answer := none, cmdChan := ⟨none, []⟩ }
    let leaves := fun (p : Pins) => { s with
      pins := { p with parked := false }, ports := List.replicate 32 .reset, answer := none, cmdChan := ⟨none, []⟩ }
    (s.bring.sampled = false → exec (.parkEnter .absent) s = .next (parks { s.pins with straps := absent })) ∧
    (s.bring.sampled = true → s.straps.present = true → s.pins.isoEn = false → s.pins.rstN = true →
      exec (.parkEnter .absent) s = .next { s with pins := { s.pins with straps := absent } }) ∧
    exec (.parkEnter .isolation) s = .next (parks { s.pins with isoEn := true, unsound := s.pins.unsound || s.pins.rstN }) ∧
    (s.pins.rstN = false → exec (.parkEnter .reset) s = .next (parks s.pins)) ∧
    (s.pins.parked = true → s.pins.rstN = true → s.pins.isoEn = false → (strapsNow s).present = true →
      exec (.parkExit .reset) s = .next (leaves s.pins)) ∧
    (s.pins.parked = true → s.pins.rstN = true → s.pins.isoEn = true → s.pins.unsound = false → (strapsNow s).present = true →
      exec (.parkExit .isolation) s = .next (leaves { s.pins with isoEn := false })) ∧
    (∀ req, s.pins.parked = true → (strapsNow s).parkCmdMode = true →
      exec (.parkResponse req) s = .next { s with answer := some (addrErr req) } ∧
      (addrErr req).code = 3 ∧ (addrErr req).data = 0 ∧ (addrErr req).tag = some req.tag)

/-- O11. On a running engine after quadrant release SUPPLY_WARNING_FALL starts reduced duty and counts a dip; SUPPLY_WARNING_RISE
during the dip starts recovery, posts THROTTLE and logs it with the dip's start, its length and the clock periods core 0 ran;
THROTTLE_RECOVERY_END restores full rate 2 µs later. [spec/15_ports_clocks_power_reset.md R511 to R513] -/
def Obligations.SupplyWarningThrottle : Prop :=
  ∀ (s : State) (now : U64), running s = true →
    (s.pins.pwrWarnN = true → s.bring.released = true →
      exec (.supplyWarningFall now) s = .next { s with
        time := now, pins := { s.pins with pwrWarnN := false },
        thr := { s.thr with warn := true, duty := 1, fellAt := now, ran0 := 0 },
        counters := smSet 0 s.counters 52 (smGet 0 s.counters 52 + 1) }) ∧
    (s.pins.pwrWarnN = false → s.thr.duty = 1 →
      let p := throttlePayload s.thr.fellAt.toNat (now - s.thr.fellAt).toNat s.thr.ran0
      exec (.supplyWarningRise now) s = .next (logWide (postWide { s with
        time := now, pins := { s.pins with pwrWarnN := true },
        thr := { s.thr with warn := false, duty := 2, roseAt := now } } 0x32 p) 0x03 0x32 p)) ∧
    (s.thr.duty = 2 → 2000 ≤ (now - s.thr.roseAt).toNat →
      exec (.throttleRecoveryEnd now) s = .next { s with time := now, thr := { s.thr with duty := 0 } })

/-- O12. At reduced duty and in recovery DUTY_STOP stops a core that has run 16 to 19 periods; those of core 0 are counted, and at
reduced duty kept for the record of the dip. DUTY_RUN starts a stopped core again after three times its run, and what waited for its
clock reaches it. GOVERNOR_LIMITING on and off is recorded, and its end adds to counter 54 a value the spec does not state (a free
value, log entry 3). [spec/15_ports_clocks_power_reset.md R511 to R513, spec/16_setup_registers.md R526,
spec/08_schedule_contract.md R281] -/
def Obligations.DutyAndGovernor : Prop :=
  ∀ (s : State) (core : BitVec 8) (ran : Nat), running s = true →
    let stopped := modCore s core.toNat fun k => { k with clockOn := false, ranFor := ran }
    let runs := modCore s core.toNat fun k => { k with clockOn := true, ranFor := 0 }
    (s.thr.duty ≠ 0 → (coreOf s core.toNat).clockOn = true → 16 ≤ ran → ran ≤ 19 →
      (core ≠ 0 → exec (.dutyStop core ran) s = .next stopped) ∧
      (core = 0 → exec (.dutyStop core ran) s = .next { stopped with
        thr := if s.thr.duty = 1 then { s.thr with ran0 := s.thr.ran0 + ran } else s.thr,
        counters := smSet 0 s.counters 53 (smGet 0 s.counters 53 + BitVec.ofNat 64 ran) })) ∧
    (∀ n, (coreOf s core.toNat).clockOn = false → n = 3 * (coreOf s core.toNat).ranFor →
      exec (.dutyRun core n) s = .next (landCrossing runs core.toNat)) ∧
    (s.thr.govLimiting = false → exec (.governorLimiting true) s = .next { s with thr := { s.thr with govLimiting := true } }) ∧
    (s.thr.govLimiting = true → exec (.governorLimiting false) s = .next { s with
      thr := { s.thr with govLimiting := false }, freeCtr := s.freeCtr + 1,
      counters := smSet 0 s.counters 54 (smGet 0 s.counters 54 + BitVec.ofNat 64 (Config.freeValue s.freeCtr).toNat) })

/-- O13. Each wrapper instruction loads its own code into the WIR of a powered, present engine. The four that Table 15.9 marks No
take effect only while mld_rst_n is 0: WS_EXTEST and WS_CLAMP then drive the outputs, and the zeroing of R503 is owed. Out of reset
they act as WS_BYPASS, and when mld_rst_n rises on one of them the WIR is loaded with WS_BYPASS. The fall of mld_rst_n does not
reset the wrapper; mld_wrstn does. [spec/15_ports_clocks_power_reset.md R502, Table 15.9] -/
def Obligations.WrapperInstructions : Prop :=
  ∀ s : State, s.pins.powered = true → (strapsNow s).present = true →
    (∀ (c : Instr) (w : BitVec 4),
      (c, w) ∈ [(.wsBypass, 0), (.wsExtest, 1), (.wsPreload, 2), (.wsIntestScan, 3), (.wsClamp, 4), (.mldIdcode, 8), (.mldIjtag, 9)] →
      exec c s = .next { s with
        wrapper := { s.wrapper with wir := w, driving := !s.pins.rstN && (w == 1 || w == 4) },
        bring := { s.bring with scanOwed := s.bring.scanOwed || (!s.pins.rstN && w ∈ [1, 2, 3, 4]) } }) ∧
    (s.pins.rstN = false → ∃ t, exec .resetRelease s = .next t ∧
      t.wrapper = if s.wrapper.wir ∈ [1, 2, 3, 4] then { s.wrapper with wir := 0, driving := false } else s.wrapper) ∧
    (s.pins.rstN = true → s.wrapper.wir ∈ [1, 2, 3, 4] → wirNow s = 0) ∧
    (∀ t, exec .resetAssert s = .next t → t.wrapper.wir = s.wrapper.wir ∧ t.wrapper.boundary = s.wrapper.boundary ∧
      t.wrapper.chain = s.wrapper.chain ∧ t.wrapper.sibs = s.wrapper.sibs) ∧
    exec .wrapperReset s = .next { s with
      wrapper := { Wrapper.reset with bists := s.wrapper.bists, ignored := s.wrapper.ignored } }

/-- O14. Under WS_BYPASS a capture clears the bypass bit and a shift moves mld_wsi through it; under MLD_IDCODE a capture takes the
32 bits of MLD_ID; an update under WS_EXTEST or WS_PRELOAD latches the boundary register, one under MLD_IJTAG opens and closes SIBs.
BIST_START of an instrument in the path runs it in reset, and out of reset is ignored and counted; BIST_DONE shows what it found.
[spec/15_ports_clocks_power_reset.md R502 to R504, Tables 15.9 and 15.10, spec/00_scope.md R2] -/
def Obligations.WrapperRegistersAndBist : Prop :=
  ∀ s : State, s.pins.powered = true → (strapsNow s).present = true →
    (wirNow s = 0 → ∀ wsi,
      exec (.wrapperShift .capture wsi) s = .next { s with wrapper := { s.wrapper with bypass := false } } ∧
      exec (.wrapperShift .shift wsi) s = .next { s with wrapper := { s.wrapper with wso := s.wrapper.bypass, bypass := wsi } } ∧
      exec (.wrapperShift .update wsi) s = .next s) ∧
    (wirNow s = 8 → ∀ wsi,
      exec (.wrapperShift .capture wsi) s = .next { s with
        wrapper := { s.wrapper with idShift := ((List.range 32).map fun i => bitOf 0x58570200 i).reverse } } ∧
      exec (.wrapperShift .shift wsi) s = .next { s with
        wrapper := { s.wrapper with idShift := (wsi :: s.wrapper.idShift).take 32, wso := s.wrapper.idShift.getD 31 false } }) ∧
    (wirNow s = 1 ∨ wirNow s = 2 → ∀ wsi,
      exec (.wrapperShift .update wsi) s = .next { s with wrapper := { s.wrapper with latched := s.wrapper.boundary } } ∧
      exec (.wrapperShift .shift wsi) s = .next { s with wrapper := { s.wrapper with
        boundary := (wsi :: s.wrapper.boundary).take boundaryCells, wso := s.wrapper.boundary.getD (boundaryCells - 1) false } }) ∧
    (wirNow s = 9 → ∀ wsi,
      exec (.wrapperShift .update wsi) s = .next { s with wrapper := updateSibs s.wrapper } ∧
      exec (.wrapperShift .shift wsi) s = .next { s with wrapper := { s.wrapper with
        chain := (wsi :: s.wrapper.chain).take s.wrapper.chain.length,
        wso := s.wrapper.chain.getD (s.wrapper.chain.length - 1) false } }) ∧
    (∀ sib : BitVec 4, 1 ≤ sib.toNat → sib.toNat ≤ 9 → s.wrapper.wir = 9 → s.wrapper.sibs.getD sib.toNat false = true →
      exec (.bistStart sib) s = .next { s with wrapper := if s.pins.rstN then { s.wrapper with ignored := s.wrapper.ignored + 1 }
        else { s.wrapper with bists := modAt s.wrapper.bists sib.toNat fun b => { b with running := true, done := false } } }) ∧
    (∀ (sib : BitVec 4) (n : U32) (bank : Byte) (line : BitVec 14) (bit : BitVec 7) (mask : BitVec 512),
      (s.wrapper.bists.getD sib.toNat .reset).running = true →
      exec (.bistDone sib n bank line bit mask) s = .next { s with
        wrapper := { s.wrapper with bists := modAt s.wrapper.bists sib.toNat fun _ => ⟨false, true, n, bank, line, bit, mask⟩ } })

/-- O15. While the ring port works and the neighbour is not absent, LINK_TRAINED_RISE of a link whose clock runs begins bring-up:
status 2, electrical idle left, an alignment word presented. LINK_TRAINED_FALL and RING_LINK_CLOCK_STOP of a link that is not up
leave it down and in electrical idle with its queues empty; RING_LINK_CLOCK_START lets bring-up begin where the PHY is trained; a
bring-up of more than 100 µs is counted, raises retrain and begins again. [spec/15_ports_clocks_power_reset.md R498, R501, R505,
spec/16_setup_registers.md R568] -/
def Obligations.LinkTraining : Prop :=
  ∀ (s : State) (l : LinkSide) (now : U64), running s = true → s.links.length = 2 →
    (∀ k, (bringLink now k).status = 2 ∧ (bringLink now k).elecIdle = false ∧ (bringLink now k).present = .alignment) ∧
    ((linkOf s l).trained = false → exec (.linkTrainedRise l now) s = .next (modLink { s with time := now } l fun k =>
        if ringPort s && (linkOf s l).clockOn && !(linkOf s l).neighbourAbsent then bringLink now k else { k with trained := true })) ∧
    ((linkOf s l).trained = true → (linkOf s l).status ≠ 3 →
      exec (.linkTrainedFall l) s = .next (modLink s l fun k => { k with
        trained := false, status := if s.bring.released && (linkOf s l).clockOn then 1 else 0, elecIdle := true,
        present := .idleElectrical, aligned := 0, outCtrl := [], outData := [], replay := [], resend := [], marginOwed := none,
        grants := 0, retrain := false })) ∧
    ((linkOf s l).clockOn = true → (linkOf s l).status ≠ 3 →
      exec (.ringLinkClockStop l) s = .next (modLink s l fun k => { k with
        clockOn := false, status := 0, elecIdle := true, present := .idleElectrical, aligned := 0,
        outCtrl := [], outData := [], replay := [], resend := [], marginOwed := none, grants := 0, retrain := false })) ∧
    ((linkOf s l).clockOn = false →
      exec (.ringLinkClockStart l) s = .next (modLink s l fun k =>
        if ringPort s && !(linkOf s l).neighbourAbsent && (linkOf s l).trained then bringLink s.time k
        else { k with clockOn := true, status := if s.bring.released then 1 else 0 })) ∧
    ((linkOf s l).status = 2 → 100000 < (now - (linkOf s l).upSince).toNat →
      exec (.linkBringupTimeout l now) s = .next (count
        (modLink { s with time := now } l fun k => { bringLink now k with retrain := true }) (64 + 16 * linkIx l + 4)))

/-- O16. When a link that is up falls from training, loses its clock or receives the member-absent pattern, it is left down;
RING_DOWN with this engine's position and the cause goes out on the other link while that is up; the ring context meets LINK_LOST;
no epoch, vote or handover is under way, a census under way can no longer return, and the ring is not ready.
[spec/06_ring_circulation_and_membership.md R211, R219, R220, spec/15_ports_clocks_power_reset.md R498] -/
def Obligations.LinkLoss : Prop :=
  ∀ (s : State) (l : LinkSide), running s = true → s.links.length = 2 → (linkOf s l).status = 3 →
    let down := fun (k : Link) (st : BitVec 2) => { downLink st k with retrain := false }
    let lose := fun (t : State) (cause : Nat) => ringLost
      (if (linkOf t (otherSide l)).status = 3 then
        sendCtrl t (otherSide l) (mkMsg 0x30 s.net.position.toNat lapDst [(2, s.net.position.toNat), (1, cause)]) else t)
      s.net.position.toNat cause (linkIx l)
    ((linkOf s l).trained = true →
      exec (.linkTrainedFall l) s = .next (lose (modLink s l fun k =>
        down { k with trained := false } (if s.bring.released && k.clockOn then 1 else 0)) 2)) ∧
    ((linkOf s l).clockOn = true →
      exec (.ringLinkClockStop l) s = .next (lose (modLink s l fun k => down { k with clockOn := false } 0) 2)) ∧
    exec (.memberAbsentReceive l) s = .next (lose (modLink s l fun k => down { k with neighbourAbsent := true } 0) 3) ∧
    (∀ t position cause link,
      let u := match ringCtx t with
        | some c => faultContext t c 0x24 (linkLostPayload position cause link) 256 0xFF true
        | none => t
      ringLost t position cause link = { u with net := { u.net with
        censusState := if u.net.censusState = 2 then 0 else u.net.censusState, state := .stable, lap := brokenLap u.net.lap, heldVote := none,
        openIn := none, epochPass := none } })

/-- O17. A good alignment word-time is counted; the second in a row owes the link its first credits, 64 CTRL and 256 DATA, to be
sent in two ACK flits. A word-time that holds an alignment word or an undefined word and is not good counts, during bring-up, an
alignment error on the lanes that are wrong and starts the alignment again. After 16,383 word-times the next is an alignment word.
The member-absent pattern on a link that aligns leaves it down with its neighbour absent.
[spec/06_ring_circulation_and_membership.md R203, R211, spec/15_ports_clocks_power_reset.md R497, R501] -/
def Obligations.AlignmentWords : Prop :=
  ∀ (s : State) (l : LinkSide) (lanes : List LaneWord) (skew : Nat) (now : U64), running s = true → (linkOf s l).status = 2 →
    (alignGood lanes skew = true ↔ lanes = (List.range 16).map (fun i => ⟨1, BitVec.ofNat 8 i⟩) ∧ skew ≤ 64) ∧
    (alignGood lanes skew = true → (linkOf s l).aligned = 0 →
      exec (.alignmentWordReceive l lanes skew now) s = .next (modLink { s with time := now } l fun k => { k with aligned := 1 })) ∧
    (alignGood lanes skew = true → (linkOf s l).aligned = 1 → (linkOf s l).credCtrl < 64 →
      exec (.alignmentWordReceive l lanes skew now) s = .next (modLink { s with time := now } l fun k =>
        { k with aligned := 2, owedCtrl := 64, owedData := 256, grants := 2 })) ∧
    (alignGood lanes skew = false → (∃ w ∈ lanes, w.type = 1 ∨ w.type = 3) → (linkOf s l).aligned < 2 →
      exec (.alignmentWordReceive l lanes skew now) s = .next (modLink (count
        (modLink { s with time := now } l fun k => { k with alignErrs := laneErrors k.alignErrs lanes }) (64 + 16 * linkIx l + 3)) l
        fun k => { k with aligned := 0 })) ∧
    (16383 ≤ (linkOf s l).words →
      exec (.alignmentWordSend l) s = .next (modLink s l fun k => { k with words := 0, retrain := false, present := .alignment })) ∧
    exec (.memberAbsentReceive l) s = .next (modLink s l fun k => { k with
      neighbourAbsent := true, status := 0, elecIdle := true, present := .idleElectrical, aligned := 0, outCtrl := [], outData := [],
      replay := [], resend := [], marginOwed := none, grants := 0, retrain := false })

/-- O18. An IDLE or ACK flit that the link takes hands over its ack_seq, nak and credits and does nothing more; a MARGIN flit beside
that sets the link's eight margin counters from its payload. A flit of any of these commands whose CRC fails or whose flit_type is
reserved is discarded: a nak is owed and the discard is counted. [spec/06_ring_circulation_and_membership.md R199 to R204,
spec/16_setup_registers.md Table 16.11] -/
def Obligations.UnsequencedFlits : Prop :=
  ∀ (s : State) (l : LinkSide) (f : Flit) (now : U64), hears s l = true →
    (s.takesFlit now l f →
      (f.flitType = 0 → exec (.idleFlitReceive l f now) s = .next (applyCredits (s.headerTaken now l f) l f)) ∧
      (f.flitType = 3 → exec (.ackFlitReceive l f now) s = .next (applyCredits (s.headerTaken now l f) l f)) ∧
      (f.flitType = 4 → exec (.marginFlitReceive l f now) s = .next
        ((List.range 8).foldl (fun t k => setCounter t (72 + 16 * linkIx l + k) (BitVec.ofNat 64 (field f.payload (8 * k) 8)))
          (applyCredits (s.headerTaken now l f) l f)))) ∧
    (f.crc ≠ flitCrc f ∨ 5 ≤ f.flitType.toNat →
      ∀ c ∈ [Instr.idleFlitReceive l f now, .ackFlitReceive l f now, .marginFlitReceive l f now, .handoffDataReceive l f now,
          .handoverDataReceive l f now, .census1 l f now, .census2 l f now, .handoffReady l f now, .handoffEnd l f now,
          .handoffAck l f now, .handoffAbort l f now, .epochVote l f now, .epochHandover l f now, .epochCommit l f now,
          .epochAbort l f now, .handoverBegin l f now, .handoverEnd l f now, .handoverAck l f now, .ringDown l f now],
        exec c s = .next (count (modLink { s with time := now } l fun k => { k with rxDrop := true, nakOwed := true })
          (64 + 16 * linkIx l)))

/-- O19. Of the DATA and CTRL flits that a link takes, one whose sequence number lies before the one expected is dropped and an ack
is owed; one that lies after it opens a gap: later flits are dropped and one nak is owed. Neither is performed: beside its header's
ack nothing of it takes effect. [spec/06_ring_circulation_and_membership.md R200, R201] -/
def Obligations.SequenceNumbers : Prop :=
  ∀ (s : State) (l : LinkSide) (f : Flit) (now : U64), s.takesFlit now l f →
    let t := s.headerTaken now l f
    let d := (f.seq - (linkOf t l).rxSeq).toNat
    d ≠ 0 →
    ∀ c, (f.flitType = 1 ∧ f.dataKind ≠ 1 ∧ c = Instr.handoffDataReceive l f now) ∨
        (f.flitType = 1 ∧ f.dataKind = 1 ∧ c = .handoverDataReceive l f now) ∨
        (f.flitType = 2 ∧ (msgCode f.payload, c) ∈ [(0x01, Instr.census1 l f now), (0x02, .census2 l f now),
          (0x10, .handoffReady l f now), (0x11, .handoffEnd l f now), (0x12, .handoffAck l f now), (0x13, .handoffAbort l f now),
          (0x20, .epochVote l f now), (0x21, .epochHandover l f now), (0x22, .epochCommit l f now), (0x23, .epochAbort l f now),
          (0x24, .handoverBegin l f now), (0x25, .handoverEnd l f now), (0x26, .handoverAck l f now), (0x30, .ringDown l f now)]) →
      exec c s = .next (modLink t l fun k => if 32768 ≤ d then { k with ackOwed := true }
        else if k.rxDrop then k else { k with rxDrop := true, nakOwed := true })

/-- O20. On a link that takes flits: once ack_seq has not advanced for link_ack_timeout, every unacknowledged flit is sent again and
the replay counted; 1 µs after the last ack_seq returned, with flits accepted since, an ack is owed; every margin_interval a MARGIN
flit with the PHY's values is owed. [spec/06_ring_circulation_and_membership.md R200, R201, R204] -/
def Obligations.LinkTimers : Prop :=
  ∀ (s : State) (l : LinkSide) (now : U64), hears s l = true →
    ((linkOf s l).replay ≠ [] → 1000 * (linkOf s l).ackLimit ≤ (now - (linkOf s l).ackAt).toNat →
      (linkOf s l).fruitless < s.regs.replayLimit.toNat →
      exec (.ackTimeoutReplay l now) s = .next (count (modLink { s with time := now } l fun k => { k with
        resend := k.replay, fruitless := k.fruitless + 1, ackAt := now, ackLimit := s.regs.linkAckTimeout.toNat })
        (64 + 16 * linkIx l + 1))) ∧
    ((linkOf s l).replay ≠ [] → 1000 * (linkOf s l).ackLimit ≤ (now - (linkOf s l).ackAt).toNat →
      s.regs.replayLimit.toNat ≤ (linkOf s l).fruitless →
      exec (.ackTimeoutReplay l now) s = .next (dropLink { s with time := now } l 0 true 0)) ∧
    ((linkOf s l).unacked ≠ 0 → 1000 ≤ (now - (linkOf s l).ackSentAt).toNat →
      exec (.ackReturnTimer l now) s = .next (modLink { s with time := now } l fun k => { k with ackOwed := true })) ∧
    (∀ margins, (linkOf s l).status = 3 → 100000 * s.regs.marginInterval.toNat ≤ (now - (linkOf s l).marginSentAt).toNat →
      exec (.marginIntervalSend l margins now) s = .next (modLink { s with time := now } l fun k =>
        { k with marginOwed := some margins, marginSentAt := now }))

/-- O21. While the initial credits of a link remain to be sent, TX_TAKE presents an ACK flit with as many owed credits as its fields
hold. On a link that is up and has sent them, with no MARGIN flit owed and no replay under way, it presents the oldest CTRL flit
where one waits and a CTRL credit is held, with the next sequence number, and takes that credit; where no CTRL flit waits, the
oldest DATA flit in the same way; where nothing waits, an ACK flit if an ack or nak is owed, else an IDLE flit. Sent DATA and CTRL
flits stay in the replay buffer, which holds at most 512. Each header carries ack_seq, nak and as many owed credits as its fields
hold. [spec/06_ring_circulation_and_membership.md R198 to R202, spec/15_ports_clocks_power_reset.md R496, R501] -/
def Obligations.TxTakePresentsNext : Prop :=
  ∀ (s : State) (l : LinkSide), ringPort s = true → (linkOf s l).words < 16383 →
    let i := linkOf s l
    let header := fun (f : Flit) => f.ackSeq = i.rxSeq - 1 ∧ f.nak = i.nakOwed ∧ f.credCtrl = BitVec.ofNat 7 (min 127 i.owedCtrl) ∧
      f.credData = BitVec.ofNat 8 (min 255 i.owedData) ∧ f.crc = flitCrc { f with crc := 0 }
    (2 ≤ i.status.toNat → i.grants ≠ 0 → ∃ t k f, exec (.txTake l) s = .next t ∧ linkOf t l = k ∧ k.present = .flit f ∧ f.flitType = 3 ∧
      header f ∧ k.grants = i.grants - 1 ∧ k.owedCtrl = i.owedCtrl - min 127 i.owedCtrl ∧ k.owedData = i.owedData - min 255 i.owedData) ∧
    (i.status = 3 → i.grants = 0 → i.marginOwed = none → i.resend = [] → i.neighbourAbsent = false →
      ∃ t k f, exec (.txTake l) s = .next t ∧ linkOf t l = k ∧ t.store = s.store ∧ t.chip = s.chip ∧ t.passes = s.passes ∧
      t.net = s.net ∧ k.present = .flit f ∧ header f ∧
      (∀ o r, i.outCtrl = o :: r → i.credCtrl ≠ 0 → i.replay.length < 512 → o.ctrl = true →
        k.outCtrl = r ∧ k.credCtrl = i.credCtrl - 1 ∧ k.txSeq = i.txSeq + 1 ∧ k.replay = i.replay ++ [f] ∧
        f.flitType = 2 ∧ f.seq = i.txSeq ∧ f.payload = o.payload) ∧
      (∀ o r, i.outCtrl = [] → i.outData = o :: r → i.credData ≠ 0 → i.replay.length < 512 → o.ctrl = false →
        k.outData = r ∧ k.credData = i.credData - 1 ∧ k.txSeq = i.txSeq + 1 ∧ k.replay = i.replay ++ [f] ∧
        f.flitType = 1 ∧ f.seq = i.txSeq ∧ f.payload = o.payload) ∧
      (i.outCtrl = [] → i.outData = [] →
        k.txSeq = i.txSeq ∧ k.replay = i.replay ∧ f.flitType = (if i.ackOwed || i.nakOwed then 3 else 0)))

/-- O22. On the origin with both links up and Drover at work CENSUS_START on a ring that is not ready takes position 0 under the
next census_id and sends CENSUS_1 with next_position 1 downstream. Its CENSUS_1 back sends CENSUS_2 with the number of positions;
its CENSUS_2 back records that number and the ring is ready, epoch 0 with no member. A lap that is not back within census_timeout,
one cut by the loss of a link among them, fails the census and is logged. [spec/06_ring_circulation_and_membership.md R207 to R210,
Table 6.5, spec/16_setup_registers.md R532, Table 16.7] -/
def Obligations.CensusOnTheOrigin : Prop :=
  ∀ (s : State) (l : LinkSide) (f : Flit) (now : U64), s.straps.ringOrigin = true →
    (running s = true → s.links.all (·.status == 3) = true → s.net.censusState ≠ 1 → s.net.censusState ≠ 2 → s.drover.running = true →
      exec (.censusStart now) s = .next (sendCtrl { s with
        time := now,
        net := { s.net with censusState := 1, censusId := s.net.censusId + 1, absent := false, position := 0, downSeen := false,
                            lastAssigned := 0, lap := .census1, lapAt := now, lapLimit := s.regs.censusTimeout.toNat } } .down
        (mkMsg 0x01 0 lapDst [(4, (s.net.censusId + 1).toNat), (2, 1), (4, s.straps.engineId.toNat)]))) ∧
    (s.takesMsg now l f 0x01 →
      let a := s.accepted now l f
      a.straps.ringOrigin = true → a.net.lap = .census1 → msgField f.payload 0 4 = a.net.censusId.toNat →
      exec (.census1 l f now) s = .next (freeSlotOf (sendCtrl { a with net := { a.net with
          lastAssigned := BitVec.ofNat 16 (msgField f.payload 4 2 - 1), lap := .census2, lapAt := a.time,
          lapLimit := a.regs.censusTimeout.toNat } } .down
        (mkMsg 0x02 a.net.position.toNat lapDst [(4, a.net.censusId.toNat), (2, msgField f.payload 4 2), (2, 0)])) l true)) ∧
    (s.takesMsg now l f 0x02 →
      let a := s.accepted now l f
      a.straps.ringOrigin = true → a.net.lap = .census2 → a.net.absent = false → a.net.censusId.toNat ≤ msgField f.payload 0 4 →
      exec (.census2 l f now) s = .next (freeSlotOf { a with
          net := { a.net with positionCount := msgField f.payload 4 2, censusState := 2, heldMsgs := [], lap := .none,
                              epoch := 0, members := [], shards := none, state := .stable },
          bring := { a.bring with step := max a.bring.step 8 } } l true)) ∧
    (s.net.lap = .census1 ∨ s.net.lap = .census2 ∨ s.net.lap = .broken → 1000000 * s.net.lapLimit < (now - s.net.lapAt).toNat →
      exec (.censusTimeout now) s = .next (logWide { s with
        time := now, net := { s.net with censusState := 3, lap := .none } } 0x07 0
        (natLe 4 s.net.censusId.toNat ++ natLe 2 s.net.lastAssigned.toNat)))

/-- O23. An engine with Drover started and the store initialised takes next_position of CENSUS_1 as its position and forwards the
message with the next one; another records itself absent and forwards it unchanged. CENSUS_2 makes the ring ready with the recorded
number of positions and is forwarded. A message with an older census_id does nothing. RING_DOWN is passed on once on the other link
while that is up, and ends the ring context's passes with LINK_LOST. [spec/06_ring_circulation_and_membership.md R207, R208, R210,
R219, R220, Table 6.5] -/
def Obligations.CensusOnTheOthers : Prop :=
  ∀ (s : State) (l : LinkSide) (f : Flit) (now : U64),
    let a := s.accepted now l f
    let p := f.payload
    (s.takesMsg now l f 0x01 → a.straps.ringOrigin = false → a.net.censusState ≠ 2 → a.net.censusId.toNat ≤ msgField p 0 4 →
      exec (.census1 l f now) s = .next (freeSlotOf
        (if a.bring.bootState = 2 ∧ a.bring.initDone = true then
          sendCtrl { a with net := { a.net with
            censusState := 1, censusId := BitVec.ofNat 32 (msgField p 0 4), absent := false,
            position := BitVec.ofNat 16 (msgField p 4 2), downSeen := false } } .down
            (mkMsg 0x01 (msgSrc p) (msgDst p) [(4, msgField p 0 4), (2, msgField p 4 2 + 1), (4, msgField p 6 4)])
        else
          passLap { a with net := { a.net with
            censusState := 1, censusId := BitVec.ofNat 32 (msgField p 0 4), absent := true, position := 0, downSeen := false } } f)
        l true)) ∧
    (s.takesMsg now l f 0x02 → a.straps.ringOrigin = false → a.net.absent = false → a.net.censusId.toNat ≤ msgField p 0 4 →
      exec (.census2 l f now) s = .next (freeSlotOf (passLap { a with
          net := { a.net with positionCount := msgField p 4 2, censusState := 2, heldMsgs := [],
                              epoch := 0, members := [], shards := none, state := .stable },
          bring := { a.bring with step := max a.bring.step 8 } } f) l true)) ∧
    (∀ c code, (c, code) ∈ [(Instr.census1 l f now, 0x01), (.census2 l f now, 0x02)] → s.takesMsg now l f code →
      msgField p 0 4 < a.net.censusId.toNat → exec c s = .next (freeSlotOf a l true)) ∧
    (s.takesMsg now l f 0x30 → a.net.downSeen = true →
      exec (.ringDown l f now) s = .next (freeSlotOf (ringLost a (msgField p 0 2) (msgField p 2 1) (linkIx l)) l true)) ∧
    (s.takesMsg now l f 0x30 → a.net.downSeen = false →
      let b := { a with net := { a.net with downSeen := true } }
      exec (.ringDown l f now) s = .next (freeSlotOf (ringLost
        (if (linkOf a (otherSide l)).status = 3 then passFlit b (otherSide l) f else b)
        (msgField p 0 2) (msgField p 2 1) (linkIx l)) l true))

/-- O24. Each message names a handoff in flight by epoch and step. READY for a send half whose receiver has room queues the bytes as
DATA flits and HANDOFF_END; for one whose receiver has too little room both halves end with DESC_ERROR and HANDOFF_ABORT is sent.
END ends the arrival of a receive half; ACK completes a send half; ABORT ends the half that faces its sender. A message that no
handoff matches is held. [spec/06_ring_circulation_and_membership.md R189, R190, R193, Tables 6.1 and 6.5] -/
def Obligations.HandoffMessages : Prop :=
  ∀ (s : State) (l : LinkSide) (f : Flit) (now : U64),
    let a := s.accepted now l f
    let e := msgField f.payload 0 4
    let k := msgField f.payload 4 4
    let done := fun (t : State) => freeSlotOf t l true
    (∀ c code, (c, code) ∈ [(Instr.handoffReady l f now, 0x10), (.handoffEnd l f now, 0x11), (.handoffAck l f now, 0x12)] →
      s.takesMsg now l f code → (∀ test, findHandoff a e k test = none) →
      exec c s = .next (done { a with net := { a.net with heldMsgs := a.net.heldMsgs ++ [(l, f.payload)] } })) ∧
    (∀ p h, s.takesMsg now l f 0x10 → findHandoff a e k (fun h => h.send == .waiting) = some (p, h) →
      (h.sendLen ≤ msgField f.payload 8 8 →
        exec (.handoffReady l f now) s = .next (done (setHandoff (sendClosing (queueData (seenLines a h.sendAddr h.sendLen) .down
          (dataFlits a.store 0 h.step h.sendAddr h.sendLen)) .down
          (mkMsg 0x11 a.net.position.toNat (downstream a) [(4, h.epoch.toNat), (4, h.step.toNat), (8, h.sendLen)])) p.slot
          { h with send := .ended, sent := h.sendLen }))) ∧
      (msgField f.payload 8 8 < h.sendLen →
        exec (.handoffReady l f now) s = .next (done (setHandoff (sendCtrl a .down
          (mkMsg 0x13 a.net.position.toNat (downstream a) [(4, h.epoch.toNat), (4, h.step.toNat), (1, 0x10)])) p.slot
          { spoilHandoff h 0x10 with send := .done })))) ∧
    (∀ p h, s.takesMsg now l f 0x11 → findHandoff a e k readyOut = some (p, h) →
      exec (.handoffEnd l f now) s = .next (done (retryReady (setHandoff a p.slot { h with recv := .ended })))) ∧
    (∀ p h, s.takesMsg now l f 0x12 → findHandoff a e k (fun h => h.send == .ended) = some (p, h) →
      exec (.handoffAck l f now) s = .next (done (setHandoff a p.slot { h with send := .done }))) ∧
    (∀ p h, s.takesMsg now l f 0x13 → l = .up → findHandoff a e k (fun h => !halfDone h.recv) = some (p, h) →
      exec (.handoffAbort l f now) s = .next (done (retryReady (setHandoff a p.slot
        { spoilHandoff h (if msgField f.payload 8 1 = 0x10 then 0x10 else 0x01) with recv := .done })))) ∧
    (∀ p h, s.takesMsg now l f 0x13 → l = .down → findHandoff a e k (fun h => !halfDone h.send) = some (p, h) →
      exec (.handoffAbort l f now) s = .next (done (retryReady (setHandoff
        (modLink a .down fun x => { x with outData := x.outData.filter (fun o => !(ofHandoff
          (spoilHandoff h (if msgField f.payload 8 1 = 0x10 then 0x10 else 0x01)) o)) }) p.slot
        { spoilHandoff h (if msgField f.payload 8 1 = 0x10 then 0x10 else 0x01) with send := .done }))))

/-- O25. On a member, a DATA flit from upstream of a step whose READY is out is written to the store behind the bytes already got,
never beyond the receive length, its lines poisoned where its poison bit is set, and its buffer slot is freed. Once END has come and
its writes are done, HANDOFF_ACK goes upstream and the half is done. A half without a match within handoff_timeout ends the context
with TIMEOUT. [spec/06_ring_circulation_and_membership.md R189 to R192, Tables 6.1 and 6.3] -/
def Obligations.HandoffDataAndEnd : Prop :=
  ∀ (s : State) (l : LinkSide) (f : Flit) (now : U64) (pass : Byte),
    (∀ p h, s.takesNext now .up f → f.flitType = 1 → f.dataKind = 0 → isMember (s.accepted now .up f) = true →
      receiverOf (s.accepted now .up f) f.handoffId = some (p, h) →
      let a := s.accepted now .up f
      let b := (slice f.payload 0 (min 496 f.payloadLen.toNat)).take (h.recvLen - h.got)
      exec (.handoffDataReceive .up f now) s = .next (freeSlotOf (setHandoff { a with
        store := storeWrite a.store (h.recvAddr + h.got) b f.poison } p.slot
        { h with recv := .moving, got := h.got + b.length }) .up false)) ∧
    (s.takesNext now l f → f.flitType = 1 → f.dataKind = 0 → isMember (s.accepted now l f) = false →
      exec (.handoffDataReceive l f now) s = .next (relayFlit (s.accepted now l f) l f)) ∧
    (∀ p h, passOf s pass.toNat = some p → handoffOf p = some h → h.recv = .ended →
      exec (.handoffRecvDone pass now) s = .next (setHandoff (sendCtrl { s with time := now } .up
        (mkMsg 0x12 s.net.position.toNat (upstream s) [(4, h.epoch.toNat), (4, h.step.toNat)])) pass.toNat
        { h with recv := .done })) ∧
    (∀ p h, passOf s pass.toNat = some p → handoffOf p = some h →
      (h.send = .waiting ∨ h.recv = .waiting ∨ ∃ n, h.recv = .ready n) → 1000000 * h.limit < (now - h.since).toNat →
      exec (.handoffTimeout pass now) s = .next (faultPass { s with time := now } p 0x23
        (timeoutPayload 1 (h.epoch.toNat * 2 ^ 32 + h.step.toNat) (now - h.since).toNat)))

/-- O26. An engine whose earlier ring-context passes are done goes from DRAINING to VOTED; the origin then sends its vote.
EPOCH_VOTE at an engine that is VOTED in that epoch goes on with its vote added, or with mismatch set where the digests differ; a
member that is not there yet holds it; one without that EPOCH that is no member passes it on. Back at the origin: mismatch, or more
votes than voters, aborts with DESC_ERROR; all votes start the handover; too few start another lap until epoch_timeout, then
TIMEOUT. [spec/06_ring_circulation_and_membership.md R212, R213, R215, R216, Table 6.7] -/
def Obligations.EpochVoteLap : Prop :=
  ∀ (s : State) (l : LinkSide) (f : Flit) (now : U64),
    let a := s.accepted now l f
    let p := f.payload
    let v := msgField p 8 2
    (∀ q, epochPassOf s = some q → s.net.state = .draining → epochDrainedNow s q = true →
      let b := { s with time := now, net := { s.net with
        state := .voted, voteSince := now, voteLimit := s.regs.epochTimeout.toNat } }
      (s.straps.ringOrigin = true → exec (.epochDrained now) s = .next (sendCtrl { b with net := { b.net with
          lap := .vote, lapAt := now, lapLimit := s.regs.epochTimeout.toNat } } .down
        (mkMsg 0x20 s.net.position.toNat lapDst [(4, s.net.newEpoch.toNat), (4, s.net.digest.toNat), (2, 1), (1, 0)]))) ∧
      (s.straps.ringOrigin = false → s.net.heldVote = none → exec (.epochDrained now) s = .next b)) ∧
    (s.takesMsg now l f 0x20 → a.straps.ringOrigin = false →
      (holdsEpoch a p = true → a.net.state = .voted →
        exec (.epochVote l f now) s = .next (freeSlotOf (sendCtrl { a with net := { a.net with heldVote := none } } .down
          (addVote a p)) l true) ∧
        addVote a p = mkMsg 0x20 (msgSrc p) (msgDst p) [(4, msgField p 0 4), (4, msgField p 4 4),
          (2, if msgField p 4 4 = a.net.digest.toNat then v + 1 else v),
          (1, if msgField p 4 4 = a.net.digest.toNat then msgField p 10 1 else 1)]) ∧
      (holdsEpoch a p = true → a.net.state = .draining →
        exec (.epochVote l f now) s = .next (freeSlotOf { a with net := { a.net with heldVote := some f } } l true)) ∧
      (holdsEpoch a p = false → isMember a = true →
        exec (.epochVote l f now) s = .next (freeSlotOf { a with net := { a.net with heldVote := some f } } l true)) ∧
      (holdsEpoch a p = false → isMember a = false →
        exec (.epochVote l f now) s = .next (freeSlotOf (passLap a f) l true))) ∧
    (s.takesMsg now l f 0x20 → a.straps.ringOrigin = true → a.net.lap = .vote → holdsEpoch a p = true →
      exec (.epochVote l f now) s = .next (freeSlotOf
        (if bitOf (msgField p 10 1) 0 = true ∨ voteCount a.net < v then originAbort a 0x10
         else if v = voteCount a.net then enterHandover a false
         else if 1000000 * a.net.voteLimit ≤ (a.time - a.net.voteSince).toNat then originAbort a 0x23
         else startVote a) l true))

/-- O27. EPOCH_HANDOVER takes an engine that is VOTED into HANDOVER; back at the origin, once its own entries are acknowledged, it
starts the commit lap, or with failed set an abort with PERMISSION. EPOCH_COMMIT makes the new epoch, member map and S those in
force and gives the EPOCH pass OK; an engine that holds no EPOCH for it notes the number (the model's choice, log entry 92) and
passes it on. EPOCH_ABORT with a status other than TIMEOUT gives the pass that status and leaves what was in force. A lap of the
origin that is not back within epoch_timeout aborts with TIMEOUT. [spec/06_ring_circulation_and_membership.md R214, R215, R217,
Table 6.7] -/
def Obligations.EpochHandoverAndCommitLaps : Prop :=
  ∀ (s : State) (l : LinkSide) (f : Flit) (now : U64),
    let a := s.accepted now l f
    let p := f.payload
    (s.takesMsg now l f 0x21 → holdsEpoch a p = true →
      (a.straps.ringOrigin = false → a.net.state = .voted →
        exec (.epochHandover l f now) s = .next (freeSlotOf (sendEntries { a with net := { a.net with
          state := .handover, entryNo := 0, failedIn := bitOf (msgField p 4 1) 0 } }) l true)) ∧
      (a.straps.ringOrigin = true → a.net.lap = .handover → a.net.entries.length ≤ a.net.entryNo →
        exec (.epochHandover l f now) s = .next (freeSlotOf
          (if bitOf (msgField p 4 1) 0 = true then originAbort a 0x12
           else sendCtrl { a with net := { a.net with lap := .commit, lapAt := a.time, lapLimit := a.regs.epochTimeout.toNat } } .down
             (mkMsg 0x22 a.net.position.toNat lapDst [(4, a.net.newEpoch.toNat)])) l true))) ∧
    (∀ q, s.takesMsg now l f 0x22 → holdsEpoch a p = true → a.net.state = .handover → epochPassOf a = some q →
      let b := { modPass a q.slot (fun x => { x with status := some 0 }) with
        net := { a.net with epoch := a.net.newEpoch, members := a.net.newMembers, shards := some a.net.newShards,
                            state := .stable, epochPass := none, lap := .none, heldVote := none } }
      (a.straps.ringOrigin = true → a.net.lap = .commit → exec (.epochCommit l f now) s = .next (freeSlotOf b l true)) ∧
      (a.straps.ringOrigin = false →
        exec (.epochCommit l f now) s = .next (freeSlotOf (passLap b f) l true))) ∧
    (s.takesMsg now l f 0x22 → holdsEpoch a p = false → a.straps.ringOrigin = false →
      exec (.epochCommit l f now) s = .next (freeSlotOf (passLap { a with
        net := { a.net with epoch := BitVec.ofNat 32 (msgField p 0 4) } } f) l true)) ∧
    (∀ q, s.takesMsg now l f 0x23 → holdsEpoch a p = true → a.straps.ringOrigin = false → epochPassOf a = some q →
      msgField p 4 1 ≠ 0x23 →
      exec (.epochAbort l f now) s = .next (freeSlotOf (passLap { modPass a q.slot (fun x => { x with
          status := some (BitVec.ofNat 8 (msgField p 4 1)) }) with
        net := { a.net with state := .stable, epochPass := none, lap := .none, heldVote := none } } f) l true)) ∧
    (s.straps.ringOrigin = true → s.net.lap ∈ [.vote, .handover, .commit] → 1000000 * s.net.lapLimit < (now - s.net.lapAt).toNat →
      exec (.epochTimeout now) s = .next (abortEpoch (sendCtrl { s with time := now } .down
        (mkMsg 0x23 s.net.position.toNat lapDst [(4, s.net.newEpoch.toNat), (1, 0x23)])) 0x23))

/-- O28. HANDOVER_BEGIN opens the entry it describes, marked out of bounds where its range leaves the ring context's windows. Its
DATA flits are written behind the bytes already got, never beyond its length; without an open entry they are relayed. HANDOVER_END
of a good entry ends it, of a bad one answers PERMISSION; once the writes of an ended entry are done HANDOVER_ACK with OK goes
upstream and the entry is closed. At the source OK sends the next entry, another status ends the handover as failed.
[spec/06_ring_circulation_and_membership.md R183, R214, Tables 6.3 and 6.5] -/
def Obligations.HandoverEntries : Prop :=
  ∀ (s : State) (l : LinkSide) (f : Flit) (now : U64),
    let a := s.accepted now l f
    let p := f.payload
    let ack := fun (t : State) (o : HandoverOpen) (st : Nat) =>
      let u := sendCtrl t .up (mkMsg 0x26 t.net.position.toNat o.source.toNat [(4, o.epoch.toNat), (2, o.entry.toNat), (1, st)])
      { u with net := { t.net with openIn := none } }
    (s.takesMsg now l f 0x24 →
      exec (.handoverBegin l f now) s = .next (freeSlotOf { a with net := { a.net with openIn := some {
        epoch := BitVec.ofNat 32 (msgField p 0 4), source := BitVec.ofNat 16 (msgSrc p), entry := BitVec.ofNat 16 (msgField p 4 2),
        addr := msgField p 6 8, len := msgField p 14 8, got := 0, ended := false,
        ok := inRingWindows a (msgField p 6 8) (msgField p 14 8) } } } l true)) ∧
    (s.takesNext now l f → f.flitType = 1 → f.dataKind = 1 →
      (∀ o, a.net.openIn = some o → o.ended = false → o.ok = true →
        let b := (slice p 0 (min 496 f.payloadLen.toNat)).take (o.len - o.got)
        exec (.handoverDataReceive l f now) s = .next (freeSlotOf { a with
          store := storeWrite a.store (o.addr + o.got) b f.poison,
          net := { a.net with openIn := some { o with got := o.got + b.length } } } l false)) ∧
      (a.net.openIn = none → exec (.handoverDataReceive l f now) s = .next (relayFlit a l f))) ∧
    (∀ o, s.takesMsg now l f 0x25 → a.net.openIn = some o → o.epoch.toNat = msgField p 0 4 → o.entry.toNat = msgField p 4 2 →
      o.source.toNat = msgSrc p →
      exec (.handoverEnd l f now) s = .next (freeSlotOf
        (if o.ok then { a with net := { a.net with openIn := some { o with ended := true } } } else ack a o 0x12) l true)) ∧
    (∀ o, s.net.openIn = some o → o.ended = true → o.ok = true →
      exec (.handoverWritesDone now) s = .next (ack { s with time := now } o 0)) ∧
    (s.takesMsg now l f 0x26 → holdsEpoch a p = true → a.net.state = .handover →
      a.net.entryNo < a.net.entries.length → msgField p 4 2 = a.net.entryNo →
      exec (.handoverAck l f now) s = .next (freeSlotOf
        (if msgField p 6 1 = 0 then sendEntries { a with net := { a.net with entryNo := a.net.entryNo + 1 } }
         else sendEntries { a with net := { a.net with failedIn := true, entryNo := a.net.entries.length } }) l true))

/-- O29. A write by a requester that does not reach the setup space, at an offset no 4-byte or 8-byte access may have, or of 4 bytes
to half of a 64-bit register changes no register. Nor does a write to a block that the requester may not write: the identity block
and Keeper's registers for host and Drover, the parameter blocks for the host, the mailbox for Keeper and Drover. An 8-byte write
over two 32-bit registers is two 4-byte writes, the lower first. A write of the host that reaches the setup space is answered OKAY,
also where it is ignored. [spec/16_setup_registers.md R522, R523, Table 16.1] -/
def Obligations.RegisterWriteRights : Prop :=
  ∀ (s : State) (who : Requester) (off : BitVec 20) (wide : Bool) (v : U64),
    let o := off.toNat
    (reaches s who = false ∨ o % 4 ≠ 0 ∨ (wide = true ∧ o % 8 ≠ 0) ∨ (wide = false ∧ isLong (o / 8 * 8) = true) →
      exec (.registerWrite who off wide v) s = .next (hostAnswer s who)) ∧
    (∀ (last : Nat), o / 4 * 4 + 4 ≤ last →
      (who = .keeper ∧ 0x40000 ≤ o) ∨ (who = .drover ∧ ((0x2000 ≤ o ∧ last ≤ 0x4100) ∨ 0x10000 ≤ o ∧ last ≤ 0x20000 ∨ 0x40000 ≤ o)) ∨
      (who = .host ∧ ((o < 0x4000 ∧ last ≤ 0x4000) ∨ (0x4100 ≤ o ∧ last ≤ 0x8000) ∨ (0x20000 ≤ o ∧ last ≤ 0x40000))) ∨ last ≤ 0x1000 →
      (wide = true → o + 8 ≤ last) → exec (.registerWrite who off wide v) s = .next (hostAnswer s who)) ∧
    (reaches s who = true → o % 8 = 0 → isLong o = false →
      exec (.registerWrite who off true v) s =
        .next (writeWord (writeWord (hostAnswer s who) who o (v.setWidth 32)) who (o + 4) (BitVec.ofNat 32 (v.toNat / 2 ^ 32)))) ∧
    (reaches s .host = true → hostAnswer s .host = { s with answer := some ⟨0, true, none, 0⟩ }) ∧
    (reaches s who = false ∨ who ≠ .host → hostAnswer s who = s)

/-- O30. A 4-byte write by Keeper or Drover to a register of the parameter block other than MLD_DL_FLOCK_MASK changes that register
and nothing else; each ranged field takes its new value within its range and keeps its old one outside it, whatever the other fields
of the write do; awl_rate also takes 0. A write of the mask that reserves all 32 flocks also stops, as a CANCEL would, each
BACKGROUND pass with a launch of an unbounded image waiting. [spec/16_setup_registers.md R522, R524, R525, Table 16.6,
spec/14_traffic_classes_and_deadlines.md R471, R478] -/
def Obligations.ParameterWrites : Prop :=
  ∀ (s : State) (who : Requester) (off : BitVec 20) (v : U64), reaches s who = true → who ≠ .host → off.toNat % 4 = 0 →
    0x4100 ≤ off.toNat → off.toNat < 0x4524 →
    let w : U32 := v.setWidth 32
    let f := bitsOf w.toNat
    let r := s.regs
    (off ≠ 0x4300 → exec (.registerWrite who off false v) s = .next { s with regs := writeParams s.regs off.toNat w }) ∧
    exec (.registerWrite who 0x4300 false v) s = .next (strand { s with regs := { s.regs with dlFlockMask := w } }) ∧
    writeParams r 0x4100 w = { r with ageLimit := w.setWidth 16 } ∧
    writeParams r 0x4104 w = { r with highWater := if 4 ≤ f 10 8 ∧ f 10 8 ≤ 7 then BitVec.ofNat 3 (f 10 8) else r.highWater,
                                      holdFill := if 1 ≤ f 6 0 ∧ f 6 0 ≤ 64 then BitVec.ofNat 7 (f 6 0) else r.holdFill } ∧
    writeParams r 0x4200 w = { r with bgSlotMax := if f 27 16 ≤ 2048 then BitVec.ofNat 12 (f 27 16) else r.bgSlotMax,
                                      streamSlotMax := if 16 ≤ f 12 0 ∧ f 12 0 ≤ 4096 then BitVec.ofNat 13 (f 12 0) else r.streamSlotMax } ∧
    (f 4 0 ≠ 0 → (f 4 0 < 8 ∨ 16 < f 4 0) → (writeParams r 0x4500 w).awlRate = r.awlRate) ∧
    (f 4 0 = 0 → (writeParams r 0x4500 w).awlRate = 0)

/-- O31. A write by Keeper or Drover of MLD_AWL_DMIN above MLD_AWL_DMAX, or of MLD_AWL_DMAX below MLD_AWL_DMIN, changes nothing.
Writing delta_max first raises both bounds, writing delta_min first lowers both. [R530] -/
def Obligations.AwlDeltaBounds : Prop :=
  ∀ (s : State) (who : Requester) (lo hi : U32), reaches s who = true → who ≠ .host →
    let write := fun (off : BitVec 20) (v : U32) => Instr.registerWrite who off false (v.setWidth 64)
    (flt s.regs.awlDMax lo = true → exec (write 0x4518 lo) s = .next s) ∧
    (flt hi s.regs.awlDMin = true → exec (write 0x451C hi) s = .next s) ∧
    (inRange 0 hi lo = true → inRange s.regs.awlDMin 0x49800000 hi = true →
      ∀ t, exec (write 0x451C hi) s = .next t →
        exec (write 0x4518 lo) t = .next { s with regs := { s.regs with awlDMin := lo, awlDMax := hi } }) ∧
    (inRange 0 s.regs.awlDMax lo = true → inRange lo 0x49800000 hi = true →
      ∀ t, exec (write 0x4518 lo) s = .next t →
        exec (write 0x451C hi) t = .next { s with regs := { s.regs with awlDMin := lo, awlDMax := hi } })

/-- O32. A write of MLD_LOG_PAGE by a requester that reaches the setup space sets that requester's copy and nothing else, the host's
beside its answer OKAY; a word of the window reads, for each requester, from the page of its own copy. [R533] -/
def Obligations.LogPagePerRequester : Prop :=
  ∀ (s : State) (v : U64),
    let p : BitVec 4 := BitVec.ofNat 4 (bitsOf (v.setWidth 32).toNat 3 0)
    (reaches s .host = true → exec (.registerWrite .host 0x8004 false v) s = .next { okWrite s with regs := { s.regs with logPageHost := p } }) ∧
    (reaches s .keeper = true → exec (.registerWrite .keeper 0x8004 false v) s = .next { s with regs := { s.regs with logPageKeeper := p } }) ∧
    (reaches s .drover = true → exec (.registerWrite .drover 0x8004 false v) s = .next { s with regs := { s.regs with logPageDrover := p } }) ∧
    (∀ (who : Requester) (off : Nat), 0xC000 ≤ off → off < 0x10000 →
      readSetup s who off = field (logEntryBytes s.log (256 * (match who with
        | .host => s.regs.logPageHost.toNat
        | .keeper => s.regs.logPageKeeper.toNat
        | .drover => s.regs.logPageDrover.toNat) + (off - 0xC000) / 64)) (off % 64) 4)

/-- O33. A write of the core clock target by Keeper or Drover takes values 100 to 1600; of the governor limit by Keeper, 100 to 300;
of the partition by host or Keeper, any value, checked at the next bring-up. Keeper writes the context table base on 4-KiB
boundaries and the message table's addresses on 4-byte ones as 8-byte writes. SNAP by Keeper or Drover copies every counter; the
host's is answered and does nothing. [spec/16_setup_registers.md R522 to R524, R526, R528, R537, Tables 16.2 to 16.5, 16.10] -/
def Obligations.OtherRegisterWrites : Prop :=
  ∀ (s : State) (who : Requester) (v now : U64),
    let f := bitsOf (v.setWidth 32).toNat
    let t := { s with time := now }
    (reaches s who = true → who ≠ .host → exec (.registerWrite who 0x1000 false v) s = .next { s with regs := { s.regs with
      coreFreq := if 100 ≤ f 10 0 ∧ f 10 0 ≤ 1600 then BitVec.ofNat 11 (f 10 0) else s.regs.coreFreq } }) ∧
    (reaches s .keeper = true →
      exec (.registerWrite .keeper 0x1004 false v) s = .next { s with regs := { s.regs with
        govLimit := if 100 ≤ f 8 0 ∧ f 8 0 ≤ 300 then BitVec.ofNat 9 (f 8 0) else s.regs.govLimit } } ∧
      exec (.registerWrite .keeper 0x2000 true v) s = .next { s with regs := { s.regs with
        ctxBase := BitVec.ofNat 64 (v.toNat / 4096 * 4096) } } ∧
      (∀ n, n < 64 → exec (.registerWrite .keeper (BitVec.ofNat 20 (0x2100 + 16 * n)) true v) s = .next { s with regs := { s.regs with
        msgAddr := smSet 0 s.regs.msgAddr n (BitVec.ofNat 64 (v.toNat / 4 * 4)) } })) ∧
    (reaches s who = true → who ≠ .drover → exec (.registerWrite who 0x4000 false v) s = .next { hostAnswer s who with
      bring := { s.bring with storePart := v.setWidth 32 } }) ∧
    (reaches t who = true → who ≠ .host → exec (.snap who now) s = .next { t with
      image := s.counters ++ s.ctxCounters.map (fun kv => (imageKey 0 kv.1, kv.2)), regs := { s.regs with snapTime := now } }) ∧
    exec (.snap .host now) s = .next (hostAnswer t .host)

/-- O34. CTX_COMMIT of a running engine with no commit waiting reads the entry (cpRead notes the request of class MGMT): a reason of
R434 refuses it and logs COMMIT_REFUSED, the entry in force stays; a change that only adds, or one of a context with no pass in
flight, takes effect with result 0; any other waits, busy. A commit while one waits is ignored and the result kept.
CTX_COMMIT_DEFERRED acts on a second reading once no pass is in flight. [spec/13_rings_and_descriptors.md R433 to R436, R567,
spec/16_setup_registers.md R527] -/
def Obligations.CommitDecides : Prop :=
  ∀ (s : State) (c : BitVec 12) (w : List (Nat × Byte)),
    let a := agentsWrite s w
    let b := { a with regs := { a.regs with commitCtx := c } }
    let decided := fun (u : State) (c : Nat) =>
      let m := readEntry u c
      let t := cpRead u 0 3 (u.regs.ctxBase.toNat + 256 * c) 256
      let y := parseCtx m.bytes
      let waits := (passesOf t c).isEmpty = false ∧ ∃ x, ctxOf t c = some x ∧ onlyAdds t c x y = false
      let set := fun (busy : Bool) (r : BitVec 3) =>
        { t with regs := { t.regs with commitBusy := busy, commitResult := r, commitLast := BitVec.ofNat 12 c } }
      fun (out : Host.Outcome State Fault Refusal) =>
        (∀ r, commitRefusal t c m = some r →
          out = .next (logCtx (modCtx (set false r) c fun x => { x with commitWaits := false }) 0x06 (r.setWidth 8) c [])) ∧
        (commitRefusal t c m = none → ¬ waits → out = .next (applyEntry (set false 0) c y)) ∧
        (commitRefusal t c m = none → waits → out = .next (modCtx (set true 5) c fun x => { x with commitWaits := true }))
    (running a = true → a.regs.commitBusy = false → decided b c.toNat (exec (.ctxCommit c w) s)) ∧
    (a.regs.commitBusy = true → exec (.ctxCommit c w) s = .next a) ∧
    (s.regs.commitBusy = true → (passesOf s s.regs.commitLast.toNat).isEmpty = true →
      decided s s.regs.commitLast.toNat (exec .ctxCommitDeferred s)) ∧
    (s.regs.commitBusy = false ∨ (passesOf s s.regs.commitLast.toNat).isEmpty = false → exec .ctxCommitDeferred s = .next s)

/-- O35. When an entry in force grants a context a MiB that its context did not hold, every byte of that MiB of the store reads zero
and none of its lines is poisoned; every byte of a MiB it does not add keeps its value. An entry that clears valid leaves the store
as it is but for the active byte of the context's calibration area, which it clears. [spec/01_engine_organisation.md R32,
spec/13_rings_and_descriptors.md R434, R436] -/
def Obligations.GrantedWindowReadsZero : Prop :=
  ∀ (s : State) (c : Nat) (y : Ctx) (u i : Nat), i < mib →
    let t := applyEntry s c y
    (y.valid = true → u ∈ addedMib (ctxOf s c) y → storeByte t.store (u * mib + i) = 0 ∧ ((u * mib + i) / 128) ∉ t.store.poison) ∧
    (y.valid = true → Memory.wf s.store.bytes = true → u ∉ addedMib (ctxOf s c) y →
      storeByte t.store (u * mib + i) = storeByte s.store (u * mib + i)) ∧
    (y.valid = false → (ctxOf s c).bind (·.calib) = none → t.store = s.store) ∧
    (∀ a, y.valid = false → (ctxOf s c).bind (·.calib) = some a → t.store = storeWrite s.store (a.addr + 32) [0] false)

/-- O36. The first MLD_KM_BOOT after a reset, from a host that reaches it, starts verification and brings step 2; later ones do
nothing. FIRMWARE_VERIFIED with the first failure of R552 fails the boot with its code, holds bring-up and logs BOOT; without one it
locks Keeper's SRAM, starts Drover, brings step 3, logs BOOT with code 0 and takes the partition (takePartition). 8 ms without a
verdict fail with 0x08, 1 ms without Drover's first report with 0x07. [spec/16_setup_registers.md R539,
spec/17_faults_log_firmware_debug.md R551, R552, Tables 17.3 to 17.5, spec/15_ports_clocks_power_reset.md R519, Table 15.14] -/
def Obligations.FirmwareBoot : Prop :=
  ∀ (s : State) (image : U64) (w : List (Nat × Byte)) (v : CryptoVerdict) (now : U64),
    let a := agentsWrite { s with time := now } w
    let t := { s with time := now }
    let r := cpRead t 0 3 t.bring.bootAddr.toNat (max 128 (imageTotal t))
    let fail := fun (t : State) (code : Byte) => logWide { t with
        bring := { t.bring with bootState := 3, failCode := code, held := true }, drover := { t.drover with running := false } }
      0x08 code (natLe 8 t.bring.bootAddr.toNat ++ natLe 8 t.bring.buildId.toNat)
    (reaches a .host = true → a.bring.bootWritten = false → a.bring.fatal = false →
      exec (.kmBoot image w now) s = .next { okWrite a with bring := { a.bring with
        bootWritten := true, bootAddr := BitVec.ofNat 64 (image.toNat / 128 * 128), bootState := 1, bootAt := now,
        step := max a.bring.step 2 } }) ∧
    (a.bring.bootWritten = true → exec (.kmBoot image w now) s = .next (hostAnswer a .host)) ∧
    (running t = true → t.bring.bootState = 1 →
      (∀ code, bootFailure r v = some code → exec (.firmwareVerified v now) s = .next (fail r code)) ∧
      (bootFailure r v = none →
        let id : U64 := BitVec.ofNat 64 (field (imageRead r 0 128).bytes 16 8)
        exec (.firmwareVerified v now) s = .next (takePartition (logWide { r with
          bring := { r.bring with bootState := 2, buildId := id, keeperLocked := true, step := max r.bring.step 3 },
          drover := ⟨true, false, now, now⟩ } 0x08 0 (natLe 8 r.bring.bootAddr.toNat ++ natLe 8 id.toNat)))) ∧
      (8000000 < (now - t.bring.bootAt).toNat → exec (.bootTimeout now) s = .next (fail t 0x08))) ∧
    (running t = true → t.bring.bootState = 2 → t.drover.running = true → t.drover.ready = false →
      1000000 < (now - t.drover.startedAt).toNat → exec (.droverReadyTimeout now) s = .next (fail t 0x07))

/-- O37. Store initialisation starts with the partition registers: sizes within their ranges and 512 MiB are used; others give way
to the defaults and PART_REJECTED is logged. At its end the store reads zero and unpoisoned. A line that fails its read-back is
logged and bring-up held with init_fail; otherwise init is done, step 5 comes, every link whose PHY is trained begins its bring-up,
and a supply warning still low starts a dip. [spec/15_ports_clocks_power_reset.md R519, Table 15.14, spec/01_engine_organisation.md
R28, R29, spec/17_faults_log_firmware_debug.md Table 17.3] -/
def Obligations.StoreInitialisation : Prop :=
  ∀ (s : State) (now : U64),
    let u := { s with time := now, store := ⟨[], [], s.store.scrub, []⟩ }
    let v := s.bring.storePart
    (partOk v = true → takePartition s = { s with bring := { s.bring with partUsed := v, partRejected := false } }) ∧
    (partOk v = false → takePartition s = logWide { s with bring := { s.bring with partUsed := 0x02020418, partRejected := true } } 0x04 0
        (natLe 4 v.toNat ++ natLe 4 0x02020418)) ∧
    (running s = true → s.bring.bootState = 2 → s.bring.held = false → s.bring.initDone = false →
      (∀ bank line bitNo, exec (.quadrantRelease (some (bank, line, bitNo)) now) s = .next (logWide { u with
          bring := { u.bring with initFail := true, failBank := bank, failLine := line, held := true } } 0x05 0
        (natLe 2 bank.toNat ++ natLe 2 line.toNat ++ natLe 1 bitNo.toNat))) ∧
      (s.bring.fatal = false →
        let q := { u with bring := { u.bring with initDone := true, released := true, step := max u.bring.step 5 },
                          links := s.links.map (linkReleased now) }
        exec (.quadrantRelease none now) s = .next (if s.pins.pwrWarnN then q else startDip q)))

/-- O38. Where the host reaches the mailbox, Keeper is free and no engine-fatal condition stands, a request is answered OKAY and
puts its arguments and code in the mailbox. Before boot state 2 its result is 0x04, for an unknown code 0x01. CTX_WRITE copies 256
bytes to the table and commits, CTX_RETIRE clears valid and commits: result 0x00, 0x05 waiting or 0x03 refused. MSG_SET writes an
entry, DEBUG_AUTH the authorisation, logged, GOV_LIMIT the limit, DROVER_RESTART starts Drover, logged; out of range gives 0x02.
[spec/17_faults_log_firmware_debug.md R554, Table 17.6, spec/16_setup_registers.md R526, R528, R540, Table 16.12,
spec/13_rings_and_descriptors.md R433, R436] -/
def Obligations.MailboxRequests : Prop :=
  ∀ (s : State) (c : U64) (now : U64) (w : List (Nat × Byte)),
    let free := fun (t : State) => reaches t .host = true ∧ t.regs.kmBusy = false ∧ t.bring.fatal = false
    let booted := fun (t : State) => free t ∧ t.bring.bootState = 2
    let final := fun (t : State) (r : Byte) => Host.Outcome.next (φ := Fault) (ρ := Refusal)
      { t with regs := { t.regs with kmResult := r, kmBusy := false } }
    (∀ i code args, (i, code, args) ∈ [(Instr.ctxRetire c, (0x0002 : U16), [c]), (.govLimit c, 0x0005, [c])] →
      free s → s.bring.bootState ≠ 2 → exec i s = final (kmStart (okWrite s) code args) 0x04) ∧
    (∀ code : U16, booted s → code.toNat = 0 ∨ 6 < code.toNat →
      exec (.kmRequestUnknown code) s = final (kmStart (okWrite s) code []) 0x01) ∧
    (∀ entry, booted (agentsWrite s w) → s.regs.commitBusy = false → c.toNat < 4096 →
      let k := kmStart (okWrite (agentsWrite s w)) 1 [c, entry]
      let m := chipRead k.chip 0 entry.toNat 256
      let k' := cpRead k 0 3 entry.toNat 256
      let t := commitWrite { k' with chip := chipWrite k.chip 0 (s.regs.ctxBase.toNat + 256 * c.toNat) m.bytes m.bad.isSome } c.toNat
      exec (.ctxWrite c entry w) s = final t (if t.regs.commitBusy then 0x05 else if t.regs.commitResult = 0 then 0x00 else 0x03)) ∧
    (booted s → s.regs.commitBusy = false → c.toNat < 4096 →
      let t := commitWrite (clearValid c (kmStart (okWrite s) 2 [c])) c.toNat
      exec (.ctxRetire c) s = final t (if t.regs.commitBusy then 0x05 else if t.regs.commitResult = 0 then 0x00 else 0x03)) ∧
    (booted s → 4096 ≤ c.toNat → exec (.ctxRetire c) s = final (kmStart (okWrite s) 2 [c]) 0x02) ∧
    (∀ addr data wire : U64, booted s → c.toNat < 64 → data.toNat < 2 ^ 32 → wire.toNat < 2 →
      let k := kmStart (okWrite s) 3 [c, addr, data, wire]
      exec (.msgSet c addr data wire) s = final (writeWord (writeWord (writeLong k .keeper (0x2100 + 16 * c.toNat) addr)
        .keeper (0x2108 + 16 * c.toNat) (data.setWidth 32)) .keeper (0x210C + 16 * c.toNat) (wire.setWidth 32)) 0x00) ∧
    (∀ on : U64, booted s → s.regs.commitBusy = false → c.toNat < 4096 → on.toNat < 2 →
      exec (.debugAuth c on) s = final (logCtx (setAuth (kmStart (okWrite s) 4 [c, on]) (c.setWidth 12) (on == 1)) 0x0A (on.setWidth 8) c.toNat [])
        0x00) ∧
    (booted s → 100 ≤ c.toNat → c.toNat ≤ 300 → let k := kmStart (okWrite s) 5 [c]
      exec (.govLimit c) s = final { k with regs := { k.regs with govLimit := c.setWidth 9 } } 0x00) ∧
    (booted s → c.toNat < 100 ∨ 300 < c.toNat → exec (.govLimit c) s = final (kmStart (okWrite s) 5 [c]) 0x02) ∧
    (booted s → let k := kmStart (okWrite { s with time := now }) 6 []
      exec (.droverRestart now) s = final (logWide { k with drover := { k.drover with running := true, startedAt := now, reportAt := now } }
        0x0B 3 (natLe 8 0)) 0x00)

/-- O39. A report of a running Drover makes it ready and restarts the watchdog. More than 100 ms without one, or an access outside
its reach, stops Drover and logs DROVER_FAULT with code 1, or 2 and the address; every register stays as it is. A note of a running
Drover is logged as Drover's. [spec/17_faults_log_firmware_debug.md R555, R556, Table 17.3] -/
def Obligations.DroverWatched : Prop :=
  ∀ (s : State) (now addr : U64) (code : Byte) (p : List Byte), s.drover.running = true →
    let t := { s with time := now }
    (running t = true → exec (.droverReport now) s = .next { t with drover := { t.drover with ready := true, reportAt := now } }) ∧
    (running t = true → 100000000 < (now - s.drover.reportAt).toNat →
      exec (.droverWatchdog now) s = .next (logWide { t with drover := { t.drover with running := false } } 0x0B 1 (natLe 8 0))) ∧
    (running s = true → exec (.droverSandboxViolation addr) s =
      .next (logWide { s with drover := { s.drover with running := false } } 0x0B 2 (natLe 8 addr.toNat))) ∧
    (running s = true → exec (.droverNote code p) s =
      .next { s with log := logPush s.log { mkLog s 0x0C code p with fromDrover := true } })

/-- O40. The scrubber, after initialisation, reads its line and moves to the next, back to 0 after the last, where it counts a
round; a single-bit error not yet met is counted as corrected, a double-bit error as uncorrectable, and its line is poisoned. An
engine-fatal failure halts every context in flight with POISON_CONSUMED of source 5, makes both links present the member-absent
pattern and logs ENGINE_FATAL; a second one does nothing. [spec/01_engine_organisation.md R25, R26,
spec/17_faults_log_firmware_debug.md R548, Table 17.3] -/
def Obligations.ScrubberAndEngineFatal : Prop :=
  ∀ (s : State) (upsets : List (Nat × Bool)) (code : Byte) (addr : U64), running s = true →
    (s.bring.initDone = true →
      let l := s.store.scrub
      let r := { s with store := strikeLines s.store upsets }
      let bad := r.store.flips.filter fun kv => kv.1 = l
      let u := { r with store := { r.store with flips := r.store.flips.filter (fun kv => kv.1 ≠ l), scrub := (l + 1) % storeLines } }
      let t := if bad.isEmpty then u else count (count u 40 (bad.filter fun kv => kv.2 = false).length) 41 (bad.filter (·.2)).length
      exec (.scrubLine upsets) s = .next (if l + 1 = storeLines then count t 42 else t) ∧
      ((l, true) ∈ upsets → l < storeLines → l ∈ r.store.poison)) ∧
    (s.bring.fatal = false →
      let t := { s with bring := { s.bring with fatal := true } }
      let h := ((t.ctxs.map (·.1)).filter fun c => !(passesOf t c).isEmpty).foldl
        (fun s c => faultContext s c stPoison (poisonPayload 0xFFFF 5 addr.toNat) 256 0xFF true) t
      exec (.engineFatal code addr) s = .next (logWide { h with links := h.links.map absentLink } 0x0D code (natLe 8 addr.toNat)) ∧
      ∀ k, (absentLink k).present = .absent) ∧
    (s.bring.fatal = true → exec (.engineFatal code addr) s = .next s)

/-- O41. An operation of a requester that reaches the debug block on no group, on a group of another context, or by the host without
authorisation sets refused and nothing else; Drover's are ignored; the host's access is answered OKAY. HALT of a user group that
issues waits for its bundle boundary, of one that is held stops it at once; a halted group, and one in firmware code, refuses it.
STEP and RESUME need a halted group: one asks for one bundle, the other lets it issue again. [spec/16_setup_registers.md R535, R536,
spec/17_faults_log_firmware_debug.md R557 to R560] -/
def Obligations.DebuggerOperations : Prop :=
  ∀ (s : State) (who : Requester) (g : Group), reaches s who = true → who ≠ .drover →
    let a := hostAnswer s who
    let say := fun (t : State) (busy refused : Bool) => { t with regs := { t.regs with dbgBusy := busy, dbgRefused := refused } }
    let put := fun (f : Group → Group) => modGroup a s.regs.dbgCore.toNat s.regs.dbgSlot.toNat f
    (∀ i ∈ [Instr.halt who, .debugStep who, .debugResume who],
      dbgGroup s = none ∨ (dbgGroup s = some g ∧ g.ctx ≠ s.regs.dbgCtx.toNat) ∨ (who = .host ∧ s.regs.dbgEnabled = false) →
      exec i s = .next (say a s.regs.dbgBusy true)) ∧
    (∀ i ∈ [Instr.halt .drover, .debugStep .drover, .debugResume .drover], exec i s = .next s) ∧
    (dbgGroup s = some g → g.ctx = s.regs.dbgCtx.toNat → (who = .host → s.regs.dbgEnabled = true) →
      (g.halted = false → g.stock = .user → groupReady s s.regs.dbgCore.toNat g = true →
        exec (.halt who) s = .next (say (put fun g => { g with haltAsked := true, haltByHost := who == .host }) true false)) ∧
      (g.halted = false → g.stock = .user → groupReady s s.regs.dbgCore.toNat g = false →
        exec (.halt who) s = .next (say (put fun g => { g with halted := true, haltAsked := false, haltByHost := who == .host }) false false)) ∧
      (g.halted = true ∨ g.stock ≠ .user → exec (.halt who) s = .next (say a s.regs.dbgBusy true)) ∧
      (g.halted = true → exec (.debugStep who) s = .next (say (put fun g => { g with stepAsked := true }) true false)) ∧
      (g.halted = true → exec (.debugResume who) s = .next (say (put fun g =>
        { g with halted := false, haltAsked := false, stepAsked := false, haltByHost := false }) false false)) ∧
      (g.halted = false → ∀ i ∈ [Instr.debugStep who, .debugResume who], exec i s = .next (say a s.regs.dbgBusy true))) ∧
    (dbgGroup s = some g → g.haltAsked = true → g.ended = false → g.stopping = false →
      exec .debugHaltTaken s = .next (say (modGroup s s.regs.dbgCore.toNat s.regs.dbgSlot.toNat fun x =>
        { x with halted := true, haltAsked := false, haltByHost := g.haltByHost }) false s.regs.dbgRefused))

/-- O42. A doorbell while the window is closed (counter 47), with another asid or of another width (46) is counted as discarded; to
a submission ring of a halted context it is counted against the context. An INDEX that the ring's own index allows is applied:
producer of a submission ring, consumer of another; one that it does not allow is counted and answered with DESC_ERROR on the event
rings that take engine events. A doorbell is answered OKAY; the completer answers ADDR_ERR to what it does not decode, and a READ
with the word at its offset. [spec/13_rings_and_descriptors.md R437, R446 to R448, spec/16_setup_registers.md Table 16.11,
spec/15_ports_clocks_power_reset.md R494] -/
def Obligations.DoorbellsAccepted : Prop :=
  ∀ (s : State) (c : BitVec 12) (r : BitVec 4) (asid : BitVec 20) (v : U32) (w : List (Nat × Byte)) (req : EppRequest),
    let a := agentsWrite s w
    let b := a.rung c.toNat r.toNat v
    let key := ringKey c.toNat r.toNat
    (doorbellOp v = 0 → a.rings446 c.toNat r.toNat asid →
      let k := ringOf b key
      (doorbellReserved v = 0 → indexFits k (doorbellIndex v) = true →
        exec (.index c r asid v w) s = .next (modRing b key fun k =>
          if k.kind = 0 then { k with producer := doorbellIndex v } else { k with consumer := doorbellIndex v })) ∧
      (doorbellReserved v ≠ 0 ∨ indexFits k (doorbellIndex v) = false →
        exec (.index c r asid v w) s = .next (badDoorbell b c.toNat r.toNat v))) ∧
    (∀ x, doorbellOp v = 0 → engineUp a = true → a.bring.released = true → asidMatches a c.toNat asid = true →
      ctxOf b c.toNat = some x → x.halted = true → (ringOf b key).active = true → (ringOf b key).kind = 0 →
      exec (.index c r asid v w) s = .next (countCtx b c.toNat 2)) ∧
    (doorbellOp v = 0 → engineUp a = true → a.bring.released = true → asidMatches a c.toNat asid = false →
      exec (.index c r asid v w) s = .next (okWrite (count a 46))) ∧
    (doorbellOp v = 0 → engineUp a = true → a.bring.released = false → exec (.index c r asid v w) s = .next (okWrite (count a 47))) ∧
    (∀ off n, engineUp s = true →
      (s.bring.released = false → exec (.doorbellDiscard off n asid v) s = .next (okWrite (count s 47))) ∧
      (s.bring.released = true → n ≠ 4 ∨ off.toNat % 64 ≠ 0 → exec (.doorbellDiscard off n asid v) s = .next (okWrite (count s 46)))) ∧
    (engineUp s = true → 1 ≤ s.bring.step →
      (isAddrErr req = true → exec (.completerAddrErr req) s = .next { s with answer := some ⟨3, req.opcode == 1, some req.tag, 0⟩ }) ∧
      (isAddrErr req = false → req.opcode = 0 → exec (.completerAddrErr req) s = .next { s with
        answer := some ⟨0, false, some req.tag, readBeatData s req.address.toNat⟩ }))

/-- O43. SETUP of a ring that the context may use, whose header reads back, is right and names a version the engine has, makes the
ring active with its fields and writes index 0 and result OK, state active, to the header; PERMISSION, DESC_ERROR or VERSION is
written otherwise, and a header that does not translate or is poisoned halts the context. TEARDOWN of a submission ring stops it
until its passes have completed; then, or at once for another ring that none names, the ring is idle and its header says so; one
that is named gets DESC_ERROR, and a ring not active OK. With another bit set either is a bad doorbell.
[spec/13_rings_and_descriptors.md R437, R439, R440, Table 13.2] -/
def Obligations.RingSetupAndTeardown : Prop :=
  ∀ (s : State) (c : BitVec 12) (r : BitVec 4) (asid : BitVec 20) (v : U32) (w : List (Nat × Byte)) (x : Ctx),
    let a := agentsWrite s w
    let b := a.rung c.toNat r.toNat v
    let key := ringKey c.toNat r.toNat
    let h := (x.headerAddr.getD r.toNat 0).toNat
    let u := cpRead b x.asid.toNat 0 h 64
    let m := chipRead u.chip x.asid.toNat h 64
    let result := fun (t : State) (st : Byte) => cpWrite t c.toNat (h + 32) [st]
    let up := exec (.setup c r asid v w) s
    (doorbellOp v = 1 → plainDoorbell v = true → a.rings446 c.toNat r.toNat asid → ctxOf b c.toNat = some x →
      (x.halted = true ∨ bitOf x.ringAllow.toNat r.toNat = false → up = .next (result b stPermission)) ∧
      (x.halted = false → bitOf x.ringAllow.toNat r.toNat = true →
        (∀ p, m.xlate = some p →
          up = .next (faultContext u c.toNat stXlate (xlatePayload 0xFFFF false p []) 256 (BitVec.ofNat 8 r.toNat))) ∧
        (∀ p, m.xlate = none → m.bad = some p →
          up = .next (faultContext u c.toNat stPoison (poisonPayload 0xFFFF 0 h) 256 (BitVec.ofNat 8 r.toNat))) ∧
        (m.xlate = none → m.bad = none →
          (headerWrong u c.toNat r.toNat m.bytes = true → up = .next (result u stDesc)) ∧
          (headerWrong u c.toNat r.toNat m.bytes = false → versionWrong m.bytes = true → up = .next (result u stVersion)) ∧
          (headerWrong u c.toNat r.toNat m.bytes = false → versionWrong m.bytes = false →
            up = .next (cpWrite (cpWrite (modRing u key fun k => { parseRing m.bytes (BitVec.ofNat 64 h) with doorbell := k.doorbell })
              c.toNat (h + 36) (natLe 4 0)) c.toNat (h + 32) [0, 1]))))) ∧
    (plainDoorbell v = false → (doorbellOp v = 1 → a.rings446 c.toNat r.toNat asid → up = .next (badDoorbell b c.toNat r.toNat v)) ∧
      (doorbellOp v = 2 → s.rings446 c.toNat r.toNat asid →
        exec (.teardown c r asid v) s = .next (badDoorbell (s.rung c.toNat r.toNat v) c.toNat r.toNat v))) ∧
    (let b := s.rung c.toNat r.toNat v
     let k := ringOf b key
     let down := exec (.teardown c r asid v) s
     doorbellOp v = 2 → plainDoorbell v = true → s.rings446 c.toNat r.toNat asid → ctxOf b c.toNat = some x →
      (k.active = false → down = .next (result b stOk)) ∧
      (k.active = true → k.kind = 0 → down = .next (setRing b key { k with tearing := true, head := none })) ∧
      (k.active = true → k.kind ≠ 0 → ringNamed b c.toNat r.toNat = true →
        down = .next (cpWrite b c.toNat (k.headerAddr.toNat + 32) [stDesc])) ∧
      (k.active = true → k.kind ≠ 0 → ringNamed b c.toNat r.toNat = false →
        down = .next (cpWrite (idleRing b key) c.toNat (k.headerAddr.toNat + 32) [0, 0]))) ∧
    (let k := ringOf s key
     k.active = true → k.tearing = true → (∀ p ∈ s.passes, p.ctx = c.toNat → p.ring ≠ r.toNat) →
      exec (.ringTeardownComplete c r) s = .next (cpWrite (cpWrite (idleRing s key) c.toNat (k.headerAddr.toNat + 36) (natLe 4 k.consumer))
        c.toNat (k.headerAddr.toNat + 32) [0, 0]))

/-- O44. With fewer than 256 passes in flight, DESCRIPTOR_FETCH reads the descriptor at the head of a ring that runs, is not empty
and holds none: a translation fault or poison halts the context; the first check of R451 that fails refuses it with that status,
once a pass slot is free for it; otherwise it is held, with its parameter block where its opcode has one, whose own read may halt
the context. NOP is admitted with status OK. FENCE is admitted; while it is in flight its ring does not run and nothing of it is
fetched; FENCE_RELEASE gives it status OK when every earlier descriptor of its ring has completed, and does nothing before.
[spec/13_rings_and_descriptors.md R442, R451, R452, Tables 13.5 to 13.8, spec/01_engine_organisation.md R35 to R37, R39] -/
def Obligations.DescriptorsFetched : Prop :=
  ∀ (s : State) (c : BitVec 12) (r : BitVec 4) (now : U64) (x : Ctx),
    let t := { s with time := now }
    let key := ringKey c.toNat r.toNat
    let k := ringOf s key
    let a := k.slotAddr k.consumer
    let u := cpRead t (asidOf t c.toNat) 0 a (entrySize 0 k.version.toNat)
    let m := chipRead u.chip (asidOf u c.toNat) a (entrySize 0 k.version.toNat)
    let d := if k.version = 1 then v1ToV2 m.bytes else m.bytes
    let out := exec (.descriptorFetch c r now) s
    let halts := fun (v : State) (m : MemRead) =>
      (∀ p, m.xlate = some p → out = .next (faultContext v c.toNat stXlate (xlatePayload 0xFFFF false p []) 256 (BitVec.ofNat 8 r.toNat))) ∧
      (∀ p, m.xlate = none → m.bad = some p →
        out = .next (faultContext v c.toNat stPoison (poisonPayload 0xFFFF 0 p) 256 (BitVec.ofNat 8 r.toNat)))
    let holds := fun (v : State) (b : List Byte) => modRing v key fun k =>
      { k with head := some ⟨d, BitVec.ofNat 64 a, b, BitVec.ofNat 64 (dParam d), k.version = 1⟩ }
    (ringRuns t c.toNat r.toNat = true → k.fill ≠ 0 → k.head = none → s.passes.length < 256 → ctxOf s c.toNat = some x →
      halts u m ∧
      (m.xlate = none → m.bad = none →
        (∀ y, descChecks x (k.version = 1) m.bytes d a = some y →
          (slotFor u (dClass d) = true → out = .next (refuse u c.toNat r.toNat d y)) ∧ (slotFor u (dClass d) = false → out = .next u)) ∧
        (descChecks x (k.version = 1) m.bytes d a = none →
          (opHasBlock (dOpcode d) = false → out = .next (holds u [])) ∧
          (k.version = 1 → dOpcode d = opXfer → out = .next (holds u (v1XferBlock m.bytes))) ∧
          (opHasBlock (dOpcode d) = true → (k.version ≠ 1 ∨ dOpcode d ≠ opXfer) →
            let w := cpRead u (asidOf u c.toNat) 0 (dParam d) (blockSize (dOpcode d))
            let b := chipRead w.chip (asidOf w c.toNat) (dParam d) (blockSize (dOpcode d))
            halts w b ∧ (b.xlate = none → b.bad = none → out = .next (holds w b.bytes)))))) ∧
    (∀ f, s.heads c.toNat r.toNat opNop f x → exec (.nop c r) s = .next (admitPass s
      { newPass s c.toNat r.toNat f.desc .plain with status := some stOk })) ∧
    (∀ f, s.heads c.toNat r.toNat opFence f x → exec (.fence c r) s = .next (admitPass s (newPass s c.toNat r.toNat f.desc .fence))) ∧
    (∀ p ∈ s.passes, p.ctx = c.toNat → p.ring = r.toNat → p.body = .fence → ringRuns s c.toNat r.toNat = false ∧ out = .next t) ∧
    (∀ (slot : Byte) p, passOf s slot.toNat = some p → p.body = .fence → p.status = none →
      exec (.fenceRelease slot) s = .next
        (if earlierDone s p then modPass s slot.toNat fun p => { p with status := some stOk } else s))

/-- O45. A COUNTER BARRIER on an 8-byte address is admitted, on another refused; once its earlier descriptors have completed it
arrives: arrive_value, when not zero, is added to the counter word, and its wait begins with the barrier_timeout of that time. A due
poll of a waiting one reads the word and makes it OK at wait_value or more; one not due changes nothing; beyond its limit it ends
with TIMEOUT. A CANCEL is admitted and cuts every pass it names that is not past its cancel point. A cut pass whose tags have
returned, whose groups have ended and whose HANDOFF_ABORT is sent completes with CANCELLED, an XFER that met a translation fault
ends with that; with tags out beyond cancel_timeout it ends with TIMEOUT. [spec/13_rings_and_descriptors.md R453 to R455,
spec/11_fetch_and_streaming.md R391, R392, R394 to R397] -/
def Obligations.BarrierAndCancel : Prop :=
  ∀ (s : State) (c : BitVec 12) (r : BitVec 4) (now : U64) (x : Ctx) (f : Fetched) (slot : Byte) (p : Pass),
    let t := { s with time := now }
    let n := field f.desc 24 8
    (t.heads c.toNat r.toNat opBarrier f x → field f.desc 16 1 = 0 →
      (n % 8 = 0 → exec (.barrierCounter c r now) s = .next (barrierArrive (admitPass t (newPass t c.toNat r.toNat f.desc
        (.barrier n (BitVec.ofNat 64 (field f.desc 32 8)) (BitVec.ofNat 64 (field f.desc 40 8)) false 0 0 none))) (freeSlot t))) ∧
      (n % 8 ≠ 0 → exec (.barrierCounter c r now) s = .next (refuse t c.toNat r.toNat f.desc (denyField f stDesc 24)))) ∧
    (∀ a arrive wait since limit read, passOf s slot.toNat = some p → p.status = none → p.cancelAt = none →
      (p.body = .barrier a arrive wait false since limit read →
        let go := fun (u : State) => modPass u slot.toNat fun p =>
          { p with body := .barrier a arrive wait true now s.regs.barrierTimeout.toNat none }
        let u := cpPresent t 2 (asidOf t p.ctx) 0 a 8 [] arrive.toNat
        let w := chipRead u.chip (asidOf u p.ctx) a 8
        (earlierDone t p = false → barrierArrive t slot.toNat = t ∧ exec (.barrierPoll slot now) s = .next t) ∧
        (earlierDone t p = true → arrive = 0 → barrierArrive t slot.toNat = go t) ∧
        (earlierDone t p = true → arrive ≠ 0 → w.xlate = none → w.bad = none → barrierArrive t slot.toNat =
          go { u with chip := chipWrite u.chip (asidOf u p.ctx) a (natLe 8 ((leNat w.bytes + arrive.toNat) % 2 ^ 64)) false })) ∧
      (p.body = .barrier a arrive wait true since limit read →
        let u := cpRead t (asidOf t p.ctx) 0 a 8
        let w := chipRead u.chip (asidOf u p.ctx) a 8
        let v : U64 := BitVec.ofNat 64 (leNat w.bytes)
        (pollDue now read = false → exec (.barrierPoll slot now) s = .next t) ∧
        (pollDue now read = true → w.xlate = none → w.bad = none → exec (.barrierPoll slot now) s = .next (modPass u slot.toNat fun p =>
          { p with body := .barrier a arrive wait true since limit (some (now, s.regs.barrierPoll.toNat)),
                   detail0 := v, status := if wait.toNat ≤ v.toNat then some stOk else none })) ∧
        (limit * 1000000 < (now - since).toNat → exec (.barrierTimeout slot now) s =
          .next (faultPass t p stTimeout (timeoutPayload 3 a (now - since).toNat))))) ∧
    (∀ (i : Instr) (scope : Nat) (sel : Pass → Bool), t.heads c.toNat r.toNat opCancel f x → field f.desc 16 1 = scope →
      (i = .cancelPass c r now ∧ scope = 0 ∧ sel = (fun p => p.passId.toNat == field f.desc 20 4)) ∨
      (i = .cancelRing c r now ∧ scope = 1 ∧ sel = (fun p => p.ring == bitsOf (field f.desc 17 1) 3 0)) →
      let named := namedBy t c.toNat sel
      exec i s = .next (named.foldl
        (fun u n => match passOf u n with | some p => if pastCancel p then u else cutPass u n stCancelled | none => u)
        (admitPass t { newPass t c.toNat r.toNat f.desc (.cancel named) with status := if named.isEmpty then some stOk else none }))) ∧
    (∀ at_, passOf s slot.toNat = some p → p.cancelAt = some at_ →
      (ctxOf s p.ctx = some x → x.halted = false → x.fault = none → p.held = false → tagsHeld t slot.toNat = 0 →
        groupsOfPass t slot.toNat = 0 → abortQueued t p = false →
        (lateFault p = none →
          exec (.cancelComplete slot now) s = .next (completePass (modPass t slot.toNat xferDetail) slot.toNat stCancelled)) ∧
        (∀ y, lateFault p = some y → exec (.cancelComplete slot now) s = .next (faultPass t p stXlate y))) ∧
      (tagsHeld t slot.toNat ≠ 0 → 1000 * s.regs.cancelTimeout.toNat < (now - at_).toNat → exec (.cancelTimeout slot now) s =
        .next (faultPass t p stTimeout (timeoutPayload 0 0 (now - at_).toNat))))

/-- O46. A pass with its status, no cut, no groups left and no write outstanding forms its last writes, or where it has none
completes with that status, TRUNCATED or DEGRADED in place of OK. A record held for a full completion ring is written after those
held before it. A message due for a ring of an unparked engine is written to its table entry's address; a wire entry writes none. A
faulting context whose tags have returned, whose HANDOFF_ABORTs are sent and whose begun CALIBs have written halts and completes its
passes; with tags out beyond cancel_timeout these are orphaned, it halts, and DRAIN_STALLED is logged.
[spec/13_rings_and_descriptors.md R444, R457, R460 to R463, spec/01_engine_organisation.md R39, spec/17_faults_log_firmware_debug.md
R544, R546] -/
def Obligations.PassesEnd : Prop :=
  ∀ (s : State) (slot : Byte) (now : U64) (p : Pass) (st : Byte) (c : BitVec 12) (r : BitVec 4) (x : Ctx),
    let t := { s with time := now }
    (passOf s slot.toNat = some p → p.status = some st →
      (passClear t p = true → p.writesOut = 0 → groupsOfPass t slot.toNat = 0 →
        (p.lastWrites = [] → p.lastStore = [] → exec (.passCompletion slot now) s = .next (completePass t slot.toNat
          (if st = stOk then (if p.truncated then stTruncated else if p.degrade.any then stDegraded else stOk) else st))) ∧
        (p.lastWrites ≠ [] ∨ p.lastStore ≠ [] → exec (.passCompletion slot now) s = .next (passWrites
          (let u := modPass t slot.toNat fun p => { p with lastWrites := [], lastStore := [] }
           { u with store := storeWrites s.store p.lastStore }) slot.toNat p.lastWrites))) ∧
      (p.held = true → heldBefore t p = [] → exec (.completionRingSpace slot now) s = .next (writeCompletion t p st)) ∧
      (p.held = true → exec (.completionRingSpace slot now) s = .next
        ((sortBy (fun x y => decide (x.heldSeq ≤ y.heldSeq)) (p :: heldBefore t p)).foldl (fun u q =>
          match passOf u q.slot with
          | some q => (match q.status with | some st => if q.held then writeCompletion u q st else u | none => u)
          | none => u) t))) ∧
    (∀ n, let k := ringOf s (ringKey c.toNat r.toNat)
      ctxOf s c.toNat = some x → msgEntry x r.toNat = some n → k.active = true → k.msgEn = true → k.msgOwed = true → s.pins.parked = false →
      (k.lastMsg = none ∨ ∃ at_, k.lastMsg = some at_ ∧ at_.toNat + 1000 * k.msgHoldoff.toNat ≤ now.toNat) →
      let d := natLe 4 (smGet 0 s.regs.msgData n).toNat
      let a := (smGet 0 s.regs.msgAddr n).toNat
      (isWire s n = true → exec (.messageWrite c r now) s = .next (setRing t (ringKey c.toNat r.toNat) { k with msgOwed := false })) ∧
      (isWire s n = false → exec (.messageWrite c r now) s = .next (setRing
        { cpPresent t 1 0 0 a 4 d with chip := chipWrite s.chip 0 a d false } (ringKey c.toNat r.toNat)
        { k with msgOwed := false, lastMsg := some now }))) ∧
    (∀ f, ctxOf s c.toNat = some x → x.fault = some f →
      (ctxFlights t c.toNat = [] →
        (∀ p ∈ passesOf t c.toNat, abortQueued t p = false ∧ (calibBegun p = true → p.writesOut = 0)) →
        exec (.contextDrained c now) s = .next (haltContext t c.toNat f false)) ∧
      (ctxFlights t c.toNat ≠ [] → 1000 * s.regs.cancelTimeout.toNat < (now - f.since).toNat →
        exec (.drainStalled c now) s = .next (logCtx (haltContext { t with ports := s.ports.map fun q =>
            { q with outRd := q.outRd.map (orphanOf c.toNat), outWr := q.outWr.map (orphanOf c.toNat) } } c.toNat f true) 0x02 0x23 c.toNat
          (layout 36 [(0, 4, ((ctxFlights t c.toNat).map (·.left.length)).sum),
            (4, 4, ((List.range 32).map fun q =>
              if ((s.ports.getD q .reset).outRd ++ (s.ports.getD q .reset).outWr).any
                (fun f => !f.orphan && f.burst.parts.any (·.ctx == c.toNat)) then 2 ^ q else 0).sum),
            (8, 8, (now - f.since).toNat)]))))

/-- O47. An XFER whose checks pass and that has a count of 0 below dims is admitted as a pass that is done with OK, forms no request
and keeps no write to form. With every count above 0 it is admitted with all its elements left, opens a Transfer stream and reads
them in ascending linear number. One that a check refuses completes with the refusal. [R385] -/
def Obligations.TransfersAndZeroCounts : Prop :=
  ∀ (s : State) (c : BitVec 12) (r : BitVec 4) (f : Fetched) (x : Ctx), s.heads c.toNat r.toNat opXfer f x →
    let par := parseXfer f.desc f.block
    let out := exec (.xfer c r) s
    let slot := freeSlot s
    (∀ y, firstDeny (xferChecks x f par) = some y → out = .next (refuse s c.toNat r.toNat f.desc y)) ∧
    (firstDeny (xferChecks x f par) = none →
      (∀ k, k < par.dims → par.counts[k]? = some 0 →
        out = .next (admitPass s { newPass s c.toNat r.toNat f.desc .plain with status := some stOk })) ∧
      ((∀ n ∈ par.counts.take par.dims, n ≠ 0) →
        let n := elemCount par
        let a := admitPass s (newPass s c.toNat r.toNat f.desc
          (.xfer ⟨par, (List.range n).map (fun e => (e, par.elemBytes)), none, destsOverlap par n, []⟩))
        ∀ p, passOf a slot = some p →
          let b := openLowest a 0 1280 256 slot p.cls
          out = .next ((List.range n).foldl (xferElem slot p par (xferStream b slot)) b)))

/-- O48. A descriptor that its checks refuse completes with the refusal; else its pass is admitted, its input streams open and the
reads of its admission are made, one of which that does not translate or is poisoned ends it with its fault. A SCATTER with no
contribution then has status OK and writes nothing; another writes its elements and carries, keeps its watch record to be written
last, counts its results that were not finite, and has status OK with the counts of Table 13.12. A BUILD holds the work of its stock
kernel, whose last unit done writes its records and nodes, keeps the root to be written last, and gives status OK with the counts of
Table 13.12. [spec/09_memory_model_and_atomics.md R316 to R328, spec/03_last_trees_and_builder.md R105 to R111,
spec/14_traffic_classes_and_deadlines.md R474, R476] -/
def Obligations.ScatterAndBuild : Prop :=
  ∀ (s : State) (c : BitVec 12) (r : BitVec 4) (f : Fetched) (x : Ctx),
    let slot := freeSlot s
    (s.heads c.toNat r.toNat opScatter f x →
      s.planned c.toNat r.toNat f .plain 4 (planScatter s c.toNat f) (exec (.scatter c r) s) fun u q y =>
        let p := y.1
        let o := y.2
        let b := scratchUse u q.ctx p.scratchAddr p.scratchSize
        let w := passWrites b slot (o.elems.map fun e => (p.targetAddr + e.1 * elemSize p.targetFmt, e.2.bytes))
        let v := if p.carry then passWrites w slot (o.elems.map fun e => (p.carryAddr + 2 * e.1, e.2.carry)) else w
        let n := countIf (·.2.overflow) o.elems
        if p.count = 0 then modPass u slot fun q => { q with status := some stOk }
        else modPass (if n = 0 then v else countCtx v q.ctx 0 n) slot fun q =>
          { q with status := some stOk, degrade := { q.degrade with input := q.degrade.input || decide (0 < o.dropped) },
                   lastWrites := if p.watch then [(p.watchAddr, o.record)] else [],
                   preEvents := if o.post then [(evSilent, silentPayload p.watchAddr o.record)] else [],
                   detail0 := BitVec.ofNat 64 o.elems.length, detail1 := BitVec.ofNat 64 (countIf (·.2.zeroEffect) o.elems),
                   detail2 := BitVec.ofNat 64 o.dropped }) ∧
    (s.heads c.toNat r.toNat opBuild f x →
      s.planned c.toNat r.toNat f .plain (buildArrays f) (planBuild s c.toNat x f) (exec (.build c r) s) fun u q y =>
        let v := if y.1.count = 0 then u else scratchUse u q.ctx y.1.scratchAddr y.1.scratchSize
        modPass v slot fun q => { q with body := .stock (buildWork y.1 y.2) }) ∧
    (∀ (t : State) (n : Nat) (p : BuildParams) (i : BuildIn),
      let w := buildWork p i
      let nodes := spread p.treeAddr (treeNodes p i)
      let u := if p.geometric then outputs t n p.primStore (spread p.primOut (treeRecords p i))
        else outputs t n p.keyStore (spread p.keyOut (treeRecords p i))
      finishStock t n w = modPass (outputs u n p.treeStore (nodes.drop 1)) n fun q =>
        { q with status := some stOk, truncated := false, lastWrites := if p.treeStore then [] else nodes.take 1,
                 lastStore := if p.treeStore then nodes.take 1 else [], detail0 := BitVec.ofNat 64 nodes.length,
                 detail1 := BitVec.ofNat 64 (nodes.length * p.stride), detail2 := BitVec.ofNat 64 p.recordBytes })

/-- O49. A descriptor that its checks refuse completes with the refusal; else its pass is admitted, its input streams open and the
reads of its admission are made, one of which that does not translate or is poisoned ends it with its fault. A SEARCH that names a
tree still arriving waits. A SEARCH or TRACE then holds a walk with no query or ray placed and ends at once where it has none. A
render pass with nothing to draw has status OK; another holds its body with no primitive binned, a reverse one with its flags in
scratch cleared. A KERNEL without herds has status OK, with an image it holds its herds to launch, with the welt the work of its
stock kernel. [spec/02_locator_search.md R54, R82, spec/01_engine_organisation.md R51, spec/04_ray_traversal.md R112, R114,
spec/10_compositing_path.md R330, R332, spec/13_rings_and_descriptors.md R451, R456] -/
def Obligations.WorkPassesAdmitted : Prop :=
  ∀ (s : State) (c : BitVec 12) (r : BitVec 4) (f : Fetched) (x : Ctx),
    let slot := freeSlot s
    (s.heads c.toNat r.toNat opSearch f x →
      let q := parseSearch f.block
      (arriving s c.toNat (searchNames s q) = true → exec (.search c r) s = .next s) ∧
      (arriving s c.toNat (searchNames s q) = false →
        s.planned c.toNat r.toNat f .plain 4 (planSearch s c.toNat x f) (exec (.search c r) s) fun u _ y =>
          let v := modPass u slot fun p => { p with body := .search { par := q, root := y.1, delta := y.2, walk := newWalk q.queryCount } }
          match passOf v slot with
          | some p => finishSearch (formSamples v slot p q y.1) slot
          | none => v)) ∧
    (s.heads c.toNat r.toNat opTrace f x →
      let q := parseTrace f.block
      s.planned c.toNat r.toNat f .plain 1 (planTrace s c.toNat x f) (exec (.trace c r) s) fun u _ h =>
        finishTrace (modPass u slot fun p => { p with body := .trace { par := q, root := h, walk := newWalk q.rayCount } }) slot) ∧
    (∀ i bwd o, (i, bwd, o) ∈ [(Instr.renderFwd c r, false, opRenderFwd), (.renderBwd c r, true, opRenderBwd)] →
      s.heads c.toNat r.toNat o f x →
      let p := parseRender f.block bwd
      s.planned c.toNat r.toNat f .plain (renderArrays bwd f) (planRender s c.toNat bwd f) (exec i s) fun u q y =>
        let v := if bwd then passWrite (scratchUse u q.ctx p.scratchAddr p.scratchSize) slot (flagBase p)
          (List.replicate (ceilDiv (p.primCount * p.gradLen) 8) 0) else u
        if emptyRender p then modPass u slot fun q => { q with status := some stOk }
        else modPass v slot fun q => { q with body := .render (newRender v p y.1 y.2) }) ∧
    (s.heads c.toNat r.toNat opKernel f x →
      s.planned c.toNat r.toNat f .plain 1 (planKernel s c.toNat x f) (exec (.kernel c r) s) fun u _ y =>
        modPass u slot fun p => match y with
          | .nothing => { p with status := some stOk }
          | .image i args => { p with body := .kernel {
              image := i, args := args, herds := field f.desc 32 4, next := 0, live := 0, groupsLaunched := 0 } }
          | .welt w q rs => { p with body := .stock (weltWork p.passId w q rs) })

/-- O50. A descriptor that its checks refuse completes with the refusal; else its pass is admitted, its input streams open and the
reads of its admission are made, one of which that does not translate or is poisoned ends it with its fault. SETUP then clears and
lays out the area with its working margins; EXPORT writes the sorted samples to memory and empties the buffer; PROPOSE applies the
controller to each margin index, posts CALIB_PROPOSAL and, over the buffer, empties it; COMMIT and RESTORE write a snapshot slot
under its number, RESTORE the working entries too; SAVE writes the working table to memory; DISABLE gives the area up. Each then has
status OK, and all but SAVE have begun to write. [spec/12_numerics_and_recall_calibration.md R414, R427 to R430, Tables 12.6, 12.8,
12.9, spec/13_rings_and_descriptors.md Tables 13.12, 13.14] -/
def Obligations.CalibrationPasses : Prop :=
  ∀ (s : State) (c : BitVec 12) (r : BitVec 4) (f : Fetched) (x : Ctx), s.heads c.toNat r.toNat opCalib f x →
    let p := parseCalib f.desc
    let slot := freeSlot s
    let op := bitsOf (field f.desc 16 1) 3 0
    let done := fun (wrote : Bool) (t : State) => modPass t slot fun p => { p with status := some stOk, wrote := wrote }
    (op = 0 → s.planned c.toNat r.toNat f .plain 1 (planSetup s c.toNat x f) (exec (.calibSetup c r) s) fun a _ ms =>
      let z : CalibArea := ⟨p.areaAddr, p.entries, p.capacity⟩
      let u := { a with store := storeClear a.store p.areaAddr (calibSize p.entries p.capacity) }
      done true (modCtx (putStore u [(z.addr, natLe 4 p.entries ++ natLe 4 p.capacity),
        (z.working, ms.flatMap fun m => (WorkEntry.bytes ⟨m, 0, nan32, 0⟩))]) c.toNat fun x => { x with calib := some z })) ∧
    (op = 1 → s.planned c.toNat r.toNat f .plain 1 (planExport s x f) (exec (.calibExport c r) s) fun a _ y =>
      done true (putStore (passWrite a slot p.memAddr (layout 16 [(0, 4, y.2.length)] ++ (sortSamples y.2).flatten))
        [(y.1.addr + 8, natLe 4 0)])) ∧
    (op = 2 → s.planned c.toNat r.toNat f .plain 1 (planPropose s c.toNat x f) (exec (.calibPropose c r) s) fun a _ y =>
      let z := y.1
      let rs := y.2.2.2
      let o := propose a.regs y.2.2.1 rs
      let b := putStore a ((o.entries.map fun e => (z.working + 16 * e.1, e.2.bytes)) ++ [(z.addr + 64, lastParams a.regs)])
      let d := if o.wild = 0 then b else countCtx b c.toNat 0 o.wild
      let e := match passOf d slot with
        | some q => postPassEvent d q evCalib (proposalPayload y.2.1 rs.length o)
        | none => d
      done true (modPass (if p.memory then e else putStore e [(z.addr + 8, natLe 4 0), (z.addr + 48, List.replicate 16 0)]) slot
        fun q => { q with detail1 := BitVec.ofNat 64 rs.length, detail2 := BitVec.ofNat 64 o.updated })) ∧
    (op = 3 → s.planned c.toNat r.toNat f .plain 1 (planCommit s c.toNat x f) (exec (.calibCommit c r) s) fun a _ y =>
      done true (modPass (putStore a (commitWrites y.1 y.2.1 p.snapshot y.2.2)) slot fun q => { q with detail0 := p.snapshot.setWidth 64 })) ∧
    (op = 4 → s.planned c.toNat r.toNat f .plain 1 (planSave s x f) (exec (.calibSave c r) s) fun a _ y =>
      done false (passWrite a slot p.memAddr (y.2 ++ slice y.1 16 17 ++ List.replicate 47 0))) ∧
    (op = 5 → s.planned c.toNat r.toNat f .plain 1 (planRestore s c.toNat x f) (exec (.calibRestore c r) s) fun a _ y =>
      done true (modPass
        (putStore a ((y.1.working, y.2.2) :: commitWrites y.1 y.2.1 p.snapshot (marginsOf y.2.2 16 y.1.entries))) slot
        fun q => { q with detail0 := p.snapshot.setWidth 64 })) ∧
    (op = 6 → s.planned c.toNat r.toNat f .plain 1 (match x.calib with | none => .deny (denyField f stDesc 16) | some z => .go z)
      (exec (.calibDisable c r) s) fun a _ _ => done true (dropArea a c.toNat))

/-- O51. A HANDOFF that leaves the context's windows is refused with PERMISSION. With neither half it is admitted and does nothing;
on a ring of one member it copies from source to destination, with DESC_ERROR where that is too small, and with one half does
nothing; otherwise it sends READY for its receive half and takes up the messages held for it. An EPOCH that R212 refuses completes
with DESC_ERROR; another is admitted, its member map and handover entries are read, one of which reads that fails ends it with its
fault, and the engine is DRAINING with the new number, members, S and digest in waiting. [spec/06_ring_circulation_and_membership.md
R189 to R192, R212, R213, spec/13_rings_and_descriptors.md R451, Table 13.6] -/
def Obligations.RingPassesAdmitted : Prop :=
  ∀ (s : State) (c : BitVec 12) (r : BitVec 4) (f : Fetched) (x : Ctx) (now : U64),
    let t := { s with time := now }
    let slot := freeSlot s
    (t.heads c.toNat r.toNat opBarrier f x → field f.desc 16 1 = 1 →
      let h := parseHandoff t f.desc
      let a := admitPass t (newPass t c.toNat r.toNat f.desc (.handoff h))
      let out := exec (.barrierHandoff c r now) s
      (∀ y, handoffCheck t x f = some y → out = .next (refuse t c.toNat r.toNat f.desc y)) ∧
      (handoffCheck t x f = none →
        (h.send = .off → h.recv = .off → out = .next (setHandoff a slot h)) ∧
        (h.send ≠ .off ∨ h.recv ≠ .off → a.net.members = [a.net.position.toNat] →
          (h.send = .off ∨ h.recv = .off → out = .next (setHandoff a slot { h with send := .done, recv := .done })) ∧
          (h.send ≠ .off → h.recv ≠ .off → h.sendLen ≤ h.recvLen →
            let b := seenLines a h.sendAddr h.sendLen
            out = .next (setHandoff { b with store := storeCopy b.store h.sendAddr h.recvAddr h.sendLen } slot
              { h with send := .done, recv := .done, sent := h.sendLen, got := h.sendLen })) ∧
          (h.send ≠ .off → h.recv ≠ .off → h.recvLen < h.sendLen →
            out = .next (setHandoff a slot { spoilHandoff h stDesc with send := .done, recv := .done }))) ∧
        (h.send ≠ .off ∨ h.recv ≠ .off → a.net.members ≠ [a.net.position.toNat] → out = .next (takeHeld (trySendReady a slot))))) ∧
    (s.heads c.toNat r.toNat opEpoch f x → epochTurn s f = true →
      let p := parseEpoch f.desc
      s.planned c.toNat r.toNat f .epoch 2 (planEpoch s c.toNat x f) (exec (.epoch c r) s) fun a _ y =>
        { a with net := { a.net with
          state := .draining, newEpoch := p.epoch, newMembers := mapMembers y.1, newShards := p.log2,
          digest := epochDigest p.epoch p.log2 y.1, epochPass := some slot, entries := y.2, entryNo := 0, failedIn := false } })

/-- O52. A batch of a SEARCH or TRACE that fits, whose reads can be made and translate, is admitted item by item. A record that
arrives where its slice has a block for it joins the open pen of its key or opens one, and its settle update waits for one less.
PEN_AGE_LIMIT marks the pens whose age has reached age_limit. A group that asks for work takes the best eligible pen, its records
delivered in order, and ends where there is none; one of a stock kernel takes a unit of work, and ends where none is left. The first
scored key not yet raised raises its item's best; the first that can be is appended as a candidate or done with. A settle update
that waits for nothing adds emitted less 1 to its item's count; at 0 the item retires. The lowest unplaced item, retired, is placed.
[spec/05_fold_and_pens.md R153 to R167, spec/02_locator_search.md R64, R66, R78] -/
def Obligations.FoldAtWork : Prop :=
  ∀ (s : State) (now : U64) (slot : Byte) (p : Pass) (e : Ecc) (up : FoldUpset),
    let t := { s with time := now }
    (∀ w b, passOf s slot.toNat = some p → passWalk p = some w → nextBatch w = some b → p.cancelAt = none → p.status = none →
      batchFits s p = true →
      let u := fun (v : State) => modPass { v with formed := v.formed + 1 } slot.toNat (modWalk (takeBatch b v.formed))
      let js := (List.range b.count).map (b.first + ·)
      (∀ x, p.body = .search x →
        let z := planList (fun j => (planLocator s p.ctx (homeSlice x.par.treeAddr) x.par j).bind fun y => .go (j, y)) js
        (∀ ys, (∀ y ∈ z.reads, spanFits s p.slot p.cls y = true) → z.out = .go ys →
          exec (.batchAdmit slot) s = .next (ys.foldl (admitQuery p x b.gen) (u (seeSpans s p.ctx z.reads))))) ∧
      (∀ x, p.body = .trace x →
        let z := planList (fun j => (planRay s p.ctx (homeSlice x.par.treeAddr) x.par j).bind fun y => .go (j, y)) js
        (∀ ys, (∀ y ∈ z.reads, spanFits s p.slot p.cls y = true) → z.out = .go ys →
          exec (.batchAdmit slot) s = .next (ys.foldl (admitRay p x b.gen) (u (seeSpans s p.ctx z.reads)))))) ∧
    (∀ (q : BitVec 2) r i, s.fold.arrivals.find? (fun r => homeSlice r.target == q.toNat) = some r → passOf s r.pass = some p →
      p.cancelAt = none → needsBlock (sliceOf s q.toNat) p.ctx p.cls r = false → itemFor s r.pass r.item r.gen = some i →
      let u := settleAccept (dropArrival (countEcc t e) r) r.settle
      (e ≠ .double → exec (.recordAccept ⟨q, e⟩ now) s = .next (placeRecord u q.toNat p.ctx p.cls { r with settle := 0 })) ∧
      (e = .double → exec (.recordAccept ⟨q, e⟩ now) s =
        .next (placeRecord (poisonPen u q.toNat p.ctx p.cls r) q.toNat p.ctx p.cls { r with settle := 0, poison := true }))) ∧
    (∀ q : BitVec 2, exec (.penAgeLimit q now) s = .next (modSlice t q.toNat fun sl =>
      let mark := fun (p : Pen) => { p with aged := decide (s.regs.ageLimit.toNat * 10 ≤ (now - p.openedAt).toNat) }
      { sl with openPens := sl.openPens.map mark, ready := sl.ready.map mark })) ∧
    (∀ (core : Byte) (k : BitVec 4) g, groupOf s core.toNat k.toNat = some g → (coreOf s core.toNat).clockOn = true →
      let out := exec (.penRequest ⟨core, k⟩ up now) s
      let u := ageSlices t
      let ends := fun (v : State) => out = .next (finishGroup v core.toNat k.toNat)
      (g.stock = .walk [] →
        (∀ q n, findPen u (core.toNat / 64) g.ctx = some (q, n) →
          (mayTake u core.toNat g n = false → ends u) ∧
          (mayTake u core.toNat g n = true →
            let v := recallPen (countEcc (countDelivery u q (core.toNat / 64) n n.aged) (upsetEcc up)) q n
            let rs := readPen up (penAt v q n)
            out = .next (rs.foldl (deliverRecord core.toNat k.toNat) (poisonItem (modSlice v q fun sl => takePen sl n) up rs)))) ∧
        (findPen u (core.toNat / 64) g.ctx = none → ends u)) ∧
      (∀ w, g.stock = .builder → passOf s g.pass = some p → p.body = .stock w →
        (w.left = 0 → ends t) ∧
        (w.left ≠ 0 → reserved t (flockOfCore core.toNat) = false →
          let v := modPass t g.pass fun p => { p with body := .stock { w with left := w.left - 1 } }
          out = .next (if w.left = 1 then finishStock v g.pass w else v)))) ∧
    (∀ x i, s.fold.scored.find? (!·.raised) = some x →
      let u := { s with fold := { s.fold with scored := modFirst (· == x) (fun x => { x with raised := true }) s.fold.scored } }
      itemFor u x.pass x.item x.gen = some i →
      exec .runningBestMax s = .next (modItem u x.pass x.item fun i =>
        { i with best := if isTrace s x.pass then fmin i.best x.cand.val else fmax i.best x.cand.val })) ∧
    (∀ x i, (s.fold.scored.filter (·.raised)).find? (canAppend s) = some x → passOf s x.pass = some p → itemFor s x.pass x.item x.gen = some i →
      exec .candidateAppend s = .next
        (if isCandidate p i x.cand then modItem (doneScored s x) x.pass x.item (appendTo p x.cand) else doneScored s x)) ∧
    (∀ x i, s.fold.settles.find? (·.waiting == 0) = some x →
      let u := { s with fold := { s.fold with settles := dropFirst (· == x) s.fold.settles } }
      passOf u x.pass = some p → itemFor u x.pass x.item x.gen = some i →
      (i.count + x.emitted - 1 ≠ 0 → exec .settleUpdate s = .next (modItem u x.pass x.item fun _ => { i with count := i.count + x.emitted - 1 })) ∧
      (i.count + x.emitted - 1 = 0 → exec .settleUpdate s = .next (retireItem u p { i with count := 0 }))) ∧
    (∀ w r, passOf s slot.toNat = some p → p.cancelAt = none → passWalk p = some w → w.retired.find? (·.index == w.placed) = some r →
      (∀ x, p.body = .search x → exec (.queryPlacement slot) s = .next (placeQuery s slot.toNat x r)) ∧
      (∀ x, p.body = .trace x → exec (.queryPlacement slot) s = .next (placeRay s slot.toNat x r)))

/-- O53. Where a core's clock runs, the arbiter picks a slot, and its group's next bundle holds the operation a command names, the
command issues that bundle: with no failing check and nothing that stops it the whole bundle is performed, register side, memory
slot, X slot, its core cycles, barrier or end; the first failing check faults the context with CONTRACT and nothing of the bundle is
performed; what stops it otherwise (a FETCH outside the windows, poison read) is what happens; one that is itself read with a
double-bit error ends its pass. A bundle that does not hold the operation is not issued by that command. BOUND_TEST, MMA and
PRIMITIVE_TEST also process the first record of their kind that a stock walk group holds, once its reads can be made.
[spec/07_walker_cores.md R223, R227, spec/08_schedule_contract.md R260 to R268, R285, R286, spec/02_locator_search.md R61,
spec/04_ray_traversal.md R122, R136, spec/17_faults_log_firmware_debug.md R543] -/
def Obligations.BundleIssue : Prop :=
  ∀ (s u t : State) (core : Byte) (slot : BitVec 4) (ecc : Ecc) (up : BundleUpset) (upsets : List (Nat × Bool)) (g : Group) (h : Herd)
    (b : Bundle) (i : Instr) (pick : Option Bundle → Bool) (e1 e2 : Bool),
    (u.starts core.toNat slot.toNat t g h b →
      (i = .fetch ⟨core, slot⟩ upsets ∧ u = { s with store := strikeLines s.store upsets } ∧ pick = holdsX .fetch ∧ e1 = false ∧ e2 = false) ∨
      (u = s ∧ (i, pick, e1, e2) ∈ [(Instr.br core slot, holdsC .br, false, false), (.brnone core slot, holdsC .brnone, false, false),
        (.ifMask core slot, holdsC .ifm, false, false), (.elseMask core slot, holdsC .elsem, false, false),
        (.endifMask core slot, holdsC .endifm, false, false), (.barH core slot, holdsC .barH, false, false),
        (.barF core slot, holdsC .barF, false, false), (.endGroup core slot, holdsC .endg, false, false),
        (.mma core slot, holdsX .mma, false, false),
        (.wait core slot, holdsX .wait, false, false), (.kernelFence core slot, holdsX .fence, false, false),
        (.stL core slot, holdsM .stL, false, false),
        (.ldF core slot, holdsM .ldF, false, false), (.stF core slot, holdsM .stF, false, false),
        (.ldG core slot, holdsM .ldG, false, false), (.stG core slot, holdsM .stG, false, false),
        (.atG core slot, holdsM .atG, false, false), (.atfG core slot, holdsM .atfG, false, false),
        (.scalarAlu core slot, holdsS, false, false),
        (.boundTest core slot, holdsB, false, false), (.primitiveTest core slot, holdsP, false, false)]) ∨
      (u = countSingle s ecc ∧ i = .ldL core slot ecc ∧ pick = holdsM .ldL ∧ e1 = false ∧ e2 = (ecc == .double)) ∨
      (u = countSingle s (bundleEcc up) ∧ up ≠ .code true ∧ i = .vectorAlu core slot up ∧ pick = holdsV ∧ e1 = (up == .register true) ∧
        e2 = false) →
      (pick (some b) = true → t.performs g h b e1 e2 → exec i s = .next (t.bundleDone core.toNat g h b)) ∧
      (pick (some b) = true → ∀ f rest p, g.failing h b = f :: rest → passOf t g.reading.pass = some p →
        exec i s = .next (faultPass (count t 50) p stContract (contractPayload f.kind f.slot core.toNat g.reading.slot g.reading.number
          f.detail g.reading.herd g.reading.next g.reading.issue))) ∧
      (pick (some b) = true → g.failing h b = [] → ∀ z, bundleStop t g.reading (h.reading g) b e1 e2 = some z → exec i s = .next z) ∧
      (pick (some b) = false → exec i s = .next u)) ∧
    (∀ p, s.starts core.toNat slot.toNat t g h b → passOf t g.pass = some p → exec (.vectorAlu core slot (.code true)) s =
      .next (faultPass (noteStart t core.toNat g) p stPoison (poisonPayload 0xFFFF 2 (bundleAddr t g)))) ∧
    (∀ held r kind, heldBy s core.toNat slot.toNat = some held → (coreOf s core.toNat).clockOn = true →
      (i, kind) ∈ [(Instr.boundTest core slot, fun (r : Record) => !r.leaf), (.mma core slot, fun r => r.leaf && !r.trace),
        (.primitiveTest core slot, fun r => r.leaf && r.trace)] →
      held.find? kind = some r → recordReads s core.toNat slot.toNat r = true →
      exec i s = .next (processRecord (modGroup s core.toNat slot.toNat fun g => { g with stock := .walk (dropFirst (· == r) held) })
        core.toNat slot.toNat r))

/-- O54. After its bundle a group's issue index is one higher and its next bundle the following one, but for BR whose selection is
not empty and BRNONE that acts on an empty exec, which make the named bundle the next. IF, ELSE, ENDIF and BRNONE act on a selection
that is not empty, or on an empty exec unless predicated by zero (that they then act is the model's reading, log entry 16). IF that
acts pushes exec and keeps the threads of its predicate; ELSE takes the others of the saved mask; ENDIF pops it; one that does not
act changes nothing. BAR.H and BAR.F hold the group at their counter, END ends it and drops results on their way, WAIT and FENCE of
a selection that is not empty hold it on a tag or a scope. [spec/07_walker_cores.md R227, R228, R241 to R243,
spec/08_schedule_contract.md R266, R272, R277] -/
def Obligations.ControlFlow : Prop :=
  ∀ (g : Group) (h : Herd) (b : Bundle) (c : CSlot) (x : XSlot),
    let n := issueGroup g h b
    let masks := [COp.ifm, .elsem, .endifm, .brnone]
    n.issue = g.issue + 1 ∧ n.cycles = g.cycles ∧
    (c.op ∈ masks → (cActs g c = true ↔
      selection g c.pred ≠ 0 ∨ (g.exec.toNat % 2 ^ g.width = 0 ∧ (c.pred.en = false ∨ predicate g c.pred ≠ 0)))) ∧
    (b.c = none → n.next = g.next + 1 ∧ n.exec = g.exec ∧ n.stack = g.stack ∧ n.hold = g.hold) ∧
    (b.c = some c →
      (c.op = .br → n.next = (if selection g c.pred ≠ 0 then bitsOf c.imm.toNat 31 0 else g.next + 1) ∧ n.exec = g.exec ∧ n.stack = g.stack) ∧
      (c.op ∈ masks → cActs g c = false → n.next = g.next + 1 ∧ n.exec = g.exec ∧ n.stack = g.stack ∧ n.hold = g.hold) ∧
      (c.op = .brnone → cActs g c = true → n.next = (if g.exec.toNat % 2 ^ g.width = 0 then bitsOf c.imm.toNat 31 0 else g.next + 1)) ∧
      (c.op = .ifm → cActs g c = true → n.stack = g.exec :: g.stack ∧
        n.exec = BitVec.ofNat 64 (g.exec.toNat &&& (let v := (srcScalar g c.imm c.a).toNat % 2 ^ g.width
                                                   if c.inv then fullMask g.width - v else v)) ∧ n.next = g.next + 1) ∧
      (∀ e st, g.stack = e :: st → cActs g c = true →
        (c.op = .elsem → n.exec = (e &&& ~~~g.exec) ∧ n.stack = g.stack) ∧ (c.op = .endifm → n.exec = e ∧ n.stack = st)) ∧
      (c.op = .barH → n.hold = .barH (bitsOf c.imm.toNat 1 0)) ∧ (c.op = .barF → n.hold = .barF (bitsOf c.imm.toNat 2 0)) ∧
      (c.op = .endg → n.ended = true ∧ n.pend = []) ∧
      (c.op ∈ [COp.elsem, .endifm, .barH, .barF, .endg] → n.next = g.next + 1)) ∧
    (b.x = some x → selection g x.pred ≠ 0 → (x.op = .wait → n.wait = .tag x.tag) ∧ (x.op = .fence → n.wait = .fence x.scope.toNat))

/-- O55. A bundle with one vector or scalar operation whose selection is not empty leaves one result on its way, due latency issues
later: the operation's value of every selected thread in its destination, a comparison's bits in the scalar register with the bits
of unselected threads kept. A result changes no register before its point; at its point it is written and off the list.
[spec/07_walker_cores.md R232, spec/08_schedule_contract.md R260 to R264, Table 8.1] -/
def Obligations.ResultsFallDue : Prop :=
  ∀ (g : Group) (h : Herd) (v : VSlot) (x : SSlot),
    let ts := threadsOf g (selection g v.pred)
    let val := fun t => vEval v.op (srcVal g t v.imm v.a) (srcVal g t v.imm v.b) (srcVal g t v.imm v.c)
    let one := fun (b : Bundle) => (issueGroup g h b).pend
    (selection g v.pred ≠ 0 →
      ((∀ c f, v.op ≠ .cmp c f) → v.op ≠ .permute → one { Bundle.empty with v0 := some v } = g.pend ++
        [⟨g.issue + vLat v.op g.width g.f1, .vreg v.dst.toNat (ts.map fun t => (t, val t))⟩]) ∧
      (v.op = .permute → one { Bundle.empty with v1 := some v } = g.pend ++
        [⟨g.issue + vLat v.op g.width g.f1, .vreg v.dst.toNat (ts.map fun t =>
          (t, srcVal g ((srcVal g t v.imm v.b).toNat % g.width) v.imm v.a))⟩]) ∧
      (∀ c f, v.op = .cmp c f → one { Bundle.empty with v1 := some v } = g.pend ++
        [⟨g.issue + vLat v.op g.width g.f1, .sreg (v.dst.toNat % 128) (BitVec.ofNat 64 (2 ^ 64 - 2 ^ g.width + selection g v.pred))
          (BitVec.ofNat 64 ((ts.map fun t => if val t = 0 then 0 else 2 ^ t).sum))⟩])) ∧
    (selection g x.pred ≠ 0 → one { Bundle.empty with s := some x } = g.pend ++ [⟨g.issue + sLat x.op g.width g.f1,
      .sreg x.dst.toNat (BitVec.ofNat 64 (2 ^ 64 - 1)) (sEval x.op (srcScalar g x.imm x.a) (srcScalar g x.imm x.b))⟩]) ∧
    (selection g v.pred = 0 → one { Bundle.empty with v0 := some v } = g.pend) ∧
    ((∀ p ∈ g.pend, p.vis ≠ g.issue) → dueGroup g = g) ∧
    (∀ d rest, g.pend = ⟨g.issue, d⟩ :: rest → (∀ p ∈ rest, p.vis ≠ g.issue) → dueGroup g = { applyReg g d with pend := rest })

/-- O56. A bundle whose M slot, or whose MMA or FETCH, with a selection that is not empty names a tag already outstanding fails
TAG_BUSY, and where that is its first failing check the context faults with CONTRACT, kind TAG_BUSY. TAG_COMPLETE of a core whose
clock runs ends an MMA, a FETCH from the store, and a FLOCK access that waits for no earlier one of its group: the tile or rows or
bytes are written, and its last return takes the tag off. Of an operation of memory, and where the clock is stopped, it does
nothing. [R271] -/
def Obligations.TagsOfAsynchronousOperations : Prop :=
  ∀ (s u : State) (core : Byte) (slot : BitVec 4) (upsets : List (Nat × Bool)) (g : Group) (h : Herd) (b : Bundle),
    (∀ m, b.m = some m → mAsync m.op = true → selection g m.pred ≠ 0 → tagOut g m.tag = true →
      (⟨4, 5, m.tag.toNat⟩ : Fail) ∈ bundleFails g h b) ∧
    (∀ x, b.x = some x → x.op = .mma ∨ x.op = .fetch → selection g x.pred ≠ 0 → tagOut g x.tag = true →
      (⟨7, 5, x.tag.toNat⟩ : Fail) ∈ bundleFails g h b) ∧
    (∀ sl n t rest p i pick, u.starts core.toNat slot.toNat t g h b → g.failing h b = ⟨sl, 5, n⟩ :: rest → passOf t g.reading.pass = some p →
      (i = .fetch ⟨core, slot⟩ upsets ∧ u = { s with store := strikeLines s.store upsets } ∧ pick = holdsX .fetch) ∨
      (u = s ∧ (i, pick) ∈ [(Instr.mma core slot, holdsX .mma), (.ldG core slot, holdsM .ldG),
        (.stG core slot, holdsM .stG), (.atG core slot, holdsM .atG), (.atfG core slot, holdsM .atfG), (.ldF core slot, holdsM .ldF),
        (.stF core slot, holdsM .stF)]) → pick (some b) = true →
      exec i s = .next (faultPass (count t 50) p stContract (contractPayload 5 sl core.toNat g.reading.slot g.reading.number n
        g.reading.herd g.reading.next g.reading.issue))) ∧
    ((coreOf s core.toNat).clockOn = false → ∀ tag, exec (.tagComplete core slot tag) s = .next s) ∧
    (∀ tag t, (coreOf s core.toNat).clockOn = true → groupOf s core.toNat slot.toNat = some g →
      herdOf (coreOf s core.toNat) g.pass g.herd = some h → g.tags.find? (·.tag == tag) = some t →
      let ends := fun (v : State) => exec (.tagComplete core slot tag) s = .next (tagReturn v core.toNat slot.toNat tag.toNat)
      (∀ x y w z, t.op = .mma x y w z → ends (finishMma s core.toNat g h t x y w z)) ∧
      (∀ rows, t.op = .fetchStore rows →
        ends (markRows (rows.foldl (fun s r => storeRow s core.toNat g tag.toNat r) s) core.toNat g rows)) ∧
      (∀ r n ths, t.op = .loadF r n ths → flockWaits g t = false → ends (finishLoadF s core.toNat g h r n ths)) ∧
      (∀ bs, t.op = .storeF bs → flockWaits g t = false → ends (finishStoreF s core.toNat h bs)) ∧
      (t.op = .remote → exec (.tagComplete core slot tag) s = .next s) ∧
      (t.left ≤ 1 → tagReturn s core.toNat slot.toNat tag.toNat = endIfDone (modGroup (settleTag s core.toNat g t) core.toNat
        slot.toNat fun g => { g with tags := g.tags.filter (·.tag.toNat != tag.toNat) }) core.toNat slot.toNat))

/-- O57. A waiting launch of one herd that its core fits and that may go to that flock is made there: the flock serves the pass's
context; of a KERNEL the herd and its groups are placed with their start values and the pass counts them, of a shader a herd with
the next packets of one raster unit, of a BUILD, a stock KERNEL, a SEARCH or a TRACE one group of its stock kernel. A flock launch
takes eight more barrier counters and the flock's lowest cores that fit. A launch that does not fit or may not go there changes
nothing. Core cycles passed with no bundle count for the groups of a core whose clock runs; a group whose time is then above its
kernel's bound issues nothing more and faults its context with CONTRACT, kind TIME_BOUND. [spec/07_walker_cores.md R232, R237 to
R240, spec/08_schedule_contract.md R279, R280, spec/10_compositing_path.md R346, spec/14_traffic_classes_and_deadlines.md R472 to
R477] -/
def Obligations.LaunchesAndTimeBound : Prop :=
  ∀ (s : State) (slot core : Byte) (fl : BitVec 5) (now : U64) (p : Pass) (w : Waiting),
    let t := { s with time := now }
    let f := flockOfCore core.toNat
    (passOf s slot.toNat = some p → waitingOf t p = some w →
      (launchSize w = 1 → fits t core.toNat w = true → mayLaunch t f w = true →
        let u := serveFlock t f p.ctx
        let out := exec (.herdLaunch slot core now) s
        (∀ k, p.body = .kernel k → out = .next (modPass (placeHerd u p k.image k.args core.toNat k.next 0
          (k.next / k.image.flockHerds) [] fun _ => none) p.slot (noteLaunched 1 k.image.groups))) ∧
        (∀ b i, p.body = .render b → b.shader = some i → out = .next (launchShader u p b i core.toNat 0 b.herds)) ∧
        (∀ k, p.body = .stock k → out = .next (launchStock u p core.toNat .builder p.slot)) ∧
        (∀ k, p.body = .search k → out = .next (launchStock u p core.toNat (.walk []))) ∧
        (∀ k, p.body = .trace k → out = .next (launchStock u p core.toNat (.walk [])))) ∧
      (launchSize w ≠ 1 ∨ fits t core.toNat w = false ∨ mayLaunch t f w = false → exec (.herdLaunch slot core now) s = .next t) ∧
      (∀ cs, flockCores t fl.toNat w = some cs → launchSize w ≠ 1 → mayLaunch t fl.toNat w = true →
        let u := serveFlock t fl.toNat p.ctx
        let v := { u with flocks := modAt u.flocks fl.toNat fun x => { x with counters := x.counters + 8 } }
        let out := exec (.flockLaunch slot fl now) s
        (∀ k, p.body = .kernel k → out = .next (modPass ((List.range cs.length).foldl (fun s m =>
          placeHerd s p k.image k.args (cs.getD m 0) (k.next + m) m (k.next / k.image.flockHerds) [] fun _ => none) v)
          p.slot (noteLaunched cs.length k.image.groups))) ∧
        (∀ b, p.body = .render b → out = .next (cs.zipIdx.foldl (launchShaders p.slot b.herds) v))) ∧
      (flockCores t fl.toNat w = none ∨ launchSize w = 1 ∨ mayLaunch t fl.toNat w = false → exec (.flockLaunch slot fl now) s = .next t)) ∧
    (∀ (q : BitVec 4) (n : Nat), groupOf s core.toNat q.toNat ≠ none →
      let u := passCycles s core.toNat none n
      let late := (coreOf u core.toNat).groups.filter overBound
      ((coreOf s core.toNat).clockOn = false → exec (.timeBound core q n) s = .next s) ∧
      ((coreOf s core.toNat).clockOn = true → late = [] → exec (.timeBound core q n) s = .next u) ∧
      (∀ g, (coreOf s core.toNat).clockOn = true → late = [g] → passOf u g.pass = some p →
        exec (.timeBound core q n) s = .next (faultPass (count u 50) p stContract
          (contractPayload 0x0B 0xF core.toNat g.slot g.number g.cycles g.herd g.next g.issue)) ∧
        groupReady u core.toNat g = false))

/-- O58. In its fabric cycle a read port of an unparked engine issues the first of its ready reads in the order of R374, if it has
one, on its first free run of tags, presents its request, reserves its staging slots and counts its bytes; a write port likewise by
R377, its data beats after its request. The oldest burst of a merge stage leaves when its window ends. A response for no outstanding
tag is counted and discarded, one for an orphaned tag of a write frees it; a write response OKAY performs the request's writes; the
last beat of a read frees its tags and delivers the data, an earlier one is kept. A parked engine grants and takes nothing.
[spec/11_fetch_and_streaming.md R371, R374, R377, R378, R390, spec/15_ports_clocks_power_reset.md R488 to R490, R492, R515, R517,
Tables 15.5 to 15.7, spec/17_faults_log_firmware_debug.md R546, spec/16_setup_registers.md Table 16.11] -/
def Obligations.PortTraffic : Prop :=
  ∀ (s : State) (q : BitVec 5) (now : U64) (b : EppBeat) (ecc : Ecc),
    let n := q.toNat
    let p := s.ports.getD n .reset
    let t := { s with time := now }
    let set := fun (u : State) (f : Port → Port) => { u with ports := modAt u.ports n f }
    let cyc := if p.cycle < s.fabric then s.fabric else s.fabric + 1
    let cycled := set { s with fabric := cyc } fun p => { p with cycle := cyc }
    (s.pins.parked = true → exec (.portReadGrant q) s = .next s ∧ exec (.portWriteGrant q) s = .next s ∧ exec (.eppResponse ⟨q, b⟩ ecc now) s = .next t) ∧
    (s.pins.parked = false →
      (p.readyRd.filter (readReady cycled p) = [] → exec (.portReadGrant q) s = .next cycled) ∧
      (∀ r tag, bestBy (readBefore cycled cyc) (p.readyRd.filter (readReady cycled p)) = some r → freeTags p.outRd (burstBeats r) = some tag →
        let u := set cycled fun p =>
          { p with readyRd := dropFirst (· == r) p.readyRd, outRd := p.outRd ++ [takeOff tag r], chan := burstChannel tag r }
        exec (.portReadGrant q) s =
          .next (acceptTags (count { u with streams := s.streams.map (streamIssue n tag r) } (96 + 2 * n) r.len) r.parts)) ∧
      (p.readyWr.filter (fun b => (freeTags p.outWr (burstBeats b)).isSome && inOrder p b) = [] → exec (.portWriteGrant q) s = .next s) ∧
      (∀ r tag, bestBy writeBefore (p.readyWr.filter fun b => (freeTags p.outWr (burstBeats b)).isSome && inOrder p b) = some r →
        freeTags p.outWr (burstBeats r) = some tag →
        let u := set s fun p =>
          { p with readyWr := dropFirst (· == r) p.readyWr, outWr := p.outWr ++ [takeOff tag r], chan := burstChannel tag r }
        let v := r.parts.foldl (fun u x => modPass u x.pass fun p => { p with wrote := true }) u
        exec (.portWriteGrant q) s = .next (acceptTags (count v (97 + 2 * n) r.len) r.parts))) ∧
    (exec (.mergeWindowExpire q) s = .next (set s mergeExpire) ∧
      (∀ r rest, p.mergeRd = r :: rest → p.mergeWr = [] → mergeExpire p = { p with mergeRd := rest, readyRd := p.readyRd ++ [r] }) ∧
      (∀ w rest, p.mergeWr = w :: rest → p.mergeRd = [] → mergeExpire p = { p with mergeWr := rest, readyWr := p.readyWr ++ [w] })) ∧
    (s.pins.parked = false →
      ((if b.dir then p.outWr.find? (fun f => f.tag == b.tag.toNat) else flightOf p.outRd b.tag.toNat) = none →
        exec (.eppResponse ⟨q, b⟩ ecc now) s = .next (count t 44)) ∧
      (∀ f, b.dir = true → p.outWr.find? (fun f => f.tag == b.tag.toNat) = some f → f.orphan = true →
        exec (.eppResponse ⟨q, b⟩ ecc now) s = .next (count (set t fun p => { p with outWr := p.outWr.filter (·.tag != f.tag) }) 44)) ∧
      (∀ f, b.dir = true → p.outWr.find? (fun f => f.tag == b.tag.toNat) = some f → f.orphan = false → b.code = 0 →
        exec (.eppResponse ⟨q, b⟩ ecc now) s = .next (maskOlder (f.burst.parts.foldl (fun s r => writeDone s f 0 r)
          (set t fun p => { p with outWr := p.outWr.filter (·.tag != f.tag) })) n f.burst)) ∧
      (∀ f, b.dir = false → flightOf p.outRd b.tag.toNat = some f → f.orphan = false → b.code = 0 →
        let g := stageBeat f b ecc
        let t := if staged f then countEcc t ecc else t
        (g.left ≠ [] → exec (.eppResponse ⟨q, b⟩ ecc now) s = .next (set t fun p =>
          { p with outRd := p.outRd.map fun x => if x.tag = f.tag then g else x })) ∧
        (g.left = [] → (∀ r ∈ f.burst.parts, r.kind ≠ .atomic) →
          let u := set t fun p => { p with outRd := p.outRd.filter (·.tag != f.tag) }
          exec (.eppResponse ⟨q, b⟩ ecc now) s = .next (f.burst.parts.foldl (fun s r => deliver s g r)
            (xferBeats { u with streams := s.streams.map (streamTake s.fabric n f.tag) } g)))))

/-- O59. The next primitive of a TILED pass is read: a culled one is counted and passed over, another is put on the lists of the
tiles it touches; a read of it that fails ends the pass. A raster unit first ends the render passes that are done, then takes its
next tiles of the first pass in the order of R469; a double-bit error of its tile state memory ends that pass with POISON_CONSUMED;
with no tile to take it does no more. A window gives each hub its share of awl lines and the sweeps read on. A queued sweep starts
on the lowest flock that may take it, or is given up where no flock may take BACKGROUND groups. A complete sample is recorded.
[spec/10_compositing_path.md R333, R335, R353 to R356, spec/12_numerics_and_recall_calibration.md R420, R421, R423 to R425,
spec/14_traffic_classes_and_deadlines.md R469, R477, R478, spec/17_faults_log_firmware_debug.md R543] -/
def Obligations.RasterAndRecallAtWork : Prop :=
  ∀ (s : State) (slot : Byte) (unit : BitVec 3) (ecc : Ecc) (now : U64) (p : Pass) (b : RenderBody),
    let t := { s with time := now }
    (renderOf s slot.toNat = some (p, b) → b.tiled = true → b.cursor ≠ b.par.primCount →
      let pos := if b.par.bwd then b.par.primCount - 1 - b.cursor else b.cursor
      let z := planRec s p.ctx 0 b.par pos
      let u := seeSpans s p.ctx z.reads
      let out := exec (.primitiveBin slot) s
      (∀ rd a, z.out = .xlate rd a → out = .next (xlatePass u p rd a)) ∧
      (∀ n rd a, z.out = .poison n rd a → out = .next (consumePoison u p n rd a)) ∧
      (∀ rec_, z.out = .go rec_ →
        (isCulled b.par rec_ = true → out = .next (countCulled u p { b with cursor := b.cursor + 1 } 1)) ∧
        (isCulled b.par rec_ = false →
          out = .next (binTiles slot.toNat pos (footprint b.par rec_) (2 * (footprint b.par rec_).length + 2) u)))) ∧
    (let u := (renderOrder s).foldl (fun s p => settleRender s p.slot) s
     (nextTiles u unit.toNat = none → exec (.tileStart unit ecc) s = .next u) ∧
     (∀ n w, nextTiles u unit.toNat = some (n, w) → passOf u n = some p →
      (ecc = .double → exec (.tileStart unit ecc) s = .next (faultPass u p stPoison (poisonPayload 0xFFFF 2 (w.2.headD 0)))) ∧
      (ecc = .single → exec (.tileStart unit ecc) s = .next (runTiles (directCull (count u 40) n) n w)) ∧
      (ecc = .ok → exec (.tileStart unit ecc) s = .next (runTiles (directCull u n) n w)))) ∧
    (exec .awlWindow s = .next ((s.awl.sweeps.map (·.entry)).foldl
      (fun u e => match u.awl.sweeps.find? (·.entry == e) with | some x => advanceSweep u x | none => u)
      { s with awl := { s.awl with budget := List.replicate 4 (s.regs.awlStoreCap.toNat * 65536 / 100) } })) ∧
    (∀ x, s.awl.sweeps.find? (·.run.isNone) = some x →
      (noBackground s = true → exec (.sweepStart now) s = .next (abandonSweep t x)) ∧
      (∀ z f, noBackground s = false → sweepBody s x = some (p, z) → (List.range 32).find? (sweepFits t (sweepLaunch p x)) = some f →
        let u := serveFlock t f p.ctx
        let n := lowestStream u (f / 8) 1024 256
        let r : SweepRun := ⟨f, n, 0, chunkUnits z (sweepChunks z)⟩
        exec (.sweepStart now) s = .next (advanceSweep (setRun (openStream u (f / 8) n x.pass 2) x r) { x with run := some r }))) ∧
    (∀ x, s.awl.samples.find? (·.complete) = some x → exec .sampleComplete s = .next (recordSample s x))

/-- O60. Every flit of 496 payload bytes, at most 496 of them valid, is written in 512 bytes, and reading these back gives the flit:
no bit of the header, the payload or the CRC is dropped or moved. Two flits with the same bytes are the same flit.
[spec/06_ring_circulation_and_membership.md R198, R199, Table 6.3] -/
def Obligations.FlitRoundTrip : Prop :=
  ∀ f : Flit, f.wf = true → (flitBytes f).length = 512 ∧ parseFlit (flitBytes f) = f ∧
    (∀ g : Flit, g.wf = true → flitBytes g = flitBytes f → g = f)
end

