-- ==== Sys2Proof/Laws/Memory.lean ====
section
/-! SUPPORT. The laws of sparse tables and of memory: what a write leaves at every key, and that every write keeps the canonical
form, so that equal memories are equal data. -/
namespace Sys2Proof.Machine

variable {α : Type}

theorem smAbove_cons {b k : Nat} {v : α} {r : List (Nat × α)} : smAbove b ((k, v) :: r) = (decide (b < k) && smAbove b r) := rfl

theorem smAbove_mono {a b : Nat} {m : List (Nat × α)} (hab : a ≤ b) (h : smAbove b m = true) : smAbove a m = true := by
  simp only [smAbove, List.all_eq_true, decide_eq_true_eq] at *
  exact fun x hx => Nat.lt_of_le_of_lt hab (h x hx)

theorem smErase_above {b k : Nat} {m : List (Nat × α)} (h : smAbove b m = true) : smAbove b (smErase m k) = true := by
  induction m with
  | nil => rfl
  | cons x r ih =>
    obtain ⟨a, v⟩ := x
    rw [smAbove_cons, Bool.and_eq_true] at h
    unfold smErase
    split
    · exact h.2
    · split
      · rw [smAbove_cons, Bool.and_eq_true]; exact h
      · rw [smAbove_cons, Bool.and_eq_true]; exact ⟨h.1, ih h.2⟩

theorem smPut_above {b k : Nat} {v : α} {m : List (Nat × α)} (hk : b < k) (h : smAbove b m = true) :
    smAbove b (smPut m k v) = true := by
  induction m with
  | nil => simp [smPut, smAbove, hk]
  | cons x r ih =>
    obtain ⟨a, w⟩ := x
    rw [smAbove_cons, Bool.and_eq_true] at h
    unfold smPut
    split
    · subst_vars; rw [smAbove_cons, Bool.and_eq_true]; exact h
    · split
      · simp only [smAbove_cons, Bool.and_eq_true, decide_eq_true_eq] at h ⊢; exact ⟨hk, h⟩
      · rw [smAbove_cons, Bool.and_eq_true]; exact ⟨h.1, ih h.2⟩

variable [DecidableEq α]

theorem smWf_cons {d : α} {k : Nat} {v : α} {r : List (Nat × α)} :
    smWf d ((k, v) :: r) = true ↔ smAbove k r = true ∧ v ≠ d ∧ smWf d r = true := by
  simp [smWf, and_assoc]

theorem smErase_wf {d : α} {m : List (Nat × α)} (h : smWf d m = true) (k : Nat) : smWf d (smErase m k) = true := by
  induction m with
  | nil => rfl
  | cons x r ih =>
    obtain ⟨a, v⟩ := x
    have h' := smWf_cons.1 h
    unfold smErase
    split
    · exact h'.2.2
    · split
      · exact h
      · exact smWf_cons.2 ⟨smErase_above h'.1, h'.2.1, ih h'.2.2⟩

theorem smPut_wf {d v : α} {m : List (Nat × α)} (h : smWf d m = true) (hv : v ≠ d) (k : Nat) : smWf d (smPut m k v) = true := by
  induction m with
  | nil => simp [smPut, smWf, smAbove, hv]
  | cons x r ih =>
    obtain ⟨a, w⟩ := x
    have h' := smWf_cons.1 h
    unfold smPut
    split
    · subst_vars; exact smWf_cons.2 ⟨h'.1, hv, h'.2.2⟩
    · split
      · refine smWf_cons.2 ⟨?_, hv, h⟩
        rw [smAbove_cons, Bool.and_eq_true, decide_eq_true_eq]
        exact ⟨by assumption, smAbove_mono (Nat.le_of_lt (by assumption)) h'.1⟩
      · refine smWf_cons.2 ⟨smPut_above ?_ h'.1, h'.2.1, ih h'.2.2⟩
        rename_i h1 h2
        omega

/-- A table written at any key keeps the canonical form. -/
theorem smSet_wf {d : α} {m : List (Nat × α)} (h : smWf d m = true) (k : Nat) (v : α) : smWf d (smSet d m k v) = true := by
  unfold smSet
  split
  · exact smErase_wf h k
  · exact smPut_wf h (by assumption) k

theorem smFilter_wf {d : α} {m : List (Nat × α)} (p : Nat × α → Bool) (h : smWf d m = true) : smWf d (m.filter p) = true := by
  induction m with
  | nil => rfl
  | cons x r ih =>
    obtain ⟨a, v⟩ := x
    have h' := smWf_cons.1 h
    rw [List.filter_cons]
    split
    · refine smWf_cons.2 ⟨?_, h'.2.1, ih h'.2.2⟩
      have h1 := h'.1
      simp only [smAbove, List.all_eq_true, decide_eq_true_eq] at h1 ⊢
      exact fun y hy => h1 y (List.mem_filter.1 hy).1
    · exact ih h'.2.2

omit [DecidableEq α] in
theorem smGet_above {d : α} {m : List (Nat × α)} {b k : Nat} (h : smAbove b m = true) (hk : k ≤ b) : smGet d m k = d := by
  cases m with
  | nil => rfl
  | cons x r =>
    obtain ⟨a, v⟩ := x
    rw [smAbove_cons, Bool.and_eq_true, decide_eq_true_eq] at h
    unfold smGet
    rw [if_neg (by omega), if_pos (by omega)]

theorem smGet_erase {d : α} {m : List (Nat × α)} (h : smWf d m = true) (k j : Nat) :
    smGet d (smErase m k) j = if j = k then d else smGet d m j := by
  induction m with
  | nil => simp [smErase, smGet]
  | cons x r ih =>
    obtain ⟨a, v⟩ := x
    have h' := smWf_cons.1 h
    unfold smErase
    by_cases h1 : k = a
    · subst h1
      rw [if_pos rfl]
      by_cases hj : j = k
      · subst hj; simp [smGet_above h'.1 (Nat.le_refl _)]
      · rw [if_neg hj, smGet, if_neg hj]
        by_cases hlt : j < k
        · rw [if_pos hlt, smGet_above h'.1 (Nat.le_of_lt hlt)]
        · rw [if_neg hlt]
    · rw [if_neg h1]
      by_cases h2 : k < a
      · rw [if_pos h2]
        by_cases hj : j = k
        · subst hj; simp [smGet, h1, h2]
        · rw [if_neg hj]
      · rw [if_neg h2]
        by_cases hj : j = a
        · subst hj; simp [smGet, Ne.symm h1]
        · by_cases hlt : j < a
          · simp [smGet, hj, hlt]
          · simp only [smGet, if_neg hj, if_neg hlt, ih h'.2.2]

omit [DecidableEq α] in
theorem smGet_put {d v : α} (m : List (Nat × α)) (k j : Nat) :
    smGet d (smPut m k v) j = if j = k then v else smGet d m j := by
  induction m with
  | nil => by_cases hj : j = k <;> simp [smPut, smGet, hj]
  | cons x r ih =>
    obtain ⟨a, w⟩ := x
    unfold smPut
    by_cases h1 : k = a
    · subst h1
      by_cases hj : j = k
      · simp [smGet, hj]
      · simp [smGet, hj]
    · rw [if_neg h1]
      by_cases h2 : k < a
      · rw [if_pos h2]
        by_cases hj : j = k
        · simp [smGet, hj]
        · by_cases hlt : j < k
          · have : j ≠ a := by omega
            have : j < a := by omega
            simp [smGet, *]
          · rw [if_neg hj, smGet, if_neg hj, if_neg hlt]
      · rw [if_neg h2]
        by_cases hj : j = a
        · subst hj; simp [smGet, Ne.symm h1]
        · by_cases hlt : j < a
          · have : j ≠ k := by omega
            simp [smGet, hj, hlt, this]
          · simp only [smGet, if_neg hj, if_neg hlt, ih]

/-- A read after a write to a table in canonical form: the value at the key written, what stood there at every other key. -/
theorem smGet_set {d : α} {m : List (Nat × α)} (h : smWf d m = true) (k j : Nat) (v : α) :
    smGet d (smSet d m k v) j = if j = k then v else smGet d m j := by
  unfold smSet
  by_cases hv : v = d
  · rw [if_pos hv, smGet_erase h, hv]
  · rw [if_neg hv, smGet_put]

/-! ## Bytes of memory -/

theorem writeBytes_wf {m : List Host.Cell} (h : smWf 0 m = true) (asid a : Nat) (b : List Byte) :
    smWf 0 (writeBytes m asid a b) = true := by
  induction b generalizing m a with
  | nil => exact h
  | cons x r ih => exact ih (smSet_wf h _ _) (a + 1)

/-- A byte of no span written reads as before. -/
theorem writeBytes_frame {m : List Host.Cell} (h : smWf 0 m = true) (asid a : Nat) (b : List Byte) (k : Nat)
    (hk : ∀ i, i < b.length → k ≠ memKey asid (a + i)) : smGet 0 (writeBytes m asid a b) k = smGet 0 m k := by
  induction b generalizing m a with
  | nil => rfl
  | cons x r ih =>
    have h0 := hk 0 (by simp)
    rw [Nat.add_zero] at h0
    rw [writeBytes, ih (smSet_wf h _ _) (a + 1), smGet_set h, if_neg h0]
    intro i hi
    have := hk (i + 1) (by simpa using hi)
    rwa [show a + (i + 1) = a + 1 + i by omega] at this

theorem chipWrite_wf {c : Chip} (h : smWf 0 c.bytes = true) (asid a : Nat) (b : List Byte) (p : Bool) :
    smWf 0 (chipWrite c asid a b p).bytes = true := writeBytes_wf h asid a b

/-- A chip write changes no byte outside its span. -/
theorem chipWrite_frame {c : Chip} (h : smWf 0 c.bytes = true) (asid a : Nat) (b : List Byte) (p : Bool) (asid' x : Nat)
    (hx : ∀ i, i < b.length → memKey asid' x ≠ memKey asid (a + i)) :
    chipByte (chipWrite c asid a b p) asid' x = chipByte c asid' x := writeBytes_frame h asid a b _ hx

theorem storeWrite_wf {c : Store} (h : smWf 0 c.bytes = true) (a : Nat) (b : List Byte) (p : Bool) :
    smWf 0 (storeWrite c a b p).bytes = true := writeBytes_wf h 0 a b

theorem storeWrites_wf {c : Store} (h : smWf 0 c.bytes = true) (ws : List (Nat × List Byte)) :
    smWf 0 (storeWrites c ws).bytes = true := by
  unfold storeWrites
  induction ws generalizing c with
  | nil => exact h
  | cons w r ih => exact ih (storeWrite_wf h _ _ _)

theorem storeZeroMib_wf {c : Store} (h : smWf 0 c.bytes = true) (u : Nat) : smWf 0 (storeZeroMib c u).bytes = true :=
  smFilter_wf _ h

theorem foldl_set_wf {m : List Host.Cell} (h : smWf 0 m = true) (w : List (Nat × Byte)) :
    smWf 0 (w.foldl (fun m kv => smSet 0 m kv.1 kv.2) m) = true := by
  induction w generalizing m with
  | nil => exact h
  | cons x r ih => exact ih (smSet_wf h _ _)

/-! ## Lists changed at one place -/

@[simp] theorem modAt_length {β : Type} (l : List β) (n : Nat) (f : β → β) : (modAt l n f).length = l.length := by
  induction l generalizing n with
  | nil => cases n <;> rfl
  | cons a r ih => cases n with
    | zero => rfl
    | succ n => simp [modAt, ih]

end Sys2Proof.Machine
end

