-- ==== Sys2Proof/Laws/Kept.lean ====
section
/-! SUPPORT. The relations Kept, EdgeKept and MemKept: what every operation inside the engine leaves alone. Their lemmas (files
Laws/Kept…) say it once for each operation, in the form "what was kept since u is kept still", so that they compose by application. -/
namespace Sys2Proof.Machine

/-- The canonical form of the chip's memory and of the store, and the lengths of the fixed lists, carried from u to t. -/
structure MemKept (u t : State) : Prop where
  chip : smWf 0 u.chip.bytes = true → smWf 0 t.chip.bytes = true
  store : smWf 0 u.store.bytes = true → smWf 0 t.store.bytes = true
  ports : u.ports.length = 32 → t.ports.length = 32
  links : u.links.length = 2 → t.links.length = 2
  flocks : u.flocks.length = 32 → t.flocks.length = 32
  slices : u.fold.slices.length = 4 → t.fold.slices.length = 4

/-- What only the boundary, Keeper, Drover and the test access change, beside what MemKept says. -/
structure EdgeKept (u t : State) : Prop extends MemKept u t where
  pending : t.pending = u.pending
  pins : t.pins = u.pins
  straps : t.straps = u.straps
  drover : t.drover = u.drover
  wrapper : t.wrapper = u.wrapper
  thr : t.thr = u.thr

/-- The completer's last answer too, which accesses of the host change. -/
structure Kept (u t : State) : Prop extends EdgeKept u t where
  answer : t.answer = u.answer

theorem MemKept.refl (s : State) : MemKept s s := ⟨id, id, id, id, id, id⟩
theorem EdgeKept.refl (s : State) : EdgeKept s s := ⟨.refl s, rfl, rfl, rfl, rfl, rfl, rfl⟩
theorem Kept.refl (s : State) : Kept s s := ⟨.refl s, rfl⟩

variable {u s t : State}

theorem MemKept.trans (h : MemKept u s) (k : MemKept s t) : MemKept u t :=
  ⟨fun x => k.chip (h.chip x), fun x => k.store (h.store x), fun x => k.ports (h.ports x), fun x => k.links (h.links x),
   fun x => k.flocks (h.flocks x), fun x => k.slices (h.slices x)⟩

theorem EdgeKept.trans (h : EdgeKept u s) (k : EdgeKept s t) : EdgeKept u t :=
  ⟨h.toMemKept.trans k.toMemKept, k.pending.trans h.pending, k.pins.trans h.pins, k.straps.trans h.straps,
   k.drover.trans h.drover, k.wrapper.trans h.wrapper, k.thr.trans h.thr⟩

theorem Kept.trans (h : Kept u s) (k : Kept s t) : Kept u t :=
  ⟨h.toEdgeKept.trans k.toEdgeKept, k.answer.trans h.answer⟩

/-! ## Updates of the state -/

/-- An update of none of the fields that Kept speaks of. -/
theorem Kept.leaf {x1 : U64} {x5 : Bringup} {x6 : Regs} {x7 : TroubleLog} {x9 : List (Nat × Ctx)} {x10 : List (Nat × Ring)} {x11 :
    List Pass} {x13 : List Stream} {x15 : List (Nat × Core)} {x18 : RingNet} {x19 : Awl} {x22 x23 x24 : SMap U64} {x27 : Channel}
    {x28 x29 x30 : Nat}  (h : Kept u s) :
    Kept u ⟨s.pending, x1, s.pins, s.straps, s.thr, x5, x6, x7, s.drover, x9, x10, x11, s.ports, x13, s.fold, x15, s.flocks,
      s.links, x18, x19, s.store, s.chip, x22, x23, x24, s.wrapper, s.answer, x27, x28, x29, x30⟩ :=
  h.trans ⟨⟨⟨id, id, id, id, id, id⟩, rfl, rfl, rfl, rfl, rfl, rfl⟩, rfl⟩

/-- An update of the fold beside them. -/
theorem Kept.leafFold {x1 : U64} {x5 : Bringup} {x6 : Regs} {x7 : TroubleLog} {x9 : List (Nat × Ctx)} {x10 : List (Nat × Ring)}
    {x11 : List Pass} {x13 : List Stream} {x14 : Fold} {x15 : List (Nat × Core)} {x18 : RingNet} {x19 : Awl} {x22 x23 x24 : SMap
    U64} {x27 : Channel} {x28 x29 x30 : Nat} (hf : s.fold.slices.length = 4 → x14.slices.length = 4) (h : Kept u s) :
    Kept u ⟨s.pending, x1, s.pins, s.straps, s.thr, x5, x6, x7, s.drover, x9, x10, x11, s.ports, x13, x14, x15, s.flocks,
      s.links, x18, x19, s.store, s.chip, x22, x23, x24, s.wrapper, s.answer, x27, x28, x29, x30⟩ :=
  h.trans ⟨⟨⟨id, id, id, id, id, hf⟩, rfl, rfl, rfl, rfl, rfl, rfl⟩, rfl⟩

/-- An update of the memories and the fixed lists beside them. -/
theorem Kept.set {x1 : U64} {x5 : Bringup} {x6 : Regs} {x7 : TroubleLog} {x9 : List (Nat × Ctx)} {x10 : List (Nat × Ring)} {x11 :
    List Pass} {x12 : List Port} {x13 : List Stream} {x14 : Fold} {x15 : List (Nat × Core)} {x16 : List Flock} {x17 : List Link}
    {x18 : RingNet} {x19 : Awl} {x20 : Store} {x21 : Chip} {x22 x23 x24 : SMap U64} {x27 : Channel} {x28 x29 x30 : Nat} (hc : smWf
    0 s.chip.bytes = true → smWf 0 x21.bytes = true) (hs : smWf 0 s.store.bytes = true → smWf 0 x20.bytes = true) (hp :
    s.ports.length = 32 → x12.length = 32) (hl : s.links.length = 2 → x17.length = 2) (ho : s.flocks.length = 32 → x16.length =
    32) (hf : s.fold.slices.length = 4 → x14.slices.length = 4) (h : Kept u s) :
    Kept u ⟨s.pending, x1, s.pins, s.straps, s.thr, x5, x6, x7, s.drover, x9, x10, x11, x12, x13, x14, x15, x16, x17, x18,
      x19, x20, x21, x22, x23, x24, s.wrapper, s.answer, x27, x28, x29, x30⟩ :=
  h.trans ⟨⟨⟨hc, hs, hp, hl, ho, hf⟩, rfl, rfl, rfl, rfl, rfl, rfl⟩, rfl⟩

/-- An update of none of the fields that EdgeKept speaks of. -/
theorem EdgeKept.leaf {x1 : U64} {x5 : Bringup} {x6 : Regs} {x7 : TroubleLog} {x9 : List (Nat × Ctx)} {x10 : List (Nat × Ring)}
    {x11 : List Pass} {x13 : List Stream} {x15 : List (Nat × Core)} {x18 : RingNet} {x19 : Awl} {x22 x23 x24 : SMap U64} {x26 :
    Option Answer} {x27 : Channel} {x28 x29 x30 : Nat}  (h : EdgeKept u s) :
    EdgeKept u ⟨s.pending, x1, s.pins, s.straps, s.thr, x5, x6, x7, s.drover, x9, x10, x11, s.ports, x13, s.fold, x15,
      s.flocks, s.links, x18, x19, s.store, s.chip, x22, x23, x24, s.wrapper, x26, x27, x28, x29, x30⟩ :=
  h.trans ⟨⟨id, id, id, id, id, id⟩, rfl, rfl, rfl, rfl, rfl, rfl⟩

/-- An update of the fold beside them. -/
theorem EdgeKept.leafFold {x1 : U64} {x5 : Bringup} {x6 : Regs} {x7 : TroubleLog} {x9 : List (Nat × Ctx)} {x10 : List (Nat ×
    Ring)} {x11 : List Pass} {x13 : List Stream} {x14 : Fold} {x15 : List (Nat × Core)} {x18 : RingNet} {x19 : Awl} {x22 x23 x24 :
    SMap U64} {x26 : Option Answer} {x27 : Channel} {x28 x29 x30 : Nat} (hf : s.fold.slices.length = 4 → x14.slices.length = 4) (h
    : EdgeKept u s) :
    EdgeKept u ⟨s.pending, x1, s.pins, s.straps, s.thr, x5, x6, x7, s.drover, x9, x10, x11, s.ports, x13, x14, x15, s.flocks,
      s.links, x18, x19, s.store, s.chip, x22, x23, x24, s.wrapper, x26, x27, x28, x29, x30⟩ :=
  h.trans ⟨⟨id, id, id, id, id, hf⟩, rfl, rfl, rfl, rfl, rfl, rfl⟩

/-- An update of the memories and the fixed lists beside them. -/
theorem EdgeKept.set {x1 : U64} {x5 : Bringup} {x6 : Regs} {x7 : TroubleLog} {x9 : List (Nat × Ctx)} {x10 : List (Nat × Ring)}
    {x11 : List Pass} {x12 : List Port} {x13 : List Stream} {x14 : Fold} {x15 : List (Nat × Core)} {x16 : List Flock} {x17 : List
    Link} {x18 : RingNet} {x19 : Awl} {x20 : Store} {x21 : Chip} {x22 x23 x24 : SMap U64} {x26 : Option Answer} {x27 : Channel}
    {x28 x29 x30 : Nat} (hc : smWf 0 s.chip.bytes = true → smWf 0 x21.bytes = true) (hs : smWf 0 s.store.bytes = true → smWf 0
    x20.bytes = true) (hp : s.ports.length = 32 → x12.length = 32) (hl : s.links.length = 2 → x17.length = 2) (ho :
    s.flocks.length = 32 → x16.length = 32) (hf : s.fold.slices.length = 4 → x14.slices.length = 4) (h : EdgeKept u s) :
    EdgeKept u ⟨s.pending, x1, s.pins, s.straps, s.thr, x5, x6, x7, s.drover, x9, x10, x11, x12, x13, x14, x15, x16, x17, x18,
      x19, x20, x21, x22, x23, x24, s.wrapper, x26, x27, x28, x29, x30⟩ :=
  h.trans ⟨⟨hc, hs, hp, hl, ho, hf⟩, rfl, rfl, rfl, rfl, rfl, rfl⟩

/-- An update of none of the fields that MemKept speaks of. -/
theorem MemKept.leaf {x0 : List Instr} {x1 : U64} {x2 : Pins} {x3 : Straps} {x4 : Throttle} {x5 : Bringup} {x6 : Regs} {x7 :
    TroubleLog} {x8 : Drover} {x9 : List (Nat × Ctx)} {x10 : List (Nat × Ring)} {x11 : List Pass} {x13 : List Stream} {x15 : List
    (Nat × Core)} {x18 : RingNet} {x19 : Awl} {x22 x23 x24 : SMap U64} {x25 : Wrapper} {x26 : Option Answer} {x27 : Channel} {x28
    x29 x30 : Nat}  (h : MemKept u s) :
    MemKept u ⟨x0, x1, x2, x3, x4, x5, x6, x7, x8, x9, x10, x11, s.ports, x13, s.fold, x15, s.flocks, s.links, x18, x19,
      s.store, s.chip, x22, x23, x24, x25, x26, x27, x28, x29, x30⟩ :=
  h.trans ⟨id, id, id, id, id, id⟩

/-- An update of the memories and the fixed lists beside them. -/
theorem MemKept.set {x0 : List Instr} {x1 : U64} {x2 : Pins} {x3 : Straps} {x4 : Throttle} {x5 : Bringup} {x6 : Regs} {x7 :
    TroubleLog} {x8 : Drover} {x9 : List (Nat × Ctx)} {x10 : List (Nat × Ring)} {x11 : List Pass} {x12 : List Port} {x13 : List
    Stream} {x14 : Fold} {x15 : List (Nat × Core)} {x16 : List Flock} {x17 : List Link} {x18 : RingNet} {x19 : Awl} {x20 : Store}
    {x21 : Chip} {x22 x23 x24 : SMap U64} {x25 : Wrapper} {x26 : Option Answer} {x27 : Channel} {x28 x29 x30 : Nat} (hc : smWf 0
    s.chip.bytes = true → smWf 0 x21.bytes = true) (hs : smWf 0 s.store.bytes = true → smWf 0 x20.bytes = true) (hp :
    s.ports.length = 32 → x12.length = 32) (hl : s.links.length = 2 → x17.length = 2) (ho : s.flocks.length = 32 → x16.length =
    32) (hf : s.fold.slices.length = 4 → x14.slices.length = 4) (h : MemKept u s) :
    MemKept u ⟨x0, x1, x2, x3, x4, x5, x6, x7, x8, x9, x10, x11, x12, x13, x14, x15, x16, x17, x18, x19, x20, x21, x22, x23,
      x24, x25, x26, x27, x28, x29, x30⟩ :=
  h.trans ⟨hc, hs, hp, hl, ho, hf⟩

/-! ## Folds -/

theorem foldl_kept {α : Type} {f : State → α → State} (l : List α) (hf : ∀ s a, Kept u s → Kept u (f s a))
    (h : Kept u s) : Kept u (l.foldl f s) := by
  induction l generalizing s with
  | nil => exact h
  | cons a r ih => exact ih (hf s a h)

theorem foldl_edgeKept {α : Type} {f : State → α → State} (l : List α) (hf : ∀ s a, EdgeKept u s → EdgeKept u (f s a))
    (h : EdgeKept u s) : EdgeKept u (l.foldl f s) := by
  induction l generalizing s with
  | nil => exact h
  | cons a r ih => exact ih (hf s a h)

theorem foldl_memKept {α : Type} {f : State → α → State} (l : List α) (hf : ∀ s a, MemKept u s → MemKept u (f s a))
    (h : MemKept u s) : MemKept u (l.foldl f s) := by
  induction l generalizing s with
  | nil => exact h
  | cons a r ih => exact ih (hf s a h)

/-- What a state that may be absent keeps. -/
theorem getD_kept {o : Option State} (ho : ∀ t, o = some t → Kept u t) (h : Kept u s) : Kept u (o.getD s) := by
  cases o with
  | none => exact h
  | some t => exact ho t rfl

end Sys2Proof.Machine
end

