-- ==== Sys2Proof/Laws/KeptOps.lean ====
section
/-! SUPPORT. What is kept (Laws/Kept.lean) by the operations of the shared operations, groups, pens, samples and halts: one
lemma for each, in the form "what was kept before it is kept after it". -/
namespace Sys2Proof.Machine

variable {s₀ : State}

/-! ## Ops -/

theorem idleTick_kept (s : State) (hk : Kept s₀ s) :
    Kept s₀ (idleTick s) := by
  unfold idleTick
  repeat' first | with_reducible exact hk | with_reducible apply Kept.set | (simp_all; done)

theorem atTime_kept (s : State) (now : U64) (hk : Kept s₀ s) :
    Kept s₀ (atTime s now) := by
  unfold atTime
  repeat' first | with_reducible exact hk | with_reducible apply Kept.leaf

theorem fresh_kept (s : State) (hk : Kept s₀ s) :
    Kept s₀ (fresh s).2 := by
  unfold fresh
  repeat' first | with_reducible exact hk | with_reducible apply Kept.leaf

theorem agentsWrite_kept (s : State) (w : List (Nat × Byte)) (hk : Kept s₀ s) :
    Kept s₀ (agentsWrite s w) := by
  unfold agentsWrite
  repeat' first
    | with_reducible exact hk | with_reducible assumption | intro _ | with_reducible apply Kept.set
    | refine foldl_set_wf ?_ _

theorem modCtx_kept (s : State) (c : Nat) (f : Ctx → Ctx) (hk : Kept s₀ s) :
    Kept s₀ (modCtx s c f) := by
  unfold modCtx
  repeat' first | with_reducible exact hk | split | with_reducible apply Kept.leaf

theorem setRing_kept (s : State) (key : Nat) (r : Ring) (hk : Kept s₀ s) :
    Kept s₀ (setRing s key r) := by
  unfold setRing
  repeat' first | with_reducible exact hk | with_reducible apply Kept.leaf

theorem modRing_kept (s : State) (key : Nat) (f : Ring → Ring) (hk : Kept s₀ s) :
    Kept s₀ (modRing s key f) := by
  unfold modRing
  repeat' first | with_reducible exact hk | with_reducible apply setRing_kept

theorem modPass_kept (s : State) (slot : Nat) (f : Pass → Pass) (hk : Kept s₀ s) :
    Kept s₀ (modPass s slot f) := by
  unfold modPass
  repeat' first | with_reducible exact hk | with_reducible apply Kept.leaf

theorem count_kept (s : State) (n : Nat) (k : Nat) (hk : Kept s₀ s) :
    Kept s₀ (count s n k) := by
  unfold count
  repeat' first | with_reducible exact hk | with_reducible apply Kept.leaf

theorem seenLines_kept (s : State) (a n : Nat) (hk : Kept s₀ s) :
    Kept s₀ (seenLines s a n) := by
  unfold seenLines
  repeat' first
    | with_reducible exact hk | with_reducible assumption | intro _ | with_reducible apply count_kept | split
    | with_reducible apply Kept.set

theorem countSingle_kept (s : State) (e : Ecc) (hk : Kept s₀ s) : Kept s₀ (countSingle s e) := by
  unfold countSingle
  split
  · exact count_kept _ _ _ hk
  · exact hk

theorem countEcc_kept (s : State) (e : Ecc) (hk : Kept s₀ s) :
    Kept s₀ (countEcc s e) := by
  unfold countEcc
  repeat' first | with_reducible exact hk | with_reducible apply count_kept | split

theorem setCounter_kept (s : State) (n : Nat) (v : U64) (hk : Kept s₀ s) :
    Kept s₀ (setCounter s n v) := by
  unfold setCounter
  repeat' first | with_reducible exact hk | with_reducible apply Kept.leaf

theorem countCtx_kept (s : State) (c k : Nat) (n : Nat) (hk : Kept s₀ s) :
    Kept s₀ (countCtx s c k n) := by
  unfold countCtx
  repeat' first | with_reducible exact hk | with_reducible apply Kept.leaf

theorem logWide_kept (s : State) (kind code : Byte) (payload : List Byte) (hk : Kept s₀ s) :
    Kept s₀ (logWide s kind code payload) := by
  unfold logWide
  repeat' first | with_reducible exact hk | with_reducible apply Kept.leaf

theorem logCtx_kept (s : State) (kind code : Byte) (c : Nat) (payload : List Byte) (hk : Kept s₀ s) :
    Kept s₀ (logCtx s kind code c payload) := by
  unfold logCtx
  repeat' first | with_reducible exact hk | with_reducible apply Kept.leaf

theorem clearLog_kept (s : State) (code : Byte) (hk : Kept s₀ s) :
    Kept s₀ (clearLog s code) := by
  unfold clearLog
  repeat' first | with_reducible exact hk | with_reducible apply logWide_kept | with_reducible apply Kept.leaf

theorem cpPresent_kept (s : State) (opcode asid cls a n : Nat) (b : List Byte) (opA : Nat) (hk : Kept s₀ s) :
    Kept s₀ (cpPresent s opcode asid cls a n b opA) := by
  unfold cpPresent
  repeat' first | with_reducible exact hk | split | with_reducible apply Kept.leaf

theorem cpRead_kept (s : State) (asid cls a n : Nat) (hk : Kept s₀ s) :
    Kept s₀ (cpRead s asid cls a n) := by
  unfold cpRead
  repeat' first | with_reducible exact hk | with_reducible apply cpPresent_kept | split

theorem cpWriteRaw_kept (s : State) (c a : Nat) (b : List Byte) (hk : Kept s₀ s) :
    Kept s₀ (cpWriteRaw s c a b) := by
  unfold cpWriteRaw
  repeat' first
    | with_reducible exact hk | with_reducible assumption | intro _ | with_reducible apply cpPresent_kept | split
    | with_reducible apply Kept.set | refine chipWrite_wf ?_ _ _ _ _

theorem pushRecord_kept (s : State) (key : Nat) (b : List Byte) (hk : Kept s₀ s) :
    Kept s₀ (pushRecord s key b) := by
  unfold pushRecord
  dsimp only
  repeat' first | with_reducible exact hk | with_reducible apply cpWriteRaw_kept | with_reducible apply modRing_kept | split

theorem pushEvent_kept (s : State) (key : Nat) (code opcode : Byte) (engineWide : Bool) (ringByte passId : Nat)
    (payload : List Byte) (hk : Kept s₀ s) :
    Kept s₀ (pushEvent s key code opcode engineWide ringByte passId payload).2 := by
  unfold pushEvent
  dsimp only
  repeat' first
    | with_reducible exact hk | with_reducible apply cpWriteRaw_kept | with_reducible apply modRing_kept
    | with_reducible apply pushRecord_kept | split

theorem pushPassEvent_kept (s : State) (p : Pass) (code : Byte) (payload : List Byte) (hk : Kept s₀ s) :
    Kept s₀ (pushPassEvent s p code payload) := by
  unfold pushPassEvent
  dsimp only
  repeat' first | with_reducible exact hk | with_reducible apply pushEvent_kept | with_reducible apply modPass_kept | split

theorem postWide_kept (s : State) (code : Byte) (payload : List Byte) (hk : Kept s₀ s) :
    Kept s₀ (postWide s code payload) := by
  unfold postWide
  repeat' first
    | with_reducible exact hk | with_reducible assumption | intro _ | with_reducible apply foldl_kept
    | with_reducible apply pushEvent_kept

theorem modLink_kept (s : State) (l : LinkSide) (f : Link → Link) (hk : Kept s₀ s) :
    Kept s₀ (modLink s l f) := by
  unfold modLink
  repeat' first | with_reducible exact hk | with_reducible apply Kept.set | (simp_all; done)

theorem sendCtrl_kept (s : State) (l : LinkSide) (payload : List Byte) (hk : Kept s₀ s) :
    Kept s₀ (sendCtrl s l payload) := by
  unfold sendCtrl
  repeat' first | with_reducible exact hk | with_reducible apply modLink_kept

theorem sendData_kept (s : State) (l : LinkSide) (kind : BitVec 2) (id : U32) (payload : List Byte) (poison : Bool) (hk : Kept s₀ s) :
    Kept s₀ (sendData s l kind id payload poison) := by
  unfold sendData
  repeat' first | with_reducible exact hk | with_reducible apply modLink_kept


/-! ## Groups -/

theorem setCore_kept (s : State) (c : Nat) (k : Core) (hk : Kept s₀ s) :
    Kept s₀ (setCore s c k) := by
  unfold setCore
  repeat' first | with_reducible exact hk | with_reducible apply Kept.leaf

theorem modCore_kept (s : State) (c : Nat) (f : Core → Core) (hk : Kept s₀ s) :
    Kept s₀ (modCore s c f) := by
  unfold modCore
  repeat' first | with_reducible exact hk | with_reducible apply setCore_kept

theorem modGroup_kept (s : State) (core slot : Nat) (f : Group → Group) (hk : Kept s₀ s) :
    Kept s₀ (modGroup s core slot f) := by
  unfold modGroup
  repeat' first | with_reducible exact hk | with_reducible apply modCore_kept

theorem releaseHerd_kept (s : State) (core pass number : Nat) (h : Hold) (hk : Kept s₀ s) :
    Kept s₀ (releaseHerd s core pass number h) := by
  unfold releaseHerd
  repeat' first | with_reducible exact hk | with_reducible apply modCore_kept

theorem openBarH_kept (s : State) (core pass number k : Nat) (hk : Kept s₀ s) :
    Kept s₀ (openBarH s core pass number k) := by
  unfold openBarH
  repeat' first | with_reducible exact hk | with_reducible apply releaseHerd_kept | split

theorem openBarF_kept (s : State) (flock pass launch k : Nat) (hk : Kept s₀ s) :
    Kept s₀ (openBarF s flock pass launch k) := by
  unfold openBarF
  repeat' first
    | with_reducible exact hk | with_reducible assumption | intro _ | with_reducible apply foldl_kept
    | with_reducible apply releaseHerd_kept | split

theorem openBarriers_kept (s : State) (core pass number launch : Nat) (hk : Kept s₀ s) :
    Kept s₀ (openBarriers s core pass number launch) := by
  unfold openBarriers
  repeat' first
    | with_reducible exact hk | with_reducible assumption | intro _ | with_reducible apply foldl_kept
    | with_reducible apply openBarH_kept | with_reducible apply openBarF_kept

theorem freeLaunch_kept (s : State) (core pass launch size : Nat) (hk : Kept s₀ s) :
    Kept s₀ (freeLaunch s core pass launch size) := by
  unfold freeLaunch
  repeat' first
    | with_reducible exact hk | with_reducible assumption | intro _ | with_reducible apply foldl_kept
    | with_reducible apply modCore_kept | split | with_reducible apply Kept.set | (simp_all; done)

theorem finishGroup_kept (s : State) (core slot : Nat) (hk : Kept s₀ s) :
    Kept s₀ (finishGroup s core slot) := by
  unfold finishGroup
  repeat' first
    | with_reducible exact hk | with_reducible assumption | with_reducible apply modPass_kept
    | with_reducible apply modCore_kept | with_reducible apply freeLaunch_kept | with_reducible apply openBarriers_kept
    | split | with_reducible apply Kept.leaf

theorem endIfDone_kept (s : State) (core slot : Nat) (hk : Kept s₀ s) :
    Kept s₀ (endIfDone s core slot) := by
  unfold endIfDone
  repeat' first
    | with_reducible exact hk | with_reducible apply finishGroup_kept | split | with_reducible apply Kept.leaf
    | with_reducible refine Kept.leafFold id ?_

theorem freeLocal_kept (s : State) (core pass number : Nat) (bytes : List Nat) (hk : Kept s₀ s) :
    Kept s₀ (freeLocal s core pass number bytes) := by
  unfold freeLocal
  repeat' first
    | with_reducible exact hk | with_reducible assumption | intro _ | with_reducible apply foldl_kept
    | with_reducible apply fresh_kept | with_reducible apply modCore_kept

theorem mixHerd_kept (s : State) (core pass number : Nat) (own : Option (Nat × Nat)) (rd wr : List Nat) (hk : Kept s₀ s) :
    Kept s₀ (mixHerd s core pass number own rd wr) := by
  unfold mixHerd
  dsimp only
  repeat' first | with_reducible exact hk | with_reducible apply modCore_kept | with_reducible apply freeLocal_kept | split

theorem mapRequests_kept (s : State) (f : Req → Req) (hk : Kept s₀ s) :
    Kept s₀ (mapRequests s f) := by
  unfold mapRequests
  repeat' first | with_reducible exact hk | with_reducible apply Kept.set | (simp_all; done)

theorem freeStore_kept (s : State) (core slot tag thread : Nat) (hk : Kept s₀ s) :
    Kept s₀ (freeStore s core slot tag thread) := by
  unfold freeStore
  repeat' first
    | with_reducible exact hk | with_reducible apply mapRequests_kept | with_reducible apply modGroup_kept
    | with_reducible apply Kept.leaf

theorem spoilStores_kept (s : State) (core slot : Nat) (written : List (Nat × Nat)) (hk : Kept s₀ s) :
    Kept s₀ (spoilStores s core slot written) := by
  unfold spoilStores
  repeat' first
    | with_reducible exact hk | with_reducible assumption | intro _ | with_reducible apply foldl_kept
    | with_reducible apply freeStore_kept | split

theorem landLocal_kept (s : State) (core : Nat) (g : Group) (hk : Kept s₀ s) :
    Kept s₀ (landLocal s core g) := by
  unfold landLocal
  repeat' first | with_reducible exact hk | with_reducible apply modCore_kept | with_reducible apply mixHerd_kept

theorem noInstall_kept (s : State) (core : Nat) (hit : Req → Bool) (hk : Kept s₀ s) :
    Kept s₀ (noInstall s core hit) := by
  unfold noInstall
  repeat' first | with_reducible exact hk | with_reducible apply modCore_kept | with_reducible apply mapRequests_kept

theorem emptyL0_kept (s : State) (core : Nat) (hk : Kept s₀ s) :
    Kept s₀ (emptyL0 s core) := by
  unfold emptyL0
  repeat' first | with_reducible exact hk | with_reducible apply noInstall_kept | with_reducible apply modCore_kept

theorem settleTag_kept (s : State) (core : Nat) (g : Group) (t : TagOp) (hk : Kept s₀ s) :
    Kept s₀ (settleTag s core g t) := by
  unfold settleTag
  repeat' first | with_reducible exact hk | with_reducible apply modCore_kept | with_reducible apply freeLocal_kept | split

theorem tagReturn_kept (s : State) (core slot tag : Nat) (hk : Kept s₀ s) :
    Kept s₀ (tagReturn s core slot tag) := by
  unfold tagReturn
  repeat' first
    | with_reducible exact hk | with_reducible apply settleTag_kept | with_reducible apply endIfDone_kept
    | with_reducible apply modGroup_kept | split

theorem crossInto_kept (s : State) (core : Nat) (x : Crossing) (k : State → State) (hf : ∀ x, Kept s₀ x → Kept s₀ (k x))
    (hk : Kept s₀ s) :
    Kept s₀ (crossInto s core x k) := by
  unfold crossInto
  split
  · exact hf _ hk
  · exact modCore_kept _ _ _ hk

theorem tagArrive_kept (s : State) (core slot tag : Nat) (hk : Kept s₀ s) :
    Kept s₀ (tagArrive s core slot tag) := by
  unfold tagArrive
  repeat' first
    | with_reducible exact hk | with_reducible assumption | intro _ | with_reducible apply crossInto_kept
    | with_reducible apply tagReturn_kept

theorem stopGroups_kept (s : State) (pass : Nat) (hk : Kept s₀ s) :
    Kept s₀ (stopGroups s pass) := by
  unfold stopGroups
  repeat' first
    | with_reducible exact hk | with_reducible assumption | intro _ | with_reducible apply foldl_kept
    | with_reducible apply endIfDone_kept | with_reducible apply modGroup_kept | with_reducible apply landLocal_kept

theorem dropHeld_kept (s : State) (pass : Nat) (hk : Kept s₀ s) :
    Kept s₀ (dropHeld s pass) := by
  unfold dropHeld
  repeat' first | with_reducible exact hk | with_reducible apply Kept.leaf


/-! ## Pens -/

theorem modSlice_kept (s : State) (q : Nat) (f : Slice → Slice) (hk : Kept s₀ s) :
    Kept s₀ (modSlice s q f) := by
  unfold modSlice
  repeat' first | with_reducible exact hk | with_reducible apply Kept.set | (simp_all; done)

theorem writeBlock_kept (s : State) (q : Nat) (b : Block) (hk : Kept s₀ s) :
    Kept s₀ (writeBlock s q b) := by
  unfold writeBlock
  repeat' first
    | with_reducible exact hk | with_reducible assumption | intro _ | with_reducible apply Kept.set
    | refine storeWrite_wf ?_ _ _ _

theorem blockBack_kept (s : State) (q n : Nat) (hk : Kept s₀ s) :
    Kept s₀ (blockBack s q n) := by
  unfold blockBack
  repeat' first | with_reducible exact hk | with_reducible apply modSlice_kept | with_reducible apply seenLines_kept | split

theorem touchBlock_kept (s : State) (q n : Nat) (hk : Kept s₀ s) :
    Kept s₀ (touchBlock s q n) := by
  unfold touchBlock
  dsimp only
  repeat' first
    | with_reducible exact hk | with_reducible apply blockBack_kept | with_reducible apply modSlice_kept
    | with_reducible apply count_kept | with_reducible apply writeBlock_kept | split


/-! ## Samples -/

theorem skipCount_kept (s : State) (c k n : Nat) (hk : Kept s₀ s) :
    Kept s₀ (skipCount s c k n) := by
  unfold skipCount
  repeat' first
    | with_reducible exact hk | with_reducible assumption | intro _ | with_reducible apply seenLines_kept | split
    | with_reducible apply Kept.set | refine storeWrite_wf ?_ _ _ _

theorem putSample_kept (s : State) (c : Nat) (r : List Byte) (hk : Kept s₀ s) :
    Kept s₀ (putSample s c r) := by
  unfold putSample
  repeat' first
    | with_reducible exact hk | with_reducible assumption | intro _ | with_reducible apply seenLines_kept
    | with_reducible apply skipCount_kept | split | with_reducible apply Kept.set | refine storeWrite_wf ?_ _ _ _

theorem recordSample_kept (s : State) (x : Sample) (hk : Kept s₀ s) :
    Kept s₀ (recordSample s x) := by
  unfold recordSample
  repeat' first
    | with_reducible exact hk | with_reducible apply countCtx_kept | with_reducible apply skipCount_kept
    | with_reducible apply putSample_kept | split | with_reducible apply Kept.leaf

theorem recordSamples_kept (s : State) (hk : Kept s₀ s) :
    Kept s₀ (recordSamples s) := by
  unfold recordSamples
  repeat' first | with_reducible exact hk | with_reducible apply foldl_kept | with_reducible apply recordSample_kept | split

theorem reapAwl_kept (s : State) (hk : Kept s₀ s) :
    Kept s₀ (reapAwl s) := by
  unfold reapAwl
  repeat' first | with_reducible exact hk | with_reducible apply Kept.leaf

theorem dropAwl_kept (s : State) (gone : Nat → Nat → Bool) (hk : Kept s₀ s) :
    Kept s₀ (dropAwl s gone) := by
  unfold dropAwl
  repeat' first | with_reducible exact hk | with_reducible apply reapAwl_kept | with_reducible apply Kept.leaf

theorem dropSamples_kept (s : State) (slot : Nat) (k : Option Nat) (hk : Kept s₀ s) :
    Kept s₀ (dropSamples s slot k) := by
  unfold dropSamples
  repeat' first | with_reducible exact hk | with_reducible apply skipCount_kept | with_reducible apply dropAwl_kept | split


/-! ## Halt -/

theorem returnTags_kept (s : State) (rs : List Req) (hk : Kept s₀ s) :
    Kept s₀ (returnTags s rs) := by
  unfold returnTags
  repeat' first
    | with_reducible exact hk | with_reducible assumption | intro _ | with_reducible apply foldl_kept
    | with_reducible apply tagArrive_kept | split

theorem setHandoff_kept (s : State) (slot : Nat) (h : HandoffBody) (hk : Kept s₀ s) :
    Kept s₀ (setHandoff s slot h) := by
  unfold setHandoff
  repeat' first | with_reducible exact hk | with_reducible apply modPass_kept

theorem trySendReady_kept (s : State) (slot : Nat) (hk : Kept s₀ s) :
    Kept s₀ (trySendReady s slot) := by
  unfold trySendReady
  repeat' first | with_reducible exact hk | with_reducible apply sendCtrl_kept | with_reducible apply setHandoff_kept | split

theorem retryReady_kept (s : State) (hk : Kept s₀ s) :
    Kept s₀ (retryReady s) := by
  unfold retryReady
  repeat' first | with_reducible exact hk | with_reducible apply foldl_kept | with_reducible apply trySendReady_kept

theorem abortHandoff_kept (s : State) (p : Pass) (status : Byte) (hk : Kept s₀ s) :
    Kept s₀ (abortHandoff s p status) := by
  unfold abortHandoff
  repeat' first
    | with_reducible exact hk | with_reducible apply modLink_kept | with_reducible apply sendCtrl_kept
    | with_reducible apply modPass_kept | with_reducible apply retryReady_kept | split

theorem cutPass_kept (s : State) (slot : Nat) (status : Byte) (hk : Kept s₀ s) : Kept s₀ (cutPass s slot status) := by
  unfold cutPass
  split
  · exact hk
  · split
    · exact hk
    · exact abortHandoff_kept _ _ _ (dropSamples_kept _ _ _ (stopGroups_kept _ _ (returnTags_kept _ _ (dropHeld_kept _ _
        (modPass_kept _ _ _ (Kept.set id id (fun h => by simp [h]) id id (fun h => by simp [foldDrop, h]) hk))))))

theorem pushRingEvent_kept (s : State) (c : Nat) (ring : Byte) (code : Byte) (payload : List Byte) (hk : Kept s₀ s) :
    Kept s₀ (pushRingEvent s c ring code payload) := by
  unfold pushRingEvent
  dsimp only
  repeat' first
    | with_reducible exact hk | with_reducible assumption | intro _ | with_reducible apply foldl_kept
    | with_reducible apply pushEvent_kept | split

theorem faultContext_kept (s : State) (c : Nat) (status : Byte) (payload : List Byte) (slot : Nat) (ring : Byte) (all : Bool)
    (hk : Kept s₀ s) :
    Kept s₀ (faultContext s c status payload slot ring all) := by
  unfold faultContext
  repeat' first
    | with_reducible exact hk | with_reducible assumption | intro _ | with_reducible apply foldl_kept
    | with_reducible apply pushPassEvent_kept | with_reducible apply modCtx_kept | with_reducible apply cutPass_kept | split

theorem faultPass_kept (s : State) (p : Pass) (status : Byte) (payload : List Byte) (hk : Kept s₀ s) :
    Kept s₀ (faultPass s p status payload) := by
  unfold faultPass
  repeat' first | with_reducible exact hk | with_reducible apply faultContext_kept

theorem cpWrite_kept (s : State) (c a : Nat) (b : List Byte) (hk : Kept s₀ s) :
    Kept s₀ (cpWrite s c a b) := by
  unfold cpWrite
  dsimp only
  repeat' first
    | with_reducible exact hk | with_reducible apply faultContext_kept | with_reducible apply cpWriteRaw_kept | split

theorem checkRingWrites_kept (s : State) (key a n : Nat) (hk : Kept s₀ s) :
    Kept s₀ (checkRingWrites s key a n) := by
  unfold checkRingWrites
  dsimp only
  repeat' first | with_reducible exact hk | with_reducible apply faultContext_kept | split

theorem postPassEvent_kept (s : State) (p : Pass) (code : Byte) (payload : List Byte) (hk : Kept s₀ s) :
    Kept s₀ (postPassEvent s p code payload) := by
  unfold postPassEvent
  dsimp only
  repeat' first
    | with_reducible exact hk | with_reducible apply pushPassEvent_kept | with_reducible apply checkRingWrites_kept | split

theorem dropL0_kept (s : State) (slot : Nat) (hk : Kept s₀ s) :
    Kept s₀ (dropL0 s slot) := by
  unfold dropL0
  repeat' first
    | with_reducible exact hk | with_reducible assumption | intro _ | with_reducible apply foldl_kept
    | with_reducible apply modCore_kept | with_reducible apply emptyL0_kept

theorem retirePass_kept (s : State) (slot : Nat) (status : Byte) (hk : Kept s₀ s) :
    Kept s₀ (retirePass s slot status) := by
  unfold retirePass
  repeat' first | with_reducible exact hk | with_reducible apply Kept.leaf

theorem writeCompletion_kept (s : State) (p : Pass) (status : Byte) (hk : Kept s₀ s) :
    Kept s₀ (writeCompletion s p status) := by
  unfold writeCompletion
  repeat' first
    | with_reducible exact hk | with_reducible apply modPass_kept | with_reducible apply pushRecord_kept
    | with_reducible apply checkRingWrites_kept | with_reducible apply retirePass_kept | split
    | with_reducible apply Kept.leaf

theorem missedDeadline_kept (s : State) (p : Pass) (hk : Kept s₀ s) :
    Kept s₀ (missedDeadline s p) := by
  unfold missedDeadline
  repeat' first
    | with_reducible exact hk | with_reducible apply postPassEvent_kept | with_reducible apply countCtx_kept
    | with_reducible apply count_kept | split

theorem completePass_kept (s : State) (slot : Nat) (status : Byte) (hk : Kept s₀ s) :
    Kept s₀ (completePass s slot status) := by
  unfold completePass
  dsimp only
  repeat' first
    | with_reducible exact hk | with_reducible assumption | intro _ | with_reducible apply foldl_kept
    | with_reducible apply postPassEvent_kept | with_reducible apply missedDeadline_kept | with_reducible apply dropL0_kept
    | with_reducible apply dropSamples_kept | with_reducible apply recordSamples_kept | with_reducible apply modPass_kept
    | with_reducible apply writeCompletion_kept | split

theorem consumeHead_kept (s : State) (key : Nat) (hk : Kept s₀ s) :
    Kept s₀ (consumeHead s key) := by
  unfold consumeHead
  dsimp only
  repeat' first | with_reducible exact hk | with_reducible apply cpWrite_kept | with_reducible apply setRing_kept | split

theorem admitPass_kept (s : State) (p : Pass) (hk : Kept s₀ s) :
    Kept s₀ (admitPass s p) := by
  unfold admitPass
  repeat' first
    | with_reducible exact hk | with_reducible apply count_kept | with_reducible apply consumeHead_kept
    | with_reducible apply Kept.leaf

theorem refuse_kept (s : State) (c ring : Nat) (d : List Byte) (x : Deny) (hk : Kept s₀ s) :
    Kept s₀ (refuse s c ring d x) := by
  unfold refuse
  repeat' first | with_reducible exact hk | with_reducible apply admitPass_kept | with_reducible apply postPassEvent_kept


end Sys2Proof.Machine
end

