-- ==== Sys2Proof/Laws/KeptMemory.lean ====
section
/-! SUPPORT. What is kept (Laws/Kept.lean) by the operations of requests, admission, the fold and ports: one lemma for each,
in the form "what was kept before it is kept after it". -/
namespace Sys2Proof.Machine

variable {s₀ : State}

/-! ## Requests -/

theorem formReq_kept (s : State) (port : Nat) (r : Req) (hk : Kept s₀ s) :
    Kept s₀ (formReq s port r) := by
  unfold formReq
  repeat' first | with_reducible exact hk | with_reducible apply Kept.set | (simp_all; done)

theorem openStream_kept (s : State) (quad number pass : Nat) (cls : BitVec 2) (hk : Kept s₀ s) :
    Kept s₀ (openStream s quad number pass cls) := by
  unfold openStream
  repeat' first | with_reducible exact hk | split | with_reducible apply Kept.leaf

theorem openLowest_kept (s : State) (quad lo n pass : Nat) (cls : BitVec 2) (hk : Kept s₀ s) :
    Kept s₀ (openLowest s quad lo n pass cls) := by
  unfold openLowest
  repeat' first | with_reducible exact hk | with_reducible apply openStream_kept

theorem openInputs_kept (s : State) (p : Pass) (k : Nat) (hk : Kept s₀ s) :
    Kept s₀ (openInputs s p k) := by
  unfold openInputs
  repeat' first
    | with_reducible exact hk | with_reducible assumption | intro _ | with_reducible apply foldl_kept
    | with_reducible apply openLowest_kept

theorem passWriteTo_kept (s : State) (slot a : Nat) (b : List Byte) (poison : Bool) (sink : Consumer) (hk : Kept s₀ s) :
    Kept s₀ (passWriteTo s slot a b poison sink) := by
  unfold passWriteTo
  repeat' first
    | with_reducible exact hk | with_reducible assumption | intro _ | with_reducible apply foldl_kept
    | with_reducible apply formReq_kept | with_reducible apply modPass_kept | split

theorem passWrite_kept (s : State) (slot a : Nat) (b : List Byte) (hk : Kept s₀ s) :
    Kept s₀ (passWrite s slot a b) := by
  unfold passWrite
  repeat' first | with_reducible exact hk | with_reducible apply passWriteTo_kept

theorem passWrites_kept (s : State) (slot : Nat) (ws : List (Nat × List Byte)) (hk : Kept s₀ s) :
    Kept s₀ (passWrites s slot ws) := by
  unfold passWrites
  repeat' first
    | with_reducible exact hk | with_reducible assumption | intro _ | with_reducible apply foldl_kept
    | with_reducible apply passWrite_kept

theorem foldl_wf {α : Type} {f : List Host.Cell → α → List Host.Cell} (l : List α) (m : List Host.Cell)
    (hf : ∀ m a, smWf 0 m = true → smWf 0 (f m a) = true) (h : smWf 0 m = true) : smWf 0 (l.foldl f m) = true := by
  induction l generalizing m with
  | nil => exact h
  | cons a r ih => exact ih _ (hf m a h)

theorem scratchUse_kept (s : State) (c a n : Nat) (hk : Kept s₀ s) : Kept s₀ (scratchUse s c a n) := by
  refine Kept.set (fun x => foldl_wf _ _ (fun m i h => ?_) x) id id id id id hk
  split
  · exact h
  · exact smSet_wf h _ _

/-! ## Admission -/

theorem fetchFault_kept (s : State) (c ring : Nat) (r : MemRead)
    (hk : Kept s₀ s) : ∀ t, fetchFault s c ring r = some t → Kept s₀ t := by
  intro t h
  unfold fetchFault at h
  split at h
  · cases h; exact faultContext_kept (hk := hk) ..
  · obtain ⟨x, -, rfl⟩ := Option.map_eq_some_iff.1 h; exact faultContext_kept (hk := hk) ..

theorem takeHead_kept (s : State) (c ring : Nat) (v1 : Bool) (d raw : List Byte) (addr : Nat) (hk : Kept s₀ s) :
    Kept s₀ (takeHead s c ring v1 d raw addr) := by
  unfold takeHead
  dsimp only
  repeat' first
    | with_reducible exact hk | with_reducible apply modRing_kept | with_reducible apply cpRead_kept
    | refine fetchFault_kept _ _ _ _ ?_ _ (by assumption) | split

theorem fetchDescriptor_kept (s : State) (c ring : Nat) (hk : Kept s₀ s) :
    Kept s₀ (fetchDescriptor s c ring) := by
  unfold fetchDescriptor
  dsimp only
  repeat' first
    | with_reducible exact hk | with_reducible apply cpRead_kept | refine fetchFault_kept _ _ _ _ ?_ _ (by assumption)
    | with_reducible apply refuse_kept | with_reducible apply takeHead_kept | split

theorem admitWith_kept (s : State) (c ring : Nat) (sel : Fetched → Bool) (check : State → Ctx → Fetched → Option Deny)
    (go : State → Fetched → State) (hgo : ∀ x0 x1, Kept s₀ x0 → Kept s₀ (go x0 x1)) (hk : Kept s₀ s) :
    Kept s₀ (admitWith s c ring sel check go) := by
  unfold admitWith
  repeat' first | with_reducible exact hk | with_reducible apply hgo | with_reducible apply refuse_kept | split

theorem admitBody_kept (s : State) (c ring : Nat) (f : Fetched) (b : Body) (hk : Kept s₀ s) :
    Kept s₀ (admitBody s c ring f b) := by
  unfold admitBody
  repeat' first | with_reducible exact hk | with_reducible apply admitPass_kept

theorem admitDone_kept (s : State) (c ring : Nat) (f : Fetched) (st : Byte) (hk : Kept s₀ s) :
    Kept s₀ (admitDone s c ring f st) := by
  unfold admitDone
  repeat' first | with_reducible exact hk | with_reducible apply admitPass_kept

theorem fenceRelease_kept (s : State) (slot : Nat) (hk : Kept s₀ s) :
    Kept s₀ (fenceRelease s slot) := by
  unfold fenceRelease
  repeat' first | with_reducible exact hk | with_reducible apply modPass_kept | split

theorem wordFault_kept (s : State) (p : Pass) (write : Bool) (r : MemRead)
    (hk : Kept s₀ s) : ∀ t, wordFault s p write r = some t → Kept s₀ t := by
  intro t h
  unfold wordFault at h
  split at h
  · cases h; exact faultPass_kept _ _ _ _ hk
  · obtain ⟨x, -, rfl⟩ := Option.map_eq_some_iff.1 h; exact faultPass_kept _ _ _ _ hk

theorem barrierArrive_kept (s : State) (slot : Nat) (hk : Kept s₀ s) :
    Kept s₀ (barrierArrive s slot) := by
  unfold barrierArrive
  repeat' first
    | with_reducible exact hk | with_reducible assumption | intro _ | with_reducible apply cpPresent_kept
    | with_reducible apply modPass_kept | refine wordFault_kept _ _ _ _ ?_ _ (by assumption) | split
    | with_reducible apply Kept.set | refine chipWrite_wf ?_ _ _ _ _

theorem barrierPoll_kept (s : State) (slot : Nat) (hk : Kept s₀ s) :
    Kept s₀ (barrierPoll s slot) := by
  unfold barrierPoll
  dsimp only
  repeat' first
    | with_reducible exact hk | with_reducible apply barrierArrive_kept | with_reducible apply cpRead_kept
    | refine wordFault_kept _ _ _ _ ?_ _ (by assumption) | with_reducible apply modPass_kept | split

theorem barrierTimeout_kept (s : State) (slot : Nat) (hk : Kept s₀ s) :
    Kept s₀ (barrierTimeout s slot) := by
  unfold barrierTimeout
  dsimp only
  repeat' first | with_reducible exact hk | with_reducible apply faultPass_kept | split


/-! ## Fold -/

theorem modItem_kept (s : State) (pass index : Nat) (f : Item → Item) (hk : Kept s₀ s) :
    Kept s₀ (modItem s pass index f) := by
  unfold modItem
  repeat' first | with_reducible exact hk | with_reducible refine Kept.leafFold id ?_

theorem settleAccept_kept (s : State) (id : Nat) (hk : Kept s₀ s) :
    Kept s₀ (settleAccept s id) := by
  unfold settleAccept
  repeat' first | with_reducible exact hk | with_reducible assumption | intro _ | with_reducible apply Kept.set

theorem placeRecord_kept (s : State) (q c : Nat) (cls : BitVec 2) (r : Record) (hk : Kept s₀ s) :
    Kept s₀ (placeRecord s q c cls r) := by
  unfold placeRecord
  repeat' first | with_reducible exact hk | with_reducible apply modSlice_kept | with_reducible apply touchBlock_kept

theorem evictBatch_kept (s : State) (pass : Nat) (b : Batch) (rest : List Batch) (hk : Kept s₀ s) :
    Kept s₀ (evictBatch s pass b rest) :=
  modPass_kept _ _ _ (Kept.leafFold (fun h => by simp [dropBatch, h]) hk)

theorem evictOf_kept (s : State) (pass : Nat) (w : Walk) (hk : Kept s₀ s) : ∀ t, evictOf s pass w = some t → Kept s₀ t := by
  intro t h
  unfold evictOf at h
  dsimp only at h
  split at h
  · cases h; exact evictBatch_kept _ _ _ _ hk
  · split at h
    · cases h
    · cases h; exact evictBatch_kept _ _ _ _ hk
  · cases h

theorem evictFor_kept (s : State) (q : Nat) (hk : Kept s₀ s) : ∀ t, evictFor s q = some t → Kept s₀ t := by
  intro t h
  obtain ⟨x, -, h⟩ := List.exists_of_findSome?_eq_some h
  obtain ⟨y, -, h⟩ := Option.bind_eq_some_iff.1 h
  exact evictOf_kept _ _ _ hk _ h

theorem makeRoom_kept (q n : Nat) (s : State) (hk : Kept s₀ s) : Kept s₀ (makeRoom q n s) := by
  induction n generalizing s with
  | zero => exact hk
  | succ n ih =>
    unfold makeRoom
    split
    · exact hk
    · split
      · exact ih _ (evictFor_kept _ _ hk _ (by assumption))
      · exact hk

theorem dropArrival_kept (s : State) (r : Record) (hk : Kept s₀ s) :
    Kept s₀ (dropArrival s r) := by
  unfold dropArrival
  repeat' first | with_reducible exact hk | with_reducible refine Kept.leafFold id ?_

theorem poisonPen_kept (s : State) (q c : Nat) (cls : BitVec 2) (r : Record) (hk : Kept s₀ s) :
    Kept s₀ (poisonPen s q c cls r) := by
  unfold poisonPen
  repeat' first | with_reducible exact hk | with_reducible apply modSlice_kept

theorem acceptRecord_kept (s : State) (q : Nat) (ecc : Ecc) (r : Record) (hk : Kept s₀ s) :
    Kept s₀ (acceptRecord s q ecc r) := by
  unfold acceptRecord
  dsimp only
  repeat' first
    | with_reducible exact hk | with_reducible apply dropArrival_kept | with_reducible apply makeRoom_kept
    | with_reducible apply settleAccept_kept | with_reducible apply poisonPen_kept | with_reducible apply placeRecord_kept
    | split

theorem ageSlice_kept (s : State) (q : Nat) (hk : Kept s₀ s) :
    Kept s₀ (ageSlice s q) := by
  unfold ageSlice
  repeat' first | with_reducible exact hk | with_reducible apply modSlice_kept

theorem ageSlices_kept (s : State) (hk : Kept s₀ s) :
    Kept s₀ (ageSlices s) := by
  unfold ageSlices
  repeat' first | with_reducible exact hk | with_reducible apply foldl_kept | with_reducible apply ageSlice_kept

theorem recallPen_kept (s : State) (q : Nat) (p : Pen) (hk : Kept s₀ s) :
    Kept s₀ (recallPen s q p) := by
  unfold recallPen
  repeat' first
    | with_reducible exact hk | with_reducible assumption | intro _ | with_reducible apply foldl_kept
    | with_reducible apply blockBack_kept

theorem poisonItem_kept (s : State) (u : FoldUpset) (rs : List Record) (hk : Kept s₀ s) :
    Kept s₀ (poisonItem s u rs) := by
  unfold poisonItem
  repeat' first | with_reducible exact hk | split | with_reducible refine Kept.leafFold id ?_

theorem countDelivery_kept (s : State) (q quad : Nat) (p : Pen) (aged : Bool) (hk : Kept s₀ s) :
    Kept s₀ (countDelivery s q quad p aged) := by
  unfold countDelivery
  repeat' first | with_reducible exact hk | with_reducible apply count_kept | split

theorem formSettle_kept (s : State) (r : Record) (out : List Record) (sc : List Scored) (hk : Kept s₀ s) :
    Kept s₀ (formSettle s r out sc) := by
  unfold formSettle
  repeat' first | with_reducible exact hk | with_reducible refine Kept.leafFold id ?_


/-! ## Ports -/

theorem acceptTags_kept (s : State) (rs : List Req) (hk : Kept s₀ s) :
    Kept s₀ (acceptTags s rs) := by
  unfold acceptTags
  repeat' first
    | with_reducible exact hk | with_reducible assumption | intro _ | with_reducible apply foldl_kept
    | with_reducible apply tagArrive_kept | split

theorem grantRead_kept (s : State) (port : Nat) (hk : Kept s₀ s) : Kept s₀ (grantRead s port) := by
  have h1 : ∀ t, Kept s₀ { s with fabric := t, ports := modAt s.ports port fun p => { p with cycle := t } } := fun t =>
    Kept.set id id (fun h => (modAt_length _ _ _).trans h) id id id hk
  unfold grantRead
  dsimp only
  split
  · exact h1 _
  · split
    · exact h1 _
    · refine acceptTags_kept _ _ (count_kept _ _ _ ?_)
      exact Kept.set id id (fun h => (modAt_length _ _ _).trans ((modAt_length _ _ _).trans h)) id id id hk

theorem portReadGrant_kept (s : State) (port : Nat) (hk : Kept s₀ s) :
    Kept s₀ (portReadGrant s port) := by
  unfold portReadGrant
  repeat' first | with_reducible exact hk | with_reducible apply grantRead_kept | split

theorem grantWrite_kept (s : State) (port : Nat) (hk : Kept s₀ s) : Kept s₀ (grantWrite s port) := by
  unfold grantWrite
  dsimp only
  split
  · exact hk
  · split
    · exact hk
    · refine acceptTags_kept _ _ (count_kept _ _ _ (foldl_kept _ (fun s r h => modPass_kept _ _ _ h) ?_))
      exact Kept.set id id (fun h => (modAt_length _ _ _).trans h) id id id hk

theorem portWriteGrant_kept (s : State) (port : Nat) (hk : Kept s₀ s) :
    Kept s₀ (portWriteGrant s port) := by
  unfold portWriteGrant
  repeat' first | with_reducible exact hk | with_reducible apply grantWrite_kept | split

theorem performTorn_kept (s : State) (r : Req) (masked : List Nat) (hk : Kept s₀ s) :
    Kept s₀ (performTorn s r masked) := by
  unfold performTorn
  repeat' first
    | with_reducible exact hk | with_reducible assumption | intro _ | with_reducible apply foldl_kept
    | with_reducible apply fresh_kept | split | with_reducible apply Kept.set | refine chipWrite_wf ?_ _ _ _ _

theorem maskOlder_kept (s : State) (port : Nat) (b : Burst) (hk : Kept s₀ s) :
    Kept s₀ (maskOlder s port b) := by
  unfold maskOlder
  repeat' first | with_reducible exact hk | with_reducible apply Kept.set | (simp_all; done)

theorem noteXferFault_kept (s : State) (slot elem stream : Nat) (write : Bool) (addr : Nat) (hk : Kept s₀ s) :
    Kept s₀ (noteXferFault s slot elem stream write addr) := by
  unfold noteXferFault
  repeat' first | with_reducible exact hk | with_reducible apply modPass_kept

theorem settleXfer_kept (s : State) (slot : Nat) (hk : Kept s₀ s) :
    Kept s₀ (settleXfer s slot) := by
  unfold settleXfer
  repeat' first | with_reducible exact hk | with_reducible apply faultPass_kept | with_reducible apply modPass_kept | split

theorem deliverElem_kept (s : State) (slot e n : Nat) (hk : Kept s₀ s) :
    Kept s₀ (deliverElem s slot e n) := by
  unfold deliverElem
  repeat' first | with_reducible exact hk | with_reducible apply settleXfer_kept | with_reducible apply modPass_kept

theorem reqXlate_kept (s : State) (r : Req) (write : Bool) (hk : Kept s₀ s) :
    Kept s₀ (reqXlate s r write) := by
  unfold reqXlate
  repeat' first
    | with_reducible exact hk | with_reducible apply settleXfer_kept | with_reducible apply noteXferFault_kept
    | with_reducible apply faultPass_kept | split

theorem reqPoison_kept (s : State) (r : Req) (hk : Kept s₀ s) :
    Kept s₀ (reqPoison s r) := by
  unfold reqPoison
  repeat' first | with_reducible exact hk | with_reducible apply faultPass_kept | split

theorem fetchArrive_kept (s : State) (f : Flight) (r : Req) (core slot tag herd off : Nat) (hk : Kept s₀ s) :
    Kept s₀ (fetchArrive s f r core slot tag herd off) := by
  unfold fetchArrive
  repeat' first
    | with_reducible exact hk | with_reducible apply modCore_kept | with_reducible apply mixHerd_kept
    | with_reducible apply modGroup_kept | split

theorem xferPut_kept (s : State) (slot e dst : Nat) (inStore : Bool) (bytes : List Byte) (bad : Bool) (hk : Kept s₀ s) :
    Kept s₀ (xferPut s slot e dst inStore bytes bad) := by
  unfold xferPut
  repeat' first
    | with_reducible exact hk | with_reducible assumption | intro _ | with_reducible apply deliverElem_kept
    | with_reducible apply passWriteTo_kept | split | with_reducible apply Kept.set | refine storeWrite_wf ?_ _ _ _

theorem xferPutByte_kept (s : State) (slot e dst : Nat) (inStore : Bool) (v : Byte) (bad clash : Bool) (hk : Kept s₀ s) :
    Kept s₀ (xferPutByte s slot e dst inStore v bad clash) := by
  unfold xferPutByte
  dsimp only
  repeat' first
    | with_reducible exact hk | with_reducible apply xferPut_kept | with_reducible apply fresh_kept
    | with_reducible apply deliverElem_kept | split

theorem xferDeliver_kept (s : State) (slot e dst : Nat) (bytes : List Byte) (bad : Bool) (hk : Kept s₀ s) :
    Kept s₀ (xferDeliver s slot e dst bytes bad) := by
  unfold xferDeliver
  repeat' first
    | with_reducible exact hk | with_reducible assumption | intro _ | with_reducible apply foldl_kept
    | with_reducible apply xferPut_kept | with_reducible apply modPass_kept | with_reducible apply xferPutByte_kept | split

theorem xferPoison_kept (s : State) (slot n : Nat) (hk : Kept s₀ s) :
    Kept s₀ (xferPoison s slot n) := by
  unfold xferPoison
  repeat' first | with_reducible exact hk | with_reducible apply count_kept | with_reducible apply modPass_kept | split

theorem xferArrive_kept (s : State) (f : Flight) (r : Req) (elem dst : Nat) (hk : Kept s₀ s) :
    Kept s₀ (xferArrive s f r elem dst) := by
  unfold xferArrive
  repeat' first
    | with_reducible exact hk | with_reducible assumption | intro _ | with_reducible apply foldl_kept
    | with_reducible apply xferDeliver_kept

theorem xferBeats_kept (s : State) (f : Flight) (hk : Kept s₀ s) :
    Kept s₀ (xferBeats s f) := by
  unfold xferBeats
  repeat' first
    | with_reducible exact hk | with_reducible assumption | intro _ | with_reducible apply foldl_kept
    | with_reducible apply xferPoison_kept

theorem landRead_kept (s : State) (f : Flight) (r : Req) (hk : Kept s₀ s) :
    Kept s₀ (landRead s f r) := by
  unfold landRead
  repeat' first
    | with_reducible exact hk | with_reducible apply reqPoison_kept | with_reducible apply modGroup_kept
    | with_reducible apply spoilStores_kept | with_reducible apply fresh_kept | with_reducible apply modCore_kept
    | with_reducible apply tagReturn_kept | with_reducible apply fetchArrive_kept | split

theorem deliver_kept (s : State) (f : Flight) (r : Req) (hk : Kept s₀ s) :
    Kept s₀ (deliver s f r) := by
  unfold deliver
  repeat' first
    | with_reducible exact hk | with_reducible assumption | intro _ | with_reducible apply crossInto_kept
    | with_reducible apply landRead_kept | with_reducible apply xferArrive_kept | split

theorem writeBack_kept (s : State) (slot : Nat) (hk : Kept s₀ s) :
    Kept s₀ (writeBack s slot) := by
  unfold writeBack
  repeat' first | with_reducible exact hk | with_reducible apply modPass_kept

theorem landAtomic_kept (s : State) (f : Flight) (r : Req) (old : Nat) (hk : Kept s₀ s) :
    Kept s₀ (landAtomic s f r old) := by
  unfold landAtomic
  repeat' first
    | with_reducible exact hk | with_reducible apply reqPoison_kept | with_reducible apply spoilStores_kept
    | with_reducible apply modGroup_kept | with_reducible apply tagReturn_kept | split

theorem landCrossing_kept (s : State) (core : Nat) (hk : Kept s₀ s) :
    Kept s₀ (landCrossing s core) := by
  unfold landCrossing
  repeat' first
    | with_reducible exact hk | with_reducible assumption | intro _ | with_reducible apply foldl_kept
    | with_reducible apply landRead_kept | with_reducible apply landAtomic_kept | with_reducible apply tagReturn_kept
    | with_reducible apply modCore_kept | split

theorem chipWriteMasked_wf {c : Chip} (h : smWf 0 c.bytes = true) (asid a : Nat) (b : List Byte) (p : Bool) (m : List Nat) :
    smWf 0 (chipWriteMasked c asid a b p m).bytes = true := by
  unfold chipWriteMasked
  split
  · exact chipWrite_wf h _ _ _ _
  · generalize (List.filter _ _) = l
    induction l generalizing c with
    | nil => exact h
    | cons x r ih => exact ih (chipWrite_wf h _ _ _ _)

theorem atomicBack_kept (s : State) (port : Nat) (f : Flight) (r : Req) (old : Nat) (hk : Kept s₀ s) :
    Kept s₀ (atomicBack s port f r old) := by
  unfold atomicBack
  repeat' first
    | with_reducible exact hk | with_reducible assumption | intro _ | with_reducible apply maskOlder_kept
    | with_reducible apply crossInto_kept | with_reducible apply writeBack_kept | with_reducible apply landAtomic_kept
    | split | with_reducible apply Kept.set | refine chipWriteMasked_wf ?_ _ _ _ _ _

theorem readBeat_kept (s : State) (port : Nat) (f : Flight) (b : EppBeat) (ecc : Ecc) (hk : Kept s₀ s) :
    Kept s₀ (readBeat s port f b ecc) := by
  unfold readBeat
  repeat' first
    | with_reducible exact hk | with_reducible assumption | intro _ | with_reducible apply foldl_kept
    | with_reducible apply countEcc_kept | with_reducible apply count_kept | with_reducible apply reqXlate_kept
    | with_reducible apply atomicBack_kept | with_reducible apply deliver_kept | with_reducible apply xferBeats_kept | split
    | with_reducible apply Kept.set | (simp_all; done)

theorem writeDone_kept (s : State) (f : Flight) (code : Nat) (r : Req) (hk : Kept s₀ s) :
    Kept s₀ (writeDone s f code r) := by
  unfold writeDone
  repeat' first
    | with_reducible exact hk | with_reducible assumption | intro _ | with_reducible apply performTorn_kept
    | with_reducible apply writeBack_kept | with_reducible apply reqXlate_kept | with_reducible apply reqPoison_kept
    | with_reducible apply deliverElem_kept | with_reducible apply tagArrive_kept | split | with_reducible apply Kept.set
    | refine chipWriteMasked_wf ?_ _ _ _ _ _

theorem writeResponse_kept (s : State) (port : Nat) (f : Flight) (b : EppBeat) (hk : Kept s₀ s) :
    Kept s₀ (writeResponse s port f b) := by
  unfold writeResponse
  repeat' first
    | with_reducible exact hk | with_reducible assumption | intro _ | with_reducible apply foldl_kept
    | with_reducible apply count_kept | with_reducible apply writeDone_kept | with_reducible apply maskOlder_kept | split
    | with_reducible apply Kept.leaf | with_reducible apply Kept.set | (simp_all; done)

theorem orphanBack_kept (s : State) (port : Nat) (dir : Bool) (f : Flight) (tag : Nat) (hk : Kept s₀ s) :
    Kept s₀ (orphanBack s port dir f tag) := by
  unfold orphanBack
  repeat' first
    | with_reducible exact hk | with_reducible apply count_kept | with_reducible apply Kept.set | (simp_all; done)

theorem eppResponse_kept (s : State) (port : Nat) (b : EppBeat) (ecc : Ecc) (hk : Kept s₀ s) :
    Kept s₀ (eppResponse s port b ecc) := by
  unfold eppResponse
  repeat' first
    | with_reducible exact hk | with_reducible assumption | with_reducible apply count_kept
    | with_reducible apply orphanBack_kept | with_reducible apply writeResponse_kept | with_reducible apply readBeat_kept
    | split | with_reducible apply Kept.leaf | with_reducible refine Kept.leafFold id ?_


end Sys2Proof.Machine
end

