-- ==== Sys2Proof/Laws/KeptPasses.lean ====
section
/-! SUPPORT. What is kept (Laws/Kept.lean) by the operations of launches, plans, searches, kernels, the wait list, completion
and doorbells: one lemma for each, in the form "what was kept before it is kept after it". -/
namespace Sys2Proof.Machine

variable {s₀ : State}

/-! ## Launch -/

theorem serveFlock_kept (s : State) (f c : Nat) (hk : Kept s₀ s) :
    Kept s₀ (serveFlock s f c) := by
  unfold serveFlock
  repeat' first
    | with_reducible exact hk | with_reducible assumption | intro _ | with_reducible apply foldl_kept
    | with_reducible apply modCore_kept | with_reducible apply emptyL0_kept | split | with_reducible apply Kept.set
    | (simp_all; done)

theorem placeHerd_kept (s : State) (p : Pass) (i : Image) (args : List U64) (core herd member launch : Nat) (bytes : List
    (Nat × Byte)) (packet : Nat → Option Nat) (hk : Kept s₀ s) :
    Kept s₀ (placeHerd s p i args core herd member launch bytes packet) := by
  unfold placeHerd
  repeat' first | with_reducible exact hk | with_reducible apply emptyL0_kept | with_reducible apply setCore_kept | split

theorem launchKernel_kept (s : State) (p : Pass) (k : KernelBody) (cores : List Nat) (hk : Kept s₀ s) :
    Kept s₀ (launchKernel s p k cores) := by
  unfold launchKernel
  repeat' first
    | with_reducible exact hk | with_reducible assumption | intro _ | with_reducible apply foldl_kept
    | with_reducible apply placeHerd_kept | with_reducible apply modPass_kept

theorem launchStock_kept (s : State) (p : Pass) (core : Nat) (stock : Stock) (owner : Nat) (hk : Kept s₀ s) :
    Kept s₀ (launchStock s p core stock owner) := by
  unfold launchStock
  repeat' first | with_reducible exact hk | with_reducible apply emptyL0_kept | with_reducible apply modCore_kept | split

theorem launchShader_kept (s : State) (p : Pass) (b : RenderBody) (i : Image) (core member launch : Nat) (hk : Kept s₀ s) :
    Kept s₀ (launchShader s p b i core member launch) := by
  unfold launchShader
  repeat' first | with_reducible exact hk | with_reducible apply placeHerd_kept | with_reducible apply modPass_kept

theorem herdLaunch_kept (s : State) (slot core : Nat) (hk : Kept s₀ s) :
    Kept s₀ (herdLaunch s slot core) := by
  unfold herdLaunch
  dsimp only
  repeat' first
    | with_reducible exact hk | with_reducible assumption | with_reducible apply serveFlock_kept
    | with_reducible apply launchKernel_kept | with_reducible apply launchShader_kept | with_reducible apply launchStock_kept
    | split

theorem launchShaders_kept (slot launch : Nat) (s : State) (x : Nat × Nat) (hk : Kept s₀ s) :
    Kept s₀ (launchShaders slot launch s x) := by
  unfold launchShaders
  repeat' first | with_reducible exact hk | with_reducible apply launchShader_kept | split

theorem launchOn_kept (s : State) (p : Pass) (cores : List Nat) (hk : Kept s₀ s) :
    Kept s₀ (launchOn s p cores) := by
  unfold launchOn
  repeat' first
    | with_reducible exact hk | with_reducible apply foldl_kept | with_reducible apply launchKernel_kept
    | with_reducible apply launchShaders_kept | split

theorem flockLaunch_kept (s : State) (slot f : Nat) (hk : Kept s₀ s) :
    Kept s₀ (flockLaunch s slot f) := by
  unfold flockLaunch
  repeat' first
    | with_reducible exact hk | with_reducible assumption | with_reducible apply serveFlock_kept
    | with_reducible apply launchOn_kept | split | with_reducible apply Kept.set | (simp_all; done)

theorem strand_kept (s : State) (hk : Kept s₀ s) :
    Kept s₀ (strand s) := by
  unfold strand
  repeat' first
    | with_reducible exact hk | with_reducible assumption | intro _ | with_reducible apply foldl_kept
    | with_reducible apply cutPass_kept | split


/-! ## Plans -/

theorem seeSpan_kept (asid : Nat) (s : State) (x : Span) (hk : Kept s₀ s) :
    Kept s₀ (seeSpan asid s x) := by
  unfold seeSpan
  dsimp only
  repeat' first
    | with_reducible exact hk | with_reducible assumption | intro _ | with_reducible apply foldl_kept
    | with_reducible apply seenLines_kept | with_reducible apply cpRead_kept | with_reducible apply count_kept | split

theorem seeSpans_kept (s : State) (c : Nat) (l : List Span) (hk : Kept s₀ s) :
    Kept s₀ (seeSpans s c l) := by
  unfold seeSpans
  repeat' first | with_reducible exact hk | with_reducible apply foldl_kept | with_reducible apply seeSpan_kept

theorem xlatePass_kept (s : State) (p : Pass) (r : Reader) (a : Nat) (hk : Kept s₀ s) :
    Kept s₀ (xlatePass s p r a) := by
  unfold xlatePass
  repeat' first | with_reducible exact hk | with_reducible apply faultPass_kept

theorem consumePoison_kept (s : State) (p : Pass) (source : Nat) (r : Reader) (a : Nat) (hk : Kept s₀ s) :
    Kept s₀ (consumePoison s p source r a) := by
  unfold consumePoison
  repeat' first | with_reducible exact hk | with_reducible apply faultPass_kept

theorem onPlan_kept {α : Type} (s : State) (p : Pass) (x : Plan α) (k : State → α → State) (hf : ∀ s y, Kept s₀ s → Kept s₀ (k s y))
    (hk : Kept s₀ s) : Kept s₀ (onPlan s p x k) := by
  have h := seeSpans_kept s p.ctx x.reads hk
  unfold onPlan
  split
  · exact h
  · exact xlatePass_kept _ _ _ _ h
  · exact consumePoison_kept _ _ _ _ _ h
  · exact hf _ _ h

theorem onReads_kept {α : Type} (s : State) (p : Pass) (x : Plan α) (k : State → α → State) (hf : ∀ s y, Kept s₀ s → Kept s₀ (k s y))
    (hk : Kept s₀ s) : Kept s₀ (onReads s p x k) := by
  unfold onReads
  split
  · exact onPlan_kept _ _ _ _ hf hk
  · exact hk

theorem admitPlan_kept {α : Type} (s : State) (c ring : Nat) (f : Fetched) (body : Body) (arrays : Nat) (plan : Plan α)
    (go : State → Nat → α → State) (hf : ∀ s n y, Kept s₀ s → Kept s₀ (go s n y)) (hk : Kept s₀ s) :
    Kept s₀ (admitPlan s c ring f body arrays plan go) := by
  have h := admitBody_kept s c ring f body hk
  unfold admitPlan
  dsimp only
  split
  · exact hk
  · split
    · exact h
    · exact onPlan_kept _ _ _ _ (fun s y h => hf _ _ _ h) (openInputs_kept _ _ _ h)

/-! ## Search -/

theorem finishSearch_kept (s : State) (slot : Nat) (hk : Kept s₀ s) :
    Kept s₀ (finishSearch s slot) := by
  unfold finishSearch
  repeat' first | with_reducible exact hk | with_reducible apply passWrite_kept | with_reducible apply modPass_kept | split

theorem queueSweep_kept (slot c : Nat) (mk : Nat → Sample) (s : State) (js : List Nat) (hk : Kept s₀ s) :
    Kept s₀ (queueSweep slot c mk s js) := by
  unfold queueSweep
  repeat' first
    | with_reducible exact hk | with_reducible apply count_kept | with_reducible apply skipCount_kept | split
    | with_reducible apply Kept.leaf

theorem formSamples_kept (s : State) (slot : Nat) (p : Pass) (q : SearchParams) (h : TreeRoot) (hk : Kept s₀ s) :
    Kept s₀ (formSamples s slot p q h) := by
  unfold formSamples
  repeat' first | with_reducible exact hk | with_reducible apply foldl_kept | with_reducible apply queueSweep_kept | split

theorem searchGo_kept (f : Fetched) (s : State) (slot : Nat) (x : TreeRoot × U32) (hk : Kept s₀ s) :
    Kept s₀ (searchGo f s slot x) := by
  unfold searchGo
  dsimp only
  repeat' first
    | with_reducible exact hk | with_reducible apply modPass_kept | with_reducible apply finishSearch_kept
    | with_reducible apply formSamples_kept | split

theorem thinPass_kept (s : State) (slot : Nat) (threshold : Bool) (delta : U32) (k : Nat) (hk : Kept s₀ s) :
    Kept s₀ (thinPass s slot threshold delta k) := by
  unfold thinPass
  repeat' first | with_reducible exact hk | with_reducible refine Kept.leafFold id ?_

theorem addItem_kept (s : State) (i : Item) (r : Nat → Record) (hk : Kept s₀ s) :
    Kept s₀ (addItem s i r) := by
  unfold addItem
  repeat' first | with_reducible exact hk | with_reducible refine Kept.leafFold id ?_

theorem degradePass_kept (s : State) (slot : Nat) (d : Degrade) (hk : Kept s₀ s) :
    Kept s₀ (degradePass s slot d) := by
  unfold degradePass
  repeat' first | with_reducible exact hk | with_reducible apply modPass_kept

theorem admitQuery_kept (p : Pass) (b : SearchBody) (gen : U16) (s : State) (x : Nat × Bool × List U32 × U32) (hk : Kept s₀ s) :
    Kept s₀ (admitQuery p b gen s x) := by
  unfold admitQuery
  repeat' first | with_reducible exact hk | with_reducible apply addItem_kept

theorem noteNarrow_kept (s : State) (slot : Nat) (r : Retired) (hk : Kept s₀ s) :
    Kept s₀ (noteNarrow s slot r) := by
  unfold noteNarrow
  repeat' first
    | with_reducible exact hk | with_reducible assumption | intro _ | with_reducible apply foldl_kept
    | with_reducible apply countCtx_kept | with_reducible apply Kept.leaf

theorem retire_kept (s : State) (slot : Nat) (r : Retired) (hk : Kept s₀ s) :
    Kept s₀ (retire s slot r) := by
  unfold retire
  repeat' first | with_reducible exact hk | with_reducible apply modPass_kept | with_reducible refine Kept.leafFold id ?_

theorem placeQuery_kept (s : State) (slot : Nat) (b : SearchBody) (r : Retired) (hk : Kept s₀ s) :
    Kept s₀ (placeQuery s slot b r) := by
  unfold placeQuery
  repeat' first
    | with_reducible exact hk | with_reducible apply passWrites_kept | with_reducible apply passWrite_kept
    | with_reducible apply finishSearch_kept | with_reducible apply modPass_kept | split


/-! ## Kernel -/

theorem kernelGo_kept (herds : Nat) (s : State) (slot : Nat) (x : KernelGo) (hk : Kept s₀ s) :
    Kept s₀ (kernelGo herds s slot x) := by
  unfold kernelGo
  repeat' first | with_reducible exact hk | with_reducible apply modPass_kept | split


/-! ## Awl -/

theorem finishSweep_kept (s : State) (x : Sweep) (r : SweepRun) (hk : Kept s₀ s) :
    Kept s₀ (finishSweep s x r) := by
  unfold finishSweep
  repeat' first
    | with_reducible exact hk | with_reducible apply reapAwl_kept | with_reducible apply seeSpans_kept
    | with_reducible apply countCtx_kept | split | with_reducible apply Kept.leaf

theorem setRun_kept (s : State) (x : Sweep) (r : SweepRun) (hk : Kept s₀ s) :
    Kept s₀ (setRun s x r) := by
  unfold setRun
  repeat' first | with_reducible exact hk | with_reducible apply Kept.leaf

theorem endChunks_kept (s : State) (x : Sweep) (b : SearchBody) (r : SweepRun) (hk : Kept s₀ s) :
    Kept s₀ (endChunks s x b r) := by
  unfold endChunks
  repeat' first | with_reducible exact hk | with_reducible apply Kept.leaf

theorem placeSweep_kept (s : State) (p : Pass) (x : Sweep) (r : SweepRun) (n : Nat) (hk : Kept s₀ s) :
    Kept s₀ (placeSweep s p x r n).1 := by
  induction n generalizing s r with
  | zero => exact hk
  | succ n ih =>
    unfold placeSweep
    split
    · exact ih _ _ (modGroup_kept _ _ _ _ (launchStock_kept (hk := hk) ..))
    · exact hk

theorem advanceSweep_kept (s : State) (x : Sweep) (hk : Kept s₀ s) : Kept s₀ (advanceSweep s x) := by
  unfold advanceSweep
  dsimp only
  split
  · rename_i r p b _ _
    have hy := placeSweep_kept s p x r (sweepChunks b - r.placed) hk
    generalize placeSweep s p x r (sweepChunks b - r.placed) = y at hy ⊢
    split <;> split <;> repeat' first
      | exact hy
      | (with_reducible apply finishSweep_kept)
      | (with_reducible apply endChunks_kept)
      | (with_reducible apply setRun_kept)
      | (with_reducible apply seeSpans_kept)
      | (with_reducible apply Kept.leaf)
  · exact hk

theorem awlWindow_kept (s : State) (hk : Kept s₀ s) :
    Kept s₀ (awlWindow s) := by
  unfold awlWindow
  repeat' first
    | with_reducible exact hk | with_reducible assumption | intro _ | with_reducible apply foldl_kept
    | with_reducible apply advanceSweep_kept | split | with_reducible apply Kept.leaf

theorem abandonSweep_kept (s : State) (x : Sweep) (hk : Kept s₀ s) :
    Kept s₀ (abandonSweep s x) := by
  unfold abandonSweep
  repeat' first | with_reducible exact hk | with_reducible apply skipCount_kept | with_reducible apply Kept.leaf

theorem sweepStart_kept (s : State) (hk : Kept s₀ s) :
    Kept s₀ (sweepStart s) := by
  unfold sweepStart
  repeat' first
    | with_reducible exact hk | with_reducible apply abandonSweep_kept | with_reducible apply serveFlock_kept
    | with_reducible apply openStream_kept | with_reducible apply advanceSweep_kept | with_reducible apply setRun_kept
    | split

theorem sampleComplete_kept (s : State) (hk : Kept s₀ s) :
    Kept s₀ (sampleComplete s) := by
  unfold sampleComplete
  repeat' first | with_reducible exact hk | with_reducible apply recordSample_kept | split


/-! ## Completion -/

theorem passCompletion_kept (s : State) (slot : Nat) (hk : Kept s₀ s) :
    Kept s₀ (passCompletion s slot) := by
  unfold passCompletion
  repeat' first
    | with_reducible exact hk | with_reducible assumption | intro _ | with_reducible apply modPass_kept
    | with_reducible apply passWrites_kept | with_reducible apply completePass_kept | split | with_reducible apply Kept.set
    | refine storeWrites_wf ?_ _

theorem ringSpace_kept (s : State) (slot : Nat) (hk : Kept s₀ s) :
    Kept s₀ (ringSpace s slot) := by
  unfold ringSpace
  repeat' first
    | with_reducible exact hk | with_reducible assumption | intro _ | with_reducible apply foldl_kept
    | with_reducible apply writeCompletion_kept | split

theorem messageWrite_kept (s : State) (key : Nat) (hk : Kept s₀ s) :
    Kept s₀ (messageWrite s key) := by
  unfold messageWrite
  repeat' first
    | with_reducible exact hk | with_reducible assumption | intro _ | with_reducible apply setRing_kept
    | with_reducible apply cpPresent_kept | split | with_reducible apply Kept.set | refine chipWrite_wf ?_ _ _ _ _

theorem cancelGo_kept (s : State) (c ring : Nat) (f : Fetched) (sel : Pass → Bool) (hk : Kept s₀ s) :
    Kept s₀ (cancelGo s c ring f sel) := by
  unfold cancelGo
  repeat' first
    | with_reducible exact hk | with_reducible assumption | intro _ | with_reducible apply foldl_kept
    | with_reducible apply admitPass_kept | with_reducible apply cutPass_kept | split

theorem cancelComplete_kept (s : State) (slot : Nat) (hk : Kept s₀ s) :
    Kept s₀ (cancelComplete s slot) := by
  unfold cancelComplete
  dsimp only
  repeat' first
    | with_reducible exact hk | with_reducible apply faultPass_kept | with_reducible apply completePass_kept
    | with_reducible apply modPass_kept | split

theorem cancelTimeout_kept (s : State) (slot : Nat) (hk : Kept s₀ s) :
    Kept s₀ (cancelTimeout s slot) := by
  unfold cancelTimeout
  dsimp only
  repeat' first | with_reducible exact hk | with_reducible apply faultPass_kept | split

theorem reapGroups_kept (s : State) (c : Nat) (hk : Kept s₀ s) :
    Kept s₀ (reapGroups s c) := by
  unfold reapGroups
  repeat' first | with_reducible exact hk | with_reducible apply Kept.set | (simp_all; done)

theorem endOther_kept (f : FaultRec) (s : State) (p : Pass) (hk : Kept s₀ s) :
    Kept s₀ (endOther f s p) := by
  unfold endOther
  repeat' first
    | with_reducible exact hk | with_reducible apply completePass_kept | with_reducible apply postPassEvent_kept | split

theorem haltContext_kept (s : State) (c : Nat) (f : FaultRec) (incomplete : Bool) (hk : Kept s₀ s) :
    Kept s₀ (haltContext s c f incomplete) := by
  unfold haltContext
  repeat' first
    | with_reducible exact hk | with_reducible assumption | intro _ | with_reducible apply foldl_kept
    | with_reducible apply modCtx_kept | with_reducible apply reapGroups_kept | with_reducible apply postPassEvent_kept
    | with_reducible apply pushRingEvent_kept | with_reducible apply completePass_kept | with_reducible apply modPass_kept
    | with_reducible apply endOther_kept | split | with_reducible apply Kept.leaf

theorem contextDrained_kept (s : State) (c : Nat) (hk : Kept s₀ s) :
    Kept s₀ (contextDrained s c) := by
  unfold contextDrained
  repeat' first
    | with_reducible exact hk | with_reducible assumption | with_reducible apply haltContext_kept | split
    | with_reducible apply Kept.leaf | with_reducible refine Kept.leafFold id ?_ | with_reducible apply Kept.set | exact id
    | exact fun h => (modAt_length _ _ _).trans h | exact fun _ => rfl

theorem drainStalled_kept (s : State) (c : Nat) (hk : Kept s₀ s) :
    Kept s₀ (drainStalled s c) := by
  unfold drainStalled
  repeat' first
    | with_reducible exact hk | with_reducible assumption | with_reducible apply haltContext_kept
    | with_reducible apply logCtx_kept | split | with_reducible apply Kept.leaf | with_reducible refine Kept.leafFold id ?_
    | with_reducible apply Kept.set | exact id | exact fun h => (modAt_length _ _ _).trans h | (simp_all; done)


/-! ## Doorbells -/

theorem discardDoorbell_kept (s : State) (hk : Kept s₀ s) :
    Kept s₀ (discardDoorbell s) := by
  unfold discardDoorbell
  repeat' first | with_reducible exact hk | with_reducible apply count_kept

theorem okWrite_edge (s : State) (hk : EdgeKept s₀ s) :
    EdgeKept s₀ (okWrite s) := by
  unfold okWrite
  repeat' first | with_reducible exact hk | with_reducible apply EdgeKept.leaf

theorem doorbell_edge (s : State) (c ring : Nat) (asid : BitVec 20) (v : U32) (body : State → State)
    (hbody : ∀ x0, EdgeKept s₀ x0 → EdgeKept s₀ (body x0)) (hk : EdgeKept s₀ s) :
    EdgeKept s₀ (doorbell s c ring asid v body) := by
  unfold doorbell
  dsimp only
  repeat' first
    | with_reducible exact hk | with_reducible apply hbody | with_reducible apply okWrite_edge
    | refine EdgeKept.trans ?_ (discardDoorbell_kept (hk := .refl _) ..).toEdgeKept
    | refine EdgeKept.trans ?_ (modRing_kept (hk := .refl _) ..).toEdgeKept
    | refine EdgeKept.trans ?_ (countCtx_kept (hk := .refl _) ..).toEdgeKept | split

theorem badDoorbell_kept (s : State) (c ring : Nat) (v : U32) (hk : Kept s₀ s) :
    Kept s₀ (badDoorbell s c ring v) := by
  unfold badDoorbell
  dsimp only
  repeat' first
    | with_reducible exact hk | with_reducible assumption | intro _ | with_reducible apply foldl_kept
    | with_reducible apply pushEvent_kept | with_reducible apply checkRingWrites_kept | with_reducible apply count_kept
    | split

theorem indexBody_kept (c ring : Nat) (v : U32) (s : State) (hk : Kept s₀ s) :
    Kept s₀ (indexBody c ring v s) := by
  unfold indexBody
  dsimp only
  repeat' first | with_reducible exact hk | with_reducible apply modRing_kept | with_reducible apply badDoorbell_kept | split

theorem writeResult_kept (s : State) (c h : Nat) (v : Byte) (hk : Kept s₀ s) :
    Kept s₀ (writeResult s c h v) := by
  unfold writeResult
  repeat' first | with_reducible exact hk | with_reducible apply cpWrite_kept

theorem headerFault_kept (s : State) (c ring h : Nat) (m : MemRead) (hk : Kept s₀ s) :
    ∀ t, headerFault s c ring h m = some t → Kept s₀ t := by
  intro t ht
  unfold headerFault at ht
  dsimp only at ht
  split at ht
  · cases ht; exact faultContext_kept (hk := hk) ..
  · cases ht; exact faultContext_kept (hk := hk) ..
  · cases ht

theorem setupBody_kept (c ring : Nat) (s : State) (hk : Kept s₀ s) :
    Kept s₀ (setupBody c ring s) := by
  unfold setupBody
  dsimp only
  repeat' first
    | with_reducible exact hk | with_reducible apply writeResult_kept | with_reducible apply cpRead_kept
    | refine headerFault_kept _ _ _ _ _ ?_ _ (by assumption) | with_reducible apply modRing_kept
    | with_reducible apply cpWrite_kept | split

theorem idleRing_kept (s : State) (key : Nat) (hk : Kept s₀ s) :
    Kept s₀ (idleRing s key) := by
  unfold idleRing
  repeat' first | with_reducible exact hk | with_reducible apply modRing_kept

theorem teardownBody_kept (c ring : Nat) (s : State) (hk : Kept s₀ s) :
    Kept s₀ (teardownBody c ring s) := by
  unfold teardownBody
  dsimp only
  repeat' first
    | with_reducible exact hk | with_reducible apply writeResult_kept | with_reducible apply setRing_kept
    | with_reducible apply cpWrite_kept | with_reducible apply idleRing_kept | split

theorem teardownDone_kept (s : State) (c ring : Nat) (hk : Kept s₀ s) :
    Kept s₀ (teardownDone s c ring) := by
  unfold teardownDone
  dsimp only
  repeat' first | with_reducible exact hk | with_reducible apply cpWrite_kept | with_reducible apply idleRing_kept | split


end Sys2Proof.Machine
end

