-- ==== Sys2Proof/Laws/KeptRing.lean ====
section
/-! SUPPORT. What is kept (Laws/Kept.lean) by the operations of the boundary, BUILD and CALIB, ring links, handoffs, epochs
and the census: one lemma for each, in the form "what was kept before it is kept after it". -/
namespace Sys2Proof.Machine

variable {s₀ : State}

/-! ## Boundary -/

theorem catchReq_kept (masked : List Nat) (s : State) (r : Req) (hk : Kept s₀ s) :
    Kept s₀ (catchReq masked s r) := by
  unfold catchReq
  repeat' first
    | with_reducible exact hk | with_reducible assumption | intro _ | with_reducible apply foldl_kept
    | with_reducible apply performTorn_kept | with_reducible apply fresh_kept | split | with_reducible apply Kept.set
    | refine chipWrite_wf ?_ _ _ _ _

theorem catchFlights_kept (s : State) (hk : Kept s₀ s) :
    Kept s₀ (catchFlights s) := by
  unfold catchFlights
  repeat' first
    | with_reducible exact hk | with_reducible assumption | intro _ | with_reducible apply foldl_kept
    | with_reducible apply catchReq_kept

theorem resetState_mem (s : State) (hk : MemKept s₀ s) : MemKept s₀ (resetState s) :=
  ⟨hk.chip, fun _ => rfl, fun _ => rfl, fun x => by simp [resetState, hk.links x], fun _ => rfl, fun _ => rfl⟩

theorem testEffect_mem (s : State) (hk : MemKept s₀ s) :
    MemKept s₀ (testEffect s) := by
  unfold testEffect
  repeat' first | with_reducible exact hk | with_reducible apply MemKept.leaf

theorem resetAssert_mem (s : State) (hk : MemKept s₀ s) : MemKept s₀ (resetAssert s) := by
  unfold resetAssert
  dsimp only
  split
  · exact hk
  · refine testEffect_mem _ (.leaf ?_)
    split
    · exact resetState_mem _ (hk.trans (catchFlights_kept _ (.refl _)).toMemKept)
    · exact hk

theorem bootLog_kept (s : State) (zeroed cold : Bool) (hk : Kept s₀ s) : Kept s₀ (bootLog s zeroed cold) := by
  unfold bootLog
  repeat' first | exact hk | exact clearLog_kept _ _ hk | split

theorem resetRelease_mem (s : State) (hk : MemKept s₀ s) : MemKept s₀ (resetRelease s) := by
  unfold resetRelease
  split
  · exact hk
  · dsimp only
    generalize ha : (if s.pins.powered = true then _ else _ : State) = a
    have h1 : MemKept s₀ a := by
      subst ha
      split
      · exact .leaf hk
      · exact .leaf hk
    split
    · exact h1
    · exact MemKept.trans (.leaf (resetState_mem _ h1)) (bootLog_kept _ _ _ (.refl _)).toMemKept

theorem unpowered_mem (s : State) (hk : MemKept s₀ s) :
    MemKept s₀ (unpowered s) := by
  unfold unpowered
  repeat' first | with_reducible exact hk | with_reducible apply resetState_mem | with_reducible apply MemKept.leaf

theorem powerUp_mem (s : State) (hk : MemKept s₀ s) :
    MemKept s₀ (powerUp s) := by
  unfold powerUp
  repeat' first | with_reducible exact hk | with_reducible apply unpowered_mem | split | with_reducible apply MemKept.leaf

theorem powerDown_mem (s : State) (hk : MemKept s₀ s) : MemKept s₀ (powerDown s) := by
  unfold powerDown
  dsimp only
  split
  · exact hk
  · refine .leaf (unpowered_mem _ ?_)
    split
    · exact hk.trans (catchFlights_kept _ (.refl _)).toMemKept
    · exact hk

theorem parkEnter_mem (s : State) (c : ParkCause) (hk : MemKept s₀ s) :
    MemKept s₀ (parkEnter s c) := by
  unfold parkEnter
  repeat' first | with_reducible exact hk | split | with_reducible apply MemKept.leaf

theorem parkExit_mem (s : State) (c : ParkCause) (hk : MemKept s₀ s) : MemKept s₀ (parkExit s c) := by
  unfold parkExit
  dsimp only
  split
  · exact .leaf hk
  · exact .set id id (fun _ => rfl) id id id hk

theorem startDip_mem (s : State) (hk : MemKept s₀ s) : MemKept s₀ (startDip s) :=
  MemKept.trans (.leaf hk) (count_kept _ _ _ (.refl _)).toMemKept

theorem warningFall_mem (s : State) (hk : MemKept s₀ s) : MemKept s₀ (warningFall s) := by
  unfold warningFall
  dsimp only
  split
  · exact hk
  · split
    · exact .leaf hk
    · split
      · exact startDip_mem _ (.leaf hk)
      · exact .leaf hk

theorem warningRise_mem (s : State) (hk : MemKept s₀ s) : MemKept s₀ (warningRise s) := by
  unfold warningRise
  dsimp only
  split
  · exact hk
  · split
    · exact .leaf hk
    · split
      · exact .leaf hk
      · exact MemKept.trans (.leaf hk) (logWide_kept _ _ _ _ (postWide_kept _ _ _ (.refl _))).toMemKept

theorem recoveryEnd_mem (s : State) (hk : MemKept s₀ s) :
    MemKept s₀ (recoveryEnd s) := by
  unfold recoveryEnd
  repeat' first | with_reducible exact hk | split | with_reducible apply MemKept.leaf

theorem dutyStop_mem (s : State) (core ran : Nat) (hk : MemKept s₀ s) : MemKept s₀ (dutyStop s core ran) := by
  unfold dutyStop
  dsimp only
  have hm := fun f => hk.trans (modCore_kept s core f (.refl s)).toMemKept
  split
  · exact hk
  · split
    · exact hm _
    · have hn := fun f => (hm f).trans (count_kept _ 53 ran (.refl (modCore s core f))).toMemKept
      split
      · exact .leaf (hn _)
      · exact hn _

theorem dutyRun_kept (s : State) (core stopped : Nat) (hk : Kept s₀ s) :
    Kept s₀ (dutyRun s core stopped) := by
  unfold dutyRun
  dsimp only
  repeat' first
    | with_reducible exact hk | with_reducible apply landCrossing_kept | with_reducible apply modCore_kept | split

theorem governor_mem (s : State) (on : Bool) (hk : MemKept s₀ s) : MemKept s₀ (governor s on) := by
  unfold governor
  dsimp only
  split
  · exact hk
  · split
    · exact .leaf hk
    · exact MemKept.trans (.leaf hk) (count_kept _ _ _ (fresh_kept _ (.refl _))).toMemKept

/-! ## Build -/

theorem buildGo_kept (s : State) (slot : Nat) (b : BuildParams × BuildIn) (hk : Kept s₀ s) :
    Kept s₀ (buildGo s slot b) := by
  unfold buildGo
  repeat' first | with_reducible exact hk | with_reducible apply scratchUse_kept | with_reducible apply modPass_kept | split


/-! ## Calib -/

theorem admitCalib_kept {α : Type} (s : State) (c ring : Nat) (op : Nat) (plan : State → Ctx → Fetched → Plan α)
    (go : CalibParams → State → Nat → α → State) (hgo : ∀ x0 x1 x2 x3, Kept s₀ x1 → Kept s₀ (go x0 x1 x2 x3)) (hk : Kept s₀ s) :
    Kept s₀ (admitCalib s c ring op plan go) := by
  unfold admitCalib
  repeat' first
    | with_reducible exact hk | with_reducible apply hgo | with_reducible assumption | intro _
    | with_reducible apply admitWith_kept | with_reducible apply admitPlan_kept | with_reducible apply modPass_kept | split

theorem putStore_kept (s : State) (ws : List (Nat × List Byte)) (hk : Kept s₀ s) :
    Kept s₀ (putStore s ws) := by
  unfold putStore
  repeat' first
    | with_reducible exact hk | with_reducible assumption | intro _ | with_reducible apply Kept.set
    | refine storeWrites_wf ?_ _

theorem setupGo_kept (c : Nat) (p : CalibParams) (s : State) (_slot : Nat) (ms : List U32) (hk : Kept s₀ s) :
    Kept s₀ (setupGo c p s _slot ms) := by
  unfold setupGo
  repeat' first
    | with_reducible exact hk | with_reducible assumption | intro _ | with_reducible apply putStore_kept
    | with_reducible apply modCtx_kept | with_reducible apply Kept.set | refine smFilter_wf _ ?_

theorem exportGo_kept (p : CalibParams) (s : State) (slot : Nat) (y : CalibArea × List (List Byte)) (hk : Kept s₀ s) :
    Kept s₀ (exportGo p s slot y) := by
  unfold exportGo
  repeat' first | with_reducible exact hk | with_reducible apply passWrite_kept | with_reducible apply putStore_kept

theorem proposeGo_kept (c : Nat) (p : CalibParams) (s : State) (slot : Nat) (y : CalibArea × List Byte × List Byte × List
    (List Byte)) (hk : Kept s₀ s) :
    Kept s₀ (proposeGo c p s slot y) := by
  unfold proposeGo
  repeat' first
    | with_reducible exact hk | with_reducible apply putStore_kept | with_reducible apply countCtx_kept
    | with_reducible apply postPassEvent_kept | with_reducible apply modPass_kept | split

theorem commitGo_kept (p : CalibParams) (s : State) (slot : Nat) (y : CalibArea × List Byte × List U32) (hk : Kept s₀ s) :
    Kept s₀ (commitGo p s slot y) := by
  unfold commitGo
  repeat' first | with_reducible exact hk | with_reducible apply modPass_kept | with_reducible apply putStore_kept

theorem saveGo_kept (p : CalibParams) (s : State) (slot : Nat) (y : List Byte × List Byte) (hk : Kept s₀ s) :
    Kept s₀ (saveGo p s slot y) := by
  unfold saveGo
  repeat' first | with_reducible exact hk | with_reducible apply passWrite_kept

theorem restoreGo_kept (p : CalibParams) (s : State) (slot : Nat) (y : CalibArea × List Byte × List Byte) (hk : Kept s₀ s) :
    Kept s₀ (restoreGo p s slot y) := by
  unfold restoreGo
  repeat' first | with_reducible exact hk | with_reducible apply putStore_kept | with_reducible apply modPass_kept

theorem dropArea_kept (s : State) (c : Nat) (hk : Kept s₀ s) :
    Kept s₀ (dropArea s c) := by
  unfold dropArea
  repeat' first
    | with_reducible exact hk | with_reducible apply dropAwl_kept | with_reducible apply modCtx_kept
    | with_reducible apply putStore_kept | split


/-! ## RingLink -/

theorem ringUnready_kept (s : State) (hk : Kept s₀ s) :
    Kept s₀ (ringUnready s) := by
  unfold ringUnready
  repeat' first | with_reducible exact hk | with_reducible apply Kept.leaf

theorem ringLost_kept (s : State) (position cause link : Nat) (hk : Kept s₀ s) :
    Kept s₀ (ringLost s position cause link) := by
  unfold ringLost
  repeat' first
    | with_reducible exact hk | with_reducible apply faultContext_kept | with_reducible apply ringUnready_kept | split

theorem dropLink_kept (s : State) (l : LinkSide) (st : BitVec 2) (retrain : Bool) (cause : Nat) (hk : Kept s₀ s) :
    Kept s₀ (dropLink s l st retrain cause) := by
  unfold dropLink
  dsimp only
  repeat' first
    | with_reducible exact hk | with_reducible apply modLink_kept | with_reducible apply sendCtrl_kept
    | with_reducible apply ringLost_kept | split

theorem trainedRise_kept (s : State) (l : LinkSide) (hk : Kept s₀ s) :
    Kept s₀ (trainedRise s l) := by
  unfold trainedRise
  dsimp only
  repeat' first | with_reducible exact hk | with_reducible apply modLink_kept | split

theorem trainedFall_kept (s : State) (l : LinkSide) (hk : Kept s₀ s) :
    Kept s₀ (trainedFall s l) := by
  unfold trainedFall
  repeat' first | with_reducible exact hk | with_reducible apply modLink_kept | with_reducible apply dropLink_kept | split

theorem bringupTimeout_kept (s : State) (l : LinkSide) (hk : Kept s₀ s) :
    Kept s₀ (bringupTimeout s l) := by
  unfold bringupTimeout
  dsimp only
  repeat' first | with_reducible exact hk | with_reducible apply count_kept | with_reducible apply modLink_kept | split

theorem ringClockStop_kept (s : State) (l : LinkSide) (hk : Kept s₀ s) :
    Kept s₀ (ringClockStop s l) := by
  unfold ringClockStop
  dsimp only
  repeat' first | with_reducible exact hk | with_reducible apply modLink_kept | with_reducible apply dropLink_kept | split

theorem ringClockStart_kept (s : State) (l : LinkSide) (hk : Kept s₀ s) :
    Kept s₀ (ringClockStart s l) := by
  unfold ringClockStart
  dsimp only
  repeat' first | with_reducible exact hk | with_reducible apply modLink_kept | split

theorem reachStep_kept (s : State) (n : Nat) (hk : Kept s₀ s) :
    Kept s₀ (reachStep s n) := by
  unfold reachStep
  repeat' first | with_reducible exact hk | with_reducible apply Kept.leaf

theorem checkUp_kept (s : State) (l : LinkSide) (hk : Kept s₀ s) :
    Kept s₀ (checkUp s l) := by
  unfold checkUp
  dsimp only
  repeat' first | with_reducible exact hk | with_reducible apply modLink_kept | with_reducible apply reachStep_kept | split

theorem alignReceive_kept (s : State) (l : LinkSide) (lanes : List LaneWord) (skew : Nat) (hk : Kept s₀ s) :
    Kept s₀ (alignReceive s l lanes skew) := by
  unfold alignReceive
  dsimp only
  repeat' first
    | with_reducible exact hk | with_reducible apply checkUp_kept | with_reducible apply modLink_kept
    | with_reducible apply count_kept | with_reducible apply dropLink_kept | split

theorem alignSend_kept (s : State) (l : LinkSide) (hk : Kept s₀ s) :
    Kept s₀ (alignSend s l) := by
  unfold alignSend
  dsimp only
  repeat' first | with_reducible exact hk | with_reducible apply modLink_kept | split

theorem absentReceive_kept (s : State) (l : LinkSide) (hk : Kept s₀ s) :
    Kept s₀ (absentReceive s l) := by
  unfold absentReceive
  repeat' first | with_reducible exact hk | with_reducible apply dropLink_kept | with_reducible apply modLink_kept | split

theorem discardFlit_kept (s : State) (l : LinkSide) (hk : Kept s₀ s) :
    Kept s₀ (discardFlit s l) := by
  unfold discardFlit
  repeat' first | with_reducible exact hk | with_reducible apply count_kept | with_reducible apply modLink_kept

theorem replayLink_kept (s : State) (l : LinkSide) (hk : Kept s₀ s) :
    Kept s₀ (replayLink s l) := by
  unfold replayLink
  dsimp only
  repeat' first
    | with_reducible exact hk | with_reducible apply dropLink_kept | with_reducible apply count_kept
    | with_reducible apply modLink_kept | split

theorem applyAck_kept (s : State) (l : LinkSide) (f : Flit) (hk : Kept s₀ s) :
    Kept s₀ (applyAck s l f) := by
  unfold applyAck
  dsimp only
  repeat' first | with_reducible exact hk | with_reducible apply modLink_kept | with_reducible apply replayLink_kept | split

theorem applyCredits_kept (s : State) (l : LinkSide) (f : Flit) (hk : Kept s₀ s) :
    Kept s₀ (applyCredits s l f) := by
  unfold applyCredits
  repeat' first | with_reducible exact hk | with_reducible apply checkUp_kept | with_reducible apply modLink_kept

theorem hearFlit_kept (s : State) (l : LinkSide) (f : Flit) (is : Flit → Bool) (body : State → State)
    (hbody : ∀ x0, Kept s₀ x0 → Kept s₀ (body x0)) (hk : Kept s₀ s) :
    Kept s₀ (hearFlit s l f is body) := by
  unfold hearFlit
  dsimp only
  repeat' first
    | with_reducible exact hk | with_reducible apply hbody | with_reducible apply discardFlit_kept
    | with_reducible apply applyAck_kept | with_reducible apply applyCredits_kept | split

theorem freeSlotOf_kept (s : State) (l : LinkSide) (ctrl : Bool) (hk : Kept s₀ s) :
    Kept s₀ (freeSlotOf s l ctrl) := by
  unfold freeSlotOf
  repeat' first | with_reducible exact hk | with_reducible apply modLink_kept

theorem hearSeq_kept (s : State) (l : LinkSide) (f : Flit) (is : Flit → Bool) (body : State → State)
    (hbody : ∀ x0, Kept s₀ x0 → Kept s₀ (body x0)) (hk : Kept s₀ s) :
    Kept s₀ (hearSeq s l f is body) := by
  unfold hearSeq
  dsimp only
  repeat' first
    | with_reducible exact hk | with_reducible apply hbody | with_reducible apply discardFlit_kept
    | with_reducible apply applyAck_kept | with_reducible apply applyCredits_kept | with_reducible apply modLink_kept | split

theorem relayFlit_kept (s : State) (l : LinkSide) (f : Flit) (hk : Kept s₀ s) :
    Kept s₀ (relayFlit s l f) := by
  unfold relayFlit
  repeat' first | with_reducible exact hk | with_reducible apply modLink_kept

theorem sendClosing_kept (s : State) (l : LinkSide) (payload : List Byte) (hk : Kept s₀ s) :
    Kept s₀ (sendClosing s l payload) := by
  unfold sendClosing
  repeat' first | with_reducible exact hk | with_reducible apply modLink_kept

theorem marginReport_kept (l : LinkSide) (f : Flit) (s : State) (hk : Kept s₀ s) :
    Kept s₀ (marginReport l f s) := by
  unfold marginReport
  repeat' first
    | with_reducible exact hk | with_reducible assumption | intro _ | with_reducible apply foldl_kept
    | with_reducible apply setCounter_kept

theorem ackTimeout_kept (s : State) (l : LinkSide) (hk : Kept s₀ s) :
    Kept s₀ (ackTimeout s l) := by
  unfold ackTimeout
  dsimp only
  repeat' first | with_reducible exact hk | with_reducible apply replayLink_kept | split

theorem ackReturn_kept (s : State) (l : LinkSide) (hk : Kept s₀ s) :
    Kept s₀ (ackReturn s l) := by
  unfold ackReturn
  dsimp only
  repeat' first | with_reducible exact hk | with_reducible apply modLink_kept | split

theorem marginDue_kept (s : State) (l : LinkSide) (margins : List U16) (hk : Kept s₀ s) :
    Kept s₀ (marginDue s l margins) := by
  unfold marginDue
  dsimp only
  repeat' first | with_reducible exact hk | with_reducible apply modLink_kept | split

theorem txTake_kept (s : State) (l : LinkSide) (hk : Kept s₀ s) :
    Kept s₀ (txTake s l) := by
  unfold txTake
  dsimp only
  repeat' first | with_reducible exact hk | with_reducible apply modLink_kept | with_reducible apply freeSlotOf_kept | split


/-! ## Handoff -/

theorem discardMsg_kept (s : State) (l : LinkSide) (hk : Kept s₀ s) :
    Kept s₀ (discardMsg s l) := by
  unfold discardMsg
  repeat' first | with_reducible exact hk | with_reducible apply count_kept

theorem hearMsg_kept (s : State) (l : LinkSide) (f : Flit) (code : Nat) (body : State → State) (hbody : ∀ x0, Kept s₀ x0 → Kept s₀
    (body x0)) (hk : Kept s₀ s) :
    Kept s₀ (hearMsg s l f code body) := by
  unfold hearMsg
  repeat' first
    | with_reducible exact hk | with_reducible apply hbody | with_reducible assumption | intro _
    | with_reducible apply hearSeq_kept | with_reducible apply freeSlotOf_kept | with_reducible apply discardMsg_kept
    | with_reducible apply relayFlit_kept | split

theorem passFlit_kept (s : State) (l : LinkSide) (f : Flit) (hk : Kept s₀ s) :
    Kept s₀ (passFlit s l f) := by
  unfold passFlit
  repeat' first | with_reducible exact hk | with_reducible apply modLink_kept

theorem passLap_kept (s : State) (f : Flit) (hk : Kept s₀ s) :
    Kept s₀ (passLap s f) := by
  unfold passLap
  repeat' first | with_reducible exact hk | with_reducible apply passFlit_kept

theorem queueData_kept (s : State) (l : LinkSide) (os : List OutFlit) (hk : Kept s₀ s) :
    Kept s₀ (queueData s l os) := by
  unfold queueData
  repeat' first | with_reducible exact hk | with_reducible apply modLink_kept

theorem matchReady_kept (s : State) (slot : Nat) (h : HandoffBody) (recvLen : Nat) (hk : Kept s₀ s) :
    Kept s₀ (matchReady s slot h recvLen) := by
  unfold matchReady
  repeat' first
    | with_reducible exact hk | with_reducible apply sendCtrl_kept | with_reducible apply setHandoff_kept
    | with_reducible apply queueData_kept | with_reducible apply seenLines_kept | with_reducible apply sendClosing_kept
    | split

theorem takeHandoffMsg_kept (s : State) (p : List Byte) (hk : Kept s₀ s) : ∀ t, takeHandoffMsg s p = some t → Kept s₀ t := by
  intro t h
  unfold takeHandoffMsg at h
  dsimp only at h
  split at h
  · obtain ⟨x, -, rfl⟩ := Option.map_eq_some_iff.1 h; exact matchReady_kept _ _ _ _ hk
  · split at h
    · obtain ⟨x, -, rfl⟩ := Option.map_eq_some_iff.1 h; exact retryReady_kept _ (setHandoff_kept _ _ _ hk)
    · split at h
      · obtain ⟨x, -, rfl⟩ := Option.map_eq_some_iff.1 h; exact setHandoff_kept _ _ _ hk
      · cases h

theorem takeAbort_kept (s : State) (fromUp : Bool) (p : List Byte) (hk : Kept s₀ s) :
    ∀ t, takeAbort s fromUp p = some t → Kept s₀ t := by
  intro t h
  unfold takeAbort at h
  dsimp only at h
  obtain ⟨x, -, rfl⟩ := Option.map_eq_some_iff.1 h
  refine retryReady_kept _ (setHandoff_kept _ _ _ ?_)
  split
  · exact hk
  · exact modLink_kept _ _ _ hk

theorem tryHandoffMsg_kept (s : State) (l : LinkSide) (p : List Byte) (hk : Kept s₀ s) :
    ∀ t, tryHandoffMsg s l p = some t → Kept s₀ t := by
  intro t h
  unfold tryHandoffMsg at h
  split at h
  · exact takeAbort_kept _ _ _ hk _ h
  · exact takeHandoffMsg_kept _ _ hk _ h

theorem handoffMsgIn_kept (s : State) (l : LinkSide) (p : List Byte) (hk : Kept s₀ s) : Kept s₀ (handoffMsgIn s l p) := by
  unfold handoffMsgIn
  generalize ho : tryHandoffMsg s l p = o
  cases o with
  | none => exact Kept.leaf hk
  | some t => exact tryHandoffMsg_kept _ _ _ hk _ ho

theorem takeHeld_kept (s : State) (hk : Kept s₀ s) :
    Kept s₀ (takeHeld s) := by
  unfold takeHeld
  repeat' first
    | with_reducible exact hk | with_reducible assumption | intro _ | with_reducible apply foldl_kept
    | with_reducible apply handoffMsgIn_kept | with_reducible apply Kept.leaf

theorem handoffData_kept (s : State) (l : LinkSide) (f : Flit) (hk : Kept s₀ s) :
    Kept s₀ (handoffData s l f) := by
  unfold handoffData
  repeat' first
    | with_reducible exact hk | with_reducible assumption | intro _ | with_reducible apply freeSlotOf_kept
    | with_reducible apply discardMsg_kept | with_reducible apply relayFlit_kept | with_reducible apply setHandoff_kept
    | split | with_reducible apply Kept.set | refine storeWrite_wf ?_ _ _ _

theorem recvDone_kept (s : State) (slot : Nat) (hk : Kept s₀ s) :
    Kept s₀ (recvDone s slot) := by
  unfold recvDone
  repeat' first | with_reducible exact hk | with_reducible apply sendCtrl_kept | with_reducible apply setHandoff_kept | split

theorem storeCopy_wf {c : Store} (h : smWf 0 c.bytes = true) (a b n : Nat) : smWf 0 (storeCopy c a b n).bytes = true :=
  storeWrite_wf h _ _ false

theorem copyHandoff_kept (s : State) (slot : Nat) (h : HandoffBody) (hk : Kept s₀ s) :
    Kept s₀ (copyHandoff s slot h) := by
  unfold copyHandoff
  repeat' first
    | with_reducible exact hk | with_reducible assumption | intro _ | with_reducible apply setHandoff_kept
    | with_reducible apply seenLines_kept | split | with_reducible apply Kept.set | refine storeCopy_wf ?_ _ _ _

theorem handoffGo_kept (s : State) (c ring : Nat) (f : Fetched) (hk : Kept s₀ s) :
    Kept s₀ (handoffGo s c ring f) := by
  unfold handoffGo
  dsimp only
  repeat' first
    | with_reducible exact hk | with_reducible apply admitBody_kept | with_reducible apply setHandoff_kept
    | with_reducible apply copyHandoff_kept | with_reducible apply takeHeld_kept | with_reducible apply trySendReady_kept
    | split

theorem handoffTimeout_kept (s : State) (slot : Nat) (hk : Kept s₀ s) :
    Kept s₀ (handoffTimeout s slot) := by
  unfold handoffTimeout
  dsimp only
  repeat' first | with_reducible exact hk | with_reducible apply faultPass_kept | split


/-! ## Epoch -/

theorem epochGo_kept (p : EpochParams) (s : State) (slot : Nat) (y : List Byte × List (Nat × Nat × U16 × Nat)) (hk : Kept s₀ s) :
    Kept s₀ (epochGo p s slot y) := by
  unfold epochGo
  repeat' first | with_reducible exact hk | with_reducible apply Kept.leaf

theorem endEpoch_kept (s : State) (st : Byte) (hk : Kept s₀ s) :
    Kept s₀ (endEpoch s st) := by
  unfold endEpoch
  repeat' first | with_reducible exact hk | with_reducible apply modPass_kept | split | with_reducible apply Kept.leaf

theorem commitEpoch_kept (s : State) (hk : Kept s₀ s) :
    Kept s₀ (commitEpoch s) := by
  unfold commitEpoch
  repeat' first | with_reducible exact hk | with_reducible apply endEpoch_kept | with_reducible apply Kept.leaf

theorem abortEpoch_kept (s : State) (st : Byte) (hk : Kept s₀ s) :
    Kept s₀ (abortEpoch s st) := by
  unfold abortEpoch
  repeat' first
    | with_reducible exact hk | with_reducible apply faultPass_kept | with_reducible apply endEpoch_kept | split
    | with_reducible apply Kept.leaf

theorem originAbort_kept (s : State) (st : Byte) (hk : Kept s₀ s) :
    Kept s₀ (originAbort s st) := by
  unfold originAbort
  repeat' first | with_reducible exact hk | with_reducible apply abortEpoch_kept | with_reducible apply sendCtrl_kept

theorem startLap_kept (s : State) (k : Lap) (limit : Nat) (hk : Kept s₀ s) :
    Kept s₀ (startLap s k limit) := by
  unfold startLap
  repeat' first | with_reducible exact hk | with_reducible apply Kept.leaf

theorem startVote_kept (s : State) (hk : Kept s₀ s) :
    Kept s₀ (startVote s) := by
  unfold startVote
  repeat' first | with_reducible exact hk | with_reducible apply sendCtrl_kept | with_reducible apply startLap_kept

theorem voteIn_kept (s : State) (f : Flit) (hk : Kept s₀ s) :
    Kept s₀ (voteIn s f) := by
  unfold voteIn
  repeat' first
    | with_reducible exact hk | with_reducible apply sendCtrl_kept | with_reducible apply passLap_kept | split
    | with_reducible apply Kept.leaf

theorem epochDrained_kept (s : State) (hk : Kept s₀ s) :
    Kept s₀ (epochDrained s) := by
  unfold epochDrained
  repeat' first
    | with_reducible exact hk | with_reducible apply startVote_kept | with_reducible apply voteIn_kept | split
    | with_reducible apply Kept.leaf

theorem sendEntries_kept (s : State) (hk : Kept s₀ s) :
    Kept s₀ (sendEntries s) := by
  unfold sendEntries
  dsimp only
  repeat' first
    | with_reducible exact hk | with_reducible apply sendClosing_kept | with_reducible apply queueData_kept
    | with_reducible apply seenLines_kept | with_reducible apply sendCtrl_kept | split

theorem enterHandover_kept (s : State) (failed : Bool) (hk : Kept s₀ s) :
    Kept s₀ (enterHandover s failed) := by
  unfold enterHandover
  repeat' first
    | with_reducible exact hk | with_reducible apply startLap_kept | with_reducible apply sendEntries_kept | split
    | with_reducible apply Kept.leaf

theorem voteReturned_kept (s : State) (p : List Byte) (hk : Kept s₀ s) :
    Kept s₀ (voteReturned s p) := by
  unfold voteReturned
  dsimp only
  repeat' first
    | with_reducible exact hk | with_reducible apply originAbort_kept | with_reducible apply enterHandover_kept
    | with_reducible apply startVote_kept | split

theorem handoverReturned_kept (s : State) (p : List Byte) (hk : Kept s₀ s) :
    Kept s₀ (handoverReturned s p) := by
  unfold handoverReturned
  repeat' first
    | with_reducible exact hk | with_reducible apply originAbort_kept | with_reducible apply sendCtrl_kept
    | with_reducible apply startLap_kept | split

theorem handoverIn_kept (s : State) (f : Flit) (hk : Kept s₀ s) :
    Kept s₀ (handoverIn s f) := by
  unfold handoverIn
  repeat' first
    | with_reducible exact hk | with_reducible apply enterHandover_kept | with_reducible apply passLap_kept | split

theorem noteEpoch_kept (s : State) (p : List Byte) (hk : Kept s₀ s) :
    Kept s₀ (noteEpoch s p) := by
  unfold noteEpoch
  repeat' first | with_reducible exact hk | with_reducible apply Kept.leaf

theorem epochTimeout_kept (s : State) (hk : Kept s₀ s) :
    Kept s₀ (epochTimeout s) := by
  unfold epochTimeout
  repeat' first | with_reducible exact hk | with_reducible apply originAbort_kept | split

theorem ackEntry_kept (s : State) (o : HandoverOpen) (st : Byte) (hk : Kept s₀ s) :
    Kept s₀ (ackEntry s o st) := by
  unfold ackEntry
  repeat' first | with_reducible exact hk | with_reducible apply sendCtrl_kept | with_reducible apply Kept.leaf

theorem handoverOpen_kept (s : State) (p : List Byte) (hk : Kept s₀ s) :
    Kept s₀ (handoverOpen s p) := by
  unfold handoverOpen
  repeat' first | with_reducible exact hk | with_reducible apply Kept.leaf

theorem handoverData_kept (s : State) (l : LinkSide) (f : Flit) (hk : Kept s₀ s) :
    Kept s₀ (handoverData s l f) := by
  unfold handoverData
  repeat' first
    | with_reducible exact hk | with_reducible assumption | intro _ | with_reducible apply relayFlit_kept
    | with_reducible apply freeSlotOf_kept | split | with_reducible apply Kept.set | refine storeWrite_wf ?_ _ _ _

theorem handoverClose_kept (s : State) (p : List Byte) (hk : Kept s₀ s) :
    Kept s₀ (handoverClose s p) := by
  unfold handoverClose
  repeat' first | with_reducible exact hk | with_reducible apply ackEntry_kept | split | with_reducible apply Kept.leaf

theorem handoverDone_kept (s : State) (hk : Kept s₀ s) :
    Kept s₀ (handoverDone s) := by
  unfold handoverDone
  repeat' first | with_reducible exact hk | with_reducible apply ackEntry_kept | split

theorem handoverAcked_kept (s : State) (p : List Byte) (hk : Kept s₀ s) :
    Kept s₀ (handoverAcked s p) := by
  unfold handoverAcked
  repeat' first | with_reducible exact hk | with_reducible apply sendEntries_kept | split | with_reducible apply Kept.leaf


/-! ## Census -/

theorem ringAgain_kept (s : State) (hk : Kept s₀ s) :
    Kept s₀ (ringAgain s) := by
  unfold ringAgain
  repeat' first | with_reducible exact hk | with_reducible apply fresh_kept | with_reducible apply ringLost_kept | split

theorem openCensus_kept (s : State) (id : U32) (absent : Bool) (position : U16) (hk : Kept s₀ s) :
    Kept s₀ (openCensus s id absent position) := by
  unfold openCensus
  repeat' first | with_reducible exact hk | with_reducible apply Kept.leaf

theorem censusStart_kept (s : State) (hk : Kept s₀ s) :
    Kept s₀ (censusStart s) := by
  unfold censusStart
  repeat' first
    | with_reducible exact hk | with_reducible apply openCensus_kept | with_reducible apply ringAgain_kept
    | with_reducible apply sendCtrl_kept | with_reducible apply startLap_kept | split | with_reducible apply Kept.leaf

theorem census1In_kept (s : State) (f : Flit) (hk : Kept s₀ s) :
    Kept s₀ (census1In s f) := by
  unfold census1In
  dsimp only
  repeat' first
    | with_reducible exact hk | with_reducible apply openCensus_kept | with_reducible apply ringAgain_kept
    | with_reducible apply sendCtrl_kept | with_reducible apply passLap_kept | split

theorem census1Back_kept (s : State) (p : List Byte) (hk : Kept s₀ s) :
    Kept s₀ (census1Back s p) := by
  unfold census1Back
  repeat' first
    | with_reducible exact hk | with_reducible apply sendCtrl_kept | with_reducible apply startLap_kept
    | with_reducible apply Kept.leaf

theorem closeCensus_kept (s : State) (n : Nat) (hk : Kept s₀ s) :
    Kept s₀ (closeCensus s n) := by
  unfold closeCensus
  repeat' first | with_reducible exact hk | with_reducible apply reachStep_kept | with_reducible apply Kept.leaf

theorem censusTimeout_kept (s : State) (hk : Kept s₀ s) :
    Kept s₀ (censusTimeout s) := by
  unfold censusTimeout
  repeat' first | with_reducible exact hk | with_reducible apply logWide_kept | split | with_reducible apply Kept.leaf

theorem ringDownIn_kept (s : State) (l : LinkSide) (f : Flit) (hk : Kept s₀ s) :
    Kept s₀ (ringDownIn s l f) := by
  unfold ringDownIn
  repeat' first
    | with_reducible exact hk | with_reducible apply passFlit_kept | with_reducible apply ringLost_kept | split
    | with_reducible apply Kept.leaf


end Sys2Proof.Machine
end

