-- ==== Sys2Proof/Laws/KeptKeeper.lean ====
section
/-! SUPPORT. What is kept (Laws/Kept.lean) by the operations of contexts, registers, bundle issue, debug and Keeper: one
lemma for each, in the form "what was kept before it is kept after it". -/
namespace Sys2Proof.Machine

variable {s₀ : State}

/-! ## Contexts -/

theorem endRing_kept (s : State) (c r : Nat) (hk : Kept s₀ s) :
    Kept s₀ (endRing s c r) := by
  unfold endRing
  dsimp only
  repeat' first | with_reducible exact hk | with_reducible apply cpWriteRaw_kept | with_reducible apply idleRing_kept | split

theorem endContext_kept (s : State) (c : Nat) (hk : Kept s₀ s) :
    Kept s₀ (endContext s c) := by
  unfold endContext
  repeat' first
    | with_reducible exact hk | with_reducible assumption | intro _ | with_reducible apply foldl_kept
    | with_reducible apply dropArea_kept | with_reducible apply endRing_kept

theorem foldl_zero_wf (l : List Nat) {c : Store} (h : smWf 0 c.bytes = true) : smWf 0 (l.foldl storeZeroMib c).bytes = true := by
  induction l generalizing c with
  | nil => exact h
  | cons a r ih => exact ih (storeZeroMib_wf h a)

theorem applyEntry_kept (s : State) (c : Nat) (y : Ctx) (hk : Kept s₀ s) : Kept s₀ (applyEntry s c y) := by
  unfold applyEntry
  dsimp only
  split
  · refine Kept.leaf (s := if (ctxOf s c).isSome = true then endContext s c else s) ?_
    split
    · exact endContext_kept _ _ hk
    · exact hk
  · refine Kept.set ?_ ?_ ?_ ?_ ?_ ?_ hk
    · exact id
    · exact foldl_zero_wf _
    · exact id
    · exact id
    · exact id
    · exact id

theorem commitStatus_kept (s : State) (c : Nat) (busy : Bool) (result : BitVec 3) (hk : Kept s₀ s) :
    Kept s₀ (commitStatus s c busy result) := by
  unfold commitStatus
  repeat' first | with_reducible exact hk | with_reducible apply Kept.leaf

theorem refuseCommit_kept (s : State) (c : Nat) (result : BitVec 3) (hk : Kept s₀ s) :
    Kept s₀ (refuseCommit s c result) := by
  unfold refuseCommit
  repeat' first
    | with_reducible exact hk | with_reducible apply modCtx_kept | with_reducible apply commitStatus_kept
    | with_reducible apply logCtx_kept

theorem commitEntry_kept (s : State) (c : Nat) (hk : Kept s₀ s) :
    Kept s₀ (commitEntry s c) := by
  unfold commitEntry
  dsimp only
  repeat' first
    | with_reducible exact hk | with_reducible apply cpRead_kept | with_reducible apply refuseCommit_kept
    | with_reducible apply applyEntry_kept | with_reducible apply commitStatus_kept | with_reducible apply modCtx_kept
    | split

theorem commitWrite_kept (s : State) (c : Nat) (hk : Kept s₀ s) :
    Kept s₀ (commitWrite s c) := by
  unfold commitWrite
  repeat' first | with_reducible exact hk | with_reducible apply commitEntry_kept | split | with_reducible apply Kept.leaf

theorem commitLater_kept (s : State) (hk : Kept s₀ s) :
    Kept s₀ (commitLater s) := by
  unfold commitLater
  dsimp only
  repeat' first | with_reducible exact hk | with_reducible apply commitEntry_kept | split


/-! ## Registers -/

theorem setAuth_kept (s : State) (c : BitVec 12) (enabled : Bool) (hk : Kept s₀ s) :
    Kept s₀ (setAuth s c enabled) := by
  unfold setAuth
  repeat' first | with_reducible exact hk | split | with_reducible apply Kept.leaf

theorem takeSnap_kept (s : State) (hk : Kept s₀ s) :
    Kept s₀ (takeSnap s) := by
  unfold takeSnap
  repeat' first | with_reducible exact hk | with_reducible apply Kept.leaf

theorem writeDebug_kept (s : State) (off : Nat) (v : U32) (hk : Kept s₀ s) :
    Kept s₀ (writeDebug s off v) := by
  unfold writeDebug
  repeat' first | with_reducible exact hk | with_reducible apply setAuth_kept | split | with_reducible apply Kept.leaf

theorem writeMsg_kept (s : State) (off : Nat) (v : U32) (hk : Kept s₀ s) :
    Kept s₀ (writeMsg s off v) := by
  unfold writeMsg
  repeat' first | with_reducible exact hk | split | with_reducible apply Kept.leaf

theorem writeWord_kept (s : State) (by_ : Requester) (off : Nat) (v : U32) (hk : Kept s₀ s) : Kept s₀ (writeWord s by_ off v) := by
  unfold writeWord
  dsimp only
  repeat' first
    | with_reducible exact hk | with_reducible apply strand_kept | with_reducible apply writeMsg_kept
    | with_reducible apply writeDebug_kept | with_reducible apply takeSnap_kept | split | with_reducible apply Kept.leaf

theorem writeLong_kept (s : State) (by_ : Requester) (off : Nat) (v : U64) (hk : Kept s₀ s) :
    Kept s₀ (writeLong s by_ off v) := by
  unfold writeLong
  repeat' first | with_reducible exact hk | split | with_reducible apply Kept.leaf

theorem hostAnswer_edge (s : State) (by_ : Requester) (hk : EdgeKept s₀ s) :
    EdgeKept s₀ (hostAnswer s by_) := by
  unfold hostAnswer
  repeat' first | with_reducible exact hk | with_reducible apply okWrite_edge | split

theorem registerWrite_kept (s : State) (by_ : Requester) (off : Nat) (wide : Bool) (v : U64) (hk : Kept s₀ s) :
    Kept s₀ (registerWrite s by_ off wide v) := by
  unfold registerWrite
  repeat' first
    | with_reducible exact hk | with_reducible assumption | intro _ | with_reducible apply writeWord_kept
    | with_reducible apply writeLong_kept | split

theorem completerTake_edge (s : State) (req : EppRequest) (hk : EdgeKept s₀ s) : EdgeKept s₀ (completerTake s req) := by
  unfold completerTake
  split
  · exact hk
  · split
    · exact .leaf hk
    · split
      · exact .leaf hk
      · exact hk

/-! ## Issue -/

theorem fenceDrop_kept (s : State) (core : Nat) (g : Group) (hk : Kept s₀ s) :
    Kept s₀ (fenceDrop s core g) := by
  unfold fenceDrop
  repeat' first | with_reducible exact hk | with_reducible apply emptyL0_kept | split

theorem contractFault_kept (s : State) (core : Nat) (g : Group) (f : Fail) (hk : Kept s₀ s) :
    Kept s₀ (contractFault s core g f) := by
  unfold contractFault
  repeat' first | with_reducible exact hk | with_reducible apply faultPass_kept | with_reducible apply count_kept | split

theorem passCycles_kept (s : State) (core : Nat) (lane : Option Nat) (n : Nat) (hk : Kept s₀ s) :
    Kept s₀ (passCycles s core lane n) := by
  unfold passCycles
  repeat' first | with_reducible exact hk | with_reducible apply modCore_kept

theorem timeFaults_kept (s : State) (core : Nat) (hk : Kept s₀ s) :
    Kept s₀ (timeFaults s core) := by
  unfold timeFaults
  repeat' first
    | with_reducible exact hk | with_reducible assumption | intro _ | with_reducible apply foldl_kept
    | with_reducible apply contractFault_kept

theorem localPoison_kept (s : State) (g : Group) (a : Nat) (hk : Kept s₀ s) :
    Kept s₀ (localPoison s g a) := by
  unfold localPoison
  repeat' first | with_reducible exact hk | with_reducible apply faultPass_kept | split

theorem bundleStop_kept (s : State) (g : Group) (h : Herd) (b : Bundle) (eccReg eccLocal : Bool) (hk : Kept s₀ s) :
    ∀ t, bundleStop s g h b eccReg eccLocal = some t → Kept s₀ t := by
  intro t ht
  unfold bundleStop at ht
  split at ht
  · obtain ⟨x, -, rfl⟩ := Option.map_eq_some_iff.1 ht; exact faultPass_kept _ _ _ _ hk
  · split at ht
    · cases ht; exact localPoison_kept _ _ _ hk
    · dsimp only at ht
      generalize (if eccReg = true then _ else none : Option VSlot) = r at ht
      generalize (if eccLocal = true then _ else none : Option MSlot) = m at ht
      cases r with
      | some v => cases ht; exact localPoison_kept _ _ _ hk
      | none => cases m with
        | some m => cases ht; exact localPoison_kept _ _ _ hk
        | none => cases ht

theorem arrive_kept (s : State) (core : Nat) (g : Group) (c : CSlot) (hk : Kept s₀ s) :
    Kept s₀ (arrive s core g c) := by
  unfold arrive
  repeat' first
    | with_reducible exact hk | with_reducible apply openBarH_kept | with_reducible apply openBarF_kept
    | with_reducible apply endIfDone_kept | split

theorem startTag_kept (s : State) (core slot : Nat) (tag : BitVec 6) (n : Nat) (op : AsyncOp) (spans : Spans) (hk : Kept s₀ s) :
    Kept s₀ (startTag s core slot tag n op spans) := by
  unfold startTag
  repeat' first | with_reducible exact hk | with_reducible apply modGroup_kept | split

theorem kernelWrite_kept (s : State) (a : Nat) (r : Req) (hk : Kept s₀ s) :
    Kept s₀ (kernelWrite s a r) := by
  unfold kernelWrite
  repeat' first | with_reducible exact hk | with_reducible apply modPass_kept | with_reducible apply formReq_kept

theorem openLoad_kept (s : State) (core : Nat) (g : Group) (hk : Kept s₀ s) :
    Kept s₀ (openLoad s core g) := by
  unfold openLoad
  repeat' first | with_reducible exact hk | with_reducible apply openStream_kept

theorem foldl2_kept {α β : Type} {f : β × State → α → β × State} (l : List α)
    (hf : ∀ x a, Kept s₀ x.2 → Kept s₀ (f x a).2) (x : β × State) (h : Kept s₀ x.2) : Kept s₀ (l.foldl f x).2 := by
  induction l generalizing x with
  | nil => exact h
  | cons a r ih => exact ih _ (hf x a h)

theorem loadThread_kept (core : Nat) (g : Group) (m : MSlot) (x : Nat × State) (t : Nat) (hk : Kept s₀ x.2) :
    Kept s₀ (loadThread core g m x t).2 := by
  have hf := fresh_kept _ hk
  unfold loadThread
  dsimp only
  split
  · split
    · exact modGroup_kept _ _ _ _ hf
    · exact foldl_kept _ (fun s a h => formReq_kept _ _ _ h) hf
  · exact foldl_kept _ (fun s a h => formReq_kept _ _ _ h) hk

theorem storeThread_kept (core : Nat) (g : Group) (m : MSlot) (x : Nat × State) (t : Nat) (hk : Kept s₀ x.2) :
    Kept s₀ (storeThread core g m x t).2 :=
  foldl_kept _ (fun _ _ h => kernelWrite_kept _ _ _ h) (noInstall_kept _ _ _ (modCore_kept _ _ _ hk))

theorem loadGlobal_kept (s : State) (core : Nat) (g : Group) (m : MSlot) (ts : List Nat) (hk : Kept s₀ s) :
    Kept s₀ (loadGlobal s core g m ts) :=
  startTag_kept _ _ _ _ _ _ _ (foldl2_kept _ (fun x a h => loadThread_kept _ _ _ x a h) _
    (modGroup_kept _ _ _ _ (openLoad_kept _ _ _ hk)))

theorem storeGlobal_kept (s : State) (core : Nat) (g : Group) (m : MSlot) (ts : List Nat) (hk : Kept s₀ s) :
    Kept s₀ (storeGlobal s core g m ts) :=
  startTag_kept _ _ _ _ _ _ _ (foldl2_kept _ (fun x a h => storeThread_kept _ _ _ x a h) _ hk)

theorem atomicWord_kept (core : Nat) (g : Group) (m : MSlot) (ts : List Nat) (ret : Bool) (s : State) (a : Nat) (hk : Kept s₀ s) :
    Kept s₀ (atomicWord core g m ts ret s a) := by
  unfold atomicWord
  repeat' first
    | with_reducible exact hk | with_reducible apply modCore_kept | with_reducible apply kernelWrite_kept
    | with_reducible apply noInstall_kept

theorem atomicGlobal_kept (s : State) (core : Nat) (g : Group) (m : MSlot) (ts : List Nat) (ret : Bool) (hk : Kept s₀ s) :
    Kept s₀ (atomicGlobal s core g m ts ret) := by
  unfold atomicGlobal
  repeat' first
    | with_reducible exact hk | with_reducible apply foldl_kept | with_reducible apply atomicWord_kept
    | with_reducible apply openLoad_kept | with_reducible apply startTag_kept

theorem issueM_kept (s : State) (core : Nat) (g : Group) (m : MSlot) (hk : Kept s₀ s) :
    Kept s₀ (issueM s core g m) := by
  unfold issueM
  dsimp only
  repeat' first
    | with_reducible exact hk | with_reducible apply modGroup_kept | with_reducible apply startTag_kept
    | with_reducible apply loadGlobal_kept | with_reducible apply storeGlobal_kept | with_reducible apply atomicGlobal_kept
    | split

theorem fetchMemory_kept (s : State) (core : Nat) (g : Group) (x : XSlot) (hk : Kept s₀ s) :
    Kept s₀ (fetchMemory s core g x) := by
  unfold fetchMemory
  repeat' first
    | with_reducible exact hk | with_reducible assumption | intro _ | with_reducible apply foldl_kept
    | with_reducible apply openStream_kept | with_reducible apply startTag_kept | with_reducible apply formReq_kept

theorem issueX_kept (s : State) (core : Nat) (g : Group) (x : XSlot) (hk : Kept s₀ s) :
    Kept s₀ (issueX s core g x) := by
  unfold issueX
  dsimp only
  repeat' first
    | with_reducible exact hk | with_reducible apply startTag_kept | with_reducible apply fetchMemory_kept | split

theorem noteStart_kept (s : State) (core : Nat) (g : Group) (hk : Kept s₀ s) :
    Kept s₀ (noteStart s core g) := by
  unfold noteStart
  repeat' first | with_reducible exact hk | with_reducible apply modCore_kept | split | with_reducible apply Kept.leaf

theorem issueB_kept (s : State) (core : Nat) (g : Group) (h : Herd) (b : BSlot) (hk : Kept s₀ s) :
    Kept s₀ (issueB s core g h b) := by
  unfold issueB
  repeat' first | with_reducible exact hk | with_reducible apply modCore_kept | with_reducible apply modPass_kept | split

theorem issueBundle_kept (s : State) (core : Nat) (g0 : Group) (h0 : Herd) (b : Bundle) (eccReg eccLocal : Bool) (hk : Kept s₀ s) :
    Kept s₀ (issueBundle s core g0 h0 b eccReg eccLocal) := by
  unfold issueBundle
  dsimp only
  split
  · exact contractFault_kept _ _ _ _ hk
  · split
    · exact bundleStop_kept _ _ _ _ _ _ hk _ (by assumption)
    · refine timeFaults_kept _ _ ?_
      have h1 := spoilStores_kept _ core (dueGroup (clearPending g0)).slot (dueWrites (clearPending g0)) (modGroup_kept _ core
        (dueGroup (clearPending g0)).slot
        (fun x => { issueGroup (dueGroup (clearPending g0)) ((herdOf (coreOf (mixHerd (landLocal (fenceDrop s core g0) core
          (clearPending g0)) core (dueGroup (clearPending g0)).pass (dueGroup (clearPending g0)).herd none
          (localReads (dueGroup (clearPending g0)) b) []) core) (dueGroup (clearPending g0)).pass (dueGroup
            (clearPending g0)).herd).getD
          (dueHerd (clearPending g0) h0)) b with tags := x.tags })
        (noteStart_kept _ core g0 (mixHerd_kept _ core (dueGroup (clearPending g0)).pass (dueGroup (clearPending g0)).herd none
          (localReads (dueGroup (clearPending g0)) b) [] (landLocal_kept _ core (clearPending g0) (fenceDrop_kept _ core g0 hk)))))
      cases hb : b.b <;> cases hm : b.m <;> cases hx : b.x <;> cases hc : b.c <;> repeat' first
        | (with_reducible apply arrive_kept)
        | (with_reducible apply passCycles_kept)
        | (with_reducible apply issueX_kept)
        | (with_reducible apply issueM_kept)
        | (with_reducible apply issueB_kept)
        | exact h1

theorem awaitBound_kept (s : State) (core : Nat) (hk : Kept s₀ s) :
    Kept s₀ (awaitBound s core) := by
  unfold awaitBound
  dsimp only
  repeat' first
    | with_reducible exact hk | with_reducible apply timeFaults_kept | with_reducible apply passCycles_kept | split

theorem issueIf_kept (pick : Option Bundle → Bool) (s : State) (core slot : Nat) (eccReg eccLocal : Bool) (hk : Kept s₀ s) :
    Kept s₀ (issueIf pick s core slot eccReg eccLocal) := by
  unfold issueIf
  dsimp only
  repeat' first
    | with_reducible exact hk | with_reducible apply awaitBound_kept | with_reducible apply issueBundle_kept
    | with_reducible apply contractFault_kept | with_reducible apply noteStart_kept | split


/-! ## Debug -/

theorem dbgAnswer_kept (s : State) (refused : Bool) (hk : Kept s₀ s) :
    Kept s₀ (dbgAnswer s refused) := by
  unfold dbgAnswer
  repeat' first | with_reducible exact hk | with_reducible apply Kept.leaf

theorem dbgTarget_kept (s : State) (busy : Bool) (f : Group → Group) (hk : Kept s₀ s) :
    Kept s₀ (dbgTarget s busy f) := by
  unfold dbgTarget
  repeat' first | with_reducible exact hk | with_reducible apply modGroup_kept | with_reducible apply Kept.leaf

theorem dbgOp_edge (s : State) (by_ : Requester) (bad : Group → Bool) (body : State → Group → State)
    (hf : ∀ s g, EdgeKept s₀ s → EdgeKept s₀ (body s g)) (hk : EdgeKept s₀ s) : EdgeKept s₀ (dbgOp s by_ bad body) := by
  have h0 := hostAnswer_edge s by_ hk
  have h1 := fun b => h0.trans (dbgAnswer_kept _ b (.refl _)).toEdgeKept
  unfold dbgOp
  dsimp only
  split
  · exact h0
  · split
    · split
      · exact h1 _
      · exact hf _ _ (h1 _)
    · exact h1 _

theorem debugHalt_edge (s : State) (by_ : Requester) (hk : EdgeKept s₀ s) :
    EdgeKept s₀ (debugHalt s by_) := by
  unfold debugHalt
  repeat' first
    | with_reducible exact hk | with_reducible assumption | intro _ | with_reducible apply dbgOp_edge
    | refine EdgeKept.trans ?_ (dbgTarget_kept (hk := .refl _) ..).toEdgeKept | split

theorem haltTaken_kept (s : State) (hk : Kept s₀ s) :
    Kept s₀ (haltTaken s) := by
  unfold haltTaken
  repeat' first | with_reducible exact hk | with_reducible apply dbgTarget_kept | split


/-! ## Keeper -/

theorem kmBoot_edge (s : State) (image : U64) (hk : EdgeKept s₀ s) :
    EdgeKept s₀ (kmBoot s image) := by
  unfold kmBoot
  repeat' first
    | with_reducible exact hk | with_reducible apply hostAnswer_edge
    | refine EdgeKept.trans ?_ (reachStep_kept (hk := .refl _) ..).toEdgeKept | split | with_reducible apply EdgeKept.leaf

theorem failBoot_mem (s : State) (code : Byte) (hk : MemKept s₀ s) : MemKept s₀ (failBoot s code) :=
  MemKept.trans (.leaf hk) (logWide_kept _ _ _ _ (.refl _)).toMemKept

theorem takePartition_kept (s : State) (hk : Kept s₀ s) :
    Kept s₀ (takePartition s) := by
  unfold takePartition
  repeat' first | with_reducible exact hk | with_reducible apply logWide_kept | split | with_reducible apply Kept.leaf

theorem firmwareVerified_mem (s : State) (v : CryptoVerdict) (hk : MemKept s₀ s) : MemKept s₀ (firmwareVerified s v) := by
  unfold firmwareVerified
  dsimp only
  split
  · exact hk
  · have h1 := hk.trans (cpRead_kept s 0 3 s.bring.bootAddr.toNat (max 128 (imageTotal s)) (.refl s)).toMemKept
    generalize cpRead _ _ _ _ _ = a at h1 ⊢
    split
    · exact failBoot_mem _ _ h1
    · refine MemKept.trans (MemKept.leaf h1) (takePartition_kept _ (logWide_kept _ _ _ _ (reachStep_kept _ _ (.refl _)))).toMemKept

theorem bootTimeout_mem (s : State) (hk : MemKept s₀ s) :
    MemKept s₀ (bootTimeout s) := by
  unfold bootTimeout
  repeat' first | with_reducible exact hk | with_reducible apply failBoot_mem | split

theorem droverReadyTimeout_mem (s : State) (hk : MemKept s₀ s) :
    MemKept s₀ (droverReadyTimeout s) := by
  unfold droverReadyTimeout
  repeat' first | with_reducible exact hk | with_reducible apply failBoot_mem | split

theorem lineFailed_kept (s : State) (bank : Byte) (line : BitVec 14) (bitNo : BitVec 7) (hk : Kept s₀ s) :
    Kept s₀ (lineFailed s bank line bitNo) := by
  unfold lineFailed
  repeat' first | with_reducible exact hk | with_reducible apply logWide_kept | with_reducible apply Kept.leaf

theorem quadrantRelease_mem (s : State) (lineFail : Option (Byte × BitVec 14 × BitVec 7)) (hk : MemKept s₀ s) :
    MemKept s₀ (quadrantRelease s lineFail) := by
  unfold quadrantRelease
  split
  · exact hk
  · have h1 : MemKept s₀ { s with store := ⟨[], [], s.store.scrub, []⟩ } := .set id (fun _ => rfl) id id id id hk
    generalize ({ s with store := _ } : State) = a at h1 ⊢
    dsimp only
    split
    · exact h1.trans (lineFailed_kept _ _ _ _ (.refl _)).toMemKept
    · have h2 : MemKept s₀ (reachStep { a with bring := { a.bring with initDone := true, released := true } } 5) :=
        MemKept.trans (.leaf h1) (reachStep_kept _ _ (.refl _)).toMemKept
      generalize reachStep _ _ = b at h2 ⊢
      have h3 : MemKept s₀ (if b.bring.fatal = true then b else { b with links := b.links.map (linkReleased b.time) }) := by
        split
        · exact h2
        · exact .set id id id (fun h => by simp [h]) id id h2
      generalize (if b.bring.fatal = true then b else _) = c at h3 ⊢
      split
      · exact h3
      · exact startDip_mem _ h3

theorem kmStart_kept (s : State) (code : U16) (args : List U64) (hk : Kept s₀ s) :
    Kept s₀ (kmStart s code args) := by
  unfold kmStart
  repeat' first | with_reducible exact hk | with_reducible apply Kept.leaf

theorem kmEnd_kept (s : State) (result : Byte) (hk : Kept s₀ s) :
    Kept s₀ (kmEnd s result) := by
  unfold kmEnd
  repeat' first | with_reducible exact hk | with_reducible apply Kept.leaf

theorem kmServe_edge (s : State) (code : U16) (args : List U64) (body : State → State) (hbody : ∀ x0, EdgeKept s₀ x0 → EdgeKept s₀
    (body x0)) (hk : EdgeKept s₀ s) :
    EdgeKept s₀ (kmServe s code args body) := by
  unfold kmServe
  dsimp only
  repeat' first
    | with_reducible exact hk | with_reducible apply hbody | with_reducible apply hostAnswer_edge
    | refine EdgeKept.trans ?_ (kmStart_kept (hk := .refl _) ..).toEdgeKept
    | refine EdgeKept.trans ?_ (kmEnd_kept (hk := .refl _) ..).toEdgeKept | split

theorem entryRequest_kept (s : State) (c : U64) (write : State → State) (hwrite : ∀ x0, Kept s₀ x0 → Kept s₀ (write x0))
    (hk : Kept s₀ s) :
    Kept s₀ (entryRequest s c write) := by
  unfold entryRequest
  repeat' first
    | with_reducible exact hk | with_reducible apply hwrite | with_reducible apply kmEnd_kept
    | with_reducible apply commitWrite_kept | split

theorem copyEntry_kept (c entry : U64) (s : State) (hk : Kept s₀ s) :
    Kept s₀ (copyEntry c entry s) := by
  unfold copyEntry
  repeat' first
    | with_reducible exact hk | with_reducible assumption | intro _ | with_reducible apply cpRead_kept
    | with_reducible apply Kept.set | refine chipWrite_wf ?_ _ _ _ _

theorem clearValid_kept (c : U64) (s : State) (hk : Kept s₀ s) :
    Kept s₀ (clearValid c s) := by
  unfold clearValid
  repeat' first
    | with_reducible exact hk | with_reducible assumption | intro _ | with_reducible apply Kept.set | refine smSet_wf ?_ _ _

theorem msgSet_kept (s : State) (n addr data wire : U64) (hk : Kept s₀ s) :
    Kept s₀ (msgSet s n addr data wire) := by
  unfold msgSet
  repeat' first
    | with_reducible exact hk | with_reducible apply kmEnd_kept | with_reducible apply writeLong_kept
    | with_reducible apply writeWord_kept | split

theorem debugAuth_kept (s : State) (c enable : U64) (hk : Kept s₀ s) :
    Kept s₀ (debugAuth s c enable) := by
  unfold debugAuth
  repeat' first
    | with_reducible exact hk | with_reducible apply kmEnd_kept | with_reducible apply logCtx_kept
    | with_reducible apply setAuth_kept | split

theorem logDrover_kept (s : State) (code : Byte) (addr : U64) (hk : Kept s₀ s) :
    Kept s₀ (logDrover s code addr) := by
  unfold logDrover
  repeat' first | with_reducible exact hk | with_reducible apply logWide_kept

theorem stopDrover_mem (s : State) (code : Byte) (addr : U64) (hk : MemKept s₀ s) : MemKept s₀ (stopDrover s code addr) := by
  unfold stopDrover
  split
  · exact MemKept.trans (.leaf hk) (logDrover_kept _ _ _ (.refl _)).toMemKept
  · exact hk

theorem droverNote_kept (s : State) (code : Byte) (payload : List Byte) (hk : Kept s₀ s) :
    Kept s₀ (droverNote s code payload) := by
  unfold droverNote
  repeat' first | with_reducible exact hk | split | with_reducible apply Kept.leaf

theorem strikeLines_bytes (st : Store) (us : List (Nat × Bool)) : (strikeLines st us).bytes = st.bytes := by
  unfold strikeLines
  generalize us.filter _ = l
  induction l generalizing st with
  | nil => rfl
  | cons a r ih => exact ih (strikeLine st a)

theorem scrubLine_kept (s : State) (upsets : List (Nat × Bool)) (hk : Kept s₀ s) : Kept s₀ (scrubLine s upsets) := by
  unfold scrubLine
  dsimp only
  split
  · exact hk
  · have h1 : Kept s₀ { s with store := strikeLines s.store upsets } :=
      .set id (fun h => by rw [strikeLines_bytes]; exact h) id id id id hk
    have h2 := seenLines_kept _ (128 * s.store.scrub) 128 h1
    generalize seenLines _ _ _ = a at h2 ⊢
    have h3 : Kept s₀ { a with store := { a.store with scrub := (s.store.scrub + 1) % storeLines } } := .set id id id id id id h2
    split
    · exact count_kept _ _ _ h3
    · exact h3

theorem engineFatal_kept (s : State) (code : Byte) (addr : U64) (hk : Kept s₀ s) :
    Kept s₀ (engineFatal s code addr) := by
  unfold engineFatal
  repeat' first
    | with_reducible exact hk | with_reducible assumption | intro _ | with_reducible apply foldl_kept
    | with_reducible apply faultContext_kept | with_reducible apply logWide_kept | split | with_reducible apply Kept.set
    | (simp_all; done)


end Sys2Proof.Machine
end

