-- ==== Sys2Proof/Laws/KeptEngines.lean ====
section
/-! SUPPORT. What is kept (Laws/Kept.lean) by the operations of the engines that scatter, render, trace and transfer, tags,
stock groups and the test access: one lemma for each, in the form "what was kept before it is kept after it". -/
namespace Sys2Proof.Machine

variable {s₀ : State}

/-! ## Scatter -/

theorem scatterGo_kept (s : State) (slot : Nat) (x : ScatterParams × ScatterOut) (hk : Kept s₀ s) :
    Kept s₀ (scatterGo s slot x) := by
  unfold scatterGo
  dsimp only
  repeat' first
    | with_reducible exact hk | with_reducible apply modPass_kept | with_reducible apply scratchUse_kept
    | with_reducible apply passWrites_kept | with_reducible apply countCtx_kept | split


/-! ## Render -/

theorem renderGo_kept (bwd : Bool) (f : Fetched) (s : State) (slot : Nat) (x : Option Image × List U64) (hk : Kept s₀ s) :
    Kept s₀ (renderGo bwd f s slot x) := by
  unfold renderGo
  dsimp only
  repeat' first
    | with_reducible exact hk | with_reducible apply modPass_kept | with_reducible apply scratchUse_kept
    | with_reducible apply passWrite_kept | split

theorem setRender_kept (s : State) (slot : Nat) (b : RenderBody) (hk : Kept s₀ s) :
    Kept s₀ (setRender s slot b) := by
  unfold setRender
  repeat' first | with_reducible exact hk | with_reducible apply modPass_kept

theorem askTiles_kept (s : State) (p : Pass) (b : RenderBody) (i : Image) (ts : List Nat) (hk : Kept s₀ s) :
    Kept s₀ (askTiles s p b i ts) := by
  unfold askTiles
  repeat' first
    | with_reducible exact hk | with_reducible assumption | intro _ | with_reducible apply onPlan_kept
    | with_reducible apply setRender_kept

theorem composeTiles_kept (s : State) (p : Pass) (b : RenderBody) (ts : List Nat) (k : State → Nat → TileOut → State)
    (hf : ∀ s t o, Kept s₀ s → Kept s₀ (k s t o)) (hk : Kept s₀ s) : Kept s₀ (composeTiles s p b ts k) := by
  refine onPlan_kept _ _ _ _ (fun s xs h => foldl_kept _ (fun s x h => ?_) h) hk
  split
  · exact hf _ _ _ (setRender_kept _ _ _ h)
  · exact h

theorem reportMisses_kept (s : State) (p : Pass) (b : RenderBody) (hk : Kept s₀ s) :
    Kept s₀ (reportMisses s p b) := by
  unfold reportMisses
  repeat' first | with_reducible exact hk | with_reducible apply passWrites_kept | with_reducible apply modPass_kept | split

theorem dropSaved_kept (s : State) (p : Pass) (b : RenderBody) (hk : Kept s₀ s) :
    Kept s₀ (dropSaved s p b) := by
  unfold dropSaved
  repeat' first | with_reducible exact hk | with_reducible apply scratchUse_kept | split

theorem finishForward_kept (s : State) (p : Pass) (b : RenderBody) (hk : Kept s₀ s) :
    Kept s₀ (finishForward s p b) := by
  unfold finishForward
  repeat' first
    | with_reducible exact hk | with_reducible apply dropSaved_kept | with_reducible apply passWrite_kept
    | with_reducible apply modPass_kept | with_reducible apply reportMisses_kept | split

theorem finishReverse_kept (s : State) (p : Pass) (b : RenderBody) (hk : Kept s₀ s) :
    Kept s₀ (finishReverse s p b) := by
  unfold finishReverse
  repeat' first
    | with_reducible exact hk | with_reducible assumption | intro _ | with_reducible apply onPlan_kept
    | with_reducible apply passWrites_kept | with_reducible apply scratchUse_kept | with_reducible apply dropSaved_kept
    | with_reducible apply countCtx_kept | with_reducible apply modPass_kept | with_reducible apply reportMisses_kept | split

theorem reduceTiles_kept (slot n : Nat) (s : State) (hk : Kept s₀ s) : Kept s₀ (reduceTiles slot n s) := by
  induction n generalizing s with
  | zero => exact hk
  | succ n ih =>
    unfold reduceTiles
    split
    · exact hk
    · dsimp only
      split
      · exact hk
      · exact ih _ (onPlan_kept _ _ _ _ (fun s x h => passWrites_kept _ _ _ (setRender_kept _ _ _ h)) hk)

theorem settleRender_kept (s : State) (slot : Nat) (hk : Kept s₀ s) : Kept s₀ (settleRender s slot) := by
  unfold settleRender
  split
  · exact hk
  · rename_i b _
    dsimp only
    have h1 : Kept s₀ (if b.par.bwd = true then reduceTiles slot (tileCount b.par) s else s) := by
      split
      · exact reduceTiles_kept _ _ _ hk
      · exact hk
    generalize (if b.par.bwd = true then reduceTiles slot (tileCount b.par) s else s) = a at h1 ⊢
    repeat' first
      | (with_reducible exact h1)
      | (with_reducible apply finishForward_kept)
      | (with_reducible apply finishReverse_kept)
      | split

theorem tileDone_kept (slot : Nat) (s : State) (t : Nat) (o : TileOut) (hk : Kept s₀ s) :
    Kept s₀ (tileDone slot s t o) := by
  unfold tileDone
  dsimp only
  repeat' first
    | with_reducible exact hk | with_reducible assumption | intro _ | with_reducible apply settleRender_kept
    | with_reducible apply setRender_kept | with_reducible apply onPlan_kept | with_reducible apply countCtx_kept
    | with_reducible apply passWrites_kept | split

theorem countCulled_kept (s : State) (p : Pass) (b : RenderBody) (n : Nat) (hk : Kept s₀ s) :
    Kept s₀ (countCulled s p b n) := by
  unfold countCulled
  repeat' first
    | with_reducible exact hk | with_reducible apply setRender_kept | with_reducible apply count_kept
    | with_reducible apply modPass_kept | split

theorem directCull_kept (s : State) (slot : Nat) (hk : Kept s₀ s) :
    Kept s₀ (directCull s slot) := by
  unfold directCull
  repeat' first
    | with_reducible exact hk | with_reducible assumption | intro _ | with_reducible apply onPlan_kept
    | with_reducible apply countCulled_kept | split

theorem runTiles_kept (s : State) (slot : Nat) (w : Bool × List Nat) (hk : Kept s₀ s) :
    Kept s₀ (runTiles s slot w) := by
  unfold runTiles
  repeat' first
    | with_reducible exact hk | with_reducible apply askTiles_kept | with_reducible apply composeTiles_kept
    | with_reducible apply tileDone_kept | split

theorem tileStart_kept (s : State) (u : Nat) (ecc : Ecc) (hk : Kept s₀ s) :
    Kept s₀ (tileStart s u ecc) := by
  unfold tileStart
  dsimp only
  repeat' first
    | with_reducible exact hk | with_reducible assumption | intro _ | with_reducible apply foldl_kept
    | with_reducible apply settleRender_kept | with_reducible apply faultPass_kept | with_reducible apply runTiles_kept
    | with_reducible apply directCull_kept | with_reducible apply countSingle_kept | split

theorem saveTile_kept (slot : Nat) (s : State) (t : Nat) (o : TileOut) (hk : Kept s₀ s) :
    Kept s₀ (saveTile slot s t o) := by
  unfold saveTile
  repeat' first | with_reducible exact hk | with_reducible apply passWrite_kept | with_reducible apply setRender_kept | split

theorem overflowTile_kept (slot : Nat) (s : State) (t : Nat) (hk : Kept s₀ s) :
    Kept s₀ (overflowTile slot s t) := by
  unfold overflowTile
  repeat' first
    | with_reducible exact hk | with_reducible apply composeTiles_kept | with_reducible apply saveTile_kept
    | with_reducible apply askTiles_kept | split

theorem overflow_kept (s : State) (slot : Nat) (hk : Kept s₀ s) :
    Kept s₀ (overflow s slot) := by
  unfold overflow
  dsimp only
  repeat' first
    | with_reducible exact hk | with_reducible apply foldl_kept | with_reducible apply setRender_kept
    | with_reducible apply overflowTile_kept | split

theorem binTiles_kept (slot pos : Nat) (ts : List Nat) (n : Nat) (s : State) (hk : Kept s₀ s) : Kept s₀
    (binTiles slot pos ts n s) := by
  induction n generalizing s with
  | zero => exact hk
  | succ n ih =>
    unfold binTiles
    dsimp only
    repeat' first
      | (with_reducible exact hk)
      | (with_reducible apply setRender_kept)
      | (with_reducible apply overflow_kept)
      | (with_reducible apply ih)
      | split

theorem primitiveBin_kept (s : State) (slot : Nat) (hk : Kept s₀ s) : Kept s₀ (primitiveBin s slot) := by
  unfold primitiveBin
  split
  · exact hk
  · split
    · exact hk
    · refine onPlan_kept _ _ _ _ (fun s r h => ?_) hk
      split
      · exact countCulled_kept _ _ _ _ h
      · exact binTiles_kept _ _ _ _ _ h

/-! ## Trace -/

theorem finishTrace_kept (s : State) (slot : Nat) (hk : Kept s₀ s) :
    Kept s₀ (finishTrace s slot) := by
  unfold finishTrace
  dsimp only
  repeat' first | with_reducible exact hk | with_reducible apply passWrite_kept | with_reducible apply modPass_kept | split

theorem traceGo_kept (f : Fetched) (s : State) (slot : Nat) (h : TreeRoot) (hk : Kept s₀ s) :
    Kept s₀ (traceGo f s slot h) := by
  unfold traceGo
  repeat' first | with_reducible exact hk | with_reducible apply modPass_kept | with_reducible apply finishTrace_kept

theorem admitRay_kept (p : Pass) (b : TraceBody) (gen : U16) (s : State) (x : Nat × List U32) (hk : Kept s₀ s) :
    Kept s₀ (admitRay p b gen s x) := by
  unfold admitRay
  repeat' first | with_reducible exact hk | with_reducible apply retire_kept | with_reducible apply addItem_kept | split

theorem placeRay_kept (s : State) (slot : Nat) (b : TraceBody) (r : Retired) (hk : Kept s₀ s) :
    Kept s₀ (placeRay s slot b r) := by
  unfold placeRay
  dsimp only
  repeat' first
    | with_reducible exact hk | with_reducible apply passWrites_kept | with_reducible apply passWrite_kept
    | with_reducible apply finishTrace_kept | with_reducible apply modPass_kept | split


/-! ## Tags -/

theorem finishMma_kept (s : State) (core : Nat) (g : Group) (h : Herd) (t : TagOp) (a b c : Nat) (w : U64) (hk : Kept s₀ s) :
    Kept s₀ (finishMma s core g h t a b c w) := by
  unfold finishMma
  dsimp only
  repeat' first
    | with_reducible exact hk | with_reducible apply localPoison_kept | with_reducible apply mixHerd_kept
    | with_reducible apply modCore_kept | split

theorem storeRow_kept (s : State) (core : Nat) (g : Group) (tag : Nat) (r : Nat × Nat × Nat) (hk : Kept s₀ s) :
    Kept s₀ (storeRow s core g tag r) := by
  unfold storeRow
  repeat' first
    | with_reducible exact hk | with_reducible apply modCore_kept | with_reducible apply seenLines_kept
    | with_reducible apply mixHerd_kept

theorem markRows_kept (s : State) (core : Nat) (g : Group) (rows : List (Nat × Nat × Nat)) (hk : Kept s₀ s) :
    Kept s₀ (markRows s core g rows) := by
  unfold markRows
  repeat' first | with_reducible exact hk | with_reducible apply modCore_kept

theorem finishLoadF_kept (s : State) (core : Nat) (g : Group) (h : Herd) (reg n : Nat) (ths : List (Nat × Nat × Nat))
    (hk : Kept s₀ s) :
    Kept s₀ (finishLoadF s core g h reg n ths) := by
  unfold finishLoadF
  dsimp only
  repeat' first
    | with_reducible exact hk | with_reducible assumption | intro _ | with_reducible apply foldl_kept
    | with_reducible apply localPoison_kept | with_reducible apply mixHerd_kept | with_reducible apply modGroup_kept
    | with_reducible apply spoilStores_kept | split

theorem finishStoreF_kept (s : State) (core : Nat) (h : Herd) (bs : List (Nat × Nat × Nat × Byte)) (hk : Kept s₀ s) :
    Kept s₀ (finishStoreF s core h bs) := by
  unfold finishStoreF
  repeat' first
    | with_reducible exact hk | with_reducible assumption | intro _ | with_reducible apply foldl_kept
    | with_reducible apply modCore_kept | with_reducible apply mixHerd_kept | split

theorem poisonedBundle_kept (s : State) (core slot : Nat) (hk : Kept s₀ s) :
    Kept s₀ (poisonedBundle s core slot) := by
  unfold poisonedBundle
  dsimp only
  repeat' first
    | with_reducible exact hk | with_reducible apply localPoison_kept | with_reducible apply noteStart_kept
    | with_reducible apply awaitBound_kept | split

theorem completeTag_kept (s : State) (core slot : Nat) (tag : BitVec 6) (hk : Kept s₀ s) :
    Kept s₀ (completeTag s core slot tag) := by
  unfold completeTag
  repeat' first
    | with_reducible exact hk | with_reducible assumption | intro _ | with_reducible apply foldl_kept
    | with_reducible apply tagReturn_kept | with_reducible apply finishMma_kept | with_reducible apply markRows_kept
    | with_reducible apply storeRow_kept | with_reducible apply finishLoadF_kept | with_reducible apply finishStoreF_kept
    | split

theorem timeBound_kept (s : State) (core slot waited : Nat) (hk : Kept s₀ s) :
    Kept s₀ (timeBound s core slot waited) := by
  unfold timeBound
  repeat' first
    | with_reducible exact hk | with_reducible apply timeFaults_kept | with_reducible apply passCycles_kept | split


/-! ## Stock -/

theorem batchAdmit_kept (s : State) (slot : Nat) (hk : Kept s₀ s) :
    Kept s₀ (batchAdmit s slot) := by
  unfold batchAdmit
  repeat' first
    | with_reducible exact hk | with_reducible assumption | intro _ | with_reducible apply foldl_kept
    | with_reducible apply modPass_kept | with_reducible apply onReads_kept | with_reducible apply admitQuery_kept
    | with_reducible apply admitRay_kept | split | with_reducible apply Kept.leaf

theorem deliverRecord_kept (core slot : Nat) (s : State) (r : Record) (hk : Kept s₀ s) :
    Kept s₀ (deliverRecord core slot s r) := by
  unfold deliverRecord
  repeat' first
    | with_reducible exact hk | with_reducible apply consumePoison_kept | with_reducible apply formSettle_kept
    | with_reducible apply modGroup_kept | split

theorem deliverPen_kept (s : State) (core slot q : Nat) (p : Pen) (u : FoldUpset) (hk : Kept s₀ s) :
    Kept s₀ (deliverPen s core slot q p u) := by
  unfold deliverPen
  repeat' first
    | with_reducible exact hk | with_reducible apply foldl_kept | with_reducible apply countEcc_kept
    | with_reducible apply countDelivery_kept | with_reducible apply recallPen_kept | with_reducible apply poisonItem_kept
    | with_reducible apply modSlice_kept | with_reducible apply deliverRecord_kept

theorem outputs_kept (s : State) (slot : Nat) (inStore : Bool) (ws : List (Nat × List Byte)) (hk : Kept s₀ s) :
    Kept s₀ (outputs s slot inStore ws) := by
  unfold outputs
  repeat' first
    | with_reducible exact hk | with_reducible assumption | intro _ | with_reducible apply passWrites_kept | split
    | with_reducible apply Kept.set | refine storeWrites_wf ?_ _

theorem finishStock_kept (s : State) (slot : Nat) (w : StockWork) (hk : Kept s₀ s) :
    Kept s₀ (finishStock s slot w) := by
  unfold finishStock
  repeat' first
    | with_reducible exact hk | with_reducible assumption | intro _ | with_reducible apply foldl_kept
    | with_reducible apply outputs_kept | with_reducible apply modPass_kept

theorem builderStep_kept (s : State) (core slot : Nat) (g : Group) (hk : Kept s₀ s) :
    Kept s₀ (builderStep s core slot g) := by
  unfold builderStep
  dsimp only
  repeat' first
    | with_reducible exact hk | with_reducible apply finishGroup_kept | with_reducible apply modPass_kept
    | with_reducible apply finishStock_kept | split

theorem penRequest_kept (s : State) (core slot : Nat) (u : FoldUpset) (hk : Kept s₀ s) :
    Kept s₀ (penRequest s core slot u) := by
  unfold penRequest
  dsimp only
  repeat' first
    | with_reducible exact hk | with_reducible apply ageSlices_kept | with_reducible apply finishGroup_kept
    | with_reducible apply deliverPen_kept | with_reducible apply builderStep_kept | split

theorem applyVisit_kept (p : Pass) (r : Record) (s : State) (v : Visit) (hk : Kept s₀ s) :
    Kept s₀ (applyVisit p r s v) := by
  unfold applyVisit
  repeat' first
    | with_reducible exact hk | with_reducible apply degradePass_kept | with_reducible apply countCtx_kept
    | with_reducible apply formSettle_kept | split

theorem processRecord_kept (s : State) (core slot : Nat) (r : Record) (hk : Kept s₀ s) :
    Kept s₀ (processRecord s core slot r) := by
  unfold processRecord
  repeat' first
    | with_reducible exact hk | with_reducible apply onPlan_kept | with_reducible apply applyVisit_kept
    | with_reducible apply formSettle_kept | split

theorem stockStep_kept (pick : Record → Bool) (k : State → State) (s : State) (core slot : Nat) (h : ∀ x, Kept s₀ x → Kept s₀ (k x))
    (hk : Kept s₀ s) : Kept s₀ (stockStep pick k s core slot) := by
  unfold stockStep
  split
  · split
    · exact hk
    · split
      · exact hk
      · split
        · exact hk
        · exact processRecord_kept _ _ _ _ (modGroup_kept _ _ _ _ hk)
  · exact h _ hk

theorem runningBest_kept (s : State) (hk : Kept s₀ s) :
    Kept s₀ (runningBest s) := by
  unfold runningBest
  repeat' first
    | with_reducible exact hk | with_reducible apply modItem_kept | split | with_reducible refine Kept.leafFold id ?_

theorem thinFor_kept (s : State) (p : Pass) (hk : Kept s₀ s) :
    Kept s₀ (thinFor s p) := by
  unfold thinFor
  repeat' first
    | with_reducible exact hk | with_reducible apply thinPass_kept | split | with_reducible refine Kept.leafFold id ?_

theorem relieve_kept (slot n : Nat) (s : State) (hk : Kept s₀ s) : Kept s₀ (relieve slot n s) := by
  induction n generalizing s with
  | zero => exact hk
  | succ n ih =>
    unfold relieve
    split
    · exact hk
    · split
      · exact hk
      · split
        · rename_i h
          obtain ⟨y, -, h⟩ := Option.bind_eq_some_iff.1 h
          exact ih _ (evictOf_kept _ _ _ hk _ h)
        · exact hk

theorem doneScored_kept (s : State) (x : Scored) (hk : Kept s₀ s) :
    Kept s₀ (doneScored s x) := by
  unfold doneScored
  repeat' first
    | with_reducible exact hk | with_reducible apply settleAccept_kept | with_reducible refine Kept.leafFold id ?_

theorem putCandidate_kept (s : State) (x : Scored) (p : Pass) (hk : Kept s₀ s) :
    Kept s₀ (putCandidate s x p) := by
  unfold putCandidate
  repeat' first | with_reducible exact hk | with_reducible apply modItem_kept | with_reducible apply doneScored_kept

theorem appendOne_kept (s : State) (x : Scored) (hk : Kept s₀ s) :
    Kept s₀ (appendOne s x) := by
  unfold appendOne
  repeat' first
    | with_reducible exact hk | with_reducible apply putCandidate_kept | with_reducible apply doneScored_kept | split

theorem pressAppend_kept (s : State) (x : Scored) (hk : Kept s₀ s) :
    Kept s₀ (pressAppend s x) := by
  unfold pressAppend
  dsimp only
  repeat' first
    | with_reducible exact hk | with_reducible apply relieve_kept | with_reducible apply thinFor_kept
    | with_reducible apply appendOne_kept | split

theorem appendCandidate_kept (s : State) (hk : Kept s₀ s) :
    Kept s₀ (appendCandidate s) := by
  unfold appendCandidate
  dsimp only
  repeat' first
    | with_reducible exact hk | with_reducible apply appendOne_kept | with_reducible apply pressAppend_kept | split

theorem retireItem_kept (s : State) (p : Pass) (i : Item) (hk : Kept s₀ s) :
    Kept s₀ (retireItem s p i) := by
  unfold retireItem
  repeat' first | with_reducible exact hk | with_reducible apply retire_kept | with_reducible apply noteNarrow_kept | split

theorem settleUpdate_kept (s : State) (hk : Kept s₀ s) :
    Kept s₀ (settleUpdate s) := by
  unfold settleUpdate
  repeat' first
    | with_reducible exact hk | with_reducible apply retireItem_kept | with_reducible apply modItem_kept | split
    | with_reducible refine Kept.leafFold id ?_

theorem queryPlacement_kept (s : State) (slot : Nat) (hk : Kept s₀ s) :
    Kept s₀ (queryPlacement s slot) := by
  unfold queryPlacement
  repeat' first | with_reducible exact hk | with_reducible apply placeQuery_kept | with_reducible apply placeRay_kept | split


/-! ## TestAccess -/

theorem loadWir_mem (s : State) (w : BitVec 4) (hk : MemKept s₀ s) :
    MemKept s₀ (loadWir s w) := by
  unfold loadWir
  repeat' first | with_reducible exact hk | with_reducible apply testEffect_mem | split | with_reducible apply MemKept.leaf

theorem wrapperReset_mem (s : State) (hk : MemKept s₀ s) :
    MemKept s₀ (wrapperReset s) := by
  unfold wrapperReset
  repeat' first | with_reducible exact hk | with_reducible apply testEffect_mem | split | with_reducible apply MemKept.leaf

theorem captureWr_mem (s : State) (hk : MemKept s₀ s) :
    MemKept s₀ (captureWr s) := by
  unfold captureWr
  repeat' first | with_reducible exact hk | split | with_reducible apply MemKept.leaf

theorem shiftWr_mem (s : State) (wsi : Bool) (hk : MemKept s₀ s) : MemKept s₀ (shiftWr s wsi) := by
  unfold shiftWr
  dsimp only
  split
  · exact .leaf hk
  · exact .leaf (fresh_kept s (.refl s) |>.toMemKept |> hk.trans)
  · exact .leaf hk
  · exact .leaf hk
  · exact .leaf hk

theorem updateWr_mem (s : State) (hk : MemKept s₀ s) :
    MemKept s₀ (updateWr s) := by
  unfold updateWr
  repeat' first | with_reducible exact hk | split | with_reducible apply MemKept.leaf

theorem bistStart_mem (s : State) (sib : Nat) (hk : MemKept s₀ s) :
    MemKept s₀ (bistStart s sib) := by
  unfold bistStart
  repeat' first | with_reducible exact hk | split | with_reducible apply MemKept.leaf

theorem bistDone_mem (s : State) (sib : Nat) (b : Bist) (hk : MemKept s₀ s) :
    MemKept s₀ (bistDone s sib b) := by
  unfold bistDone
  repeat' first | with_reducible exact hk | split | with_reducible apply MemKept.leaf


/-! ## Xfer -/

theorem xferElem_kept (slot : Nat) (p : Pass) (x : XferParams) (number : Nat) (s : State) (e : Nat) (hk : Kept s₀ s) :
    Kept s₀ (xferElem slot p x number s e) := by
  unfold xferElem
  repeat' first
    | with_reducible exact hk | with_reducible assumption | intro _ | with_reducible apply foldl_kept
    | with_reducible apply xferDeliver_kept | with_reducible apply xferPoison_kept | with_reducible apply seenLines_kept
    | with_reducible apply formReq_kept | split

theorem xferGo_kept (c ring : Nat) (s : State) (f : Fetched) (hk : Kept s₀ s) :
    Kept s₀ (xferGo c ring s f) := by
  unfold xferGo
  dsimp only
  repeat' first
    | with_reducible exact hk | with_reducible apply foldl_kept | with_reducible apply admitDone_kept
    | with_reducible apply admitBody_kept | with_reducible apply openLowest_kept | with_reducible apply xferElem_kept | split


end Sys2Proof.Machine
end

