-- ==== Sys2Proof/Laws/PerInstr.lean ====
section
/-! SUPPORT. A statement for all commands, command by command: a well-formed command that brings a flit brings the 512 bytes of one
word-time (R198). -/
namespace Sys2Proof.Laws.Flits

open Sys2Proof Sys2Proof.Machine

/-- The flit that a command brings. -/
def flitOf : Instr → Option Flit
  | .idleFlitReceive _ f _ => some f
  | .ackFlitReceive _ f _ => some f
  | .handoffDataReceive _ f _ => some f
  | .handoverDataReceive _ f _ => some f
  | .marginFlitReceive _ f _ => some f
  | .census1 _ f _ => some f
  | .census2 _ f _ => some f
  | .handoffReady _ f _ => some f
  | .handoffEnd _ f _ => some f
  | .handoffAck _ f _ => some f
  | .handoffAbort _ f _ => some f
  | .epochVote _ f _ => some f
  | .epochHandover _ f _ => some f
  | .epochCommit _ f _ => some f
  | .epochAbort _ f _ => some f
  | .handoverBegin _ f _ => some f
  | .handoverEnd _ f _ => some f
  | .handoverAck _ f _ => some f
  | .ringDown _ f _ => some f
  | _ => none

/-- What the family says of a command. -/
def Statement (i : Instr) : Prop := ∀ f, flitOf i = some f → i.wf = true → f.payload.length = 496 ∧ (flitBytes f).length = 512

/-- The bytes of a well-formed flit. -/
theorem length_of_wf (f : Flit) (h : f.wf = true) : f.payload.length = 496 ∧ (flitBytes f).length = 512 := by
  have hp : f.payload.length = 496 := by simp [Flit.wf] at h; exact h.1
  refine ⟨hp, ?_⟩
  simp [flitBytes, flitBody, flitHeader, slice, natLe]

/-- A command that brings a flit and is well formed when the flit is. -/
theorem of_flit {i : Instr} {f : Flit} (h : flitOf i = some f) (hw : i.wf = f.wf) : Statement i := by
  intro g hg hi
  have : g = f := by rw [h] at hg; exact (Option.some.inj hg).symm
  subst this
  exact length_of_wf g (hw ▸ hi)

/-- A command that brings none. -/
theorem of_none {i : Instr} (h : flitOf i = none) : Statement i := by
  intro g hg
  rw [h] at hg
  cases hg

theorem resetAssert : Statement .resetAssert := of_none rfl
theorem resetRelease : Statement .resetRelease := of_none rfl
theorem parkEnter : ∀ a, Statement (.parkEnter a) := fun _ => of_none rfl
theorem parkExit : ∀ a, Statement (.parkExit a) := fun _ => of_none rfl
theorem parkResponse : ∀ a, Statement (.parkResponse a) := fun _ => of_none rfl
theorem supplyWarningFall : ∀ a, Statement (.supplyWarningFall a) := fun _ => of_none rfl
theorem supplyWarningRise : ∀ a, Statement (.supplyWarningRise a) := fun _ => of_none rfl
theorem throttleRecoveryEnd : ∀ a, Statement (.throttleRecoveryEnd a) := fun _ => of_none rfl
theorem dutyStop : ∀ a b, Statement (.dutyStop a b) := fun _ _ => of_none rfl
theorem dutyRun : ∀ a b, Statement (.dutyRun a b) := fun _ _ => of_none rfl
theorem linkTrainedRise : ∀ a b, Statement (.linkTrainedRise a b) := fun _ _ => of_none rfl
theorem linkTrainedFall : ∀ a, Statement (.linkTrainedFall a) := fun _ => of_none rfl
theorem linkBringupTimeout : ∀ a b, Statement (.linkBringupTimeout a b) := fun _ _ => of_none rfl
theorem ringLinkClockStop : ∀ a, Statement (.ringLinkClockStop a) := fun _ => of_none rfl
theorem alignmentWordReceive : ∀ a b c d, Statement (.alignmentWordReceive a b c d) := fun _ _ _ _ => of_none rfl
theorem alignmentWordSend : ∀ a, Statement (.alignmentWordSend a) := fun _ => of_none rfl
theorem memberAbsentReceive : ∀ a, Statement (.memberAbsentReceive a) := fun _ => of_none rfl
theorem idleFlitReceive : ∀ a b c, Statement (.idleFlitReceive a b c) := fun _ _ _ => of_flit rfl rfl
theorem ackFlitReceive : ∀ a b c, Statement (.ackFlitReceive a b c) := fun _ _ _ => of_flit rfl rfl
theorem handoffDataReceive : ∀ a b c, Statement (.handoffDataReceive a b c) := fun _ _ _ => of_flit rfl rfl
theorem handoverDataReceive : ∀ a b c, Statement (.handoverDataReceive a b c) := fun _ _ _ => of_flit rfl rfl
theorem marginFlitReceive : ∀ a b c, Statement (.marginFlitReceive a b c) := fun _ _ _ => of_flit rfl rfl
theorem ackTimeoutReplay : ∀ a b, Statement (.ackTimeoutReplay a b) := fun _ _ => of_none rfl
theorem ackReturnTimer : ∀ a b, Statement (.ackReturnTimer a b) := fun _ _ => of_none rfl
theorem marginIntervalSend : ∀ a b c, Statement (.marginIntervalSend a b c) := fun _ _ _ => of_none rfl
theorem census1 : ∀ a b c, Statement (.census1 a b c) := fun _ _ _ => of_flit rfl rfl
theorem census2 : ∀ a b c, Statement (.census2 a b c) := fun _ _ _ => of_flit rfl rfl
theorem censusTimeout : ∀ a, Statement (.censusTimeout a) := fun _ => of_none rfl
theorem handoffReady : ∀ a b c, Statement (.handoffReady a b c) := fun _ _ _ => of_flit rfl rfl
theorem handoffEnd : ∀ a b c, Statement (.handoffEnd a b c) := fun _ _ _ => of_flit rfl rfl
theorem handoffRecvDone : ∀ a b, Statement (.handoffRecvDone a b) := fun _ _ => of_none rfl
theorem handoffAck : ∀ a b c, Statement (.handoffAck a b c) := fun _ _ _ => of_flit rfl rfl
theorem handoffAbort : ∀ a b c, Statement (.handoffAbort a b c) := fun _ _ _ => of_flit rfl rfl
theorem handoffTimeout : ∀ a b, Statement (.handoffTimeout a b) := fun _ _ => of_none rfl
theorem epochVote : ∀ a b c, Statement (.epochVote a b c) := fun _ _ _ => of_flit rfl rfl
theorem epochHandover : ∀ a b c, Statement (.epochHandover a b c) := fun _ _ _ => of_flit rfl rfl
theorem epochCommit : ∀ a b c, Statement (.epochCommit a b c) := fun _ _ _ => of_flit rfl rfl
theorem epochAbort : ∀ a b c, Statement (.epochAbort a b c) := fun _ _ _ => of_flit rfl rfl
theorem epochDrained : ∀ a, Statement (.epochDrained a) := fun _ => of_none rfl
theorem epochTimeout : ∀ a, Statement (.epochTimeout a) := fun _ => of_none rfl
theorem handoverBegin : ∀ a b c, Statement (.handoverBegin a b c) := fun _ _ _ => of_flit rfl rfl
theorem handoverEnd : ∀ a b c, Statement (.handoverEnd a b c) := fun _ _ _ => of_flit rfl rfl
theorem handoverWritesDone : ∀ a, Statement (.handoverWritesDone a) := fun _ => of_none rfl
theorem handoverAck : ∀ a b c, Statement (.handoverAck a b c) := fun _ _ _ => of_flit rfl rfl
theorem ringDown : ∀ a b c, Statement (.ringDown a b c) := fun _ _ _ => of_flit rfl rfl
theorem registerWrite : ∀ a b c d, Statement (.registerWrite a b c d) := fun _ _ _ _ => of_none rfl
theorem completerAddrErr : ∀ a, Statement (.completerAddrErr a) := fun _ => of_none rfl
theorem ctxCommit : ∀ a b, Statement (.ctxCommit a b) := fun _ _ => of_none rfl
theorem ctxCommitDeferred : Statement .ctxCommitDeferred := of_none rfl
theorem kmBoot : ∀ a b c, Statement (.kmBoot a b c) := fun _ _ _ => of_none rfl
theorem firmwareVerified : ∀ a b, Statement (.firmwareVerified a b) := fun _ _ => of_none rfl
theorem quadrantRelease : ∀ a b, Statement (.quadrantRelease a b) := fun _ _ => of_none rfl
theorem bootTimeout : ∀ a, Statement (.bootTimeout a) := fun _ => of_none rfl
theorem droverReadyTimeout : ∀ a, Statement (.droverReadyTimeout a) := fun _ => of_none rfl
theorem ctxWrite : ∀ a b c, Statement (.ctxWrite a b c) := fun _ _ _ => of_none rfl
theorem ctxRetire : ∀ a, Statement (.ctxRetire a) := fun _ => of_none rfl
theorem msgSet : ∀ a b c d, Statement (.msgSet a b c d) := fun _ _ _ _ => of_none rfl
theorem debugAuth : ∀ a b, Statement (.debugAuth a b) := fun _ _ => of_none rfl
theorem govLimit : ∀ a, Statement (.govLimit a) := fun _ => of_none rfl
theorem droverRestart : ∀ a, Statement (.droverRestart a) := fun _ => of_none rfl
theorem kmRequestUnknown : ∀ a, Statement (.kmRequestUnknown a) := fun _ => of_none rfl
theorem halt : ∀ a, Statement (.halt a) := fun _ => of_none rfl
theorem debugHaltTaken : Statement .debugHaltTaken := of_none rfl
theorem debugStep : ∀ a, Statement (.debugStep a) := fun _ => of_none rfl
theorem debugResume : ∀ a, Statement (.debugResume a) := fun _ => of_none rfl
theorem snap : ∀ a b, Statement (.snap a b) := fun _ _ => of_none rfl
theorem censusStart : ∀ a, Statement (.censusStart a) := fun _ => of_none rfl
theorem index : ∀ a b c d e, Statement (.index a b c d e) := fun _ _ _ _ _ => of_none rfl
theorem setup : ∀ a b c d e, Statement (.setup a b c d e) := fun _ _ _ _ _ => of_none rfl
theorem teardown : ∀ a b c d, Statement (.teardown a b c d) := fun _ _ _ _ => of_none rfl
theorem ringTeardownComplete : ∀ a b, Statement (.ringTeardownComplete a b) := fun _ _ => of_none rfl
theorem doorbellDiscard : ∀ a b c d, Statement (.doorbellDiscard a b c d) := fun _ _ _ _ => of_none rfl
theorem descriptorFetch : ∀ a b c, Statement (.descriptorFetch a b c) := fun _ _ _ => of_none rfl
theorem nop : ∀ a b, Statement (.nop a b) := fun _ _ => of_none rfl
theorem fence : ∀ a b, Statement (.fence a b) := fun _ _ => of_none rfl
theorem fenceRelease : ∀ a, Statement (.fenceRelease a) := fun _ => of_none rfl
theorem barrierCounter : ∀ a b c, Statement (.barrierCounter a b c) := fun _ _ _ => of_none rfl
theorem barrierPoll : ∀ a b, Statement (.barrierPoll a b) := fun _ _ => of_none rfl
theorem barrierTimeout : ∀ a b, Statement (.barrierTimeout a b) := fun _ _ => of_none rfl
theorem barrierHandoff : ∀ a b c, Statement (.barrierHandoff a b c) := fun _ _ _ => of_none rfl
theorem epoch : ∀ a b, Statement (.epoch a b) := fun _ _ => of_none rfl
theorem xfer : ∀ a b, Statement (.xfer a b) := fun _ _ => of_none rfl
theorem scatter : ∀ a b, Statement (.scatter a b) := fun _ _ => of_none rfl
theorem build : ∀ a b, Statement (.build a b) := fun _ _ => of_none rfl
theorem search : ∀ a b, Statement (.search a b) := fun _ _ => of_none rfl
theorem trace : ∀ a b, Statement (.trace a b) := fun _ _ => of_none rfl
theorem renderFwd : ∀ a b, Statement (.renderFwd a b) := fun _ _ => of_none rfl
theorem renderBwd : ∀ a b, Statement (.renderBwd a b) := fun _ _ => of_none rfl
theorem kernel : ∀ a b, Statement (.kernel a b) := fun _ _ => of_none rfl
theorem calibSetup : ∀ a b, Statement (.calibSetup a b) := fun _ _ => of_none rfl
theorem calibExport : ∀ a b, Statement (.calibExport a b) := fun _ _ => of_none rfl
theorem calibPropose : ∀ a b, Statement (.calibPropose a b) := fun _ _ => of_none rfl
theorem calibCommit : ∀ a b, Statement (.calibCommit a b) := fun _ _ => of_none rfl
theorem calibSave : ∀ a b, Statement (.calibSave a b) := fun _ _ => of_none rfl
theorem calibRestore : ∀ a b, Statement (.calibRestore a b) := fun _ _ => of_none rfl
theorem calibDisable : ∀ a b, Statement (.calibDisable a b) := fun _ _ => of_none rfl
theorem cancelPass : ∀ a b c, Statement (.cancelPass a b c) := fun _ _ _ => of_none rfl
theorem cancelRing : ∀ a b c, Statement (.cancelRing a b c) := fun _ _ _ => of_none rfl
theorem cancelComplete : ∀ a b, Statement (.cancelComplete a b) := fun _ _ => of_none rfl
theorem cancelTimeout : ∀ a b, Statement (.cancelTimeout a b) := fun _ _ => of_none rfl
theorem passCompletion : ∀ a b, Statement (.passCompletion a b) := fun _ _ => of_none rfl
theorem completionRingSpace : ∀ a b, Statement (.completionRingSpace a b) := fun _ _ => of_none rfl
theorem messageWrite : ∀ a b c, Statement (.messageWrite a b c) := fun _ _ _ => of_none rfl
theorem batchAdmit : ∀ a, Statement (.batchAdmit a) := fun _ => of_none rfl
theorem recordAccept : ∀ a b, Statement (.recordAccept a b) := fun _ _ => of_none rfl
theorem penAgeLimit : ∀ a b, Statement (.penAgeLimit a b) := fun _ _ => of_none rfl
theorem penRequest : ∀ a b c, Statement (.penRequest a b c) := fun _ _ _ => of_none rfl
theorem settleUpdate : Statement .settleUpdate := of_none rfl
theorem runningBestMax : Statement .runningBestMax := of_none rfl
theorem candidateAppend : Statement .candidateAppend := of_none rfl
theorem queryPlacement : ∀ a, Statement (.queryPlacement a) := fun _ => of_none rfl
theorem herdLaunch : ∀ a b c, Statement (.herdLaunch a b c) := fun _ _ _ => of_none rfl
theorem flockLaunch : ∀ a b c, Statement (.flockLaunch a b c) := fun _ _ _ => of_none rfl
theorem br : ∀ a b, Statement (.br a b) := fun _ _ => of_none rfl
theorem brnone : ∀ a b, Statement (.brnone a b) := fun _ _ => of_none rfl
theorem ifMask : ∀ a b, Statement (.ifMask a b) := fun _ _ => of_none rfl
theorem elseMask : ∀ a b, Statement (.elseMask a b) := fun _ _ => of_none rfl
theorem endifMask : ∀ a b, Statement (.endifMask a b) := fun _ _ => of_none rfl
theorem barH : ∀ a b, Statement (.barH a b) := fun _ _ => of_none rfl
theorem barF : ∀ a b, Statement (.barF a b) := fun _ _ => of_none rfl
theorem endGroup : ∀ a b, Statement (.endGroup a b) := fun _ _ => of_none rfl
theorem mma : ∀ a b, Statement (.mma a b) := fun _ _ => of_none rfl
theorem fetch : ∀ a b, Statement (.fetch a b) := fun _ _ => of_none rfl
theorem wait : ∀ a b, Statement (.wait a b) := fun _ _ => of_none rfl
theorem kernelFence : ∀ a b, Statement (.kernelFence a b) := fun _ _ => of_none rfl
theorem ldL : ∀ a b c, Statement (.ldL a b c) := fun _ _ _ => of_none rfl
theorem stL : ∀ a b, Statement (.stL a b) := fun _ _ => of_none rfl
theorem ldF : ∀ a b, Statement (.ldF a b) := fun _ _ => of_none rfl
theorem stF : ∀ a b, Statement (.stF a b) := fun _ _ => of_none rfl
theorem ldG : ∀ a b, Statement (.ldG a b) := fun _ _ => of_none rfl
theorem stG : ∀ a b, Statement (.stG a b) := fun _ _ => of_none rfl
theorem atG : ∀ a b, Statement (.atG a b) := fun _ _ => of_none rfl
theorem atfG : ∀ a b, Statement (.atfG a b) := fun _ _ => of_none rfl
theorem boundTest : ∀ a b, Statement (.boundTest a b) := fun _ _ => of_none rfl
theorem primitiveTest : ∀ a b, Statement (.primitiveTest a b) := fun _ _ => of_none rfl
theorem vectorAlu : ∀ a b c, Statement (.vectorAlu a b c) := fun _ _ _ => of_none rfl
theorem scalarAlu : ∀ a b, Statement (.scalarAlu a b) := fun _ _ => of_none rfl
theorem tagComplete : ∀ a b c, Statement (.tagComplete a b c) := fun _ _ _ => of_none rfl
theorem timeBound : ∀ a b c, Statement (.timeBound a b c) := fun _ _ _ => of_none rfl
theorem contextDrained : ∀ a b, Statement (.contextDrained a b) := fun _ _ => of_none rfl
theorem drainStalled : ∀ a b, Statement (.drainStalled a b) := fun _ _ => of_none rfl
theorem portReadGrant : ∀ a, Statement (.portReadGrant a) := fun _ => of_none rfl
theorem portWriteGrant : ∀ a, Statement (.portWriteGrant a) := fun _ => of_none rfl
theorem mergeWindowExpire : ∀ a, Statement (.mergeWindowExpire a) := fun _ => of_none rfl
theorem eppResponse : ∀ a b c, Statement (.eppResponse a b c) := fun _ _ _ => of_none rfl
theorem scrubLine : ∀ a, Statement (.scrubLine a) := fun _ => of_none rfl
theorem awlWindow : Statement .awlWindow := of_none rfl
theorem sweepStart : ∀ a, Statement (.sweepStart a) := fun _ => of_none rfl
theorem sampleComplete : Statement .sampleComplete := of_none rfl
theorem primitiveBin : ∀ a, Statement (.primitiveBin a) := fun _ => of_none rfl
theorem tileStart : ∀ a b, Statement (.tileStart a b) := fun _ _ => of_none rfl
theorem droverReport : ∀ a, Statement (.droverReport a) := fun _ => of_none rfl
theorem droverWatchdog : ∀ a, Statement (.droverWatchdog a) := fun _ => of_none rfl
theorem droverSandboxViolation : ∀ a, Statement (.droverSandboxViolation a) := fun _ => of_none rfl
theorem droverNote : ∀ a b, Statement (.droverNote a b) := fun _ _ => of_none rfl
theorem engineFatal : ∀ a b, Statement (.engineFatal a b) := fun _ _ => of_none rfl
theorem wsBypass : Statement .wsBypass := of_none rfl
theorem wsExtest : Statement .wsExtest := of_none rfl
theorem wsPreload : Statement .wsPreload := of_none rfl
theorem wsIntestScan : Statement .wsIntestScan := of_none rfl
theorem wsClamp : Statement .wsClamp := of_none rfl
theorem mldIdcode : Statement .mldIdcode := of_none rfl
theorem mldIjtag : Statement .mldIjtag := of_none rfl
theorem wrapperReset : Statement .wrapperReset := of_none rfl
theorem bistStart : ∀ a, Statement (.bistStart a) := fun _ => of_none rfl
theorem txTake : ∀ a, Statement (.txTake a) := fun _ => of_none rfl
theorem ringLinkClockStart : ∀ a, Statement (.ringLinkClockStart a) := fun _ => of_none rfl
theorem powerUp : Statement .powerUp := of_none rfl
theorem powerDown : Statement .powerDown := of_none rfl
theorem bistDone : ∀ a b c d e f, Statement (.bistDone a b c d e f) := fun _ _ _ _ _ _ => of_none rfl
theorem governorLimiting : ∀ a, Statement (.governorLimiting a) := fun _ => of_none rfl
theorem wrapperShift : ∀ a b, Statement (.wrapperShift a b) := fun _ _ => of_none rfl

end Sys2Proof.Laws.Flits
end

