-- ==== Sys2Proof/Laws/Shared.lean ====
section
/-! SUPPORT. What the operations that many meanings share answer: a flit or a message taken from a link, a descriptor admitted at its
ring's head, a request served in Keeper's mailbox, a bundle issued. -/
namespace Sys2Proof.Machine

/-! ## Flits and messages -/

/-- A flit in sequence is handed to what it is for, in the state that has accepted it. -/
theorem hearSeq_next {s : State} {now : U64} {l : LinkSide} {f : Flit} (h : s.takesNext now l f) (is : Flit → Bool) (hi : is f = true)
    (body : State → State) : hearSeq (atTime s now) l f is body = body (s.accepted now l f) := by
  obtain ⟨⟨h1, h2, h3⟩, h4⟩ := h
  have hh : hears (atTime s now) l = true := h1
  have h3' : hears (applyAck (atTime s now) l f) l = true := h3
  have h4' : f.seq = (linkOf (applyAck (atTime s now) l f) l).rxSeq := h4
  unfold hearSeq
  simp [hh, h2, h3', ← h4', hi, State.accepted, State.headerTaken]

/-- A message for this engine is processed, and its slot of the receive buffer freed. -/
theorem hearMsg_taken {s : State} {now : U64} {l : LinkSide} {f : Flit} {code : Nat} (h : s.takesMsg now l f code)
    (hd : msgDefined code = true) (body : State → State) :
    hearMsg (atTime s now) l f code body = freeSlotOf (body (s.accepted now l f)) l true := by
  obtain ⟨⟨⟨h1, h2, h3⟩, h4⟩, h5, h6, h7⟩ := h
  have hh : hears (atTime s now) l = true := h1
  have h3' : hears (applyAck (atTime s now) l f) l = true := h3
  have h4' : f.seq = (linkOf (applyAck (atTime s now) l f) l).rxSeq := h4
  have h7' : forMe (applyCredits (modLink (applyAck (atTime s now) l f) l acceptSeq) l f) f.payload = true := h7
  unfold hearMsg hearSeq
  simp [hh, h2, h5, h6, h3', ← h4', hd, h7', State.accepted, State.headerTaken]

/-! ## Admission -/

/-- A descriptor that a command picks is refused by the command's check, or admitted. -/
theorem admitWith_picked {s : State} {c r : Nat} {f : Fetched} {x : Ctx} (ha : admissible s c r = some f) (hx : ctxOf s c = some x)
    (sel : Fetched → Bool) (hs : sel f = true) (check : State → Ctx → Fetched → Option Deny) (go : State → Fetched → State) :
    admitWith s c r sel check go = match check s x f with | some y => refuse s c r f.desc y | none => go s f := by
  cases hc : check s x f <;> simp [admitWith, ha, hx, hs, hc]

/-- A descriptor that a command does not pick stays at the head of its ring. -/
theorem admitWith_other {s : State} {c r : Nat} {f : Fetched} (ha : admissible s c r = some f) (sel : Fetched → Bool)
    (hs : sel f = false) (check : State → Ctx → Fetched → Option Deny) (go : State → Fetched → State) :
    admitWith s c r sel check go = s := by
  unfold admitWith
  split
  · rename_i f' x h1 h2
    rw [ha] at h1
    cases h1
    simp [hs]
  · rfl

/-! ## The mailbox -/

/-- A request that Keeper serves after boot: its body, with its code and arguments in the mailbox. -/
theorem kmServe_booted {s : State} (h : reaches s .host = true) (hb : s.regs.kmBusy = false) (hf : s.bring.fatal = false)
    (h2 : s.bring.bootState = 2) (code : U16) (args : List U64) (body : State → State) :
    kmServe s code args body = body (kmStart (okWrite s) code args) := by
  have ha : hostAnswer s .host = okWrite s := by simp [hostAnswer, h]
  have h' : reaches (okWrite s) .host = true := h
  have hb' : (okWrite s).regs.kmBusy = false := hb
  have hf' : (okWrite s).bring.fatal = false := hf
  have hk : (kmStart (okWrite s) code args).bring.bootState = s.bring.bootState := rfl
  simp [kmServe, ha, h', hb', hf', hk, h2]

/-- A request before boot is answered with 0x04. -/
theorem kmServe_early {s : State} (h : reaches s .host = true) (hb : s.regs.kmBusy = false) (hf : s.bring.fatal = false)
    (h2 : s.bring.bootState ≠ 2) (code : U16) (args : List U64) (body : State → State) :
    kmServe s code args body = kmEnd (kmStart (okWrite s) code args) 0x04 := by
  have ha : hostAnswer s .host = okWrite s := by simp [hostAnswer, h]
  have h' : reaches (okWrite s) .host = true := h
  have hb' : (okWrite s).regs.kmBusy = false := hb
  have hf' : (okWrite s).bring.fatal = false := hf
  have hk : (kmStart (okWrite s) code args).bring.bootState = s.bring.bootState := rfl
  simp only [kmServe, ha, h', hb', hf', hk]
  simp
  intro h'
  exact absurd h' h2

/-! ## Bundles -/

/-- A command that names the bundle of the group the arbiter starts issues it. -/
theorem issueIf_done {s t : State} {core slot : Nat} {g : Group} {h : Herd} {b : Bundle} {pick : Option Bundle → Bool} {e1 e2 : Bool}
    (hs : s.starts core slot t g h b) (hp : pick (some b) = true) (hc : t.performs g h b e1 e2) :
    issueIf pick s core slot e1 e2 = t.bundleDone core g h b := by
  obtain ⟨rfl, h1, h2, h3, h4, h5, h6⟩ := hs
  obtain ⟨a1, a2⟩ := hc
  have a1' : dueFails (clearPending g) ++ bundleFails (dueGroup (clearPending g)) (dueHerd (clearPending g) h) b = [] := a1
  have a2' : bundleStop (awaitBound s core) (dueGroup (clearPending g)) (dueHerd (clearPending g) h) b e1 e2 = none := a2
  simp only [issueIf, h1, h2, h3, h5, h6, hp, issueBundle]
  rw [a1', a2', if_neg (by simp), if_neg (by simp)]
  rfl

/-- The first failing check of that bundle faults the context. -/
theorem issueIf_fails {s t : State} {core slot : Nat} {g : Group} {h : Herd} {b : Bundle} {pick : Option Bundle → Bool} {e1 e2 : Bool}
    (hs : s.starts core slot t g h b) (hp : pick (some b) = true) {f : Fail} {rest : List Fail} (hf : g.failing h b = f :: rest) :
    issueIf pick s core slot e1 e2 = contractFault t core g.reading f := by
  obtain ⟨rfl, h1, h2, h3, h4, h5, h6⟩ := hs
  have a1' : dueFails (clearPending g) ++ bundleFails (dueGroup (clearPending g)) (dueHerd (clearPending g) h) b = f :: rest := hf
  simp only [issueIf, h1, h2, h3, h5, h6, hp, issueBundle]
  rw [a1']
  simp [Group.reading]

/-- A command that does not name it does nothing. -/
theorem issueIf_other {s t : State} {core slot : Nat} {g : Group} {h : Herd} {b : Bundle} {pick : Option Bundle → Bool} (e1 e2 : Bool)
    (hs : s.starts core slot t g h b) (hp : pick (some b) = false) : issueIf pick s core slot e1 e2 = s := by
  obtain ⟨rfl, h1, h2, h3, h4, h5, h6⟩ := hs
  simp [issueIf, h1, h2, h3, h5, hp]

/-- No stock group stands in the slot of a user group. -/
theorem heldBy_user {s : State} {core slot : Nat} {g : Group} (h1 : groupOf s core slot = some g) (h2 : g.stock = .user) :
    heldBy s core slot = none := by
  simp [heldBy, h1, h2]

end Sys2Proof.Machine
end

