-- ==== Sys2Proof/Laws/State.lean ====
section
/-! SUPPORT. What each named update of the state leaves in every field, so that no proof unfolds a record update; what the links and
the lists changed at a position read afterwards. -/
namespace Sys2Proof.Machine

/-! ## atTime -/

@[simp] theorem atTime_pending (s : State) (now : U64) : (atTime s now).pending = s.pending := rfl
@[simp] theorem atTime_time (s : State) (now : U64) : (atTime s now).time = now := rfl
@[simp] theorem atTime_pins (s : State) (now : U64) : (atTime s now).pins = s.pins := rfl
@[simp] theorem atTime_straps (s : State) (now : U64) : (atTime s now).straps = s.straps := rfl
@[simp] theorem atTime_thr (s : State) (now : U64) : (atTime s now).thr = s.thr := rfl
@[simp] theorem atTime_bring (s : State) (now : U64) : (atTime s now).bring = s.bring := rfl
@[simp] theorem atTime_regs (s : State) (now : U64) : (atTime s now).regs = s.regs := rfl
@[simp] theorem atTime_log (s : State) (now : U64) : (atTime s now).log = s.log := rfl
@[simp] theorem atTime_drover (s : State) (now : U64) : (atTime s now).drover = s.drover := rfl
@[simp] theorem atTime_ctxs (s : State) (now : U64) : (atTime s now).ctxs = s.ctxs := rfl
@[simp] theorem atTime_rings (s : State) (now : U64) : (atTime s now).rings = s.rings := rfl
@[simp] theorem atTime_passes (s : State) (now : U64) : (atTime s now).passes = s.passes := rfl
@[simp] theorem atTime_ports (s : State) (now : U64) : (atTime s now).ports = s.ports := rfl
@[simp] theorem atTime_streams (s : State) (now : U64) : (atTime s now).streams = s.streams := rfl
@[simp] theorem atTime_fold (s : State) (now : U64) : (atTime s now).fold = s.fold := rfl
@[simp] theorem atTime_cores (s : State) (now : U64) : (atTime s now).cores = s.cores := rfl
@[simp] theorem atTime_flocks (s : State) (now : U64) : (atTime s now).flocks = s.flocks := rfl
@[simp] theorem atTime_links (s : State) (now : U64) : (atTime s now).links = s.links := rfl
@[simp] theorem atTime_net (s : State) (now : U64) : (atTime s now).net = s.net := rfl
@[simp] theorem atTime_awl (s : State) (now : U64) : (atTime s now).awl = s.awl := rfl
@[simp] theorem atTime_store (s : State) (now : U64) : (atTime s now).store = s.store := rfl
@[simp] theorem atTime_chip (s : State) (now : U64) : (atTime s now).chip = s.chip := rfl
@[simp] theorem atTime_counters (s : State) (now : U64) : (atTime s now).counters = s.counters := rfl
@[simp] theorem atTime_image (s : State) (now : U64) : (atTime s now).image = s.image := rfl
@[simp] theorem atTime_ctxCounters (s : State) (now : U64) : (atTime s now).ctxCounters = s.ctxCounters := rfl
@[simp] theorem atTime_wrapper (s : State) (now : U64) : (atTime s now).wrapper = s.wrapper := rfl
@[simp] theorem atTime_answer (s : State) (now : U64) : (atTime s now).answer = s.answer := rfl
@[simp] theorem atTime_cmdChan (s : State) (now : U64) : (atTime s now).cmdChan = s.cmdChan := rfl
@[simp] theorem atTime_fabric (s : State) (now : U64) : (atTime s now).fabric = s.fabric := rfl
@[simp] theorem atTime_freeCtr (s : State) (now : U64) : (atTime s now).freeCtr = s.freeCtr := rfl
@[simp] theorem atTime_formed (s : State) (now : U64) : (atTime s now).formed = s.formed := rfl

/-! ## count -/

@[simp] theorem count_pending (s : State) (n k : Nat) : (count s n k).pending = s.pending := rfl
@[simp] theorem count_time (s : State) (n k : Nat) : (count s n k).time = s.time := rfl
@[simp] theorem count_pins (s : State) (n k : Nat) : (count s n k).pins = s.pins := rfl
@[simp] theorem count_straps (s : State) (n k : Nat) : (count s n k).straps = s.straps := rfl
@[simp] theorem count_thr (s : State) (n k : Nat) : (count s n k).thr = s.thr := rfl
@[simp] theorem count_bring (s : State) (n k : Nat) : (count s n k).bring = s.bring := rfl
@[simp] theorem count_regs (s : State) (n k : Nat) : (count s n k).regs = s.regs := rfl
@[simp] theorem count_log (s : State) (n k : Nat) : (count s n k).log = s.log := rfl
@[simp] theorem count_drover (s : State) (n k : Nat) : (count s n k).drover = s.drover := rfl
@[simp] theorem count_ctxs (s : State) (n k : Nat) : (count s n k).ctxs = s.ctxs := rfl
@[simp] theorem count_rings (s : State) (n k : Nat) : (count s n k).rings = s.rings := rfl
@[simp] theorem count_passes (s : State) (n k : Nat) : (count s n k).passes = s.passes := rfl
@[simp] theorem count_ports (s : State) (n k : Nat) : (count s n k).ports = s.ports := rfl
@[simp] theorem count_streams (s : State) (n k : Nat) : (count s n k).streams = s.streams := rfl
@[simp] theorem count_fold (s : State) (n k : Nat) : (count s n k).fold = s.fold := rfl
@[simp] theorem count_cores (s : State) (n k : Nat) : (count s n k).cores = s.cores := rfl
@[simp] theorem count_flocks (s : State) (n k : Nat) : (count s n k).flocks = s.flocks := rfl
@[simp] theorem count_links (s : State) (n k : Nat) : (count s n k).links = s.links := rfl
@[simp] theorem count_net (s : State) (n k : Nat) : (count s n k).net = s.net := rfl
@[simp] theorem count_awl (s : State) (n k : Nat) : (count s n k).awl = s.awl := rfl
@[simp] theorem count_store (s : State) (n k : Nat) : (count s n k).store = s.store := rfl
@[simp] theorem count_chip (s : State) (n k : Nat) : (count s n k).chip = s.chip := rfl
@[simp] theorem count_counters (s : State) (n k : Nat) : (count s n k).counters = smSet 0 s.counters n (smGet 0 s.counters n + BitVec.ofNat 64 k) := rfl
@[simp] theorem count_image (s : State) (n k : Nat) : (count s n k).image = s.image := rfl
@[simp] theorem count_ctxCounters (s : State) (n k : Nat) : (count s n k).ctxCounters = s.ctxCounters := rfl
@[simp] theorem count_wrapper (s : State) (n k : Nat) : (count s n k).wrapper = s.wrapper := rfl
@[simp] theorem count_answer (s : State) (n k : Nat) : (count s n k).answer = s.answer := rfl
@[simp] theorem count_cmdChan (s : State) (n k : Nat) : (count s n k).cmdChan = s.cmdChan := rfl
@[simp] theorem count_fabric (s : State) (n k : Nat) : (count s n k).fabric = s.fabric := rfl
@[simp] theorem count_freeCtr (s : State) (n k : Nat) : (count s n k).freeCtr = s.freeCtr := rfl
@[simp] theorem count_formed (s : State) (n k : Nat) : (count s n k).formed = s.formed := rfl

/-! ## setCounter -/

@[simp] theorem setCounter_pending (s : State) (n : Nat) (v : U64) : (setCounter s n v).pending = s.pending := rfl
@[simp] theorem setCounter_time (s : State) (n : Nat) (v : U64) : (setCounter s n v).time = s.time := rfl
@[simp] theorem setCounter_pins (s : State) (n : Nat) (v : U64) : (setCounter s n v).pins = s.pins := rfl
@[simp] theorem setCounter_straps (s : State) (n : Nat) (v : U64) : (setCounter s n v).straps = s.straps := rfl
@[simp] theorem setCounter_thr (s : State) (n : Nat) (v : U64) : (setCounter s n v).thr = s.thr := rfl
@[simp] theorem setCounter_bring (s : State) (n : Nat) (v : U64) : (setCounter s n v).bring = s.bring := rfl
@[simp] theorem setCounter_regs (s : State) (n : Nat) (v : U64) : (setCounter s n v).regs = s.regs := rfl
@[simp] theorem setCounter_log (s : State) (n : Nat) (v : U64) : (setCounter s n v).log = s.log := rfl
@[simp] theorem setCounter_drover (s : State) (n : Nat) (v : U64) : (setCounter s n v).drover = s.drover := rfl
@[simp] theorem setCounter_ctxs (s : State) (n : Nat) (v : U64) : (setCounter s n v).ctxs = s.ctxs := rfl
@[simp] theorem setCounter_rings (s : State) (n : Nat) (v : U64) : (setCounter s n v).rings = s.rings := rfl
@[simp] theorem setCounter_passes (s : State) (n : Nat) (v : U64) : (setCounter s n v).passes = s.passes := rfl
@[simp] theorem setCounter_ports (s : State) (n : Nat) (v : U64) : (setCounter s n v).ports = s.ports := rfl
@[simp] theorem setCounter_streams (s : State) (n : Nat) (v : U64) : (setCounter s n v).streams = s.streams := rfl
@[simp] theorem setCounter_fold (s : State) (n : Nat) (v : U64) : (setCounter s n v).fold = s.fold := rfl
@[simp] theorem setCounter_cores (s : State) (n : Nat) (v : U64) : (setCounter s n v).cores = s.cores := rfl
@[simp] theorem setCounter_flocks (s : State) (n : Nat) (v : U64) : (setCounter s n v).flocks = s.flocks := rfl
@[simp] theorem setCounter_links (s : State) (n : Nat) (v : U64) : (setCounter s n v).links = s.links := rfl
@[simp] theorem setCounter_net (s : State) (n : Nat) (v : U64) : (setCounter s n v).net = s.net := rfl
@[simp] theorem setCounter_awl (s : State) (n : Nat) (v : U64) : (setCounter s n v).awl = s.awl := rfl
@[simp] theorem setCounter_store (s : State) (n : Nat) (v : U64) : (setCounter s n v).store = s.store := rfl
@[simp] theorem setCounter_chip (s : State) (n : Nat) (v : U64) : (setCounter s n v).chip = s.chip := rfl
@[simp] theorem setCounter_counters (s : State) (n : Nat) (v : U64) : (setCounter s n v).counters = smSet 0 s.counters n v := rfl
@[simp] theorem setCounter_image (s : State) (n : Nat) (v : U64) : (setCounter s n v).image = s.image := rfl
@[simp] theorem setCounter_ctxCounters (s : State) (n : Nat) (v : U64) : (setCounter s n v).ctxCounters = s.ctxCounters := rfl
@[simp] theorem setCounter_wrapper (s : State) (n : Nat) (v : U64) : (setCounter s n v).wrapper = s.wrapper := rfl
@[simp] theorem setCounter_answer (s : State) (n : Nat) (v : U64) : (setCounter s n v).answer = s.answer := rfl
@[simp] theorem setCounter_cmdChan (s : State) (n : Nat) (v : U64) : (setCounter s n v).cmdChan = s.cmdChan := rfl
@[simp] theorem setCounter_fabric (s : State) (n : Nat) (v : U64) : (setCounter s n v).fabric = s.fabric := rfl
@[simp] theorem setCounter_freeCtr (s : State) (n : Nat) (v : U64) : (setCounter s n v).freeCtr = s.freeCtr := rfl
@[simp] theorem setCounter_formed (s : State) (n : Nat) (v : U64) : (setCounter s n v).formed = s.formed := rfl

/-! ## countCtx -/

@[simp] theorem countCtx_pending (s : State) (c k n : Nat) : (countCtx s c k n).pending = s.pending := rfl
@[simp] theorem countCtx_time (s : State) (c k n : Nat) : (countCtx s c k n).time = s.time := rfl
@[simp] theorem countCtx_pins (s : State) (c k n : Nat) : (countCtx s c k n).pins = s.pins := rfl
@[simp] theorem countCtx_straps (s : State) (c k n : Nat) : (countCtx s c k n).straps = s.straps := rfl
@[simp] theorem countCtx_thr (s : State) (c k n : Nat) : (countCtx s c k n).thr = s.thr := rfl
@[simp] theorem countCtx_bring (s : State) (c k n : Nat) : (countCtx s c k n).bring = s.bring := rfl
@[simp] theorem countCtx_regs (s : State) (c k n : Nat) : (countCtx s c k n).regs = s.regs := rfl
@[simp] theorem countCtx_log (s : State) (c k n : Nat) : (countCtx s c k n).log = s.log := rfl
@[simp] theorem countCtx_drover (s : State) (c k n : Nat) : (countCtx s c k n).drover = s.drover := rfl
@[simp] theorem countCtx_ctxs (s : State) (c k n : Nat) : (countCtx s c k n).ctxs = s.ctxs := rfl
@[simp] theorem countCtx_rings (s : State) (c k n : Nat) : (countCtx s c k n).rings = s.rings := rfl
@[simp] theorem countCtx_passes (s : State) (c k n : Nat) : (countCtx s c k n).passes = s.passes := rfl
@[simp] theorem countCtx_ports (s : State) (c k n : Nat) : (countCtx s c k n).ports = s.ports := rfl
@[simp] theorem countCtx_streams (s : State) (c k n : Nat) : (countCtx s c k n).streams = s.streams := rfl
@[simp] theorem countCtx_fold (s : State) (c k n : Nat) : (countCtx s c k n).fold = s.fold := rfl
@[simp] theorem countCtx_cores (s : State) (c k n : Nat) : (countCtx s c k n).cores = s.cores := rfl
@[simp] theorem countCtx_flocks (s : State) (c k n : Nat) : (countCtx s c k n).flocks = s.flocks := rfl
@[simp] theorem countCtx_links (s : State) (c k n : Nat) : (countCtx s c k n).links = s.links := rfl
@[simp] theorem countCtx_net (s : State) (c k n : Nat) : (countCtx s c k n).net = s.net := rfl
@[simp] theorem countCtx_awl (s : State) (c k n : Nat) : (countCtx s c k n).awl = s.awl := rfl
@[simp] theorem countCtx_store (s : State) (c k n : Nat) : (countCtx s c k n).store = s.store := rfl
@[simp] theorem countCtx_chip (s : State) (c k n : Nat) : (countCtx s c k n).chip = s.chip := rfl
@[simp] theorem countCtx_counters (s : State) (c k n : Nat) : (countCtx s c k n).counters = s.counters := rfl
@[simp] theorem countCtx_image (s : State) (c k n : Nat) : (countCtx s c k n).image = s.image := rfl
@[simp] theorem countCtx_ctxCounters (s : State) (c k n : Nat) : (countCtx s c k n).ctxCounters = smSet 0 s.ctxCounters (3 * c + k) (smGet 0 s.ctxCounters (3 * c + k) + BitVec.ofNat 64 n) := rfl
@[simp] theorem countCtx_wrapper (s : State) (c k n : Nat) : (countCtx s c k n).wrapper = s.wrapper := rfl
@[simp] theorem countCtx_answer (s : State) (c k n : Nat) : (countCtx s c k n).answer = s.answer := rfl
@[simp] theorem countCtx_cmdChan (s : State) (c k n : Nat) : (countCtx s c k n).cmdChan = s.cmdChan := rfl
@[simp] theorem countCtx_fabric (s : State) (c k n : Nat) : (countCtx s c k n).fabric = s.fabric := rfl
@[simp] theorem countCtx_freeCtr (s : State) (c k n : Nat) : (countCtx s c k n).freeCtr = s.freeCtr := rfl
@[simp] theorem countCtx_formed (s : State) (c k n : Nat) : (countCtx s c k n).formed = s.formed := rfl

/-! ## logWide -/

@[simp] theorem logWide_pending (s : State) (kind code : Byte) (p : List Byte) : (logWide s kind code p).pending = s.pending := rfl
@[simp] theorem logWide_time (s : State) (kind code : Byte) (p : List Byte) : (logWide s kind code p).time = s.time := rfl
@[simp] theorem logWide_pins (s : State) (kind code : Byte) (p : List Byte) : (logWide s kind code p).pins = s.pins := rfl
@[simp] theorem logWide_straps (s : State) (kind code : Byte) (p : List Byte) : (logWide s kind code p).straps = s.straps := rfl
@[simp] theorem logWide_thr (s : State) (kind code : Byte) (p : List Byte) : (logWide s kind code p).thr = s.thr := rfl
@[simp] theorem logWide_bring (s : State) (kind code : Byte) (p : List Byte) : (logWide s kind code p).bring = s.bring := rfl
@[simp] theorem logWide_regs (s : State) (kind code : Byte) (p : List Byte) : (logWide s kind code p).regs = s.regs := rfl
@[simp] theorem logWide_log (s : State) (kind code : Byte) (p : List Byte) : (logWide s kind code p).log = logPush s.log (mkLog s kind code p) := rfl
@[simp] theorem logWide_drover (s : State) (kind code : Byte) (p : List Byte) : (logWide s kind code p).drover = s.drover := rfl
@[simp] theorem logWide_ctxs (s : State) (kind code : Byte) (p : List Byte) : (logWide s kind code p).ctxs = s.ctxs := rfl
@[simp] theorem logWide_rings (s : State) (kind code : Byte) (p : List Byte) : (logWide s kind code p).rings = s.rings := rfl
@[simp] theorem logWide_passes (s : State) (kind code : Byte) (p : List Byte) : (logWide s kind code p).passes = s.passes := rfl
@[simp] theorem logWide_ports (s : State) (kind code : Byte) (p : List Byte) : (logWide s kind code p).ports = s.ports := rfl
@[simp] theorem logWide_streams (s : State) (kind code : Byte) (p : List Byte) : (logWide s kind code p).streams = s.streams := rfl
@[simp] theorem logWide_fold (s : State) (kind code : Byte) (p : List Byte) : (logWide s kind code p).fold = s.fold := rfl
@[simp] theorem logWide_cores (s : State) (kind code : Byte) (p : List Byte) : (logWide s kind code p).cores = s.cores := rfl
@[simp] theorem logWide_flocks (s : State) (kind code : Byte) (p : List Byte) : (logWide s kind code p).flocks = s.flocks := rfl
@[simp] theorem logWide_links (s : State) (kind code : Byte) (p : List Byte) : (logWide s kind code p).links = s.links := rfl
@[simp] theorem logWide_net (s : State) (kind code : Byte) (p : List Byte) : (logWide s kind code p).net = s.net := rfl
@[simp] theorem logWide_awl (s : State) (kind code : Byte) (p : List Byte) : (logWide s kind code p).awl = s.awl := rfl
@[simp] theorem logWide_store (s : State) (kind code : Byte) (p : List Byte) : (logWide s kind code p).store = s.store := rfl
@[simp] theorem logWide_chip (s : State) (kind code : Byte) (p : List Byte) : (logWide s kind code p).chip = s.chip := rfl
@[simp] theorem logWide_counters (s : State) (kind code : Byte) (p : List Byte) : (logWide s kind code p).counters = s.counters := rfl
@[simp] theorem logWide_image (s : State) (kind code : Byte) (p : List Byte) : (logWide s kind code p).image = s.image := rfl
@[simp] theorem logWide_ctxCounters (s : State) (kind code : Byte) (p : List Byte) : (logWide s kind code p).ctxCounters = s.ctxCounters := rfl
@[simp] theorem logWide_wrapper (s : State) (kind code : Byte) (p : List Byte) : (logWide s kind code p).wrapper = s.wrapper := rfl
@[simp] theorem logWide_answer (s : State) (kind code : Byte) (p : List Byte) : (logWide s kind code p).answer = s.answer := rfl
@[simp] theorem logWide_cmdChan (s : State) (kind code : Byte) (p : List Byte) : (logWide s kind code p).cmdChan = s.cmdChan := rfl
@[simp] theorem logWide_fabric (s : State) (kind code : Byte) (p : List Byte) : (logWide s kind code p).fabric = s.fabric := rfl
@[simp] theorem logWide_freeCtr (s : State) (kind code : Byte) (p : List Byte) : (logWide s kind code p).freeCtr = s.freeCtr := rfl
@[simp] theorem logWide_formed (s : State) (kind code : Byte) (p : List Byte) : (logWide s kind code p).formed = s.formed := rfl

/-! ## logCtx -/

@[simp] theorem logCtx_pending (s : State) (kind code : Byte) (c : Nat) (p : List Byte) : (logCtx s kind code c p).pending = s.pending := rfl
@[simp] theorem logCtx_time (s : State) (kind code : Byte) (c : Nat) (p : List Byte) : (logCtx s kind code c p).time = s.time := rfl
@[simp] theorem logCtx_pins (s : State) (kind code : Byte) (c : Nat) (p : List Byte) : (logCtx s kind code c p).pins = s.pins := rfl
@[simp] theorem logCtx_straps (s : State) (kind code : Byte) (c : Nat) (p : List Byte) : (logCtx s kind code c p).straps = s.straps := rfl
@[simp] theorem logCtx_thr (s : State) (kind code : Byte) (c : Nat) (p : List Byte) : (logCtx s kind code c p).thr = s.thr := rfl
@[simp] theorem logCtx_bring (s : State) (kind code : Byte) (c : Nat) (p : List Byte) : (logCtx s kind code c p).bring = s.bring := rfl
@[simp] theorem logCtx_regs (s : State) (kind code : Byte) (c : Nat) (p : List Byte) : (logCtx s kind code c p).regs = s.regs := rfl
@[simp] theorem logCtx_drover (s : State) (kind code : Byte) (c : Nat) (p : List Byte) : (logCtx s kind code c p).drover = s.drover := rfl
@[simp] theorem logCtx_ctxs (s : State) (kind code : Byte) (c : Nat) (p : List Byte) : (logCtx s kind code c p).ctxs = s.ctxs := rfl
@[simp] theorem logCtx_rings (s : State) (kind code : Byte) (c : Nat) (p : List Byte) : (logCtx s kind code c p).rings = s.rings := rfl
@[simp] theorem logCtx_passes (s : State) (kind code : Byte) (c : Nat) (p : List Byte) : (logCtx s kind code c p).passes = s.passes := rfl
@[simp] theorem logCtx_ports (s : State) (kind code : Byte) (c : Nat) (p : List Byte) : (logCtx s kind code c p).ports = s.ports := rfl
@[simp] theorem logCtx_streams (s : State) (kind code : Byte) (c : Nat) (p : List Byte) : (logCtx s kind code c p).streams = s.streams := rfl
@[simp] theorem logCtx_fold (s : State) (kind code : Byte) (c : Nat) (p : List Byte) : (logCtx s kind code c p).fold = s.fold := rfl
@[simp] theorem logCtx_cores (s : State) (kind code : Byte) (c : Nat) (p : List Byte) : (logCtx s kind code c p).cores = s.cores := rfl
@[simp] theorem logCtx_flocks (s : State) (kind code : Byte) (c : Nat) (p : List Byte) : (logCtx s kind code c p).flocks = s.flocks := rfl
@[simp] theorem logCtx_links (s : State) (kind code : Byte) (c : Nat) (p : List Byte) : (logCtx s kind code c p).links = s.links := rfl
@[simp] theorem logCtx_net (s : State) (kind code : Byte) (c : Nat) (p : List Byte) : (logCtx s kind code c p).net = s.net := rfl
@[simp] theorem logCtx_awl (s : State) (kind code : Byte) (c : Nat) (p : List Byte) : (logCtx s kind code c p).awl = s.awl := rfl
@[simp] theorem logCtx_store (s : State) (kind code : Byte) (c : Nat) (p : List Byte) : (logCtx s kind code c p).store = s.store := rfl
@[simp] theorem logCtx_chip (s : State) (kind code : Byte) (c : Nat) (p : List Byte) : (logCtx s kind code c p).chip = s.chip := rfl
@[simp] theorem logCtx_counters (s : State) (kind code : Byte) (c : Nat) (p : List Byte) : (logCtx s kind code c p).counters = s.counters := rfl
@[simp] theorem logCtx_image (s : State) (kind code : Byte) (c : Nat) (p : List Byte) : (logCtx s kind code c p).image = s.image := rfl
@[simp] theorem logCtx_ctxCounters (s : State) (kind code : Byte) (c : Nat) (p : List Byte) : (logCtx s kind code c p).ctxCounters = s.ctxCounters := rfl
@[simp] theorem logCtx_wrapper (s : State) (kind code : Byte) (c : Nat) (p : List Byte) : (logCtx s kind code c p).wrapper = s.wrapper := rfl
@[simp] theorem logCtx_answer (s : State) (kind code : Byte) (c : Nat) (p : List Byte) : (logCtx s kind code c p).answer = s.answer := rfl
@[simp] theorem logCtx_cmdChan (s : State) (kind code : Byte) (c : Nat) (p : List Byte) : (logCtx s kind code c p).cmdChan = s.cmdChan := rfl
@[simp] theorem logCtx_fabric (s : State) (kind code : Byte) (c : Nat) (p : List Byte) : (logCtx s kind code c p).fabric = s.fabric := rfl
@[simp] theorem logCtx_freeCtr (s : State) (kind code : Byte) (c : Nat) (p : List Byte) : (logCtx s kind code c p).freeCtr = s.freeCtr := rfl
@[simp] theorem logCtx_formed (s : State) (kind code : Byte) (c : Nat) (p : List Byte) : (logCtx s kind code c p).formed = s.formed := rfl

/-! ## setRing -/

@[simp] theorem setRing_pending (s : State) (key : Nat) (r : Ring) : (setRing s key r).pending = s.pending := rfl
@[simp] theorem setRing_time (s : State) (key : Nat) (r : Ring) : (setRing s key r).time = s.time := rfl
@[simp] theorem setRing_pins (s : State) (key : Nat) (r : Ring) : (setRing s key r).pins = s.pins := rfl
@[simp] theorem setRing_straps (s : State) (key : Nat) (r : Ring) : (setRing s key r).straps = s.straps := rfl
@[simp] theorem setRing_thr (s : State) (key : Nat) (r : Ring) : (setRing s key r).thr = s.thr := rfl
@[simp] theorem setRing_bring (s : State) (key : Nat) (r : Ring) : (setRing s key r).bring = s.bring := rfl
@[simp] theorem setRing_regs (s : State) (key : Nat) (r : Ring) : (setRing s key r).regs = s.regs := rfl
@[simp] theorem setRing_log (s : State) (key : Nat) (r : Ring) : (setRing s key r).log = s.log := rfl
@[simp] theorem setRing_drover (s : State) (key : Nat) (r : Ring) : (setRing s key r).drover = s.drover := rfl
@[simp] theorem setRing_ctxs (s : State) (key : Nat) (r : Ring) : (setRing s key r).ctxs = s.ctxs := rfl
@[simp] theorem setRing_rings (s : State) (key : Nat) (r : Ring) : (setRing s key r).rings = smSet .idle s.rings key r := rfl
@[simp] theorem setRing_passes (s : State) (key : Nat) (r : Ring) : (setRing s key r).passes = s.passes := rfl
@[simp] theorem setRing_ports (s : State) (key : Nat) (r : Ring) : (setRing s key r).ports = s.ports := rfl
@[simp] theorem setRing_streams (s : State) (key : Nat) (r : Ring) : (setRing s key r).streams = s.streams := rfl
@[simp] theorem setRing_fold (s : State) (key : Nat) (r : Ring) : (setRing s key r).fold = s.fold := rfl
@[simp] theorem setRing_cores (s : State) (key : Nat) (r : Ring) : (setRing s key r).cores = s.cores := rfl
@[simp] theorem setRing_flocks (s : State) (key : Nat) (r : Ring) : (setRing s key r).flocks = s.flocks := rfl
@[simp] theorem setRing_links (s : State) (key : Nat) (r : Ring) : (setRing s key r).links = s.links := rfl
@[simp] theorem setRing_net (s : State) (key : Nat) (r : Ring) : (setRing s key r).net = s.net := rfl
@[simp] theorem setRing_awl (s : State) (key : Nat) (r : Ring) : (setRing s key r).awl = s.awl := rfl
@[simp] theorem setRing_store (s : State) (key : Nat) (r : Ring) : (setRing s key r).store = s.store := rfl
@[simp] theorem setRing_chip (s : State) (key : Nat) (r : Ring) : (setRing s key r).chip = s.chip := rfl
@[simp] theorem setRing_counters (s : State) (key : Nat) (r : Ring) : (setRing s key r).counters = s.counters := rfl
@[simp] theorem setRing_image (s : State) (key : Nat) (r : Ring) : (setRing s key r).image = s.image := rfl
@[simp] theorem setRing_ctxCounters (s : State) (key : Nat) (r : Ring) : (setRing s key r).ctxCounters = s.ctxCounters := rfl
@[simp] theorem setRing_wrapper (s : State) (key : Nat) (r : Ring) : (setRing s key r).wrapper = s.wrapper := rfl
@[simp] theorem setRing_answer (s : State) (key : Nat) (r : Ring) : (setRing s key r).answer = s.answer := rfl
@[simp] theorem setRing_cmdChan (s : State) (key : Nat) (r : Ring) : (setRing s key r).cmdChan = s.cmdChan := rfl
@[simp] theorem setRing_fabric (s : State) (key : Nat) (r : Ring) : (setRing s key r).fabric = s.fabric := rfl
@[simp] theorem setRing_freeCtr (s : State) (key : Nat) (r : Ring) : (setRing s key r).freeCtr = s.freeCtr := rfl
@[simp] theorem setRing_formed (s : State) (key : Nat) (r : Ring) : (setRing s key r).formed = s.formed := rfl

/-! ## modRing -/

@[simp] theorem modRing_pending (s : State) (key : Nat) (f : Ring → Ring) : (modRing s key f).pending = s.pending := rfl
@[simp] theorem modRing_time (s : State) (key : Nat) (f : Ring → Ring) : (modRing s key f).time = s.time := rfl
@[simp] theorem modRing_pins (s : State) (key : Nat) (f : Ring → Ring) : (modRing s key f).pins = s.pins := rfl
@[simp] theorem modRing_straps (s : State) (key : Nat) (f : Ring → Ring) : (modRing s key f).straps = s.straps := rfl
@[simp] theorem modRing_thr (s : State) (key : Nat) (f : Ring → Ring) : (modRing s key f).thr = s.thr := rfl
@[simp] theorem modRing_bring (s : State) (key : Nat) (f : Ring → Ring) : (modRing s key f).bring = s.bring := rfl
@[simp] theorem modRing_regs (s : State) (key : Nat) (f : Ring → Ring) : (modRing s key f).regs = s.regs := rfl
@[simp] theorem modRing_log (s : State) (key : Nat) (f : Ring → Ring) : (modRing s key f).log = s.log := rfl
@[simp] theorem modRing_drover (s : State) (key : Nat) (f : Ring → Ring) : (modRing s key f).drover = s.drover := rfl
@[simp] theorem modRing_ctxs (s : State) (key : Nat) (f : Ring → Ring) : (modRing s key f).ctxs = s.ctxs := rfl
@[simp] theorem modRing_rings (s : State) (key : Nat) (f : Ring → Ring) : (modRing s key f).rings = smSet .idle s.rings key (f (ringOf s key)) := rfl
@[simp] theorem modRing_passes (s : State) (key : Nat) (f : Ring → Ring) : (modRing s key f).passes = s.passes := rfl
@[simp] theorem modRing_ports (s : State) (key : Nat) (f : Ring → Ring) : (modRing s key f).ports = s.ports := rfl
@[simp] theorem modRing_streams (s : State) (key : Nat) (f : Ring → Ring) : (modRing s key f).streams = s.streams := rfl
@[simp] theorem modRing_fold (s : State) (key : Nat) (f : Ring → Ring) : (modRing s key f).fold = s.fold := rfl
@[simp] theorem modRing_cores (s : State) (key : Nat) (f : Ring → Ring) : (modRing s key f).cores = s.cores := rfl
@[simp] theorem modRing_flocks (s : State) (key : Nat) (f : Ring → Ring) : (modRing s key f).flocks = s.flocks := rfl
@[simp] theorem modRing_links (s : State) (key : Nat) (f : Ring → Ring) : (modRing s key f).links = s.links := rfl
@[simp] theorem modRing_net (s : State) (key : Nat) (f : Ring → Ring) : (modRing s key f).net = s.net := rfl
@[simp] theorem modRing_awl (s : State) (key : Nat) (f : Ring → Ring) : (modRing s key f).awl = s.awl := rfl
@[simp] theorem modRing_store (s : State) (key : Nat) (f : Ring → Ring) : (modRing s key f).store = s.store := rfl
@[simp] theorem modRing_chip (s : State) (key : Nat) (f : Ring → Ring) : (modRing s key f).chip = s.chip := rfl
@[simp] theorem modRing_counters (s : State) (key : Nat) (f : Ring → Ring) : (modRing s key f).counters = s.counters := rfl
@[simp] theorem modRing_image (s : State) (key : Nat) (f : Ring → Ring) : (modRing s key f).image = s.image := rfl
@[simp] theorem modRing_ctxCounters (s : State) (key : Nat) (f : Ring → Ring) : (modRing s key f).ctxCounters = s.ctxCounters := rfl
@[simp] theorem modRing_wrapper (s : State) (key : Nat) (f : Ring → Ring) : (modRing s key f).wrapper = s.wrapper := rfl
@[simp] theorem modRing_answer (s : State) (key : Nat) (f : Ring → Ring) : (modRing s key f).answer = s.answer := rfl
@[simp] theorem modRing_cmdChan (s : State) (key : Nat) (f : Ring → Ring) : (modRing s key f).cmdChan = s.cmdChan := rfl
@[simp] theorem modRing_fabric (s : State) (key : Nat) (f : Ring → Ring) : (modRing s key f).fabric = s.fabric := rfl
@[simp] theorem modRing_freeCtr (s : State) (key : Nat) (f : Ring → Ring) : (modRing s key f).freeCtr = s.freeCtr := rfl
@[simp] theorem modRing_formed (s : State) (key : Nat) (f : Ring → Ring) : (modRing s key f).formed = s.formed := rfl

/-! ## modPass -/

@[simp] theorem modPass_pending (s : State) (slot : Nat) (f : Pass → Pass) : (modPass s slot f).pending = s.pending := rfl
@[simp] theorem modPass_time (s : State) (slot : Nat) (f : Pass → Pass) : (modPass s slot f).time = s.time := rfl
@[simp] theorem modPass_pins (s : State) (slot : Nat) (f : Pass → Pass) : (modPass s slot f).pins = s.pins := rfl
@[simp] theorem modPass_straps (s : State) (slot : Nat) (f : Pass → Pass) : (modPass s slot f).straps = s.straps := rfl
@[simp] theorem modPass_thr (s : State) (slot : Nat) (f : Pass → Pass) : (modPass s slot f).thr = s.thr := rfl
@[simp] theorem modPass_bring (s : State) (slot : Nat) (f : Pass → Pass) : (modPass s slot f).bring = s.bring := rfl
@[simp] theorem modPass_regs (s : State) (slot : Nat) (f : Pass → Pass) : (modPass s slot f).regs = s.regs := rfl
@[simp] theorem modPass_log (s : State) (slot : Nat) (f : Pass → Pass) : (modPass s slot f).log = s.log := rfl
@[simp] theorem modPass_drover (s : State) (slot : Nat) (f : Pass → Pass) : (modPass s slot f).drover = s.drover := rfl
@[simp] theorem modPass_ctxs (s : State) (slot : Nat) (f : Pass → Pass) : (modPass s slot f).ctxs = s.ctxs := rfl
@[simp] theorem modPass_rings (s : State) (slot : Nat) (f : Pass → Pass) : (modPass s slot f).rings = s.rings := rfl
@[simp] theorem modPass_ports (s : State) (slot : Nat) (f : Pass → Pass) : (modPass s slot f).ports = s.ports := rfl
@[simp] theorem modPass_streams (s : State) (slot : Nat) (f : Pass → Pass) : (modPass s slot f).streams = s.streams := rfl
@[simp] theorem modPass_fold (s : State) (slot : Nat) (f : Pass → Pass) : (modPass s slot f).fold = s.fold := rfl
@[simp] theorem modPass_cores (s : State) (slot : Nat) (f : Pass → Pass) : (modPass s slot f).cores = s.cores := rfl
@[simp] theorem modPass_flocks (s : State) (slot : Nat) (f : Pass → Pass) : (modPass s slot f).flocks = s.flocks := rfl
@[simp] theorem modPass_links (s : State) (slot : Nat) (f : Pass → Pass) : (modPass s slot f).links = s.links := rfl
@[simp] theorem modPass_net (s : State) (slot : Nat) (f : Pass → Pass) : (modPass s slot f).net = s.net := rfl
@[simp] theorem modPass_awl (s : State) (slot : Nat) (f : Pass → Pass) : (modPass s slot f).awl = s.awl := rfl
@[simp] theorem modPass_store (s : State) (slot : Nat) (f : Pass → Pass) : (modPass s slot f).store = s.store := rfl
@[simp] theorem modPass_chip (s : State) (slot : Nat) (f : Pass → Pass) : (modPass s slot f).chip = s.chip := rfl
@[simp] theorem modPass_counters (s : State) (slot : Nat) (f : Pass → Pass) : (modPass s slot f).counters = s.counters := rfl
@[simp] theorem modPass_image (s : State) (slot : Nat) (f : Pass → Pass) : (modPass s slot f).image = s.image := rfl
@[simp] theorem modPass_ctxCounters (s : State) (slot : Nat) (f : Pass → Pass) : (modPass s slot f).ctxCounters = s.ctxCounters := rfl
@[simp] theorem modPass_wrapper (s : State) (slot : Nat) (f : Pass → Pass) : (modPass s slot f).wrapper = s.wrapper := rfl
@[simp] theorem modPass_answer (s : State) (slot : Nat) (f : Pass → Pass) : (modPass s slot f).answer = s.answer := rfl
@[simp] theorem modPass_cmdChan (s : State) (slot : Nat) (f : Pass → Pass) : (modPass s slot f).cmdChan = s.cmdChan := rfl
@[simp] theorem modPass_fabric (s : State) (slot : Nat) (f : Pass → Pass) : (modPass s slot f).fabric = s.fabric := rfl
@[simp] theorem modPass_freeCtr (s : State) (slot : Nat) (f : Pass → Pass) : (modPass s slot f).freeCtr = s.freeCtr := rfl
@[simp] theorem modPass_formed (s : State) (slot : Nat) (f : Pass → Pass) : (modPass s slot f).formed = s.formed := rfl

/-! ## setCore -/

@[simp] theorem setCore_pending (s : State) (c : Nat) (k : Core) : (setCore s c k).pending = s.pending := rfl
@[simp] theorem setCore_time (s : State) (c : Nat) (k : Core) : (setCore s c k).time = s.time := rfl
@[simp] theorem setCore_pins (s : State) (c : Nat) (k : Core) : (setCore s c k).pins = s.pins := rfl
@[simp] theorem setCore_straps (s : State) (c : Nat) (k : Core) : (setCore s c k).straps = s.straps := rfl
@[simp] theorem setCore_thr (s : State) (c : Nat) (k : Core) : (setCore s c k).thr = s.thr := rfl
@[simp] theorem setCore_bring (s : State) (c : Nat) (k : Core) : (setCore s c k).bring = s.bring := rfl
@[simp] theorem setCore_regs (s : State) (c : Nat) (k : Core) : (setCore s c k).regs = s.regs := rfl
@[simp] theorem setCore_log (s : State) (c : Nat) (k : Core) : (setCore s c k).log = s.log := rfl
@[simp] theorem setCore_drover (s : State) (c : Nat) (k : Core) : (setCore s c k).drover = s.drover := rfl
@[simp] theorem setCore_ctxs (s : State) (c : Nat) (k : Core) : (setCore s c k).ctxs = s.ctxs := rfl
@[simp] theorem setCore_rings (s : State) (c : Nat) (k : Core) : (setCore s c k).rings = s.rings := rfl
@[simp] theorem setCore_passes (s : State) (c : Nat) (k : Core) : (setCore s c k).passes = s.passes := rfl
@[simp] theorem setCore_ports (s : State) (c : Nat) (k : Core) : (setCore s c k).ports = s.ports := rfl
@[simp] theorem setCore_streams (s : State) (c : Nat) (k : Core) : (setCore s c k).streams = s.streams := rfl
@[simp] theorem setCore_fold (s : State) (c : Nat) (k : Core) : (setCore s c k).fold = s.fold := rfl
@[simp] theorem setCore_cores (s : State) (c : Nat) (k : Core) : (setCore s c k).cores = smSet .reset s.cores c k := rfl
@[simp] theorem setCore_flocks (s : State) (c : Nat) (k : Core) : (setCore s c k).flocks = s.flocks := rfl
@[simp] theorem setCore_links (s : State) (c : Nat) (k : Core) : (setCore s c k).links = s.links := rfl
@[simp] theorem setCore_net (s : State) (c : Nat) (k : Core) : (setCore s c k).net = s.net := rfl
@[simp] theorem setCore_awl (s : State) (c : Nat) (k : Core) : (setCore s c k).awl = s.awl := rfl
@[simp] theorem setCore_store (s : State) (c : Nat) (k : Core) : (setCore s c k).store = s.store := rfl
@[simp] theorem setCore_chip (s : State) (c : Nat) (k : Core) : (setCore s c k).chip = s.chip := rfl
@[simp] theorem setCore_counters (s : State) (c : Nat) (k : Core) : (setCore s c k).counters = s.counters := rfl
@[simp] theorem setCore_image (s : State) (c : Nat) (k : Core) : (setCore s c k).image = s.image := rfl
@[simp] theorem setCore_ctxCounters (s : State) (c : Nat) (k : Core) : (setCore s c k).ctxCounters = s.ctxCounters := rfl
@[simp] theorem setCore_wrapper (s : State) (c : Nat) (k : Core) : (setCore s c k).wrapper = s.wrapper := rfl
@[simp] theorem setCore_answer (s : State) (c : Nat) (k : Core) : (setCore s c k).answer = s.answer := rfl
@[simp] theorem setCore_cmdChan (s : State) (c : Nat) (k : Core) : (setCore s c k).cmdChan = s.cmdChan := rfl
@[simp] theorem setCore_fabric (s : State) (c : Nat) (k : Core) : (setCore s c k).fabric = s.fabric := rfl
@[simp] theorem setCore_freeCtr (s : State) (c : Nat) (k : Core) : (setCore s c k).freeCtr = s.freeCtr := rfl
@[simp] theorem setCore_formed (s : State) (c : Nat) (k : Core) : (setCore s c k).formed = s.formed := rfl

/-! ## modCore -/

@[simp] theorem modCore_pending (s : State) (c : Nat) (f : Core → Core) : (modCore s c f).pending = s.pending := rfl
@[simp] theorem modCore_time (s : State) (c : Nat) (f : Core → Core) : (modCore s c f).time = s.time := rfl
@[simp] theorem modCore_pins (s : State) (c : Nat) (f : Core → Core) : (modCore s c f).pins = s.pins := rfl
@[simp] theorem modCore_straps (s : State) (c : Nat) (f : Core → Core) : (modCore s c f).straps = s.straps := rfl
@[simp] theorem modCore_thr (s : State) (c : Nat) (f : Core → Core) : (modCore s c f).thr = s.thr := rfl
@[simp] theorem modCore_bring (s : State) (c : Nat) (f : Core → Core) : (modCore s c f).bring = s.bring := rfl
@[simp] theorem modCore_regs (s : State) (c : Nat) (f : Core → Core) : (modCore s c f).regs = s.regs := rfl
@[simp] theorem modCore_log (s : State) (c : Nat) (f : Core → Core) : (modCore s c f).log = s.log := rfl
@[simp] theorem modCore_drover (s : State) (c : Nat) (f : Core → Core) : (modCore s c f).drover = s.drover := rfl
@[simp] theorem modCore_ctxs (s : State) (c : Nat) (f : Core → Core) : (modCore s c f).ctxs = s.ctxs := rfl
@[simp] theorem modCore_rings (s : State) (c : Nat) (f : Core → Core) : (modCore s c f).rings = s.rings := rfl
@[simp] theorem modCore_passes (s : State) (c : Nat) (f : Core → Core) : (modCore s c f).passes = s.passes := rfl
@[simp] theorem modCore_ports (s : State) (c : Nat) (f : Core → Core) : (modCore s c f).ports = s.ports := rfl
@[simp] theorem modCore_streams (s : State) (c : Nat) (f : Core → Core) : (modCore s c f).streams = s.streams := rfl
@[simp] theorem modCore_fold (s : State) (c : Nat) (f : Core → Core) : (modCore s c f).fold = s.fold := rfl
@[simp] theorem modCore_cores (s : State) (c : Nat) (f : Core → Core) : (modCore s c f).cores = smSet .reset s.cores c (f (coreOf s c)) := rfl
@[simp] theorem modCore_flocks (s : State) (c : Nat) (f : Core → Core) : (modCore s c f).flocks = s.flocks := rfl
@[simp] theorem modCore_links (s : State) (c : Nat) (f : Core → Core) : (modCore s c f).links = s.links := rfl
@[simp] theorem modCore_net (s : State) (c : Nat) (f : Core → Core) : (modCore s c f).net = s.net := rfl
@[simp] theorem modCore_awl (s : State) (c : Nat) (f : Core → Core) : (modCore s c f).awl = s.awl := rfl
@[simp] theorem modCore_store (s : State) (c : Nat) (f : Core → Core) : (modCore s c f).store = s.store := rfl
@[simp] theorem modCore_chip (s : State) (c : Nat) (f : Core → Core) : (modCore s c f).chip = s.chip := rfl
@[simp] theorem modCore_counters (s : State) (c : Nat) (f : Core → Core) : (modCore s c f).counters = s.counters := rfl
@[simp] theorem modCore_image (s : State) (c : Nat) (f : Core → Core) : (modCore s c f).image = s.image := rfl
@[simp] theorem modCore_ctxCounters (s : State) (c : Nat) (f : Core → Core) : (modCore s c f).ctxCounters = s.ctxCounters := rfl
@[simp] theorem modCore_wrapper (s : State) (c : Nat) (f : Core → Core) : (modCore s c f).wrapper = s.wrapper := rfl
@[simp] theorem modCore_answer (s : State) (c : Nat) (f : Core → Core) : (modCore s c f).answer = s.answer := rfl
@[simp] theorem modCore_cmdChan (s : State) (c : Nat) (f : Core → Core) : (modCore s c f).cmdChan = s.cmdChan := rfl
@[simp] theorem modCore_fabric (s : State) (c : Nat) (f : Core → Core) : (modCore s c f).fabric = s.fabric := rfl
@[simp] theorem modCore_freeCtr (s : State) (c : Nat) (f : Core → Core) : (modCore s c f).freeCtr = s.freeCtr := rfl
@[simp] theorem modCore_formed (s : State) (c : Nat) (f : Core → Core) : (modCore s c f).formed = s.formed := rfl

/-! ## modGroup -/

@[simp] theorem modGroup_pending (s : State) (core slot : Nat) (f : Group → Group) : (modGroup s core slot f).pending = s.pending := rfl
@[simp] theorem modGroup_time (s : State) (core slot : Nat) (f : Group → Group) : (modGroup s core slot f).time = s.time := rfl
@[simp] theorem modGroup_pins (s : State) (core slot : Nat) (f : Group → Group) : (modGroup s core slot f).pins = s.pins := rfl
@[simp] theorem modGroup_straps (s : State) (core slot : Nat) (f : Group → Group) : (modGroup s core slot f).straps = s.straps := rfl
@[simp] theorem modGroup_thr (s : State) (core slot : Nat) (f : Group → Group) : (modGroup s core slot f).thr = s.thr := rfl
@[simp] theorem modGroup_bring (s : State) (core slot : Nat) (f : Group → Group) : (modGroup s core slot f).bring = s.bring := rfl
@[simp] theorem modGroup_regs (s : State) (core slot : Nat) (f : Group → Group) : (modGroup s core slot f).regs = s.regs := rfl
@[simp] theorem modGroup_log (s : State) (core slot : Nat) (f : Group → Group) : (modGroup s core slot f).log = s.log := rfl
@[simp] theorem modGroup_drover (s : State) (core slot : Nat) (f : Group → Group) : (modGroup s core slot f).drover = s.drover := rfl
@[simp] theorem modGroup_ctxs (s : State) (core slot : Nat) (f : Group → Group) : (modGroup s core slot f).ctxs = s.ctxs := rfl
@[simp] theorem modGroup_rings (s : State) (core slot : Nat) (f : Group → Group) : (modGroup s core slot f).rings = s.rings := rfl
@[simp] theorem modGroup_passes (s : State) (core slot : Nat) (f : Group → Group) : (modGroup s core slot f).passes = s.passes := rfl
@[simp] theorem modGroup_ports (s : State) (core slot : Nat) (f : Group → Group) : (modGroup s core slot f).ports = s.ports := rfl
@[simp] theorem modGroup_streams (s : State) (core slot : Nat) (f : Group → Group) : (modGroup s core slot f).streams = s.streams := rfl
@[simp] theorem modGroup_fold (s : State) (core slot : Nat) (f : Group → Group) : (modGroup s core slot f).fold = s.fold := rfl
@[simp] theorem modGroup_flocks (s : State) (core slot : Nat) (f : Group → Group) : (modGroup s core slot f).flocks = s.flocks := rfl
@[simp] theorem modGroup_links (s : State) (core slot : Nat) (f : Group → Group) : (modGroup s core slot f).links = s.links := rfl
@[simp] theorem modGroup_net (s : State) (core slot : Nat) (f : Group → Group) : (modGroup s core slot f).net = s.net := rfl
@[simp] theorem modGroup_awl (s : State) (core slot : Nat) (f : Group → Group) : (modGroup s core slot f).awl = s.awl := rfl
@[simp] theorem modGroup_store (s : State) (core slot : Nat) (f : Group → Group) : (modGroup s core slot f).store = s.store := rfl
@[simp] theorem modGroup_chip (s : State) (core slot : Nat) (f : Group → Group) : (modGroup s core slot f).chip = s.chip := rfl
@[simp] theorem modGroup_counters (s : State) (core slot : Nat) (f : Group → Group) : (modGroup s core slot f).counters = s.counters := rfl
@[simp] theorem modGroup_image (s : State) (core slot : Nat) (f : Group → Group) : (modGroup s core slot f).image = s.image := rfl
@[simp] theorem modGroup_ctxCounters (s : State) (core slot : Nat) (f : Group → Group) : (modGroup s core slot f).ctxCounters = s.ctxCounters := rfl
@[simp] theorem modGroup_wrapper (s : State) (core slot : Nat) (f : Group → Group) : (modGroup s core slot f).wrapper = s.wrapper := rfl
@[simp] theorem modGroup_answer (s : State) (core slot : Nat) (f : Group → Group) : (modGroup s core slot f).answer = s.answer := rfl
@[simp] theorem modGroup_cmdChan (s : State) (core slot : Nat) (f : Group → Group) : (modGroup s core slot f).cmdChan = s.cmdChan := rfl
@[simp] theorem modGroup_fabric (s : State) (core slot : Nat) (f : Group → Group) : (modGroup s core slot f).fabric = s.fabric := rfl
@[simp] theorem modGroup_freeCtr (s : State) (core slot : Nat) (f : Group → Group) : (modGroup s core slot f).freeCtr = s.freeCtr := rfl
@[simp] theorem modGroup_formed (s : State) (core slot : Nat) (f : Group → Group) : (modGroup s core slot f).formed = s.formed := rfl

/-! ## modSlice -/

@[simp] theorem modSlice_pending (s : State) (q : Nat) (f : Slice → Slice) : (modSlice s q f).pending = s.pending := rfl
@[simp] theorem modSlice_time (s : State) (q : Nat) (f : Slice → Slice) : (modSlice s q f).time = s.time := rfl
@[simp] theorem modSlice_pins (s : State) (q : Nat) (f : Slice → Slice) : (modSlice s q f).pins = s.pins := rfl
@[simp] theorem modSlice_straps (s : State) (q : Nat) (f : Slice → Slice) : (modSlice s q f).straps = s.straps := rfl
@[simp] theorem modSlice_thr (s : State) (q : Nat) (f : Slice → Slice) : (modSlice s q f).thr = s.thr := rfl
@[simp] theorem modSlice_bring (s : State) (q : Nat) (f : Slice → Slice) : (modSlice s q f).bring = s.bring := rfl
@[simp] theorem modSlice_regs (s : State) (q : Nat) (f : Slice → Slice) : (modSlice s q f).regs = s.regs := rfl
@[simp] theorem modSlice_log (s : State) (q : Nat) (f : Slice → Slice) : (modSlice s q f).log = s.log := rfl
@[simp] theorem modSlice_drover (s : State) (q : Nat) (f : Slice → Slice) : (modSlice s q f).drover = s.drover := rfl
@[simp] theorem modSlice_ctxs (s : State) (q : Nat) (f : Slice → Slice) : (modSlice s q f).ctxs = s.ctxs := rfl
@[simp] theorem modSlice_rings (s : State) (q : Nat) (f : Slice → Slice) : (modSlice s q f).rings = s.rings := rfl
@[simp] theorem modSlice_passes (s : State) (q : Nat) (f : Slice → Slice) : (modSlice s q f).passes = s.passes := rfl
@[simp] theorem modSlice_ports (s : State) (q : Nat) (f : Slice → Slice) : (modSlice s q f).ports = s.ports := rfl
@[simp] theorem modSlice_streams (s : State) (q : Nat) (f : Slice → Slice) : (modSlice s q f).streams = s.streams := rfl
@[simp] theorem modSlice_cores (s : State) (q : Nat) (f : Slice → Slice) : (modSlice s q f).cores = s.cores := rfl
@[simp] theorem modSlice_flocks (s : State) (q : Nat) (f : Slice → Slice) : (modSlice s q f).flocks = s.flocks := rfl
@[simp] theorem modSlice_links (s : State) (q : Nat) (f : Slice → Slice) : (modSlice s q f).links = s.links := rfl
@[simp] theorem modSlice_net (s : State) (q : Nat) (f : Slice → Slice) : (modSlice s q f).net = s.net := rfl
@[simp] theorem modSlice_awl (s : State) (q : Nat) (f : Slice → Slice) : (modSlice s q f).awl = s.awl := rfl
@[simp] theorem modSlice_store (s : State) (q : Nat) (f : Slice → Slice) : (modSlice s q f).store = s.store := rfl
@[simp] theorem modSlice_chip (s : State) (q : Nat) (f : Slice → Slice) : (modSlice s q f).chip = s.chip := rfl
@[simp] theorem modSlice_counters (s : State) (q : Nat) (f : Slice → Slice) : (modSlice s q f).counters = s.counters := rfl
@[simp] theorem modSlice_image (s : State) (q : Nat) (f : Slice → Slice) : (modSlice s q f).image = s.image := rfl
@[simp] theorem modSlice_ctxCounters (s : State) (q : Nat) (f : Slice → Slice) : (modSlice s q f).ctxCounters = s.ctxCounters := rfl
@[simp] theorem modSlice_wrapper (s : State) (q : Nat) (f : Slice → Slice) : (modSlice s q f).wrapper = s.wrapper := rfl
@[simp] theorem modSlice_answer (s : State) (q : Nat) (f : Slice → Slice) : (modSlice s q f).answer = s.answer := rfl
@[simp] theorem modSlice_cmdChan (s : State) (q : Nat) (f : Slice → Slice) : (modSlice s q f).cmdChan = s.cmdChan := rfl
@[simp] theorem modSlice_fabric (s : State) (q : Nat) (f : Slice → Slice) : (modSlice s q f).fabric = s.fabric := rfl
@[simp] theorem modSlice_freeCtr (s : State) (q : Nat) (f : Slice → Slice) : (modSlice s q f).freeCtr = s.freeCtr := rfl
@[simp] theorem modSlice_formed (s : State) (q : Nat) (f : Slice → Slice) : (modSlice s q f).formed = s.formed := rfl

/-! ## modItem -/

@[simp] theorem modItem_pending (s : State) (pass index : Nat) (f : Item → Item) : (modItem s pass index f).pending = s.pending := rfl
@[simp] theorem modItem_time (s : State) (pass index : Nat) (f : Item → Item) : (modItem s pass index f).time = s.time := rfl
@[simp] theorem modItem_pins (s : State) (pass index : Nat) (f : Item → Item) : (modItem s pass index f).pins = s.pins := rfl
@[simp] theorem modItem_straps (s : State) (pass index : Nat) (f : Item → Item) : (modItem s pass index f).straps = s.straps := rfl
@[simp] theorem modItem_thr (s : State) (pass index : Nat) (f : Item → Item) : (modItem s pass index f).thr = s.thr := rfl
@[simp] theorem modItem_bring (s : State) (pass index : Nat) (f : Item → Item) : (modItem s pass index f).bring = s.bring := rfl
@[simp] theorem modItem_regs (s : State) (pass index : Nat) (f : Item → Item) : (modItem s pass index f).regs = s.regs := rfl
@[simp] theorem modItem_log (s : State) (pass index : Nat) (f : Item → Item) : (modItem s pass index f).log = s.log := rfl
@[simp] theorem modItem_drover (s : State) (pass index : Nat) (f : Item → Item) : (modItem s pass index f).drover = s.drover := rfl
@[simp] theorem modItem_ctxs (s : State) (pass index : Nat) (f : Item → Item) : (modItem s pass index f).ctxs = s.ctxs := rfl
@[simp] theorem modItem_rings (s : State) (pass index : Nat) (f : Item → Item) : (modItem s pass index f).rings = s.rings := rfl
@[simp] theorem modItem_passes (s : State) (pass index : Nat) (f : Item → Item) : (modItem s pass index f).passes = s.passes := rfl
@[simp] theorem modItem_ports (s : State) (pass index : Nat) (f : Item → Item) : (modItem s pass index f).ports = s.ports := rfl
@[simp] theorem modItem_streams (s : State) (pass index : Nat) (f : Item → Item) : (modItem s pass index f).streams = s.streams := rfl
@[simp] theorem modItem_cores (s : State) (pass index : Nat) (f : Item → Item) : (modItem s pass index f).cores = s.cores := rfl
@[simp] theorem modItem_flocks (s : State) (pass index : Nat) (f : Item → Item) : (modItem s pass index f).flocks = s.flocks := rfl
@[simp] theorem modItem_links (s : State) (pass index : Nat) (f : Item → Item) : (modItem s pass index f).links = s.links := rfl
@[simp] theorem modItem_net (s : State) (pass index : Nat) (f : Item → Item) : (modItem s pass index f).net = s.net := rfl
@[simp] theorem modItem_awl (s : State) (pass index : Nat) (f : Item → Item) : (modItem s pass index f).awl = s.awl := rfl
@[simp] theorem modItem_store (s : State) (pass index : Nat) (f : Item → Item) : (modItem s pass index f).store = s.store := rfl
@[simp] theorem modItem_chip (s : State) (pass index : Nat) (f : Item → Item) : (modItem s pass index f).chip = s.chip := rfl
@[simp] theorem modItem_counters (s : State) (pass index : Nat) (f : Item → Item) : (modItem s pass index f).counters = s.counters := rfl
@[simp] theorem modItem_image (s : State) (pass index : Nat) (f : Item → Item) : (modItem s pass index f).image = s.image := rfl
@[simp] theorem modItem_ctxCounters (s : State) (pass index : Nat) (f : Item → Item) : (modItem s pass index f).ctxCounters = s.ctxCounters := rfl
@[simp] theorem modItem_wrapper (s : State) (pass index : Nat) (f : Item → Item) : (modItem s pass index f).wrapper = s.wrapper := rfl
@[simp] theorem modItem_answer (s : State) (pass index : Nat) (f : Item → Item) : (modItem s pass index f).answer = s.answer := rfl
@[simp] theorem modItem_cmdChan (s : State) (pass index : Nat) (f : Item → Item) : (modItem s pass index f).cmdChan = s.cmdChan := rfl
@[simp] theorem modItem_fabric (s : State) (pass index : Nat) (f : Item → Item) : (modItem s pass index f).fabric = s.fabric := rfl
@[simp] theorem modItem_freeCtr (s : State) (pass index : Nat) (f : Item → Item) : (modItem s pass index f).freeCtr = s.freeCtr := rfl
@[simp] theorem modItem_formed (s : State) (pass index : Nat) (f : Item → Item) : (modItem s pass index f).formed = s.formed := rfl

/-! ## putStore -/

@[simp] theorem putStore_pending (s : State) (ws : List (Nat × List Byte)) : (putStore s ws).pending = s.pending := rfl
@[simp] theorem putStore_time (s : State) (ws : List (Nat × List Byte)) : (putStore s ws).time = s.time := rfl
@[simp] theorem putStore_pins (s : State) (ws : List (Nat × List Byte)) : (putStore s ws).pins = s.pins := rfl
@[simp] theorem putStore_straps (s : State) (ws : List (Nat × List Byte)) : (putStore s ws).straps = s.straps := rfl
@[simp] theorem putStore_thr (s : State) (ws : List (Nat × List Byte)) : (putStore s ws).thr = s.thr := rfl
@[simp] theorem putStore_bring (s : State) (ws : List (Nat × List Byte)) : (putStore s ws).bring = s.bring := rfl
@[simp] theorem putStore_regs (s : State) (ws : List (Nat × List Byte)) : (putStore s ws).regs = s.regs := rfl
@[simp] theorem putStore_log (s : State) (ws : List (Nat × List Byte)) : (putStore s ws).log = s.log := rfl
@[simp] theorem putStore_drover (s : State) (ws : List (Nat × List Byte)) : (putStore s ws).drover = s.drover := rfl
@[simp] theorem putStore_ctxs (s : State) (ws : List (Nat × List Byte)) : (putStore s ws).ctxs = s.ctxs := rfl
@[simp] theorem putStore_rings (s : State) (ws : List (Nat × List Byte)) : (putStore s ws).rings = s.rings := rfl
@[simp] theorem putStore_passes (s : State) (ws : List (Nat × List Byte)) : (putStore s ws).passes = s.passes := rfl
@[simp] theorem putStore_ports (s : State) (ws : List (Nat × List Byte)) : (putStore s ws).ports = s.ports := rfl
@[simp] theorem putStore_streams (s : State) (ws : List (Nat × List Byte)) : (putStore s ws).streams = s.streams := rfl
@[simp] theorem putStore_fold (s : State) (ws : List (Nat × List Byte)) : (putStore s ws).fold = s.fold := rfl
@[simp] theorem putStore_cores (s : State) (ws : List (Nat × List Byte)) : (putStore s ws).cores = s.cores := rfl
@[simp] theorem putStore_flocks (s : State) (ws : List (Nat × List Byte)) : (putStore s ws).flocks = s.flocks := rfl
@[simp] theorem putStore_links (s : State) (ws : List (Nat × List Byte)) : (putStore s ws).links = s.links := rfl
@[simp] theorem putStore_net (s : State) (ws : List (Nat × List Byte)) : (putStore s ws).net = s.net := rfl
@[simp] theorem putStore_awl (s : State) (ws : List (Nat × List Byte)) : (putStore s ws).awl = s.awl := rfl
@[simp] theorem putStore_store (s : State) (ws : List (Nat × List Byte)) : (putStore s ws).store = storeWrites s.store ws := rfl
@[simp] theorem putStore_chip (s : State) (ws : List (Nat × List Byte)) : (putStore s ws).chip = s.chip := rfl
@[simp] theorem putStore_counters (s : State) (ws : List (Nat × List Byte)) : (putStore s ws).counters = s.counters := rfl
@[simp] theorem putStore_image (s : State) (ws : List (Nat × List Byte)) : (putStore s ws).image = s.image := rfl
@[simp] theorem putStore_ctxCounters (s : State) (ws : List (Nat × List Byte)) : (putStore s ws).ctxCounters = s.ctxCounters := rfl
@[simp] theorem putStore_wrapper (s : State) (ws : List (Nat × List Byte)) : (putStore s ws).wrapper = s.wrapper := rfl
@[simp] theorem putStore_answer (s : State) (ws : List (Nat × List Byte)) : (putStore s ws).answer = s.answer := rfl
@[simp] theorem putStore_cmdChan (s : State) (ws : List (Nat × List Byte)) : (putStore s ws).cmdChan = s.cmdChan := rfl
@[simp] theorem putStore_fabric (s : State) (ws : List (Nat × List Byte)) : (putStore s ws).fabric = s.fabric := rfl
@[simp] theorem putStore_freeCtr (s : State) (ws : List (Nat × List Byte)) : (putStore s ws).freeCtr = s.freeCtr := rfl
@[simp] theorem putStore_formed (s : State) (ws : List (Nat × List Byte)) : (putStore s ws).formed = s.formed := rfl

/-! ## modLink -/

@[simp] theorem modLink_pending (s : State) (l : LinkSide) (f : Link → Link) : (modLink s l f).pending = s.pending := rfl
@[simp] theorem modLink_time (s : State) (l : LinkSide) (f : Link → Link) : (modLink s l f).time = s.time := rfl
@[simp] theorem modLink_pins (s : State) (l : LinkSide) (f : Link → Link) : (modLink s l f).pins = s.pins := rfl
@[simp] theorem modLink_straps (s : State) (l : LinkSide) (f : Link → Link) : (modLink s l f).straps = s.straps := rfl
@[simp] theorem modLink_thr (s : State) (l : LinkSide) (f : Link → Link) : (modLink s l f).thr = s.thr := rfl
@[simp] theorem modLink_bring (s : State) (l : LinkSide) (f : Link → Link) : (modLink s l f).bring = s.bring := rfl
@[simp] theorem modLink_regs (s : State) (l : LinkSide) (f : Link → Link) : (modLink s l f).regs = s.regs := rfl
@[simp] theorem modLink_log (s : State) (l : LinkSide) (f : Link → Link) : (modLink s l f).log = s.log := rfl
@[simp] theorem modLink_drover (s : State) (l : LinkSide) (f : Link → Link) : (modLink s l f).drover = s.drover := rfl
@[simp] theorem modLink_ctxs (s : State) (l : LinkSide) (f : Link → Link) : (modLink s l f).ctxs = s.ctxs := rfl
@[simp] theorem modLink_rings (s : State) (l : LinkSide) (f : Link → Link) : (modLink s l f).rings = s.rings := rfl
@[simp] theorem modLink_passes (s : State) (l : LinkSide) (f : Link → Link) : (modLink s l f).passes = s.passes := rfl
@[simp] theorem modLink_ports (s : State) (l : LinkSide) (f : Link → Link) : (modLink s l f).ports = s.ports := rfl
@[simp] theorem modLink_streams (s : State) (l : LinkSide) (f : Link → Link) : (modLink s l f).streams = s.streams := rfl
@[simp] theorem modLink_fold (s : State) (l : LinkSide) (f : Link → Link) : (modLink s l f).fold = s.fold := rfl
@[simp] theorem modLink_cores (s : State) (l : LinkSide) (f : Link → Link) : (modLink s l f).cores = s.cores := rfl
@[simp] theorem modLink_flocks (s : State) (l : LinkSide) (f : Link → Link) : (modLink s l f).flocks = s.flocks := rfl
@[simp] theorem modLink_links (s : State) (l : LinkSide) (f : Link → Link) : (modLink s l f).links = modAt s.links (linkIx l) f := rfl
@[simp] theorem modLink_net (s : State) (l : LinkSide) (f : Link → Link) : (modLink s l f).net = s.net := rfl
@[simp] theorem modLink_awl (s : State) (l : LinkSide) (f : Link → Link) : (modLink s l f).awl = s.awl := rfl
@[simp] theorem modLink_store (s : State) (l : LinkSide) (f : Link → Link) : (modLink s l f).store = s.store := rfl
@[simp] theorem modLink_chip (s : State) (l : LinkSide) (f : Link → Link) : (modLink s l f).chip = s.chip := rfl
@[simp] theorem modLink_counters (s : State) (l : LinkSide) (f : Link → Link) : (modLink s l f).counters = s.counters := rfl
@[simp] theorem modLink_image (s : State) (l : LinkSide) (f : Link → Link) : (modLink s l f).image = s.image := rfl
@[simp] theorem modLink_ctxCounters (s : State) (l : LinkSide) (f : Link → Link) : (modLink s l f).ctxCounters = s.ctxCounters := rfl
@[simp] theorem modLink_wrapper (s : State) (l : LinkSide) (f : Link → Link) : (modLink s l f).wrapper = s.wrapper := rfl
@[simp] theorem modLink_answer (s : State) (l : LinkSide) (f : Link → Link) : (modLink s l f).answer = s.answer := rfl
@[simp] theorem modLink_cmdChan (s : State) (l : LinkSide) (f : Link → Link) : (modLink s l f).cmdChan = s.cmdChan := rfl
@[simp] theorem modLink_fabric (s : State) (l : LinkSide) (f : Link → Link) : (modLink s l f).fabric = s.fabric := rfl
@[simp] theorem modLink_freeCtr (s : State) (l : LinkSide) (f : Link → Link) : (modLink s l f).freeCtr = s.freeCtr := rfl
@[simp] theorem modLink_formed (s : State) (l : LinkSide) (f : Link → Link) : (modLink s l f).formed = s.formed := rfl

/-! ## sendCtrl -/

@[simp] theorem sendCtrl_pending (s : State) (l : LinkSide) (p : List Byte) : (sendCtrl s l p).pending = s.pending := rfl
@[simp] theorem sendCtrl_time (s : State) (l : LinkSide) (p : List Byte) : (sendCtrl s l p).time = s.time := rfl
@[simp] theorem sendCtrl_pins (s : State) (l : LinkSide) (p : List Byte) : (sendCtrl s l p).pins = s.pins := rfl
@[simp] theorem sendCtrl_straps (s : State) (l : LinkSide) (p : List Byte) : (sendCtrl s l p).straps = s.straps := rfl
@[simp] theorem sendCtrl_thr (s : State) (l : LinkSide) (p : List Byte) : (sendCtrl s l p).thr = s.thr := rfl
@[simp] theorem sendCtrl_bring (s : State) (l : LinkSide) (p : List Byte) : (sendCtrl s l p).bring = s.bring := rfl
@[simp] theorem sendCtrl_regs (s : State) (l : LinkSide) (p : List Byte) : (sendCtrl s l p).regs = s.regs := rfl
@[simp] theorem sendCtrl_log (s : State) (l : LinkSide) (p : List Byte) : (sendCtrl s l p).log = s.log := rfl
@[simp] theorem sendCtrl_drover (s : State) (l : LinkSide) (p : List Byte) : (sendCtrl s l p).drover = s.drover := rfl
@[simp] theorem sendCtrl_ctxs (s : State) (l : LinkSide) (p : List Byte) : (sendCtrl s l p).ctxs = s.ctxs := rfl
@[simp] theorem sendCtrl_rings (s : State) (l : LinkSide) (p : List Byte) : (sendCtrl s l p).rings = s.rings := rfl
@[simp] theorem sendCtrl_passes (s : State) (l : LinkSide) (p : List Byte) : (sendCtrl s l p).passes = s.passes := rfl
@[simp] theorem sendCtrl_ports (s : State) (l : LinkSide) (p : List Byte) : (sendCtrl s l p).ports = s.ports := rfl
@[simp] theorem sendCtrl_streams (s : State) (l : LinkSide) (p : List Byte) : (sendCtrl s l p).streams = s.streams := rfl
@[simp] theorem sendCtrl_fold (s : State) (l : LinkSide) (p : List Byte) : (sendCtrl s l p).fold = s.fold := rfl
@[simp] theorem sendCtrl_cores (s : State) (l : LinkSide) (p : List Byte) : (sendCtrl s l p).cores = s.cores := rfl
@[simp] theorem sendCtrl_flocks (s : State) (l : LinkSide) (p : List Byte) : (sendCtrl s l p).flocks = s.flocks := rfl
@[simp] theorem sendCtrl_net (s : State) (l : LinkSide) (p : List Byte) : (sendCtrl s l p).net = s.net := rfl
@[simp] theorem sendCtrl_awl (s : State) (l : LinkSide) (p : List Byte) : (sendCtrl s l p).awl = s.awl := rfl
@[simp] theorem sendCtrl_store (s : State) (l : LinkSide) (p : List Byte) : (sendCtrl s l p).store = s.store := rfl
@[simp] theorem sendCtrl_chip (s : State) (l : LinkSide) (p : List Byte) : (sendCtrl s l p).chip = s.chip := rfl
@[simp] theorem sendCtrl_counters (s : State) (l : LinkSide) (p : List Byte) : (sendCtrl s l p).counters = s.counters := rfl
@[simp] theorem sendCtrl_image (s : State) (l : LinkSide) (p : List Byte) : (sendCtrl s l p).image = s.image := rfl
@[simp] theorem sendCtrl_ctxCounters (s : State) (l : LinkSide) (p : List Byte) : (sendCtrl s l p).ctxCounters = s.ctxCounters := rfl
@[simp] theorem sendCtrl_wrapper (s : State) (l : LinkSide) (p : List Byte) : (sendCtrl s l p).wrapper = s.wrapper := rfl
@[simp] theorem sendCtrl_answer (s : State) (l : LinkSide) (p : List Byte) : (sendCtrl s l p).answer = s.answer := rfl
@[simp] theorem sendCtrl_cmdChan (s : State) (l : LinkSide) (p : List Byte) : (sendCtrl s l p).cmdChan = s.cmdChan := rfl
@[simp] theorem sendCtrl_fabric (s : State) (l : LinkSide) (p : List Byte) : (sendCtrl s l p).fabric = s.fabric := rfl
@[simp] theorem sendCtrl_freeCtr (s : State) (l : LinkSide) (p : List Byte) : (sendCtrl s l p).freeCtr = s.freeCtr := rfl
@[simp] theorem sendCtrl_formed (s : State) (l : LinkSide) (p : List Byte) : (sendCtrl s l p).formed = s.formed := rfl

/-! ## queueData -/

@[simp] theorem queueData_pending (s : State) (l : LinkSide) (os : List OutFlit) : (queueData s l os).pending = s.pending := rfl
@[simp] theorem queueData_time (s : State) (l : LinkSide) (os : List OutFlit) : (queueData s l os).time = s.time := rfl
@[simp] theorem queueData_pins (s : State) (l : LinkSide) (os : List OutFlit) : (queueData s l os).pins = s.pins := rfl
@[simp] theorem queueData_straps (s : State) (l : LinkSide) (os : List OutFlit) : (queueData s l os).straps = s.straps := rfl
@[simp] theorem queueData_thr (s : State) (l : LinkSide) (os : List OutFlit) : (queueData s l os).thr = s.thr := rfl
@[simp] theorem queueData_bring (s : State) (l : LinkSide) (os : List OutFlit) : (queueData s l os).bring = s.bring := rfl
@[simp] theorem queueData_regs (s : State) (l : LinkSide) (os : List OutFlit) : (queueData s l os).regs = s.regs := rfl
@[simp] theorem queueData_log (s : State) (l : LinkSide) (os : List OutFlit) : (queueData s l os).log = s.log := rfl
@[simp] theorem queueData_drover (s : State) (l : LinkSide) (os : List OutFlit) : (queueData s l os).drover = s.drover := rfl
@[simp] theorem queueData_ctxs (s : State) (l : LinkSide) (os : List OutFlit) : (queueData s l os).ctxs = s.ctxs := rfl
@[simp] theorem queueData_rings (s : State) (l : LinkSide) (os : List OutFlit) : (queueData s l os).rings = s.rings := rfl
@[simp] theorem queueData_passes (s : State) (l : LinkSide) (os : List OutFlit) : (queueData s l os).passes = s.passes := rfl
@[simp] theorem queueData_ports (s : State) (l : LinkSide) (os : List OutFlit) : (queueData s l os).ports = s.ports := rfl
@[simp] theorem queueData_streams (s : State) (l : LinkSide) (os : List OutFlit) : (queueData s l os).streams = s.streams := rfl
@[simp] theorem queueData_fold (s : State) (l : LinkSide) (os : List OutFlit) : (queueData s l os).fold = s.fold := rfl
@[simp] theorem queueData_cores (s : State) (l : LinkSide) (os : List OutFlit) : (queueData s l os).cores = s.cores := rfl
@[simp] theorem queueData_flocks (s : State) (l : LinkSide) (os : List OutFlit) : (queueData s l os).flocks = s.flocks := rfl
@[simp] theorem queueData_net (s : State) (l : LinkSide) (os : List OutFlit) : (queueData s l os).net = s.net := rfl
@[simp] theorem queueData_awl (s : State) (l : LinkSide) (os : List OutFlit) : (queueData s l os).awl = s.awl := rfl
@[simp] theorem queueData_store (s : State) (l : LinkSide) (os : List OutFlit) : (queueData s l os).store = s.store := rfl
@[simp] theorem queueData_chip (s : State) (l : LinkSide) (os : List OutFlit) : (queueData s l os).chip = s.chip := rfl
@[simp] theorem queueData_counters (s : State) (l : LinkSide) (os : List OutFlit) : (queueData s l os).counters = s.counters := rfl
@[simp] theorem queueData_image (s : State) (l : LinkSide) (os : List OutFlit) : (queueData s l os).image = s.image := rfl
@[simp] theorem queueData_ctxCounters (s : State) (l : LinkSide) (os : List OutFlit) : (queueData s l os).ctxCounters = s.ctxCounters := rfl
@[simp] theorem queueData_wrapper (s : State) (l : LinkSide) (os : List OutFlit) : (queueData s l os).wrapper = s.wrapper := rfl
@[simp] theorem queueData_answer (s : State) (l : LinkSide) (os : List OutFlit) : (queueData s l os).answer = s.answer := rfl
@[simp] theorem queueData_cmdChan (s : State) (l : LinkSide) (os : List OutFlit) : (queueData s l os).cmdChan = s.cmdChan := rfl
@[simp] theorem queueData_fabric (s : State) (l : LinkSide) (os : List OutFlit) : (queueData s l os).fabric = s.fabric := rfl
@[simp] theorem queueData_freeCtr (s : State) (l : LinkSide) (os : List OutFlit) : (queueData s l os).freeCtr = s.freeCtr := rfl
@[simp] theorem queueData_formed (s : State) (l : LinkSide) (os : List OutFlit) : (queueData s l os).formed = s.formed := rfl

/-! ## commitStatus -/

@[simp] theorem commitStatus_pending (s : State) (c : Nat) (busy : Bool) (r : BitVec 3) : (commitStatus s c busy r).pending = s.pending := rfl
@[simp] theorem commitStatus_time (s : State) (c : Nat) (busy : Bool) (r : BitVec 3) : (commitStatus s c busy r).time = s.time := rfl
@[simp] theorem commitStatus_pins (s : State) (c : Nat) (busy : Bool) (r : BitVec 3) : (commitStatus s c busy r).pins = s.pins := rfl
@[simp] theorem commitStatus_straps (s : State) (c : Nat) (busy : Bool) (r : BitVec 3) : (commitStatus s c busy r).straps = s.straps := rfl
@[simp] theorem commitStatus_thr (s : State) (c : Nat) (busy : Bool) (r : BitVec 3) : (commitStatus s c busy r).thr = s.thr := rfl
@[simp] theorem commitStatus_bring (s : State) (c : Nat) (busy : Bool) (r : BitVec 3) : (commitStatus s c busy r).bring = s.bring := rfl
@[simp] theorem commitStatus_log (s : State) (c : Nat) (busy : Bool) (r : BitVec 3) : (commitStatus s c busy r).log = s.log := rfl
@[simp] theorem commitStatus_drover (s : State) (c : Nat) (busy : Bool) (r : BitVec 3) : (commitStatus s c busy r).drover = s.drover := rfl
@[simp] theorem commitStatus_ctxs (s : State) (c : Nat) (busy : Bool) (r : BitVec 3) : (commitStatus s c busy r).ctxs = s.ctxs := rfl
@[simp] theorem commitStatus_rings (s : State) (c : Nat) (busy : Bool) (r : BitVec 3) : (commitStatus s c busy r).rings = s.rings := rfl
@[simp] theorem commitStatus_passes (s : State) (c : Nat) (busy : Bool) (r : BitVec 3) : (commitStatus s c busy r).passes = s.passes := rfl
@[simp] theorem commitStatus_ports (s : State) (c : Nat) (busy : Bool) (r : BitVec 3) : (commitStatus s c busy r).ports = s.ports := rfl
@[simp] theorem commitStatus_streams (s : State) (c : Nat) (busy : Bool) (r : BitVec 3) : (commitStatus s c busy r).streams = s.streams := rfl
@[simp] theorem commitStatus_fold (s : State) (c : Nat) (busy : Bool) (r : BitVec 3) : (commitStatus s c busy r).fold = s.fold := rfl
@[simp] theorem commitStatus_cores (s : State) (c : Nat) (busy : Bool) (r : BitVec 3) : (commitStatus s c busy r).cores = s.cores := rfl
@[simp] theorem commitStatus_flocks (s : State) (c : Nat) (busy : Bool) (r : BitVec 3) : (commitStatus s c busy r).flocks = s.flocks := rfl
@[simp] theorem commitStatus_links (s : State) (c : Nat) (busy : Bool) (r : BitVec 3) : (commitStatus s c busy r).links = s.links := rfl
@[simp] theorem commitStatus_net (s : State) (c : Nat) (busy : Bool) (r : BitVec 3) : (commitStatus s c busy r).net = s.net := rfl
@[simp] theorem commitStatus_awl (s : State) (c : Nat) (busy : Bool) (r : BitVec 3) : (commitStatus s c busy r).awl = s.awl := rfl
@[simp] theorem commitStatus_store (s : State) (c : Nat) (busy : Bool) (r : BitVec 3) : (commitStatus s c busy r).store = s.store := rfl
@[simp] theorem commitStatus_chip (s : State) (c : Nat) (busy : Bool) (r : BitVec 3) : (commitStatus s c busy r).chip = s.chip := rfl
@[simp] theorem commitStatus_counters (s : State) (c : Nat) (busy : Bool) (r : BitVec 3) : (commitStatus s c busy r).counters = s.counters := rfl
@[simp] theorem commitStatus_image (s : State) (c : Nat) (busy : Bool) (r : BitVec 3) : (commitStatus s c busy r).image = s.image := rfl
@[simp] theorem commitStatus_ctxCounters (s : State) (c : Nat) (busy : Bool) (r : BitVec 3) : (commitStatus s c busy r).ctxCounters = s.ctxCounters := rfl
@[simp] theorem commitStatus_wrapper (s : State) (c : Nat) (busy : Bool) (r : BitVec 3) : (commitStatus s c busy r).wrapper = s.wrapper := rfl
@[simp] theorem commitStatus_answer (s : State) (c : Nat) (busy : Bool) (r : BitVec 3) : (commitStatus s c busy r).answer = s.answer := rfl
@[simp] theorem commitStatus_cmdChan (s : State) (c : Nat) (busy : Bool) (r : BitVec 3) : (commitStatus s c busy r).cmdChan = s.cmdChan := rfl
@[simp] theorem commitStatus_fabric (s : State) (c : Nat) (busy : Bool) (r : BitVec 3) : (commitStatus s c busy r).fabric = s.fabric := rfl
@[simp] theorem commitStatus_freeCtr (s : State) (c : Nat) (busy : Bool) (r : BitVec 3) : (commitStatus s c busy r).freeCtr = s.freeCtr := rfl
@[simp] theorem commitStatus_formed (s : State) (c : Nat) (busy : Bool) (r : BitVec 3) : (commitStatus s c busy r).formed = s.formed := rfl

/-! ## kmEnd -/

@[simp] theorem kmEnd_pending (s : State) (r : Byte) : (kmEnd s r).pending = s.pending := rfl
@[simp] theorem kmEnd_time (s : State) (r : Byte) : (kmEnd s r).time = s.time := rfl
@[simp] theorem kmEnd_pins (s : State) (r : Byte) : (kmEnd s r).pins = s.pins := rfl
@[simp] theorem kmEnd_straps (s : State) (r : Byte) : (kmEnd s r).straps = s.straps := rfl
@[simp] theorem kmEnd_thr (s : State) (r : Byte) : (kmEnd s r).thr = s.thr := rfl
@[simp] theorem kmEnd_bring (s : State) (r : Byte) : (kmEnd s r).bring = s.bring := rfl
@[simp] theorem kmEnd_log (s : State) (r : Byte) : (kmEnd s r).log = s.log := rfl
@[simp] theorem kmEnd_drover (s : State) (r : Byte) : (kmEnd s r).drover = s.drover := rfl
@[simp] theorem kmEnd_ctxs (s : State) (r : Byte) : (kmEnd s r).ctxs = s.ctxs := rfl
@[simp] theorem kmEnd_rings (s : State) (r : Byte) : (kmEnd s r).rings = s.rings := rfl
@[simp] theorem kmEnd_passes (s : State) (r : Byte) : (kmEnd s r).passes = s.passes := rfl
@[simp] theorem kmEnd_ports (s : State) (r : Byte) : (kmEnd s r).ports = s.ports := rfl
@[simp] theorem kmEnd_streams (s : State) (r : Byte) : (kmEnd s r).streams = s.streams := rfl
@[simp] theorem kmEnd_fold (s : State) (r : Byte) : (kmEnd s r).fold = s.fold := rfl
@[simp] theorem kmEnd_cores (s : State) (r : Byte) : (kmEnd s r).cores = s.cores := rfl
@[simp] theorem kmEnd_flocks (s : State) (r : Byte) : (kmEnd s r).flocks = s.flocks := rfl
@[simp] theorem kmEnd_links (s : State) (r : Byte) : (kmEnd s r).links = s.links := rfl
@[simp] theorem kmEnd_net (s : State) (r : Byte) : (kmEnd s r).net = s.net := rfl
@[simp] theorem kmEnd_awl (s : State) (r : Byte) : (kmEnd s r).awl = s.awl := rfl
@[simp] theorem kmEnd_store (s : State) (r : Byte) : (kmEnd s r).store = s.store := rfl
@[simp] theorem kmEnd_chip (s : State) (r : Byte) : (kmEnd s r).chip = s.chip := rfl
@[simp] theorem kmEnd_counters (s : State) (r : Byte) : (kmEnd s r).counters = s.counters := rfl
@[simp] theorem kmEnd_image (s : State) (r : Byte) : (kmEnd s r).image = s.image := rfl
@[simp] theorem kmEnd_ctxCounters (s : State) (r : Byte) : (kmEnd s r).ctxCounters = s.ctxCounters := rfl
@[simp] theorem kmEnd_wrapper (s : State) (r : Byte) : (kmEnd s r).wrapper = s.wrapper := rfl
@[simp] theorem kmEnd_answer (s : State) (r : Byte) : (kmEnd s r).answer = s.answer := rfl
@[simp] theorem kmEnd_cmdChan (s : State) (r : Byte) : (kmEnd s r).cmdChan = s.cmdChan := rfl
@[simp] theorem kmEnd_fabric (s : State) (r : Byte) : (kmEnd s r).fabric = s.fabric := rfl
@[simp] theorem kmEnd_freeCtr (s : State) (r : Byte) : (kmEnd s r).freeCtr = s.freeCtr := rfl
@[simp] theorem kmEnd_formed (s : State) (r : Byte) : (kmEnd s r).formed = s.formed := rfl

/-! ## setRender -/

@[simp] theorem setRender_pending (s : State) (slot : Nat) (b : RenderBody) : (setRender s slot b).pending = s.pending := rfl
@[simp] theorem setRender_time (s : State) (slot : Nat) (b : RenderBody) : (setRender s slot b).time = s.time := rfl
@[simp] theorem setRender_pins (s : State) (slot : Nat) (b : RenderBody) : (setRender s slot b).pins = s.pins := rfl
@[simp] theorem setRender_straps (s : State) (slot : Nat) (b : RenderBody) : (setRender s slot b).straps = s.straps := rfl
@[simp] theorem setRender_thr (s : State) (slot : Nat) (b : RenderBody) : (setRender s slot b).thr = s.thr := rfl
@[simp] theorem setRender_bring (s : State) (slot : Nat) (b : RenderBody) : (setRender s slot b).bring = s.bring := rfl
@[simp] theorem setRender_regs (s : State) (slot : Nat) (b : RenderBody) : (setRender s slot b).regs = s.regs := rfl
@[simp] theorem setRender_log (s : State) (slot : Nat) (b : RenderBody) : (setRender s slot b).log = s.log := rfl
@[simp] theorem setRender_drover (s : State) (slot : Nat) (b : RenderBody) : (setRender s slot b).drover = s.drover := rfl
@[simp] theorem setRender_ctxs (s : State) (slot : Nat) (b : RenderBody) : (setRender s slot b).ctxs = s.ctxs := rfl
@[simp] theorem setRender_rings (s : State) (slot : Nat) (b : RenderBody) : (setRender s slot b).rings = s.rings := rfl
@[simp] theorem setRender_ports (s : State) (slot : Nat) (b : RenderBody) : (setRender s slot b).ports = s.ports := rfl
@[simp] theorem setRender_streams (s : State) (slot : Nat) (b : RenderBody) : (setRender s slot b).streams = s.streams := rfl
@[simp] theorem setRender_fold (s : State) (slot : Nat) (b : RenderBody) : (setRender s slot b).fold = s.fold := rfl
@[simp] theorem setRender_cores (s : State) (slot : Nat) (b : RenderBody) : (setRender s slot b).cores = s.cores := rfl
@[simp] theorem setRender_flocks (s : State) (slot : Nat) (b : RenderBody) : (setRender s slot b).flocks = s.flocks := rfl
@[simp] theorem setRender_links (s : State) (slot : Nat) (b : RenderBody) : (setRender s slot b).links = s.links := rfl
@[simp] theorem setRender_net (s : State) (slot : Nat) (b : RenderBody) : (setRender s slot b).net = s.net := rfl
@[simp] theorem setRender_awl (s : State) (slot : Nat) (b : RenderBody) : (setRender s slot b).awl = s.awl := rfl
@[simp] theorem setRender_store (s : State) (slot : Nat) (b : RenderBody) : (setRender s slot b).store = s.store := rfl
@[simp] theorem setRender_chip (s : State) (slot : Nat) (b : RenderBody) : (setRender s slot b).chip = s.chip := rfl
@[simp] theorem setRender_counters (s : State) (slot : Nat) (b : RenderBody) : (setRender s slot b).counters = s.counters := rfl
@[simp] theorem setRender_image (s : State) (slot : Nat) (b : RenderBody) : (setRender s slot b).image = s.image := rfl
@[simp] theorem setRender_ctxCounters (s : State) (slot : Nat) (b : RenderBody) : (setRender s slot b).ctxCounters = s.ctxCounters := rfl
@[simp] theorem setRender_wrapper (s : State) (slot : Nat) (b : RenderBody) : (setRender s slot b).wrapper = s.wrapper := rfl
@[simp] theorem setRender_answer (s : State) (slot : Nat) (b : RenderBody) : (setRender s slot b).answer = s.answer := rfl
@[simp] theorem setRender_cmdChan (s : State) (slot : Nat) (b : RenderBody) : (setRender s slot b).cmdChan = s.cmdChan := rfl
@[simp] theorem setRender_fabric (s : State) (slot : Nat) (b : RenderBody) : (setRender s slot b).fabric = s.fabric := rfl
@[simp] theorem setRender_freeCtr (s : State) (slot : Nat) (b : RenderBody) : (setRender s slot b).freeCtr = s.freeCtr := rfl
@[simp] theorem setRender_formed (s : State) (slot : Nat) (b : RenderBody) : (setRender s slot b).formed = s.formed := rfl

/-! ## modCtx, whose context may not exist -/

@[simp] theorem modCtx_pending (s : State) (c : Nat) (f : Ctx → Ctx) : (modCtx s c f).pending = s.pending := by
  unfold modCtx; split <;> rfl
@[simp] theorem modCtx_time (s : State) (c : Nat) (f : Ctx → Ctx) : (modCtx s c f).time = s.time := by
  unfold modCtx; split <;> rfl
@[simp] theorem modCtx_pins (s : State) (c : Nat) (f : Ctx → Ctx) : (modCtx s c f).pins = s.pins := by
  unfold modCtx; split <;> rfl
@[simp] theorem modCtx_straps (s : State) (c : Nat) (f : Ctx → Ctx) : (modCtx s c f).straps = s.straps := by
  unfold modCtx; split <;> rfl
@[simp] theorem modCtx_thr (s : State) (c : Nat) (f : Ctx → Ctx) : (modCtx s c f).thr = s.thr := by
  unfold modCtx; split <;> rfl
@[simp] theorem modCtx_bring (s : State) (c : Nat) (f : Ctx → Ctx) : (modCtx s c f).bring = s.bring := by
  unfold modCtx; split <;> rfl
@[simp] theorem modCtx_regs (s : State) (c : Nat) (f : Ctx → Ctx) : (modCtx s c f).regs = s.regs := by
  unfold modCtx; split <;> rfl
@[simp] theorem modCtx_log (s : State) (c : Nat) (f : Ctx → Ctx) : (modCtx s c f).log = s.log := by
  unfold modCtx; split <;> rfl
@[simp] theorem modCtx_drover (s : State) (c : Nat) (f : Ctx → Ctx) : (modCtx s c f).drover = s.drover := by
  unfold modCtx; split <;> rfl
@[simp] theorem modCtx_rings (s : State) (c : Nat) (f : Ctx → Ctx) : (modCtx s c f).rings = s.rings := by
  unfold modCtx; split <;> rfl
@[simp] theorem modCtx_passes (s : State) (c : Nat) (f : Ctx → Ctx) : (modCtx s c f).passes = s.passes := by
  unfold modCtx; split <;> rfl
@[simp] theorem modCtx_ports (s : State) (c : Nat) (f : Ctx → Ctx) : (modCtx s c f).ports = s.ports := by
  unfold modCtx; split <;> rfl
@[simp] theorem modCtx_streams (s : State) (c : Nat) (f : Ctx → Ctx) : (modCtx s c f).streams = s.streams := by
  unfold modCtx; split <;> rfl
@[simp] theorem modCtx_fold (s : State) (c : Nat) (f : Ctx → Ctx) : (modCtx s c f).fold = s.fold := by
  unfold modCtx; split <;> rfl
@[simp] theorem modCtx_cores (s : State) (c : Nat) (f : Ctx → Ctx) : (modCtx s c f).cores = s.cores := by
  unfold modCtx; split <;> rfl
@[simp] theorem modCtx_flocks (s : State) (c : Nat) (f : Ctx → Ctx) : (modCtx s c f).flocks = s.flocks := by
  unfold modCtx; split <;> rfl
@[simp] theorem modCtx_links (s : State) (c : Nat) (f : Ctx → Ctx) : (modCtx s c f).links = s.links := by
  unfold modCtx; split <;> rfl
@[simp] theorem modCtx_net (s : State) (c : Nat) (f : Ctx → Ctx) : (modCtx s c f).net = s.net := by
  unfold modCtx; split <;> rfl
@[simp] theorem modCtx_awl (s : State) (c : Nat) (f : Ctx → Ctx) : (modCtx s c f).awl = s.awl := by
  unfold modCtx; split <;> rfl
@[simp] theorem modCtx_store (s : State) (c : Nat) (f : Ctx → Ctx) : (modCtx s c f).store = s.store := by
  unfold modCtx; split <;> rfl
@[simp] theorem modCtx_chip (s : State) (c : Nat) (f : Ctx → Ctx) : (modCtx s c f).chip = s.chip := by
  unfold modCtx; split <;> rfl
@[simp] theorem modCtx_counters (s : State) (c : Nat) (f : Ctx → Ctx) : (modCtx s c f).counters = s.counters := by
  unfold modCtx; split <;> rfl
@[simp] theorem modCtx_image (s : State) (c : Nat) (f : Ctx → Ctx) : (modCtx s c f).image = s.image := by
  unfold modCtx; split <;> rfl
@[simp] theorem modCtx_ctxCounters (s : State) (c : Nat) (f : Ctx → Ctx) : (modCtx s c f).ctxCounters = s.ctxCounters := by
  unfold modCtx; split <;> rfl
@[simp] theorem modCtx_wrapper (s : State) (c : Nat) (f : Ctx → Ctx) : (modCtx s c f).wrapper = s.wrapper := by
  unfold modCtx; split <;> rfl
@[simp] theorem modCtx_answer (s : State) (c : Nat) (f : Ctx → Ctx) : (modCtx s c f).answer = s.answer := by
  unfold modCtx; split <;> rfl
@[simp] theorem modCtx_cmdChan (s : State) (c : Nat) (f : Ctx → Ctx) : (modCtx s c f).cmdChan = s.cmdChan := by
  unfold modCtx; split <;> rfl
@[simp] theorem modCtx_fabric (s : State) (c : Nat) (f : Ctx → Ctx) : (modCtx s c f).fabric = s.fabric := by
  unfold modCtx; split <;> rfl
@[simp] theorem modCtx_freeCtr (s : State) (c : Nat) (f : Ctx → Ctx) : (modCtx s c f).freeCtr = s.freeCtr := by
  unfold modCtx; split <;> rfl
@[simp] theorem modCtx_formed (s : State) (c : Nat) (f : Ctx → Ctx) : (modCtx s c f).formed = s.formed := by
  unfold modCtx; split <;> rfl

/-! ## A list changed at a position, and the links -/

theorem modAt_getD {α : Type} (xs : List α) (i : Nat) (f : α → α) (d : α) (h : i < xs.length) :
    (modAt xs i f).getD i d = f (xs.getD i d) := by
  induction xs generalizing i with
  | nil => simp at h
  | cons a r ih =>
    cases i with
    | zero => simp [modAt]
    | succ i => simp [modAt] at h ⊢; simpa using ih i h

theorem modAt_modAt {α : Type} (xs : List α) (i : Nat) (f g : α → α) : modAt (modAt xs i f) i g = modAt xs i (g ∘ f) := by
  induction xs generalizing i with
  | nil => rfl
  | cons a r ih =>
    cases i with
    | zero => rfl
    | succ i => simp [modAt, ih]

/-- Two changes that agree on what stands at the position make the same list. -/
theorem modAt_congr {α : Type} (xs : List α) (i : Nat) (f g : α → α) (d : α) (h : f (xs.getD i d) = g (xs.getD i d)) :
    modAt xs i f = modAt xs i g := by
  induction xs generalizing i with
  | nil => rfl
  | cons a r ih =>
    cases i with
    | zero => simp [modAt] at h ⊢; exact h
    | succ i => simp [modAt] at h ⊢; exact ih i (by simpa using h)

theorem linkIx_lt {s : State} (h : s.links.length = 2) (l : LinkSide) : linkIx l < s.links.length := by
  cases l <;> simp [linkIx, h]

theorem linkOf_modLink (s : State) (l : LinkSide) (f : Link → Link) (h : linkIx l < s.links.length) :
    linkOf (modLink s l f) l = f (linkOf s l) := modAt_getD _ _ _ _ h

theorem modLink_modLink (s : State) (l : LinkSide) (f g : Link → Link) : modLink (modLink s l f) l g = modLink s l (g ∘ f) := by
  unfold modLink
  rw [modAt_modAt]

theorem modLink_congr (s : State) (l : LinkSide) (f g : Link → Link) (h : f (linkOf s l) = g (linkOf s l)) :
    modLink s l f = modLink s l g := by
  unfold modLink
  rw [modAt_congr _ _ f g .reset h]

end Sys2Proof.Machine
end

