-- ==== Sys2Proof/Machine/Pins.lean ====
section
/-! DEFINITION. The outputs of the engine as its state gives them (R484, Tables 15.1 to 15.4), each at its park value while the engine is
parked (R515): the ring links' words (R496, R497), the EPP channels (R486, R487, R516), the wrapper's outputs. -/
namespace Sys2Proof.Machine

/-! ## Ring links (Table 15.3) -/

/-- The member-absent word: 0x5A5A_A5A5 in each of its eight 32-bit groups (R497). -/
def absentWord : Nat := ((List.range 8).map fun i => 0x5A5AA5A5 * 2 ^ (32 * i)).sum

/-- The type of the words that a link presents on every lane (R497). -/
def wordType : Present → Nat
  | .idleElectrical => 0
  | .flit _ => 0
  | .alignment => 1
  | .absent => 2

/-- The word of lane l: flit byte b travels on lane ⌊b/32⌋ in bits [8(b mod 32) + 7:8(b mod 32)]; an alignment word holds its lane number. -/
def laneWord (p : Present) (l : Nat) : Nat :=
  match p with
  | .idleElectrical => 0
  | .flit f => field (flitBytes f) (32 * l) 32
  | .alignment => l
  | .absent => absentWord

/-- mld_rl_x_tx_data: lane l in bits [256l + 255:256l]. -/
def txData (s : State) (l : LinkSide) : BitVec 4096 :=
  BitVec.ofNat 4096 ((List.range 16).map fun i => laneWord (shown s l) i * 2 ^ (256 * i)).sum

/-- mld_rl_x_tx_type: lane l in bits [2l + 1:2l]. -/
def txType (s : State) (l : LinkSide) : BitVec 32 :=
  BitVec.ofNat 32 ((List.range 16).map fun i => wordType (shown s l) * 2 ^ (2 * i)).sum

/-- mld_rl_x_elec_idle. -/
def elecIdlePin (s : State) (l : LinkSide) : Bool :=
  if s.pins.parked then shown s l == .idleElectrical else (linkOf s l).elecIdle

/-- mld_rl_x_retrain. -/
def retrainPin (s : State) (l : LinkSide) : Bool := !s.pins.parked && (linkOf s l).retrain

/-! ## EPP ports (Table 15.2) -/

/-- The outputs of a requester port. -/
structure RequesterPins where
  reqValid : Bool
  reqData  : BitVec 256
  wdValid  : Bool
  wdData   : BitVec 592
  rspReady : Bool
  deriving DecidableEq, Repr

/-- What a requester port shows: the request and the first write-data beat of its channel; X_rsp_ready is 1 at all times (R487). -/
def requesterPins (parked : Bool) (c : Channel) : RequesterPins :=
  if parked then ⟨false, 0, false, 0, true⟩ else ⟨c.req.isSome, c.req.getD 0, !c.wd.isEmpty, c.wd.head?.getD 0, true⟩

/-- The outputs of memory port n. -/
def portPins (s : State) (n : Nat) : RequesterPins := requesterPins s.pins.parked (s.ports.getD n .reset).chan

/-- The outputs of the command port's requester half. -/
def cmdPins (s : State) : RequesterPins := requesterPins s.pins.parked s.cmdChan

/-- The outputs of the completer mld_cmdc. -/
structure CompleterPins where
  reqReady : Bool
  wdReady  : Bool
  rspValid : Bool
  rspData  : BitVec 536
  deriving DecidableEq, Repr

/-- The response payload of an answer (Table 15.7); the tag that a write's command does not carry stands as 0 (log entry 94). -/
def answerWord (a : Answer) : BitVec 536 :=
  eppResponseWord { last := true, poison := false, code := a.code, dir := a.dir, tag := a.tag.getD 0, data := a.data }

/-- What the completer shows: parked, the park responder's signals or zeros (R516); else it takes requests from the end of step 1 of
Table 15.14 on (R494). -/
def completerPins (s : State) : CompleterPins :=
  let takes := if s.pins.parked then (strapsNow s).parkCmdMode else 1 ≤ s.bring.step
  ⟨takes, takes, s.answer.isSome, (s.answer.map answerWord).getD 0⟩

/-! ## Test outputs (Table 15.4) -/

/-- mld_wso. -/
def wsoPin (s : State) : Bool := !s.pins.parked && s.wrapper.wso

/-- mld_wpo: the scan chains under WS_INTEST_SCAN, whose bits are free values (log entry 6), else 0. -/
def wpoPin (s : State) : BitVec 32 :=
  if s.pins.parked || wirNow s != 3 then 0 else (Config.freeValue s.freeCtr).setWidth 32

end Sys2Proof.Machine
end

