-- ==== Sys2Proof/Tests/States.lean ====
section
/-! SUPPORT. Small states for the tests: a running engine, one context with one submission ring, flits, passes. -/
namespace Sys2Proof.Tests

open Sys2Proof Sys2Proof.Machine

/-- A running engine: booted, its store initialised, quadrants released, Drover at work. -/
def live : State := { State.reset with
  bring := { Bringup.reset with step := 8, bootWritten := true, bootState := 2, initDone := true, released := true, partUsed := 0x02020418 },
  drover := ⟨true, true, 0, 0⟩ }

/-- A context that may do everything: asid 5, every window, every ring, the ring context. -/
def ctx1 : Ctx := { valid := true, ringContext := true, mgmtAllowed := true, engineEvents := true, memModel := 0, asid := 5,
                    ringAllow := 0xFFFF, msgVector := List.replicate 16 0, windows := BitVec.ofNat 512 (2 ^ 512 - 1),
                    headerAddr := List.replicate 16 0x8000, halted := false, fault := none, commitWaits := false, calib := none }

/-- A submission ring of 16 entries, empty, and the same with an entry to fetch. -/
def sub : Ring := { Ring.idle with active := true, version := 2, sizeLog2 := 4, compRing := 1, baseAddr := 0x1000, headerAddr := 0x8000 }
def sub1 : Ring := { sub with producer := 1 }

/-- Context 1 with a ring 0. -/
def withRing (r : Ring) : State := { live with ctxs := [(1, ctx1)], rings := [(16, r)] }

/-- A fetched descriptor with its parameter block. -/
def fetched (d block : List Byte) : Fetched := ⟨d, 0x1000, block, 0x2000, false⟩

/-- Context 1 with a descriptor at the head of its ring 0. -/
def headed (d block : List Byte) : State := withRing { sub1 with head := some (fetched d block) }

/-- A descriptor of an opcode, class 0, with fields (offset, length, value). -/
def desc (op : Nat) (fs : List (Nat × Nat × Nat)) : List Byte := layout 64 ((0, 1, op) :: fs)

/-- A pass of context 1, ring 0 in slot 0. -/
def pass0 (b : Body) : Pass := newPass live 1 0 (desc 0 []) b

/-- The running engine with one context and one pass. -/
def withPass (p : Pass) : State := { withRing sub with passes := [p] }

/-- A link that is up with its first credits. -/
def linkUp : Link := { Link.reset with
  trained := true, status := 3, elecIdle := false, aligned := 2, credCtrl := 64, credData := 256, ackLimit := 20 }

/-- The running engine with both links up and a ready ring of four positions, at position 1. -/
def ringed : State := { live with
  links := [linkUp, linkUp], net := { RingNet.reset with
    censusState := 2, censusId := 1, position := 1, positionCount := 4, members := [0, 1, 2, 3], shards := some 4 } }

/-- A flit with the CRC that its bytes call for. -/
def flit (ty seq : Nat) (payload : List Byte) : Flit :=
  let f : Flit := ⟨BitVec.ofNat 4 ty, BitVec.ofNat 16 seq, 0xFFFF, false, false, 0, 0, 0, 0, 0, slice payload 0 496, 0⟩
  { f with crc := flitCrc f }

/-- A DATA flit of some bytes. -/
def dataFlit (kind id : Nat) (bs : List Byte) : Flit :=
  let f : Flit := ⟨1, 0, 0xFFFF, false, false, 0, 0, BitVec.ofNat 9 bs.length, BitVec.ofNat 2 kind, BitVec.ofNat 32 id, slice bs 0 496, 0⟩
  { f with crc := flitCrc f }

/-- A CTRL flit with a message of a code to every engine of the lap. -/
def msgFlit (code : Nat) (fs : List (Nat × Nat)) : Flit := flit 2 0 (mkMsg code 0 lapDst fs)

end Sys2Proof.Tests
end

