-- ==== Sys2Proof/Tests/Slice0.lean ====
section
/-! SUPPORT. Tests: ill-formed commands that WellFormed refuses, single steps with results from the spec, and for each statement with
hypotheses a state that meets them, clause by clause. -/
open Sys2Proof Sys2Proof.Machine

namespace Sys2Proof.Tests

set_option Elab.async false

/-! ## Well-formed commands: an ill-formed term for each check -/

theorem test_wf_flit : Instr.wf (.idleFlitReceive .up (flit 0 0 []) 0) = true ∧
    Instr.wf (.idleFlitReceive .up { flit 0 0 [] with payload := List.replicate 495 0 } 0) = false ∧
    Instr.wf (.census1 .up { flit 2 0 [] with payloadLen := 497 } 0) = false := by decide +kernel
theorem test_wf_lanes : Instr.wf (.alignmentWordReceive .up (List.replicate 15 ⟨1, 0⟩) 0 0) = false := by decide
theorem test_wf_margins : Instr.wf (.marginIntervalSend .up (List.replicate 17 0) 0) = false := by decide
theorem test_wf_register : Instr.wf (.registerWrite .host 0x4002 false 0) = false ∧ Instr.wf (.registerWrite .host 0x2004 true 0) = false := by
  decide
theorem test_wf_agents : Instr.wf (.ctxCommit 0 [(2 ^ 84, 0)]) = false ∧ Instr.wf (.kmBoot 0 [(2 ^ 84, 0)] 0) = false ∧
    Instr.wf (.ctxWrite 0 0 [(2 ^ 84, 0)]) = false ∧ Instr.wf (.index 0 0 0 0 [(2 ^ 84, 0)]) = false ∧
    Instr.wf (.setup 0 0 0 0 [(2 ^ 84, 0)]) = false := by decide
theorem test_wf_line_bit : Instr.wf (.quadrantRelease (some (0, 0, 72)) 0) = false := by decide
theorem test_wf_note : Instr.wf (.droverNote 0 (List.replicate 35 0)) = false := by decide
theorem test_wf_fatal : Instr.wf (.engineFatal 3 0) = false := by decide
theorem test_wf_sib : Instr.wf (.bistStart 0) = false ∧ Instr.wf (.bistDone 10 0 0 0 0 0) = false := by decide

/-! ## One step each, results from the spec -/

/-- The state that a command leaves. -/
def after (c : Instr) (s : State) : State := match exec c s with | .next t => t | _ => s

/-- R511: the fall of mld_pwr_warn_n starts reduced duty and counts a dip. -/
theorem test_dip : (after (.supplyWarningFall 7) live).thr.duty = 1 ∧ smGet 0 (after (.supplyWarningFall 7) live).counters 52 = 1 := by
  decide +kernel
/-- Table 16.6: a ranged field keeps its value where the one written is out of range. -/
theorem test_range : (after (.registerWrite .drover 0x4104 false 0x341) live).regs.highWater = 7 ∧
    (after (.registerWrite .drover 0x4104 false 0x508) live).regs.highWater = 5 ∧
    (after (.registerWrite .drover 0x4104 false 0x508) live).regs.holdFill = 8 := by decide +kernel
/-- Table 16.1: the host may not write the parameters. -/
theorem test_rights : (after (.registerWrite .host 0x4104 false 0x508) live).regs = live.regs := by decide +kernel
/-- R511: core 0 is counted for counter 53. -/
theorem test_duty_stop : smGet 0 (after (.dutyStop 0 16) { live with thr := { Throttle.reset with duty := 1 } }).counters 53 = 16 := by
  decide +kernel
/-- R37: a NOP ends OK at its admission. -/
theorem test_nop : ((after (.nop 1 0) (headed (desc 0 []) [])).passes.map (·.status)) = [some 0] := by decide +kernel
/-- R37: a FENCE is released once it is the oldest of its ring. -/
theorem test_fence : ((after (.fenceRelease 0) (withPass (pass0 .fence))).passes.map (·.status)) = [some 0] := by decide +kernel
/-- R448: the index of a doorbell is the producer of a submission ring. -/
theorem test_index : (ringOf (after (.index 1 0 5 3 []) (withRing sub)) 16).producer = 3 := by decide +kernel
/-- R198: with nothing to send the transmitter presents an IDLE flit. -/
theorem test_idle : (match (linkOf (after (.txTake .down) ringed) .down).present with | .flit f => f.flitType == 0 | _ => false) = true := by
  decide +kernel
/-- R200: an ack_seq releases the flits of the replay buffer up to it. -/
theorem test_ack : (linkOf (applyAck { ringed with links := [{ linkUp with replay := [flit 2 0 [], flit 2 1 [], flit 2 2 []] }, linkUp] } .up
    { flit 3 0 [] with ackSeq := 1 }) .up).replay.length = 1 := by decide +kernel
/-- Table 6.3, byte by byte: type 2, seq 0x0102, ack_seq 0xFFFF and a payload of 5 in the header of a CTRL flit. -/
theorem test_flit_header : (flitHeader { flit 2 0x0102 [] with payloadLen := 5 }).drop 4 = [0x14, 0, 0, 0xF0, 0xFF, 0x2F, 0x10, 0x20] := by
  decide +kernel
/-- R199: the CRC-32 of the nine bytes "123456789" is 0xCBF43926. -/
theorem test_crc : crc32 [0x31, 0x32, 0x33, 0x34, 0x35, 0x36, 0x37, 0x38, 0x39] = 0xCBF43926 := by decide +kernel

/-! ## Every statement's hypotheses are met: one theorem per statement, a state for each clause -/

/-- A flit of a defined type made with its CRC is not discarded. -/
theorem flit_good {ty seq : Nat} {p : List Byte} (h : ty < 5) : badFlit (flit ty seq p) = false := by
  have : flitCrc (flit ty seq p) = (flit ty seq p).crc := by simp only [flit, flitCrc, flitBody, flitHeader]
  simp [badFlit, this]
  simp [flit]
  omega

/-- A DATA flit made with its CRC is not discarded. -/
theorem dataFlit_good {k i : Nat} {bs : List Byte} : badFlit (dataFlit k i bs) = false := by
  have : flitCrc (dataFlit k i bs) = (dataFlit k i bs).crc := by simp only [dataFlit, flitCrc, flitBody, flitHeader]
  simp [badFlit, this]
  simp [dataFlit]

theorem witness_FrontCommandRuns : { live with pending := [Instr.awlWindow, .settleUpdate] }.pending = [.awlWindow, .settleUpdate] := rfl
theorem witness_EmptyQueueTicks : live.pending = [] := rfl
theorem witness_StepKeepsCanonicalForm : live.canonical ∧ ∃ t, step live = .next t :=
  ⟨⟨rfl, rfl, rfl, rfl, rfl, rfl⟩, _, rfl⟩
theorem witness_EngineCommandsKeepBoundary : Instr.atEdge .awlWindow = false ∧ Instr.answered .awlWindow = false ∧ ∃ t, exec .awlWindow live = .next t :=
  ⟨rfl, rfl, _, rfl⟩

/-- The engine in reset, isolated. -/
def inReset : State := { State.reset with pins := { Pins.reset with rstN := false, isoEn := true } }

theorem witness_PowerUpAndDown :
    ({ inReset with pins := { inReset.pins with powered := false } }.pins.rstN = false ∧
      { inReset with pins := { inReset.pins with powered := false } }.pins.powered = false ∧
      { inReset with pins := { inReset.pins with powered := false } }.pins.isoEn = true) ∧
    inReset.pins.rstN = false ∧ inReset.pins.powered = true := by decide
theorem witness_ResetAssertAndRelease :
    (live.pins.powered = true ∧ (strapsNow live).present = true ∧ live.wrapper.wir = 0 ∧ live.pins.rstN = true ∧
      ∀ p ∈ live.ports, p.outRd = [] ∧ p.outWr = []) ∧
    inReset.pins.powered = true ∧ inReset.pins.straps.present = true ∧ inReset.wrapper.wir = 0 ∧ inReset.pins.rstN = false ∧
    inReset.bring.cold = false ∧ inReset.bring.scanOwed = false ∧ inReset.log.checkOk = true := by decide +kernel
theorem witness_ParkValues :
    inReset.pins.rstN = false ∧ { live.bring with sampled := false }.sampled = false ∧
    (live.bring.sampled = true ∧ live.straps.present = true ∧ live.pins.isoEn = false ∧ live.pins.rstN = true) ∧
    (let s := { live with pins := { Pins.reset with parked := true } }
     s.pins.parked = true ∧ s.pins.rstN = true ∧ s.pins.isoEn = false ∧ (strapsNow s).present = true) ∧
    (let s := { live with pins := { Pins.reset with parked := true, isoEn := true } }
     s.pins.parked = true ∧ s.pins.rstN = true ∧ s.pins.isoEn = true ∧ s.pins.unsound = false ∧ (strapsNow s).present = true) ∧
    (let s := { live with pins := { Pins.reset with parked := true }, straps := { Straps.default with parkCmdMode := true } }
     s.pins.parked = true ∧ (strapsNow s).parkCmdMode = true) := by decide
theorem witness_SupplyWarningThrottle :
    running live = true ∧ live.pins.pwrWarnN = true ∧ live.bring.released = true ∧
    (let s := { live with pins := { Pins.reset with pwrWarnN := false }, thr := { Throttle.reset with duty := 1 } }
     running s = true ∧ s.pins.pwrWarnN = false ∧ s.thr.duty = 1) ∧
    (let s := { live with thr := { Throttle.reset with duty := 2, roseAt := 1000 } }
     running s = true ∧ s.thr.duty = 2 ∧ 2000 ≤ ((3000 : U64) - s.thr.roseAt).toNat) := by decide +kernel
theorem witness_DutyAndGovernor :
    (let s := { live with thr := { Throttle.reset with duty := 1 } }
     running s = true ∧ s.thr.duty ≠ 0 ∧ (coreOf s 255).clockOn = true ∧ (255 : BitVec 8) ≠ 0 ∧ (coreOf s 0).clockOn = true) ∧
    (let s := { live with cores := [(255, { Core.reset with clockOn := false, ranFor := 19 })] }
     (coreOf s 255).clockOn = false ∧ 57 = 3 * (coreOf s 255).ranFor) ∧
    live.thr.govLimiting = false ∧ { Throttle.reset with govLimiting := true }.govLimiting = true := by decide +kernel
theorem witness_WrapperInstructions :
    inReset.pins.powered = true ∧ (strapsNow inReset).present = true ∧ inReset.pins.rstN = false ∧
    (let s := { live with wrapper := { Wrapper.reset with wir := 4 } }
     s.pins.rstN = true ∧ s.wrapper.wir ∈ [(1 : BitVec 4), 2, 3, 4] ∧ ∃ t, exec .resetAssert s = .next t) :=
  ⟨rfl, rfl, rfl, rfl, by decide, _, rfl⟩
theorem witness_WrapperRegistersAndBist :
    wirNow live = 0 ∧ wirNow { live with wrapper := { Wrapper.reset with wir := 8 } } = 8 ∧
    wirNow { inReset with wrapper := { Wrapper.reset with wir := 1 } } = 1 ∧
    wirNow { inReset with wrapper := { Wrapper.reset with wir := 2 } } = 2 ∧
    wirNow { live with wrapper := { Wrapper.reset with wir := 9 } } = 9 ∧
    (let w := { Wrapper.reset with wir := 9, sibs := List.replicate 10 true }
     w.sibs.getD (1 : BitVec 4).toNat false = true ∧ w.sibs.getD (9 : BitVec 4).toNat false = true) ∧
    ((List.replicate 10 { Bist.reset with running := true }).getD (9 : BitVec 4).toNat .reset).running = true := by decide +kernel
theorem witness_LinkTraining :
    running live = true ∧ live.links.length = 2 ∧ (linkOf live .up).trained = false ∧ (linkOf live .down).clockOn = true ∧
    (linkOf live .down).status ≠ 3 ∧ (linkOf live .up).neighbourAbsent = false ∧ ringPort live = true ∧
    (let s := { live with links := [{ Link.reset with clockOn := false }, { Link.reset with trained := true, status := 2, upSince := 5 }] }
     s.links.length = 2 ∧ (linkOf s .up).clockOn = false ∧ (linkOf s .down).trained = true ∧ (linkOf s .down).status = 2 ∧
     100000 < ((100006 : U64) - (linkOf s .down).upSince).toNat) := by decide +kernel
theorem witness_LinkLoss :
    running ringed = true ∧ ringed.links.length = 2 ∧ (linkOf ringed .up).status = 3 ∧ (linkOf ringed .up).trained = true ∧
    (linkOf ringed .up).clockOn = true := by decide +kernel
/-- A link that aligns. -/
def aligning (n : Nat) : State := { live with links := [{ Link.reset with trained := true, status := 2, aligned := n }, .reset] }
theorem witness_AlignmentWords :
    running (aligning 0) = true ∧ (linkOf (aligning 0) .up).status = 2 ∧ (linkOf (aligning 0) .up).aligned = 0 ∧
    (linkOf (aligning 1) .up).aligned = 1 ∧ (linkOf (aligning 1) .up).credCtrl < 64 ∧
    alignGood ((List.range 16).map fun i => ⟨1, BitVec.ofNat 8 i⟩) 64 = true ∧
    alignGood ((List.range 16).map fun i => ⟨1, BitVec.ofNat 8 i⟩) 65 = false ∧
    alignGood ((List.range 16).map fun i => ⟨1, BitVec.ofNat 8 (15 - i)⟩) 0 = false ∧
    (let w := (List.range 16).map fun i => (⟨3, BitVec.ofNat 8 i⟩ : LaneWord)
     alignGood w 0 = false ∧ ∃ x ∈ w, x.type = 1 ∨ x.type = 3) ∧
    (let s := { live with links := [{ Link.reset with status := 2, words := 16383 }, .reset] }
     running s = true ∧ (linkOf s .up).status = 2 ∧ 16383 ≤ (linkOf s .up).words) := by decide +kernel

/-- The upstream link takes a flit. -/
theorem takes_flit {ty seq : Nat} {p : List Byte} (h : ty < 5) (now : U64) (hs : hears (ringed.headerTaken now .up (flit ty seq p)) .up = true) :
    ringed.takesFlit now .up (flit ty seq p) := ⟨by decide +kernel, flit_good h, hs⟩
theorem witness_UnsequencedFlits :
    hears ringed .up = true ∧ ringed.takesFlit 0 .up (flit 0 0 []) ∧ ringed.takesFlit 0 .up (flit 3 0 []) ∧
    ringed.takesFlit 0 .up (flit 4 0 (List.replicate 64 0xFF)) ∧ ∃ f : Flit, 5 ≤ f.flitType.toNat :=
  ⟨by decide +kernel, takes_flit (by decide) _ (by decide +kernel), takes_flit (by decide) _ (by decide +kernel),
    takes_flit (by decide) _ (by decide +kernel), flit 5 0 [], by decide⟩
theorem witness_SequenceNumbers :
    ringed.takesFlit 0 .up (dataFlit 0 0 [1]) ∧
    (∀ f ∈ [flit 2 1 (mkMsg 0x30 0 lapDst []), flit 2 32768 (mkMsg 0x30 0 lapDst [])],
      (f.seq - (linkOf (ringed.headerTaken 0 .up f) .up).rxSeq).toNat ≠ 0 ∧ f.flitType = 2 ∧ msgCode f.payload = 0x30) ∧
    ringed.takesFlit 0 .up (flit 2 32768 (mkMsg 0x30 0 lapDst [])) ∧ (dataFlit 1 0 []).dataKind = 1 ∧ (dataFlit 0 0 []).dataKind ≠ 1 :=
  ⟨⟨by decide +kernel, dataFlit_good, by decide +kernel⟩, by decide +kernel, takes_flit (by decide) _ (by decide +kernel), by decide, by decide⟩
theorem witness_LinkTimers :
    (let s := { live with links := [{ linkUp with replay := [flit 2 0 []], fruitless := 7, unacked := 1 }, { linkUp with fruitless := 8, replay := [flit 2 0 []] }] }
     hears s .up = true ∧ (linkOf s .up).replay.length = 1 ∧ 1000 * (linkOf s .up).ackLimit ≤ ((20000 : U64) - (linkOf s .up).ackAt).toNat ∧
     (linkOf s .up).fruitless < s.regs.replayLimit.toNat ∧ hears s .down = true ∧ s.regs.replayLimit.toNat ≤ (linkOf s .down).fruitless ∧
     (linkOf s .up).unacked ≠ 0 ∧ 1000 ≤ ((1000 : U64) - (linkOf s .up).ackSentAt).toNat ∧ (linkOf s .up).status = 3 ∧
     100000 * s.regs.marginInterval.toNat ≤ ((1000000 : U64) - (linkOf s .up).marginSentAt).toNat) := by decide +kernel
theorem witness_TxTakePresentsNext :
    (let o : OutFlit := ⟨true, false, 0, 0, 0, [1], none⟩
     let d : OutFlit := ⟨false, false, 0, 0, 1, [1], none⟩
     let s := { ringed with links := [{ linkUp with outCtrl := [o], replay := List.replicate 511 (flit 2 0 []) }, { linkUp with outData := [d], credData := 1 }] }
     ringPort s = true ∧ (linkOf s .up).status = 3 ∧ (linkOf s .up).words < 16383 ∧ (linkOf s .up).grants = 0 ∧ (linkOf s .up).marginOwed = none ∧
     (linkOf s .up).neighbourAbsent = false ∧ (linkOf s .up).credCtrl ≠ 0 ∧ (linkOf s .up).replay.length < 512 ∧ o.ctrl = true ∧
     (linkOf s .down).credData ≠ 0 ∧ d.ctrl = false) ∧
    (let s := { live with links := [{ Link.reset with status := 2, grants := 2 }, .reset] }
     ringPort s = true ∧ (linkOf s .up).words < 16383 ∧ 2 ≤ (linkOf s .up).status.toNat ∧ (linkOf s .up).grants ≠ 0) ∧
    (linkOf ringed .up).outCtrl = [] ∧ (linkOf ringed .up).outData = [] ∧ (linkOf ringed .up).resend = [] := by decide +kernel

/-- What makes a link take a message made with its CRC. -/
def taken (s : State) (l : LinkSide) (code : Nat) (fs : List (Nat × Nat)) : Bool :=
  let f := msgFlit code fs
  hears s l && hears (s.headerTaken 0 l f) l && f.seq == (linkOf (s.headerTaken 0 l f) l).rxSeq && msgCode f.payload == code &&
  forMe (s.accepted 0 l f) f.payload

/-- A message that meets it is taken. -/
theorem takes_msg {s : State} {l : LinkSide} {code : Nat} {fs : List (Nat × Nat)} (h : taken s l code fs = true) :
    s.takesMsg 0 l (msgFlit code fs) code := by
  simp only [taken, Bool.and_eq_true, beq_iff_eq] at h
  obtain ⟨⟨⟨⟨h1, h2⟩, h3⟩, h4⟩, h5⟩ := h
  exact ⟨⟨⟨h1, flit_good (by decide), h2⟩, h3⟩, rfl, h4, h5⟩

/-- The state in which such a message is processed. -/
def met (s : State) (l : LinkSide) (code : Nat) (fs : List (Nat × Nat)) : State := s.accepted 0 l (msgFlit code fs)

/-- The origin of a ring, and the same engine with a lap under way. -/
def origin : State := { ringed with straps := { Straps.default with ringOrigin := true }, net := { ringed.net with position := 0 } }
def onLap (l : Lap) : State := { origin with net := { origin.net with lap := l, censusState := 1, lapLimit := 50 } }

theorem witness_CensusOnTheOrigin :
    (let s := { origin with net := { origin.net with censusState := 0 } }
     s.straps.ringOrigin = true ∧ running s = true ∧ s.links.all (·.status == 3) = true ∧ s.net.censusState ≠ 1 ∧ s.net.censusState ≠ 2 ∧
     s.drover.running = true) ∧
    (onLap .census1).takesMsg 0 .up (msgFlit 1 [(4, 1), (2, 4), (4, 0)]) 1 ∧
    (let a := met (onLap .census1) .up 1 [(4, 1), (2, 4), (4, 0)]
     a.straps.ringOrigin = true ∧ a.net.lap = .census1 ∧ msgField (msgFlit 1 [(4, 1), (2, 4), (4, 0)]).payload 0 4 = a.net.censusId.toNat) ∧
    (onLap .census2).takesMsg 0 .up (msgFlit 2 [(4, 1), (2, 4), (2, 0)]) 2 ∧
    (let a := met (onLap .census2) .up 2 [(4, 1), (2, 4), (2, 0)]
     a.straps.ringOrigin = true ∧ a.net.lap = .census2 ∧ a.net.absent = false ∧
     a.net.censusId.toNat ≤ msgField (msgFlit 2 [(4, 1), (2, 4), (2, 0)]).payload 0 4) ∧
    (onLap .census1).net.lap = .census1 ∧ (onLap .broken).net.lap = .broken ∧ 1000000 * (onLap .census1).net.lapLimit < ((50000001 : U64) - (onLap .census1).net.lapAt).toNat :=
  ⟨by decide +kernel, takes_msg (by decide +kernel), by decide +kernel, takes_msg (by decide +kernel), by decide +kernel, by decide +kernel,
    by decide +kernel⟩

/-- An engine before its census, and the same one that a reset left without a partition. -/
def uncounted : State := { ringed with net := RingNet.reset }
theorem witness_CensusOnTheOthers :
    uncounted.takesMsg 0 .up (msgFlit 1 [(4, 1), (2, 1), (4, 0)]) 1 ∧
    (let a := met uncounted .up 1 [(4, 1), (2, 1), (4, 0)]
     a.straps.ringOrigin = false ∧ a.net.censusState ≠ 2 ∧ a.net.censusId.toNat ≤ msgField (msgFlit 1 [(4, 1), (2, 1), (4, 0)]).payload 0 4) ∧
    uncounted.takesMsg 0 .up (msgFlit 2 [(4, 0), (2, 4), (2, 0)]) 2 ∧
    (let a := met uncounted .up 2 [(4, 0), (2, 4), (2, 0)]
     a.straps.ringOrigin = false ∧ a.net.absent = false ∧ a.net.censusId.toNat ≤ msgField (msgFlit 2 [(4, 0), (2, 4), (2, 0)]).payload 0 4) ∧
    ringed.takesMsg 0 .up (msgFlit 1 [(4, 0)]) 1 ∧ ringed.takesMsg 0 .up (msgFlit 2 [(4, 0)]) 2 ∧
    msgField (msgFlit 1 [(4, 0)]).payload 0 4 < (met ringed .up 1 [(4, 0)]).net.censusId.toNat ∧
    msgField (msgFlit 2 [(4, 0)]).payload 0 4 < (met ringed .up 2 [(4, 0)]).net.censusId.toNat ∧
    ringed.takesMsg 0 .up (msgFlit 0x30 [(2, 3), (1, 2)]) 0x30 ∧ (met ringed .up 0x30 [(2, 3), (1, 2)]).net.downSeen = false ∧
    { ringed with net := { ringed.net with downSeen := true } }.takesMsg 0 .up (msgFlit 0x30 [(2, 3), (1, 2)]) 0x30 ∧
    (met { ringed with net := { ringed.net with downSeen := true } } .up 0x30 [(2, 3), (1, 2)]).net.downSeen = true :=
  ⟨takes_msg (by decide +kernel), by decide +kernel, takes_msg (by decide +kernel), by decide +kernel, takes_msg (by decide +kernel),
    takes_msg (by decide +kernel), by decide +kernel, by decide +kernel, takes_msg (by decide +kernel), by decide +kernel,
    takes_msg (by decide +kernel), by decide +kernel⟩

/-- A handoff of step 3 with a send and a receive half, in slot 0 of the ring. -/
def hand (send recv : Half) : HandoffBody :=
  { epoch := 0, step := 3, sendAddr := 0, sendLen := 8, recvAddr := 0x100, recvLen := 8, send := send, recv := recv, readySent := false,
    sent := 0, got := 0, since := 0, limit := 100, bad := none }
def handing (send recv : Half) : State := { ringed with ctxs := [(1, ctx1)], rings := [(16, sub)], passes := [pass0 (.handoff (hand send recv))] }
theorem witness_HandoffMessages :
    (ringed.takesMsg 0 .up (msgFlit 0x10 [(4, 0), (4, 3), (8, 8)]) 0x10 ∧ ∀ e k t, findHandoff (met ringed .up 0x10 [(4, 0), (4, 3), (8, 8)]) e k t = none) ∧
    (handing .waiting .off).takesMsg 0 .down (msgFlit 0x10 [(4, 0), (4, 3), (8, 8)]) 0x10 ∧
    findHandoff (met (handing .waiting .off) .down 0x10 [(4, 0), (4, 3), (8, 8)]) 0 3 (fun h => h.send == .waiting) =
      some (pass0 (.handoff (hand .waiting .off)), hand .waiting .off) ∧
    (hand .waiting .off).sendLen ≤ msgField (msgFlit 0x10 [(4, 0), (4, 3), (8, 8)]).payload 8 8 ∧
    msgField (msgFlit 0x10 [(4, 0), (4, 3), (8, 7)]).payload 8 8 < (hand .waiting .off).sendLen ∧
    (handing .off .moving).takesMsg 0 .up (msgFlit 0x11 [(4, 0), (4, 3), (8, 8)]) 0x11 ∧
    findHandoff (met (handing .off .moving) .up 0x11 [(4, 0), (4, 3), (8, 8)]) 0 3 readyOut =
      some (pass0 (.handoff (hand .off .moving)), hand .off .moving) ∧
    (handing .ended .off).takesMsg 0 .down (msgFlit 0x12 [(4, 0), (4, 3)]) 0x12 ∧
    findHandoff (met (handing .ended .off) .down 0x12 [(4, 0), (4, 3)]) 0 3 (fun h => h.send == .ended) =
      some (pass0 (.handoff (hand .ended .off)), hand .ended .off) ∧
    (handing .waiting .waiting).takesMsg 0 .up (msgFlit 0x13 [(4, 0), (4, 3), (1, 1)]) 0x13 ∧
    findHandoff (met (handing .waiting .waiting) .up 0x13 [(4, 0), (4, 3), (1, 1)]) 0 3 (fun h => !halfDone h.recv) =
      some (pass0 (.handoff (hand .waiting .waiting)), hand .waiting .waiting) ∧
    (handing .waiting .waiting).takesMsg 0 .down (msgFlit 0x13 [(4, 0), (4, 3), (1, 0x10)]) 0x13 ∧
    findHandoff (met (handing .waiting .waiting) .down 0x13 [(4, 0), (4, 3), (1, 0x10)]) 0 3 (fun h => !halfDone h.send) =
      some (pass0 (.handoff (hand .waiting .waiting)), hand .waiting .waiting) :=
  ⟨⟨takes_msg (by decide +kernel), fun _ _ _ => rfl⟩, takes_msg (by decide +kernel), by decide +kernel, by decide +kernel, by decide +kernel,
    takes_msg (by decide +kernel), by decide +kernel, takes_msg (by decide +kernel), by decide +kernel, takes_msg (by decide +kernel),
    by decide +kernel, takes_msg (by decide +kernel), by decide +kernel⟩

/-- Data of step 3 taken as the next flit of its series. -/
theorem takes_data {s : State} {k : Nat} {bs : List Byte} (h1 : hears s .up = true)
    (h2 : hears (s.headerTaken 0 .up (dataFlit k 3 bs)) .up = true)
    (h3 : (dataFlit k 3 bs).seq = (linkOf (s.headerTaken 0 .up (dataFlit k 3 bs)) .up).rxSeq) : s.takesNext 0 .up (dataFlit k 3 bs) :=
  ⟨⟨h1, dataFlit_good, h2⟩, h3⟩
theorem witness_HandoffDataAndEnd :
    (let s := handing .off (.ready 8)
     s.takesNext 0 .up (dataFlit 0 3 [1, 2]) ∧ (dataFlit 0 3 [1, 2]).flitType = 1 ∧ (dataFlit 0 3 [1, 2]).dataKind = 0 ∧
     isMember (s.accepted 0 .up (dataFlit 0 3 [1, 2])) = true ∧
     receiverOf (s.accepted 0 .up (dataFlit 0 3 [1, 2])) 3 = some (pass0 (.handoff (hand .off (.ready 8))), hand .off (.ready 8))) ∧
    (let s := { ringed with net := { ringed.net with members := [0, 2] } }
     s.takesNext 0 .up (dataFlit 0 3 [1]) ∧ isMember (s.accepted 0 .up (dataFlit 0 3 [1])) = false) ∧
    (passOf (handing .off .ended) 0 = some (pass0 (.handoff (hand .off .ended))) ∧
      handoffOf (pass0 (.handoff (hand .off .ended))) = some (hand .off .ended) ∧ (hand .off .ended).recv = .ended) ∧
    passOf (handing .waiting .off) 0 = some (pass0 (.handoff (hand .waiting .off))) ∧
    handoffOf (pass0 (.handoff (hand .waiting .off))) = some (hand .waiting .off) ∧
    1000000 * (hand .waiting .off).limit < ((100000001 : U64) - (hand .waiting .off).since).toNat :=
  ⟨⟨takes_data (by decide +kernel) (by decide +kernel) (by decide +kernel), by decide, by decide, by decide +kernel, by decide +kernel⟩,
    ⟨takes_data (by decide +kernel) (by decide +kernel) (by decide +kernel), by decide +kernel⟩,
    by decide +kernel, by decide +kernel, by decide +kernel, by decide +kernel⟩

/-- An engine with its EPOCH to epoch 1 in slot 0, in a state of Table 6.7. -/
def epoching (o : Bool) (st : EpochState) (l : Lap) : State :=
  { ringed with
    straps := { Straps.default with ringOrigin := o }, ctxs := [(1, ctx1)], rings := [(16, sub)], passes := [pass0 .epoch],
    net := { ringed.net with
      position := if o then 0 else 1, state := st, lap := l, newEpoch := 1, newMembers := [0, 1], epochPass := some 0, digest := 7,
      lapLimit := 1000, voteLimit := 1000 } }
def vote (n : Nat) : List (Nat × Nat) := [(4, 1), (4, 7), (2, n), (1, 0)]
theorem witness_EpochVoteLap :
    (∀ o, epochPassOf (epoching o .draining .none) = some (pass0 .epoch) ∧ (epoching o .draining .none).net.state = .draining ∧
      epochDrainedNow (epoching o .draining .none) (pass0 .epoch) = true) ∧ (epoching false .draining .none).net.heldVote = none ∧
    (let s := epoching false .voted .none
     s.takesMsg 0 .up (msgFlit 0x20 (vote 1)) 0x20 ∧ (met s .up 0x20 (vote 1)).straps.ringOrigin = false ∧
     holdsEpoch (met s .up 0x20 (vote 1)) (msgFlit 0x20 (vote 1)).payload = true ∧ (met s .up 0x20 (vote 1)).net.state = .voted) ∧
    (let s := epoching false .draining .none
     s.takesMsg 0 .up (msgFlit 0x20 (vote 1)) 0x20 ∧ (met s .up 0x20 (vote 1)).net.state = .draining) ∧
    (ringed.takesMsg 0 .up (msgFlit 0x20 (vote 1)) 0x20 ∧ holdsEpoch (met ringed .up 0x20 (vote 1)) (msgFlit 0x20 (vote 1)).payload = false ∧
      isMember (met ringed .up 0x20 (vote 1)) = true) ∧
    (let s := { ringed with net := { ringed.net with members := [0, 2] } }
     s.takesMsg 0 .up (msgFlit 0x20 (vote 1)) 0x20 ∧ isMember (met s .up 0x20 (vote 1)) = false) ∧
    (let s := epoching true .voted .vote
     s.takesMsg 0 .up (msgFlit 0x20 (vote 4)) 0x20 ∧ (met s .up 0x20 (vote 4)).straps.ringOrigin = true ∧
     (met s .up 0x20 (vote 4)).net.lap = .vote ∧ holdsEpoch (met s .up 0x20 (vote 4)) (msgFlit 0x20 (vote 4)).payload = true ∧
     voteCount (met s .up 0x20 (vote 4)).net = 4) :=
  ⟨by decide +kernel, rfl, ⟨takes_msg (by decide +kernel), by decide +kernel, by decide +kernel, by decide +kernel⟩,
    ⟨takes_msg (by decide +kernel), by decide +kernel⟩, ⟨takes_msg (by decide +kernel), by decide +kernel, by decide +kernel⟩,
    ⟨takes_msg (by decide +kernel), by decide +kernel⟩,
    takes_msg (by decide +kernel), by decide +kernel, by decide +kernel, by decide +kernel, by decide +kernel⟩
theorem witness_EpochHandoverAndCommitLaps :
    (let s := epoching false .voted .none
     s.takesMsg 0 .up (msgFlit 0x21 [(4, 1), (1, 0)]) 0x21 ∧ holdsEpoch (met s .up 0x21 [(4, 1), (1, 0)]) (msgFlit 0x21 [(4, 1), (1, 0)]).payload = true ∧
     (met s .up 0x21 [(4, 1), (1, 0)]).straps.ringOrigin = false ∧ (met s .up 0x21 [(4, 1), (1, 0)]).net.state = .voted) ∧
    (let s := epoching true .handover .handover
     s.takesMsg 0 .up (msgFlit 0x21 [(4, 1), (1, 1)]) 0x21 ∧ (met s .up 0x21 [(4, 1), (1, 1)]).straps.ringOrigin = true ∧
     (met s .up 0x21 [(4, 1), (1, 1)]).net.lap = .handover ∧
     (met s .up 0x21 [(4, 1), (1, 1)]).net.entries.length ≤ (met s .up 0x21 [(4, 1), (1, 1)]).net.entryNo ∧
     holdsEpoch (met s .up 0x21 [(4, 1), (1, 1)]) (msgFlit 0x21 [(4, 1), (1, 1)]).payload = true ∧ bitOf (msgField (msgFlit 0x21 [(4, 1), (1, 1)]).payload 4 1) 0 = true) ∧
    (∀ o, (epoching o .handover .commit).takesMsg 0 .up (msgFlit 0x22 [(4, 1)]) 0x22) ∧
    (∀ o, let s := met (epoching o .handover .commit) .up 0x22 [(4, 1)]
      s.straps.ringOrigin = o ∧ s.net.state = .handover ∧ s.net.lap = .commit ∧ epochPassOf s = some (pass0 .epoch) ∧
      holdsEpoch s (msgFlit 0x22 [(4, 1)]).payload = true) ∧
    (ringed.takesMsg 0 .up (msgFlit 0x22 [(4, 1)]) 0x22 ∧ holdsEpoch (met ringed .up 0x22 [(4, 1)]) (msgFlit 0x22 [(4, 1)]).payload = false ∧
      (met ringed .up 0x22 [(4, 1)]).straps.ringOrigin = false) ∧
    ((epoching false .voted .none).takesMsg 0 .up (msgFlit 0x23 [(4, 1), (1, 0x10)]) 0x23 ∧
      holdsEpoch (met (epoching false .voted .none) .up 0x23 [(4, 1), (1, 0x10)]) (msgFlit 0x23 [(4, 1), (1, 0x10)]).payload = true ∧
      (met (epoching false .voted .none) .up 0x23 [(4, 1), (1, 0x10)]).straps.ringOrigin = false ∧
      epochPassOf (met (epoching false .voted .none) .up 0x23 [(4, 1), (1, 0x10)]) = some (pass0 .epoch) ∧
      msgField (msgFlit 0x23 [(4, 1), (1, 0x10)]).payload 4 1 ≠ 0x23) ∧
    (∀ l ∈ [Lap.vote, .handover, .commit], (epoching true .voted l).net.lap ∈ [Lap.vote, .handover, .commit]) ∧
    1000000 * (epoching true .voted .vote).net.lapLimit < ((1000000001 : U64) - (epoching true .voted .vote).net.lapAt).toNat :=
  ⟨⟨takes_msg (by decide +kernel), by decide +kernel⟩, ⟨takes_msg (by decide +kernel), by decide +kernel⟩,
    fun o => takes_msg (by revert o; decide +kernel), by decide +kernel, ⟨takes_msg (by decide +kernel), by decide +kernel⟩,
    ⟨takes_msg (by decide +kernel), by decide +kernel⟩,
    by decide +kernel, by decide +kernel⟩

/-- An entry open at its destination. -/
def opened (ended ok : Bool) : State :=
  { ringed with net := { ringed.net with openIn := some ⟨1, 2, 0, 0x100, 8, 0, ended, ok⟩ } }
theorem witness_HandoverEntries :
    ringed.takesMsg 0 .up (msgFlit 0x24 [(4, 1), (2, 0), (8, 0x100), (8, 8)]) 0x24 ∧
    ((opened false true).takesNext 0 .up (dataFlit 1 3 [1, 2]) ∧ (dataFlit 1 3 [1, 2]).flitType = 1 ∧ (dataFlit 1 3 [1, 2]).dataKind = 1 ∧
      ((opened false true).accepted 0 .up (dataFlit 1 3 [1, 2])).net.openIn = some ⟨1, 2, 0, 0x100, 8, 0, false, true⟩) ∧
    (ringed.takesNext 0 .up (dataFlit 1 3 []) ∧ (ringed.accepted 0 .up (dataFlit 1 3 [])).net.openIn = none) ∧
    (let f := flit 2 0 (mkMsg 0x25 2 lapDst [(4, 1), (2, 0)])
     ∀ ok, (opened false ok).takesMsg 0 .up f 0x25 ∧ ((opened false ok).accepted 0 .up f).net.openIn = some ⟨1, 2, 0, 0x100, 8, 0, false, ok⟩ ∧
      (1 : U32).toNat = msgField f.payload 0 4 ∧ (0 : U16).toNat = msgField f.payload 4 2 ∧ (2 : U16).toNat = msgSrc f.payload) ∧
    (opened true true).net.openIn = some ⟨1, 2, 0, 0x100, 8, 0, true, true⟩ ∧
    (let s := { epoching false .handover .none with net := { (epoching false .handover .none).net with entries := [(0, 8, 1, 0)] } }
     ∀ st ∈ [0, 0x12], s.takesMsg 0 .down (msgFlit 0x26 [(4, 1), (2, 0), (1, st)]) 0x26 ∧
      (let a := met s .down 0x26 [(4, 1), (2, 0), (1, st)]
       holdsEpoch a (msgFlit 0x26 [(4, 1), (2, 0), (1, st)]).payload = true ∧ a.net.state = .handover ∧ a.net.lap = .none ∧
       a.net.entryNo < a.net.entries.length ∧ msgField (msgFlit 0x26 [(4, 1), (2, 0), (1, st)]).payload 4 2 = a.net.entryNo)) :=
  ⟨takes_msg (by decide +kernel), ⟨takes_data (by decide +kernel) (by decide +kernel) (by decide +kernel), by decide, by decide, by decide +kernel⟩,
    ⟨takes_data (by decide +kernel) (by decide +kernel) (by decide +kernel), by decide +kernel⟩,
    fun ok => ⟨⟨⟨⟨by revert ok; decide +kernel, flit_good (by decide), by revert ok; decide +kernel⟩, by revert ok; decide +kernel⟩, rfl,
      by decide +kernel, by revert ok; decide +kernel⟩, by revert ok; decide +kernel, by decide +kernel, by decide +kernel, by decide +kernel⟩, rfl,
    fun st h => ⟨takes_msg (by revert st; decide +kernel), by revert st; decide +kernel⟩⟩

theorem witness_RegisterWriteRights :
    reaches { live with pins := { Pins.reset with parked := true } } .host = false ∧
    (0x4103 % 4 ≠ 0 ∧ 0x2004 % 8 ≠ 0 ∧ isLong (0x2004 / 8 * 8) = true) ∧
    (∀ o ∈ [0x4100, 0x7FFC], 0x4100 ≤ o ∧ o / 4 * 4 + 4 ≤ 0x8000) ∧ (0xFFC / 4 * 4 + 4 ≤ 0x1000) ∧
    (0x40FC / 4 * 4 + 4 ≤ 0x4100 ∧ 0x2000 ≤ 0x40FC) ∧
    reaches live .keeper = true ∧ 0x4200 % 8 = 0 ∧ isLong 0x4200 = false := by decide +kernel
theorem witness_ParameterWrites :
    reaches live .keeper = true ∧ reaches live .drover = true ∧ Requester.drover ≠ .host ∧
    (∀ o ∈ [0x4100, 0x4520], o % 4 = 0 ∧ 0x4100 ≤ o ∧ o < 0x4524) ∧
    (bitsOf 7 4 0 ≠ 0 ∧ bitsOf 7 4 0 < 8) ∧ 16 < bitsOf 17 4 0 ∧ bitsOf 0x20 4 0 = 0 := by decide +kernel
theorem witness_AwlDeltaBounds :
    reaches live .keeper = true ∧ flt live.regs.awlDMax 0x42C80000 = true ∧ flt 0xBF800000 live.regs.awlDMin = true ∧
    (inRange 0 0x42C80000 0x42820000 = true ∧ inRange live.regs.awlDMin 0x49800000 0x42C80000 = true) ∧
    (inRange 0 live.regs.awlDMax 0x3F800000 = true ∧ inRange 0x3F800000 0x49800000 0x40000000 = true) := by decide +kernel
theorem witness_LogPagePerRequester :
    reaches live .host = true ∧ reaches live .keeper = true ∧ reaches live .drover = true ∧ 0xC000 ≤ 0xFFFC ∧ 0xFFFC < 0x10000 := by
  decide +kernel
theorem witness_OtherRegisterWrites :
    reaches live .host = true ∧ reaches live .keeper = true ∧ reaches live .drover = true ∧
    (∀ who ∈ [Requester.keeper, .drover], who ≠ .host) ∧ reaches { live with time := 5 } .keeper = true := by decide +kernel

/-- A context table entry of ring context asid 5 at the table's start, the engine with it in memory. -/
def entryBytes (v : Nat) : List (Nat × Byte) := [(0, BitVec.ofNat 8 v), (4, 5)]
theorem witness_CommitDecides :
    (let a := agentsWrite live (entryBytes 1)
     running a = true ∧ a.regs.commitBusy = false ∧ commitRefusal a 0 (readEntry a 0) = none ∧ (passesOf a 0).isEmpty = true) ∧
    (let a := agentsWrite live (entryBytes 0xF1)
     running a = true ∧ (commitRefusal a 0 (readEntry a 0)).isSome = true) ∧
    (let s := { withPass (pass0 .plain) with regs := { Regs.reset with commitBusy := true } }
     s.regs.commitBusy = true ∧ (agentsWrite s []).regs.commitBusy = true ∧ (passesOf s s.regs.commitLast.toNat).isEmpty = true) ∧
    (let s := withPass (pass0 .plain)
     (passesOf s 1).isEmpty = false ∧ ctxOf s 1 = some ctx1 ∧ onlyAdds s 1 ctx1 (parseCtx (readEntry s 1).bytes) = false ∧
     commitRefusal s 1 (readEntry s 1) = none) := by decide +kernel
/-- A context of the first MiB only, with a calibration area. -/
def small : Ctx := { ctx1 with windows := 1, calib := some ⟨0x1000, 1, 1024⟩ }
theorem witness_GrantedWindowReadsZero :
    ctx1.valid = true ∧ 511 ∈ addedMib (some small) ctx1 ∧ 0 ∉ addedMib (some small) ctx1 ∧ { ctx1 with valid := false }.valid = false ∧
    (ctxOf (withRing sub) 1).bind (·.calib) = none ∧ (ctxOf { live with ctxs := [(1, small)] } 1).bind (·.calib) = some ⟨0x1000, 1, 1024⟩ ∧
    Memory.wf live.store.bytes = true ∧ mib - 1 < mib := by decide +kernel

/-- An engine before its boot and one that verifies. -/
def verifying : State := { State.reset with bring := { Bringup.reset with step := 2, bootWritten := true, bootState := 1 } }
theorem witness_FirmwareBoot :
    (let a := agentsWrite State.reset []
     reaches a .host = true ∧ a.bring.bootWritten = false ∧ a.bring.fatal = false) ∧ (agentsWrite verifying []).bring.bootWritten = true ∧
    running verifying = true ∧ verifying.bring.bootState = 1 ∧ (bootFailure verifying .readError).isSome = true ∧
    8000000 < ((8000001 : U64) - verifying.bring.bootAt).toNat ∧
    (let s := { live with drover := ⟨true, false, 0, 0⟩ }
     running s = true ∧ s.bring.bootState = 2 ∧ s.drover.running = true ∧ s.drover.ready = false ∧
     1000000 < ((1000001 : U64) - s.drover.startedAt).toNat) := by decide +kernel
theorem witness_StoreInitialisation :
    (let s := { live with bring := { live.bring with initDone := false } }
     running s = true ∧ s.bring.bootState = 2 ∧ s.bring.held = false ∧ s.bring.initDone = false ∧ s.bring.fatal = false ∧
     partOk s.bring.storePart = true) ∧ partOk 0x02020419 = false := by decide +kernel
theorem witness_MailboxRequests :
    reaches live .host = true ∧ live.regs.kmBusy = false ∧ live.bring.fatal = false ∧ live.bring.bootState = 2 ∧
    live.regs.commitBusy = false ∧ (reaches State.reset .host = true ∧ State.reset.bring.bootState ≠ 2) ∧
    (reaches (agentsWrite live [(0, 1)]) .host = true ∧ (agentsWrite live [(0, 1)]).bring.bootState = 2) ∧
    (4095 : U64).toNat < 4096 ∧ 4096 ≤ (4096 : U64).toNat ∧ (63 : U64).toNat < 64 ∧ (0xFFFFFFFF : U64).toNat < 2 ^ 32 ∧
    (1 : U64).toNat < 2 ∧ 100 ≤ (100 : U64).toNat ∧ (300 : U64).toNat ≤ 300 ∧ 300 < (301 : U64).toNat ∧ 6 < (7 : U16).toNat := by
  decide +kernel
theorem witness_DroverWatched :
    live.drover.running = true ∧ running live = true ∧ 100000000 < ((100000001 : U64) - live.drover.reportAt).toNat := by decide +kernel
theorem witness_ScrubberAndEngineFatal :
    running live = true ∧ live.bring.initDone = true ∧ live.store.scrub < storeLines ∧ (0, true) ∈ [((0 : Nat), true), (5, false)] ∧ live.bring.fatal = false ∧
    (storeLines - 1 < storeLines ∧ storeLines - 1 + 1 = storeLines) ∧ { live.bring with fatal := true }.fatal = true := by decide +kernel

/-- A group of pass 0 with its code, on core 0 slot 0. -/
def group0 (code : List Bundle) : Group :=
  { slot := 0, pass := 0, ctx := 1, herd := 0, number := 0, member := 0, width := 16, vregsR := 64, f1 := false, code := code, next := 0,
    issue := 0, exec := 0xFFFF, stack := [], vregs := [], sregs := [], pend := [], tags := [], pendRegs := [], hold := .none, wait := .none,
    cycles := 0, bound := 0xFFFFFFFF, ended := false, stopping := false, halted := false, haltAsked := false, haltByHost := false,
    stepAsked := false, stock := .user, packet := none }
def herd0 : Herd := { pass := 0, number := 0, member := 0, launch := 0, size := 1, groups := 1, granules := 1, blocks := 1, live := 1,
                      mem := [], marks := [] }
/-- The running engine with that group resident; the debug registers name it. -/
def resident (g : Group) : State :=
  { withPass (pass0 .plain) with
    cores := [(0, { Core.reset with groups := [g], herds := [herd0] })],
    regs := { Regs.reset with dbgCtx := 1, dbgEnabled := true } }
theorem witness_DebuggerOperations :
    reaches live .host = true ∧ dbgGroup live = none ∧
    (let g := group0 [Bundle.empty]
     dbgGroup (resident g) = some g ∧ g.ctx = (resident g).regs.dbgCtx.toNat ∧ (resident g).regs.dbgEnabled = true ∧ g.halted = false ∧
     g.stock = .user ∧ groupReady (resident g) 0 g = true ∧
     g.ctx ≠ ({ (resident g).regs with dbgCtx := 2 }).dbgCtx.toNat) ∧
    (let g := { group0 [Bundle.empty] with wait := .tag 3, tags := [⟨3, 1, .remote, ⟨[], [], []⟩, []⟩] }
     dbgGroup (resident g) = some g ∧ groupReady (resident g) 0 g = false) ∧
    (let g := { group0 [Bundle.empty] with halted := true }
     dbgGroup (resident g) = some g ∧ g.halted = true) ∧
    (let g := { group0 [Bundle.empty] with haltAsked := true }
     dbgGroup (resident g) = some g ∧ g.haltAsked = true ∧ g.ended = false ∧ g.stopping = false) ∧
    { group0 [] with stock := .walk [] }.stock ≠ .user := by decide +kernel

theorem witness_DoorbellsAccepted :
    (let a := agentsWrite (withRing sub) []
     doorbellOp 16 = 0 ∧ a.rings446 1 0 5 ∧ doorbellReserved 16 = 0 ∧ indexFits (ringOf (a.rung 1 0 16) 16) (doorbellIndex 16) = true) ∧
    (let a := agentsWrite (withRing sub) []
     doorbellOp 17 = 0 ∧ indexFits (ringOf (a.rung 1 0 17) 16) (doorbellIndex 17) = false) ∧
    (let s := { withRing sub with ctxs := [(1, { ctx1 with halted := true })] }
     engineUp s = true ∧ s.bring.released = true ∧ asidMatches s 1 5 = true ∧ ctxOf (s.rung 1 0 4) 1 = some { ctx1 with halted := true } ∧
     (ringOf (s.rung 1 0 4) 16).active = true ∧ (ringOf (s.rung 1 0 4) 16).kind = 0) ∧
    asidMatches (withRing sub) 1 6 = false ∧ engineUp live = true ∧
    (let s := { live with bring := { live.bring with released := false } }
     engineUp s = true ∧ s.bring.released = false) ∧ 1 ≤ live.bring.step ∧ isAddrErr ⟨1, 0, 0, 0, 0x40, 0, 0⟩ = true ∧
    isAddrErr ⟨0, 0, 0, 0, 0x1000, 0, 0⟩ = false := by
  unfold State.rings446
  refine ⟨⟨rfl, ⟨rfl, rfl, by decide +kernel, ?_⟩, by decide +kernel, by decide +kernel⟩, by decide +kernel⟩
  intro x hx hh
  have : ctxOf (agentsWrite (withRing sub) []) 1 = some ctx1 := rfl
  rw [this] at hx
  cases hx
  exact absurd hh (by decide)

/-- A header of Table 13.2 for a submission ring of 16 entries with completion ring 1. -/
def headerBytes (version : Nat) : List Byte :=
  layout 64 [(0, 2, 0x5247), (3, 1, version), (4, 1, 4), (5, 1, 1), (6, 1, 0xFF), (16, 8, 0x1000)]
/-- Context 1 with an active completion ring 1, ring 0 as given, and a header for ring 0 in memory. -/
def setting (r : Ring) (version : Nat) : State :=
  { live with ctxs := [(1, ctx1)], rings := [(16, r), (17, { sub with kind := 1 })],
              chip := chipWrite live.chip 5 0x8000 (headerBytes version) false }
/-- A doorbell of context 1 with its own asid passes the checks of R446. -/
theorem rings_ok {s : State} (h : (engineUp s && s.bring.released && asidMatches s 1 5) = true) (hc : s.ctxs = [(1, ctx1)]) (r : Nat) :
    s.rings446 1 r 5 := by
  simp only [Bool.and_eq_true] at h
  refine ⟨h.1.1, h.1.2, h.2, ?_⟩
  intro x hx hh
  have : ctxOf s 1 = some ctx1 := by unfold ctxOf; rw [hc]; rfl
  rw [this] at hx
  cases hx
  exact absurd hh (by decide)
theorem witness_RingSetupAndTeardown :
    (doorbellOp 0x40000000 = 1 ∧ plainDoorbell 0x40000000 = true ∧ (setting .idle 2).rings446 1 0 5) ∧
    (let b := (setting .idle 2).rung 1 0 0x40000000
     let m := chipRead b.chip 5 0x8000 64
     ctxOf b 1 = some ctx1 ∧ ctx1.halted = false ∧ bitOf ctx1.ringAllow.toNat 15 = true ∧ m.xlate = none ∧ m.bad = none ∧
     headerWrong b 1 0 m.bytes = false ∧ versionWrong m.bytes = false) ∧
    (let m := chipRead (setting .idle 3).chip 5 0x8000 64
     headerWrong (setting .idle 3) 1 0 m.bytes = false ∧ versionWrong m.bytes = true) ∧
    headerWrong (setting sub 2) 1 0 (headerBytes 2) = true ∧ bitOf { ctx1 with ringAllow := 2 }.ringAllow.toNat 0 = false ∧
    (chipRead { (setting .idle 2).chip with unmapped := [(5 * 2 ^ 64 + 0x8000) / 4096] } 5 0x8000 64).xlate = some 0x8000 ∧
    (chipRead { (setting .idle 2).chip with poison := [(5 * 2 ^ 64 + 0x8000) / 64] } 5 0x8000 64).bad = some 0x8000 ∧
    (doorbellOp 0x80000000 = 2 ∧ plainDoorbell 0x80000000 = true ∧ (setting sub 2).rings446 1 0 5) ∧
    (ringOf ((setting .idle 2).rung 1 0 0) 16).active = false ∧ (ringOf ((setting sub 2).rung 1 0 0) 16).active = true ∧
    (ringOf ((setting sub 2).rung 1 0 0) 16).kind = 0 ∧ (ringOf ((setting sub 2).rung 1 1 0) 17).kind ≠ 0 ∧
    ringNamed ((setting sub 2).rung 1 1 0) 1 1 = true ∧ ringNamed ((setting .idle 2).rung 1 1 0) 1 1 = false ∧
    (let s := { setting { sub with tearing := true } 2 with passes := [{ pass0 .plain with ring := 3 }] }
     (ringOf s 16).active = true ∧ (ringOf s 16).tearing = true ∧ ∀ p ∈ s.passes, p.ctx = 1 → p.ring ≠ 0) :=
  ⟨⟨by decide, by decide, rings_ok (by decide +kernel) rfl 0⟩, by decide +kernel, by decide +kernel, by decide +kernel, by decide +kernel,
    by decide +kernel, by decide +kernel, ⟨by decide, by decide, rings_ok (by decide +kernel) rfl 0⟩, by decide +kernel⟩

/-- A descriptor of an opcode stands admissible at the head of ring 0 of context 1. -/
def atHead (s : State) (op : Byte) (f : Fetched) : Bool :=
  admissible s 1 0 == some f && ctxOf s 1 == some ctx1 && dOpcode f.desc == op
theorem heads_at {s : State} {op : Byte} {f : Fetched} (h : atHead s op f = true) : s.heads 1 0 op f ctx1 := by
  simp only [atHead, Bool.and_eq_true, beq_iff_eq] at h
  exact ⟨h.1.1, h.1.2, h.2⟩

/-- What a plan comes to. -/
def goes {α : Type} (p : Plan α) : Bool := match p.out with | .go _ => true | _ => false
def denies {α : Type} (p : Plan α) : Bool := match p.out with | .deny _ => true | _ => false
def xlates {α : Type} (p : Plan α) : Bool := match p.out with | .xlate _ _ => true | _ => false
def poisons {α : Type} (p : Plan α) : Bool := match p.out with | .poison _ _ _ => true | _ => false
theorem go_of {α : Type} {p : Plan α} (h : goes p = true) : ∃ x, p.out = .go x := by
  unfold goes at h
  split at h
  · exact ⟨_, ‹_›⟩
  · cases h
theorem deny_of {α : Type} {p : Plan α} (h : denies p = true) : ∃ y, p.out = .deny y := by
  unfold denies at h
  split at h
  · exact ⟨_, ‹_›⟩
  · cases h
theorem xlate_of {α : Type} {p : Plan α} (h : xlates p = true) : ∃ r v, p.out = .xlate r v := by
  unfold xlates at h
  split at h
  · exact ⟨_, _, ‹_›⟩
  · cases h
theorem poison_of {α : Type} {p : Plan α} (h : poisons p = true) : ∃ n r v, p.out = .poison n r v := by
  unfold poisons at h
  split at h
  · exact ⟨_, _, _, ‹_›⟩
  · cases h

/-- Context 1 with a descriptor to fetch at the head of its ring 0, in memory. -/
def toFetch (d : List Byte) : State := { withRing sub1 with chip := chipWrite live.chip 5 0x1000 d false }
theorem witness_DescriptorsFetched :
    (let s := toFetch (desc 0 [])
     let m := chipRead s.chip (asidOf s 1) (sub1.slotAddr sub1.consumer) (entrySize 0 2)
     ringRuns s 1 0 = true ∧ (ringOf s 16) = sub1 ∧ sub1.fill ≠ 0 ∧ sub1.head = none ∧ s.passes.length < 256 ∧ ctxOf s 1 = some ctx1 ∧
     m.xlate = none ∧ m.bad = none ∧ descChecks ctx1 false m.bytes m.bytes 0x1000 = none ∧ opHasBlock (dOpcode m.bytes) = false) ∧
    (descChecks ctx1 false (desc 0x7F []) (desc 0x7F []) 0x1000).isSome = true ∧ slotFor live (dClass (desc 0x7F [])) = true ∧
    slotFor { live with passes := List.replicate 240 (pass0 .plain) } (dClass (desc 0x7F [])) = false ∧
    (let s := toFetch (desc 0x11 [(16, 8, 0x2000)])
     let m := chipRead s.chip 5 0x1000 64
     descChecks ctx1 false m.bytes m.bytes 0x1000 = none ∧ opHasBlock (dOpcode m.bytes) = true ∧ dParam m.bytes = 0x2000 ∧
     (chipRead s.chip 5 0x2000 (blockSize (dOpcode m.bytes))).xlate = none) ∧
    (let m := desc 0x10 [(16, 8, 0x4000), (24, 8, 0x100), (32, 8, 64)]
     descChecks ctx1 true (m.take 32) (v1ToV2 (m.take 32)) 0x1000 = none ∧ dOpcode (v1ToV2 (m.take 32)) = opXfer) ∧
    (let s := withPass (pass0 .fence)
     ∃ p ∈ s.passes, p.ctx = 1 ∧ p.ring = 0 ∧ p.body = .fence) ∧
    (chipRead { live.chip with unmapped := [(5 * 2 ^ 64 + 0x1000) / 4096] } 5 0x1000 64).xlate = some 0x1000 ∧
    (let m := chipRead { live.chip with poison := [(5 * 2 ^ 64 + 0x1000) / 64] } 5 0x1000 64
     m.xlate = none ∧ m.bad = some 0x1000) ∧
    (headed (desc 0 []) []).heads 1 0 opNop (fetched (desc 0 []) []) ctx1 ∧ (headed (desc 1 []) []).heads 1 0 opFence (fetched (desc 1 []) []) ctx1 ∧
    (passOf (withPass (pass0 .fence)) 0 = some (pass0 .fence) ∧ earlierDone (withPass (pass0 .fence)) (pass0 .fence) = true ∧
      (pass0 .fence).status = none) ∧
    (let p := { pass0 .fence with slot := 1, order := 1 }
     let s := { withPass p with passes := [pass0 .plain, p] }
     passOf s 1 = some p ∧ earlierDone s p = false) :=
  ⟨by decide +kernel, by decide +kernel, by decide +kernel, by decide +kernel, by decide +kernel, by decide +kernel, by decide +kernel,
    by decide +kernel, by decide +kernel, heads_at (by decide +kernel), heads_at (by decide +kernel), by decide +kernel, by decide +kernel⟩

/-- A request of pass 0, and a burst of it in flight on tag 3. -/
def req1 (k : ReqKind) : Req := ⟨k, 5, 1, 0x40, 64, List.replicate 64 1, false, 0, 0, 0, 0, 0, .output, 0, false, 0, 0⟩
def flight1 (k : ReqKind) : Flight := ⟨3, 1, [3], [], [], ⟨[req1 k], 0x40, 64⟩, false, false, false, [], false⟩

def barrierDesc (a : Nat) : List Byte := desc 2 [(24, 8, a), (32, 8, 1), (40, 8, 2)]
def waits (arrived : Bool) : Pass := pass0 (.barrier 0x100 1 2 arrived 0 100 none)
theorem witness_BarrierAndCancel :
    ((headed (barrierDesc 0x100) []).heads 1 0 opBarrier (fetched (barrierDesc 0x100) []) ctx1 ∧ field (barrierDesc 0x100) 16 1 = 0 ∧
      field (barrierDesc 0x100) 24 8 % 8 = 0 ∧ field (barrierDesc 0x104) 24 8 % 8 ≠ 0) ∧
    (let s := withPass (waits true)
     let w := chipRead s.chip (asidOf s 1) 0x100 8
     passOf s 0 = some (waits true) ∧ (waits true).status = none ∧ (waits true).cancelAt = none ∧ w.xlate = none ∧ w.bad = none ∧
     pollDue 0 none = true ∧ pollDue 50 (some (0, 25)) = false ∧ pollDue 250 (some (0, 25)) = true ∧ 100 * 1000000 < ((100000001 : U64) - 0).toNat) ∧
    (let s := withPass (waits false)
     passOf s 0 = some (waits false) ∧ earlierDone s (waits false) = true ∧ (1 : U64) ≠ 0) ∧
    (let p := { waits false with slot := 1, order := 1 }
     let s := { withPass p with passes := [pass0 .plain, p] }
     passOf s 1 = some p ∧ earlierDone s p = false) ∧
    ((headed (desc 0x51 [(20, 4, 7)]) []).heads 1 0 opCancel (fetched (desc 0x51 [(20, 4, 7)]) []) ctx1 ∧ field (desc 0x51 [(20, 4, 7)]) 16 1 = 0) ∧
    ((headed (desc 0x51 [(16, 1, 1), (17, 1, 15)]) []).heads 1 0 opCancel (fetched (desc 0x51 [(16, 1, 1), (17, 1, 15)]) []) ctx1 ∧
      field (desc 0x51 [(16, 1, 1), (17, 1, 15)]) 16 1 = 1) ∧
    (let p := { pass0 .plain with cancelAt := some 0 }
     let s := withPass p
     passOf s 0 = some p ∧ ctxOf s 1 = some ctx1 ∧ ctx1.halted = false ∧ ctx1.fault = none ∧ p.held = false ∧ tagsHeld s 0 = 0 ∧
     groupsOfPass s 0 = 0 ∧ abortQueued s p = false ∧ lateFault p = none ∧ 1000 * s.regs.cancelTimeout.toNat < ((100001 : U64) - 0).toNat) ∧
    (let p := { pass0 .plain with cancelAt := some 0 }
     let s := { withPass p with ports := [{ Port.reset with outRd := [flight1 .read] }] ++ live.ports.drop 1 }
     passOf s 0 = some p ∧ tagsHeld s 0 ≠ 0) ∧
    (let p := { pass0 (.xfer ⟨parseXfer [] [], [], some (1, 0xFFFF, false, 0x4000), false, []⟩) with cancelAt := some 0 }
     passOf (withPass p) 0 = some p ∧ abortQueued (withPass p) p = false ∧ (lateFault p).isSome = true) :=
  ⟨⟨heads_at (by decide +kernel), by decide +kernel⟩, by decide +kernel, by decide +kernel, by decide +kernel, ⟨heads_at (by decide +kernel), by decide +kernel⟩,
    ⟨heads_at (by decide +kernel), by decide +kernel⟩, by decide +kernel, by decide +kernel, by decide +kernel⟩

theorem witness_PassesEnd :
    (let p := { pass0 .plain with status := some stOk }
     passOf (withPass p) 0 = some p ∧ p.status = some stOk ∧ passClear (withPass p) p = true ∧ p.writesOut = 0 ∧
     groupsOfPass (withPass p) 0 = 0 ∧ p.lastWrites = [] ∧ p.lastStore = []) ∧
    (let p := { pass0 .plain with status := some stOk, lastWrites := [(0x100, [1])] }
     passOf (withPass p) 0 = some p ∧ passClear (withPass p) p = true ∧ p.lastWrites ≠ []) ∧
    (let p := { pass0 .plain with status := some stOk, held := true }
     passOf (withPass p) 0 = some p ∧ p.held = true ∧ heldBefore (withPass p) p = []) ∧
    (let s := withRing { sub with kind := 1, msgEn := true, msgOwed := true, lastMsg := some 0, msgHoldoff := 5 }
     ctxOf s 1 = some ctx1 ∧ msgEntry ctx1 0 = some 0 ∧ (ringOf s 16).active = true ∧ (ringOf s 16).msgEn = true ∧ (ringOf s 16).msgOwed = true ∧
     s.pins.parked = false ∧ isWire s 0 = false ∧
     isWire { s with straps := { Straps.default with irqEn := true }, regs := { Regs.reset with msgWire := [(0, 1)] } } 0 = true ∧ (ringOf s 16).lastMsg = some 0 ∧ (0 : U64).toNat + 1000 * (ringOf s 16).msgHoldoff.toNat ≤ (5000 : U64).toNat) ∧
    (let f : FaultRec := ⟨stXlate, [], 256, 0xFF, 0, false⟩
     let x := { ctx1 with fault := some f }
     let s := { withRing sub with ctxs := [(1, x)] }
     let t := { s with ports := [{ Port.reset with outWr := [flight1 .write] }] ++ live.ports.drop 1 }
     ctxOf s 1 = some x ∧ x.fault = some f ∧ ctxFlights s 1 = [] ∧ (∀ p ∈ passesOf s 1, abortQueued s p = false ∧ (calibBegun p = true → p.writesOut = 0)) ∧
     ctxFlights t 1 ≠ [] ∧
     1000 * t.regs.cancelTimeout.toNat < ((100001 : U64) - f.since).toNat) := by decide +kernel

/-- An XFER of 4-byte elements in one dimension, from memory to the store. -/
def xferDesc (dims : Nat) : List Byte := desc 0x10 [(16, 8, 0x4000), (24, 8, 0x100), (40, 4, 4), (44, 1, dims + 16)]
def xferBlock (n : Nat) : List Byte := layout 128 [(0, 4, n), (24, 8, 4), (64, 8, 4)]
theorem witness_TransfersAndZeroCounts :
    (∀ n ∈ [0, 2], (headed (xferDesc 1) (xferBlock n)).heads 1 0 opXfer (fetched (xferDesc 1) (xferBlock n)) ctx1) ∧
    (∀ n ∈ [0, 2], firstDeny (xferChecks ctx1 (fetched (xferDesc 1) (xferBlock n)) (parseXfer (xferDesc 1) (xferBlock n))) = none) ∧
    (parseXfer (xferDesc 1) (xferBlock 0)).counts[0]? = some 0 ∧ 0 < (parseXfer (xferDesc 1) (xferBlock 0)).dims ∧
    (∀ n ∈ (parseXfer (xferDesc 1) (xferBlock 2)).counts.take (parseXfer (xferDesc 1) (xferBlock 2)).dims, n ≠ 0) ∧
    (passOf (admitPass (headed (xferDesc 1) (xferBlock 2)) (newPass (headed (xferDesc 1) (xferBlock 2)) 1 0 (xferDesc 1) .plain)) 0).isSome = true ∧
    (firstDeny (xferChecks ctx1 (fetched (xferDesc 6) (xferBlock 1)) (parseXfer (xferDesc 6) (xferBlock 1)))).isSome = true :=
  ⟨fun n h => heads_at (by revert n; decide +kernel), by decide +kernel, by decide +kernel, by decide +kernel, by decide +kernel, by decide +kernel,
    by decide +kernel⟩

/-- A SCATTER of n values of FP32 to an array of 4. -/
def scatterBlock (n : Nat) : List Byte :=
  layout 128 [(0, 8, 0x4000), (8, 8, 0x5000), (16, 8, 0x6000), (24, 8, 0x7000), (32, 8, 0x9000), (40, 8, 0xA000), (48, 8, 64), (56, 8, 4), (64, 4, n)]
def scatterAt (n : Nat) : State := headed (desc 0x11 [(16, 8, 0x2000)]) (scatterBlock n)
def scatterF (n : Nat) : Fetched := fetched (desc 0x11 [(16, 8, 0x2000)]) (scatterBlock n)
/-- A BUILD of an inner-product tree over no key, and over one primitive (a sphere). -/
def buildBlock (geo : Bool) (n : Nat) : List Byte :=
  layout 128 [(0, 8, 0x4000), (8, 8, 0x5000), (16, 8, 0x6000), (24, 8, 0x7000), (32, 8, 0x9000), (40, 8, 0xA000), (48, 8, 0x10000), (56, 8, 0xC000),
    (64, 8, 16 * n), (80, 4, n), (84, 2, 16), (86, 1, 8), (87, 1, if geo then 1 + 32 else 0)]
def buildAt (geo : Bool) (n : Nat) : State := headed (desc 0x20 [(16, 8, 0x2000)]) (buildBlock geo n)
def buildF (geo : Bool) (n : Nat) : Fetched := fetched (desc 0x20 [(16, 8, 0x2000)]) (buildBlock geo n)
theorem witness_ScatterAndBuild :
    (∀ n ∈ [0, 1], (scatterAt n).heads 1 0 opScatter (scatterF n) ctx1) ∧
    (∀ n ∈ [0, 1], ∃ z, (planScatter (scatterAt n) 1 (scatterF n)).out = .go z) ∧ (∃ y, (planScatter (scatterAt 3) 1 (scatterF 3)).out = .deny y) ∧
    (∃ r v, (planScatter { scatterAt 1 with chip := { live.chip with unmapped := [(5 * 2 ^ 64 + 0x4000) / 4096] } } 1 (scatterF 1)).out = .xlate r v) ∧
    (∃ m r v, (planScatter { scatterAt 1 with chip := { live.chip with poison := [(5 * 2 ^ 64 + 0x4000) / 64] } } 1 (scatterF 1)).out = .poison m r v) ∧
    (∀ n ∈ [0, 1], (passOf (admitPass (scatterAt n) (newPass (scatterAt n) 1 0 (scatterF n).desc .plain)) 0).isSome = true) ∧
    (∀ x ∈ [(false, 0), (true, 1)], (buildAt x.1 x.2).heads 1 0 opBuild (buildF x.1 x.2) ctx1) ∧
    (∀ x ∈ [(false, 0), (true, 1)], ∃ z, (planBuild (buildAt x.1 x.2) 1 ctx1 (buildF x.1 x.2)).out = .go z) ∧
    (∃ y, (planBuild (buildAt false 0) 1 ctx1 (fetched (desc 0x20 []) (layout 128 [(86, 1, 7)]))).out = .deny y) :=
  ⟨fun n h => heads_at (by revert n; decide +kernel), fun n h => go_of (by revert n; decide +kernel), deny_of (by decide +kernel), xlate_of (by decide +kernel), poison_of (by decide +kernel),
    by decide +kernel, fun x h => heads_at (by revert x; decide +kernel), fun x h => go_of (by revert x; decide +kernel), deny_of (by decide +kernel)⟩

/-- A SEARCH in THRESHOLD mode with no query, and memory with the root of an 8-dimensional tree at 0x4000. -/
def searchBlock (dims : Nat) : List Byte := layout 128 [(0, 8, 0x4000), (80, 8, 8), (122, 1, dims), (123, 1, 1)]
def searchF (dims : Nat) : Fetched := fetched (desc 0x21 []) (searchBlock dims)
def searchAt (dims : Nat) : State :=
  { headed (desc 0x21 []) (searchBlock dims) with chip := chipWrite live.chip 5 (0x4000 + 212) [8, 0, 0, 1] false }
/-- A TRACE with no ray over the geometric root at 0x4000. -/
def traceBlock (query : Nat) : List Byte := layout 128 [(8, 8, 0x4000), (56, 8, 8), (80, 1, query)]
def traceF (query : Nat) : Fetched := fetched (desc 0x22 []) (traceBlock query)
def traceAt (query : Nat) : State :=
  { headed (desc 0x22 []) (traceBlock query) with chip := chipWrite live.chip 5 (0x4000 + 72) [2] false }
/-- A render pass over n triangles on one pixel, in DIRECT organisation. -/
def renderBlock (bwd : Bool) (n : Nat) : List Byte :=
  layout 256 ([(0, 8, 0x10000), (8, 8, 0x11000), (40, 8, 0x14000), (160, 4, n), (164, 2, 1), (166, 2, 1), (196, 1, 1), (198, 1, 0x11)] ++
    (if bwd then [(120, 8, 0x15000), (128, 8, 0x16000), (136, 8, 0x17000), (144, 8, 64), (199, 1, 0x80)] else [(24, 8, 0x12000), (32, 8, 0x13000)]))
def renderF (bwd : Bool) (n : Nat) : Fetched := fetched (desc (if bwd then 0x31 else 0x30) []) (renderBlock bwd n)
def renderAt (bwd : Bool) (n : Nat) : State := headed (desc (if bwd then 0x31 else 0x30) []) (renderBlock bwd n)
/-- A KERNEL of an image at 0x3000 over n herds; the image holds one empty bundle. -/
def kernelF (n stock : Nat) : Fetched := fetched (desc 0x40 [(16, 8, if stock = 0 then 0x3000 else 0), (24, 8, 0x6000), (32, 4, n), (36, 2, stock)]) []
def imageHead : List Byte :=
  layout 128 [(0, 1, 1), (1, 1, 2), (2, 2, 0x464B), (4, 4, 0x20000000), (8, 4, 1), (16, 4, 1000), (24, 4, 0xC2A8FA9D)]
def kernelAt (n stock : Nat) : State :=
  { headed (kernelF n stock).desc [] with chip := chipWrite live.chip 5 0x3000 imageHead false }
/-- The arguments of a welt of one list without queries at 0x7000. -/
def weltAt : State :=
  { headed (kernelF 0 1).desc [] with
    chip := chipWrite (chipWrite (chipWrite live.chip 5 0x6000 (layout 80 [(0, 8, 1), (8, 8, 0x6800), (32, 8, 1), (72, 8, 8)]) false)
      5 0x6800 (natLe 8 0x7000) false) 5 0x7000 (layout 64 [(8, 1, 8)]) false }
def admitted (s : State) (f : Fetched) : State := admitPass s (newPass s 1 0 f.desc .plain)
theorem witness_WorkPassesAdmitted :
    ((∀ d ∈ [8, 7], (searchAt d).heads 1 0 opSearch (searchF d) ctx1) ∧ (∃ z, (planSearch (searchAt 8) 1 ctx1 (searchF 8)).out = .go z) ∧
      (∃ y, (planSearch (searchAt 7) 1 ctx1 (searchF 7)).out = .deny y) ∧ arriving (searchAt 8) 1 (searchNames (searchAt 8) (parseSearch (searchF 8).block)) = false ∧
      arriving (handing .off (.ready 8)) 1 [(0x107, 1)] = true) ∧
    ((∀ q ∈ [2, 3], (traceAt q).heads 1 0 opTrace (traceF q) ctx1) ∧ (∃ z, (planTrace (traceAt 2) 1 ctx1 (traceF 2)).out = .go z) ∧
      (∃ y, (planTrace (traceAt 3) 1 ctx1 (traceF 3)).out = .deny y)) ∧
    (∀ n ∈ [0, 1], (renderAt false n).heads 1 0 opRenderFwd (renderF false n) ctx1 ∧ (renderAt true n).heads 1 0 opRenderBwd (renderF true n) ctx1) ∧
    (∀ x ∈ [(false, 0), (false, 1), (true, 1)], (∃ z, (planRender (renderAt x.1 x.2) 1 x.1 (renderF x.1 x.2)).out = .go z) ∧
      emptyRender (parseRender (renderF x.1 x.2).block x.1) = decide (x.2 = 0) ∧
      (passOf (admitted (renderAt x.1 x.2) (renderF x.1 x.2)) 0).isSome = true) ∧
    (∀ n ∈ [0, 1], (kernelAt n 0).heads 1 0 opKernel (kernelF n 0) ctx1) ∧ (planKernel (kernelAt 0 0) 1 ctx1 (kernelF 0 0)).out = .go .nothing ∧
    (∃ i as, (planKernel (kernelAt 1 0) 1 ctx1 (kernelF 1 0)).out = .go (.image i as)) ∧
    (∃ y, (planKernel (kernelAt 1 2) 1 ctx1 (kernelF 1 2)).out = .deny y) ∧
    (weltAt.heads 1 0 opKernel (kernelF 0 1) ctx1 ∧ ∃ w q rs, (planKernel weltAt 1 ctx1 (kernelF 0 1)).out = .go (.welt w q rs)) := by
  refine ⟨⟨fun d h => heads_at (by revert d; decide +kernel), go_of (by decide +kernel), deny_of (by decide +kernel), by decide +kernel⟩,
    ⟨fun q h => heads_at (by revert q; decide +kernel), go_of (by decide +kernel), deny_of (by decide +kernel)⟩,
    fun n h => ⟨heads_at (by revert n; decide +kernel), heads_at (by revert n; decide +kernel)⟩,
    fun x h => ⟨go_of (by revert x; decide +kernel), by revert x; decide +kernel, by revert x; decide +kernel⟩,
    fun n h => heads_at (by revert n; decide +kernel), ?_, ?_, deny_of (by decide +kernel), heads_at (by decide +kernel), ?_⟩
  · have h : (match (planKernel (kernelAt 0 0) 1 ctx1 (kernelF 0 0)).out with | .go .nothing => true | _ => false) = true := by decide +kernel
    split at h <;> simp_all
  · have h : (match (planKernel (kernelAt 1 0) 1 ctx1 (kernelF 1 0)).out with | .go (.image _ _) => true | _ => false) = true := by decide +kernel
    split at h <;> simp_all
  · have h : (match (planKernel weltAt 1 ctx1 (kernelF 0 1)).out with | .go (.welt _ _ _) => true | _ => false) = true := by decide +kernel
    split at h <;> simp_all

/-- A CALIB of an operation on a context whose area at 0x1000 has one margin of 1.0 and room for 1024 samples. -/
def area1 : CalibArea := ⟨0x1000, 1, 1024⟩
def calibF (op snapshot : Nat) : Fetched :=
  fetched (desc 0x50 [(16, 1, op), (20, 4, snapshot), (24, 8, 0x1000), (32, 8, 0x5000), (44, 4, 1), (48, 4, 1024)]) []
def calibCtx : Ctx := { ctx1 with calib := some area1 }
def calibAt (op snapshot : Nat) (on : Bool) : State :=
  { headed (calibF op snapshot).desc [] with
    ctxs := [(1, if on then calibCtx else ctx1)],
    store := storeWrites live.store [(0x1000, layout 40 [(0, 4, 1), (4, 4, 1024)]), (0x1100, (WorkEntry.bytes ⟨0x3F800000, 0, nan32, 0⟩))],
    chip := chipWrite live.chip 5 0x5000 (natLe 4 0x3F800000) false }
def atCalib (op snapshot : Nat) (on : Bool) : Bool :=
  let s := calibAt op snapshot on
  admissible s 1 0 == some (calibF op snapshot) && ctxOf s 1 == some (if on then calibCtx else ctx1) &&
  dOpcode (calibF op snapshot).desc == opCalib && bitsOf (field (calibF op snapshot).desc 16 1) 3 0 == op
theorem calib_at {op snapshot : Nat} {on : Bool} (h : atCalib op snapshot on = true) :
    (calibAt op snapshot on).heads 1 0 opCalib (calibF op snapshot) (if on then calibCtx else ctx1) ∧
    bitsOf (field (calibF op snapshot).desc 16 1) 3 0 = op := by
  simp only [atCalib, Bool.and_eq_true, beq_iff_eq] at h
  exact ⟨⟨h.1.1.1, h.1.1.2, h.1.2⟩, h.2⟩
theorem witness_CalibrationPasses :
    (((calibAt 0 0 false).heads 1 0 opCalib (calibF 0 0) ctx1 ∧ bitsOf (field (calibF 0 0).desc 16 1) 3 0 = 0) ∧
      (∃ ms, (planSetup (calibAt 0 0 false) 1 ctx1 (calibF 0 0)).out = .go ms) ∧ ∃ y, (planSetup (calibAt 0 0 true) 1 calibCtx (calibF 0 0)).out = .deny y) ∧
    (∀ op ∈ [1, 2, 3, 4, 5, 6], (calibAt op 9 true).heads 1 0 opCalib (calibF op 9) calibCtx ∧ bitsOf (field (calibF op 9).desc 16 1) 3 0 = op) ∧
    (∃ z, (planExport (calibAt 1 9 true) calibCtx (calibF 1 9)).out = .go z) ∧ (∃ z, (planPropose (calibAt 2 9 true) 1 calibCtx (calibF 2 9)).out = .go z) ∧
    (∃ z, (planCommit (calibAt 3 9 true) 1 calibCtx (calibF 3 9)).out = .go z) ∧ (∃ z, (planSave (calibAt 4 9 true) calibCtx (calibF 4 9)).out = .go z) ∧
    (∃ z, (planRestore (calibAt 5 9 true) 1 calibCtx (calibF 5 9)).out = .go z) ∧ calibCtx.calib = some area1 ∧ ctx1.calib = none ∧
    ((calibAt 6 0 false).heads 1 0 opCalib (calibF 6 0) ctx1 ∧ bitsOf (field (calibF 6 0).desc 16 1) 3 0 = 6) :=
  ⟨⟨calib_at (on := false) (by decide +kernel), go_of (by decide +kernel), deny_of (by decide +kernel)⟩,
    fun op h => calib_at (on := true) (by revert op; decide +kernel), go_of (by decide +kernel), go_of (by decide +kernel), go_of (by decide +kernel),
    go_of (by decide +kernel), go_of (by decide +kernel), rfl, rfl, calib_at (on := false) (by decide +kernel)⟩

/-- A HANDOFF with its halves by bits 0 and 1, of lengths n to 8, on a ready ring of one member or of four. -/
def handF (halves n : Nat) : Fetched :=
  fetched (desc 2 [(16, 1, 1), (17, 1, halves), (24, 4, 3), (32, 8, 0x100), (40, 8, n), (48, 8, 0x200), (56, 8, 8)]) []
def handAt (halves n : Nat) (ms : List Nat) : State :=
  { headed (handF halves n).desc [] with links := [linkUp, linkUp], net := { ringed.net with members := ms } }
/-- An EPOCH to epoch 1 of members 0 and 1 under S = 2. -/
def epochF (log2 : Nat) : Fetched := fetched (desc 3 [(16, 4, 1), (20, 1, log2), (24, 8, 0x4000)]) []
def epochAt (log2 : Nat) : State :=
  { headed (epochF log2).desc [] with
    links := [linkUp, linkUp], net := { ringed.net with shards := none }, chip := chipWrite live.chip 5 0x4000 [3] false }
theorem witness_RingPassesAdmitted :
    (∀ x ∈ [(0, 8), (3, 8), (3, 9)], (handAt x.1 x.2 [1]).heads 1 0 opBarrier (handF x.1 x.2) ctx1) ∧
    (∀ x ∈ [(0, 8), (3, 8), (3, 9)], field (handF x.1 x.2).desc 16 1 = 1 ∧ handoffCheck (handAt x.1 x.2 [1]) ctx1 (handF x.1 x.2) = none) ∧
    (parseHandoff live (handF 0 8).desc).send = .off ∧ (parseHandoff live (handF 0 8).desc).recv = .off ∧
    (let h := parseHandoff live (handF 3 8).desc
     h.send ≠ .off ∧ h.recv ≠ .off ∧ h.sendLen ≤ h.recvLen) ∧
    (let h := parseHandoff live (handF 3 9).desc
     h.recvLen < h.sendLen) ∧
    (admitted (handAt 3 8 [1]) (handF 3 8)).net.members = [(admitted (handAt 3 8 [1]) (handF 3 8)).net.position.toNat] ∧
    (admitted (handAt 3 8 [0, 1]) (handF 3 8)).net.members ≠ [(admitted (handAt 3 8 [0, 1]) (handF 3 8)).net.position.toNat] ∧
    (handoffCheck (handAt 3 8 [1]) { ctx1 with windows := 0 } (handF 3 8)).isSome = true ∧
    (∀ n ∈ [1, 15], (epochAt n).heads 1 0 opEpoch (epochF n) ctx1) ∧ (∀ n ∈ [1, 15], epochTurn (epochAt n) (epochF n) = true) ∧
    (∃ z, (planEpoch (epochAt 1) 1 ctx1 (epochF 1)).out = .go z) ∧ ∃ y, (planEpoch (epochAt 15) 1 ctx1 (epochF 15)).out = .deny y :=
  ⟨fun x h => heads_at (by revert x; decide +kernel), by decide +kernel, by decide +kernel, by decide +kernel, by decide +kernel, by decide +kernel,
    by decide +kernel, by decide +kernel, by decide +kernel, fun n h => heads_at (by revert n; decide +kernel), by decide +kernel,
    go_of (by decide +kernel), deny_of (by decide +kernel)⟩

/-- A SEARCH of n queries in THRESHOLD mode and a TRACE of n rays, as bodies of pass 0. -/
def searching (n : Nat) : SearchBody :=
  { par := { parseSearch (searchBlock 8) with queryCount := n }, root := parseRoot 8 (List.replicate 256 0), delta := 0, walk := newWalk n }
def tracing (n : Nat) : TraceBody :=
  { par := { parseTrace (traceBlock 2) with rayCount := n }, root := parseGeoRoot (List.replicate 128 0), walk := newWalk n }
/-- Pass 0 with item 0 of its walk, and what else the fold holds. -/
def item0 : Item := ⟨0, 1, 0, 0, 0, [], false, false, 2, 0xFF800000, [], false, none, false⟩
def record0 : Record := ⟨0, 0, 0, 0, 0x4000, 0, 0, true, false, false, 0, 0, 0, false⟩
def scored0 (raised : Bool) : Scored := ⟨0, 0, 0, ⟨7, 0x3F800000, 0, false⟩, raised, 0⟩
def folded (b : Body) (f : Fold) : State := { withPass (pass0 b) with fold := f }
def pen0 : Pen := ⟨1, true, false, 0, 0x4000, 0, false, 0, 0, false, [⟨0, [(0, record0)]⟩]⟩
/-- A walk group on core 8 that has nothing left to do. -/
def walker : Group := { group0 [] with stock := .walk [] }
/-- The last unit of a stock kernel's work, and a group that takes such units. -/
def work0 : StockWork := ⟨3, 1, [], [], [], false, 0, 0, 0⟩
def builder : Group := { group0 [] with stock := .builder }
theorem witness_FoldAtWork :
    (∀ b ∈ [Body.search (searching 4097), .trace (tracing 1)],
      let p := pass0 b
      let s := withPass p
      passOf s 0 = some p ∧ p.cancelAt = none ∧ p.status = none ∧ batchFits s p = true ∧
      ((passWalk p).bind nextBatch).isSome = true) ∧
    (let r := { record0 with target := 0 }
     let s := folded (.search (searching 1)) { Fold.reset with
       arrivals := [r], items := [item0], slices := [{ Slice.reset with openPens := [{ pen0 with target := 0 }] }, .reset, .reset, .reset] }
     s.fold.arrivals.find? (fun r => homeSlice r.target == (0 : BitVec 2).toNat) = some r ∧ passOf s r.pass = some (pass0 (.search (searching 1))) ∧
     needsBlock (sliceOf s 0) 1 0 r = false ∧ itemFor s r.pass r.item r.gen = some item0) ∧
    (∀ b ∈ [searching 1], goes ((planList (fun j => (planLocator (withPass (pass0 (.search b))) 1 (homeSlice b.par.treeAddr) b.par j).bind
       fun y => .go (j, y)) [0])) = true) ∧
    (∀ b ∈ [tracing 1], goes ((planList (fun j => (planRay (withPass (pass0 (.trace b))) 1 (homeSlice b.par.treeAddr) b.par j).bind
       fun y => .go (j, y)) [0])) = true) ∧
    (let s := { folded (.search (searching 1)) { Fold.reset with slices := [{ Slice.reset with openPens := [pen0] }, .reset, .reset, .reset] } with
       cores := [(8, { Core.reset with groups := [walker] })] }
     groupOf s 8 0 = some walker ∧ walker.stock = .walk [] ∧ (coreOf s 8).clockOn = true ∧ findPen (ageSlices s) 0 1 = some (0, pen0) ∧
     mayTake (ageSlices s) 8 walker pen0 = true) ∧
    (let s := { withPass (pass0 (.stock work0)) with cores := [(8, { Core.reset with groups := [builder] })] }
     groupOf s 8 0 = some builder ∧ builder.stock = .builder ∧ passOf s builder.pass = some (pass0 (.stock work0)) ∧ work0.left ≠ 0 ∧
     reserved s (flockOfCore 8) = false ∧ { work0 with left := 0 }.left = 0) ∧
    (let s := { withPass (pass0 .plain) with cores := [(8, { Core.reset with groups := [walker] })] }
     groupOf s 8 0 = some walker ∧ findPen (ageSlices s) 0 1 = none) ∧
    (let s := folded (.search (searching 1)) { Fold.reset with items := [item0], scored := [scored0 false] }
     s.fold.scored.find? (!·.raised) = some (scored0 false) ∧ itemFor s 0 0 0 = some item0) ∧
    (let s := folded (.search (searching 1)) { Fold.reset with items := [item0], scored := [scored0 true] }
     (s.fold.scored.filter (·.raised)).find? (canAppend s) = some (scored0 true) ∧ passOf s 0 = some (pass0 (.search (searching 1))) ∧ itemFor s 0 0 0 = some item0 ∧
     isCandidate (pass0 (.search (searching 1))) item0 (scored0 true).cand = true ∧ takesEntries (pass0 (.search (searching 1))) = true ∧
     candFits s (pass0 (.search (searching 1))) = true) ∧
    (let b := { searching 1 with par := { (searching 1).par with threshold := false } }
     isCandidate (pass0 (.search b)) { item0 with best := 0x40000000 } (scored0 true).cand = false) ∧
    (∀ e ∈ [0, 1], let x : Settle := ⟨0, 0, 0, 0, e, 0⟩
      let i := { item0 with count := 1 }
      let s := folded (.search (searching 1)) { Fold.reset with items := [i], settles := [x] }
      s.fold.settles.find? (·.waiting == 0) = some x ∧ itemFor s 0 0 0 = some i ∧ (i.count + x.emitted - 1 = 0 ↔ e = 0)) ∧
    (let r : Retired := ⟨0, [], false, 0xFF800000, false⟩
     ∀ b ∈ [Body.search { searching 1 with walk := { newWalk 1 with retired := [r] } }, .trace { tracing 1 with walk := { newWalk 1 with retired := [r] } }],
      passOf (withPass (pass0 b)) 0 = some (pass0 b) ∧ ((passWalk (pass0 b)).bind fun w => w.retired.find? (·.index == w.placed)) = some r) := by
  decide +kernel

/-- A predicate that selects every thread, and a bundle of each operation that the commands of BundleIssue name. -/
def always : Pred := ⟨false, false, 0⟩
def withC (o : COp) : Bundle := { Bundle.empty with c := some ⟨always, o, .imm, false, 0⟩ }
def withX (o : XOp) (tag : BitVec 6) : Bundle := { Bundle.empty with x := some ⟨always, o, 0, .scl 0, .scl 2, tag, 0, false, 0⟩ }
def withM (o : MOp) (tag : BitVec 6) : Bundle := { Bundle.empty with m := some ⟨always, o, 0, 0, 0, 0, .vec 0, .vec 2, .imm, 0, tag, 0⟩ }
def vMov : VSlot := ⟨always, .mov, 1, .imm, .imm, .imm, 7⟩
def sMov : SSlot := ⟨always, .mov, 4, .imm, .imm, 7⟩
def withV : Bundle := { Bundle.empty with v0 := some vMov }
def withS : Bundle := { Bundle.empty with s := some sMov }
def withB : Bundle := { Bundle.empty with b := some ⟨always, .rayBox, 8, .vec 0, .vec 0, .imm, 0, 0⟩ }
def withP : Bundle := { Bundle.empty with p := some ⟨always, .point, 8, .vec 0, .vec 0, .imm, 0, 0⟩ }
/-- The group that is to issue a bundle, one IF deep. -/
def issuing (b : Bundle) : Group := { group0 [b, b] with stack := [0xFFFF] }
/-- The group's bundle is the next that its core starts, and nothing stops it. -/
def performs (b : Bundle) : Bool :=
  let s := resident (issuing b)
  let g := issuing b
  (coreOf s 0).clockOn && arbiter s 0 == some 0 && groupOf s 0 0 == some g && nextBundle g == some b &&
  herdOf (coreOf s 0) g.pass g.herd == some herd0 && (g.failing herd0 b).isEmpty &&
  (bundleStop s g.reading (herd0.reading g) b false false).isNone && (coreOf s 0).boundBusy == 0
theorem performs_of {b : Bundle} (h : performs b = true) :
    (resident (issuing b)).starts 0 0 (resident (issuing b)) (issuing b) herd0 b ∧ (resident (issuing b)).performs (issuing b) herd0 b false false := by
  simp only [performs, Bool.and_eq_true, beq_iff_eq, List.isEmpty_iff, Option.isNone_iff_eq_none] at h
  obtain ⟨⟨⟨⟨⟨⟨⟨h1, h2⟩, h3⟩, h4⟩, h5⟩, h6⟩, h7⟩, h8⟩ := h
  exact ⟨⟨by simp [awaitBound, h8], h1, h2, h3, rfl, h4, h5⟩, h6, h7⟩
/-- The bundles that the commands of BundleIssue name, with what those commands look for. -/
def named : List ((Option Bundle → Bool) × Bundle) :=
  [(holdsC .br, withC .br), (holdsC .brnone, withC .brnone), (holdsC .ifm, withC .ifm), (holdsC .elsem, withC .elsem),
   (holdsC .endifm, withC .endifm), (holdsC .barH, withC .barH), (holdsC .barF, withC .barF), (holdsC .endg, withC .endg),
   (holdsX .mma, withX .mma 3), (holdsX .fetch, withX .fetch 3), (holdsX .wait, withX .wait 3), (holdsX .fence, withX .fence 3),
   (holdsM .ldL, withM .ldL 0), (holdsM .stL, withM .stL 0), (holdsM .ldF, withM .ldF 3), (holdsM .stF, withM .stF 3), (holdsM .ldG, withM .ldG 3),
   (holdsM .stG, withM .stG 3), (holdsM .atG, withM .atG 3), (holdsM .atfG, withM .atfG 3), (holdsV, withV), (holdsS, withS), (holdsB, withB),
   (holdsP, withP)]
/-- A group with tag 3 outstanding that is to issue a bundle. -/
def tagged (op : AsyncOp) (b : Bundle) : Group := { issuing b with tags := [⟨3, 1, op, ⟨[], [], []⟩, []⟩] }
/-- Whether a group's next bundle fails first with TAG_BUSY. -/
def busy (b : Bundle) : Bool :=
  let g := tagged .remote b
  let s := resident g
  (coreOf s 0).clockOn && arbiter s 0 == some 0 && groupOf s 0 0 == some g && nextBundle g == some b &&
  herdOf (coreOf s 0) g.pass g.herd == some herd0 && ((g.failing herd0 b).head?.map (·.kind)) == some 5 &&
  (passOf s g.reading.pass).isSome
theorem witness_BundleIssue :
    (∀ x ∈ named, performs x.2 = true ∧ x.1 (some x.2) = true ∧
      (passOf (resident (issuing x.2)) (issuing x.2).pass).isSome = true) ∧
    (∀ b, performs b = true → (resident (issuing b)).starts 0 0 (resident (issuing b)) (issuing b) herd0 b ∧
      (resident (issuing b)).performs (issuing b) herd0 b false false) ∧
    busy (withM .ldG 3) = true ∧ holdsC .br (some withV) = false :=
  ⟨by intro x hx; revert x; decide +kernel, fun _ h => performs_of h, by decide +kernel, by decide +kernel⟩
theorem witness_ControlFlow :
    cActs (issuing withV) { pred := always, op := .brnone, a := .imm, inv := false, imm := 0 } = true ∧
    (∀ o ∈ [COp.br, .ifm, .elsem, .endifm, .barH, .barF, .endg], ∃ c, (withC o).c = some c ∧ c.op = o ∧ cActs (issuing (withC o)) c = true) ∧
    (issuing withV).stack = [0xFFFF] ∧ selection (issuing withV) always ≠ 0 ∧ withV.c = none ∧ (∃ x, (withX .wait 3).x = some x) ∧
    { issuing withV with exec := 0 }.exec.toNat % 2 ^ (issuing withV).width = 0 :=
  ⟨by decide +kernel, fun o h => ⟨⟨always, o, .imm, false, 0⟩, rfl, rfl, by revert o; decide +kernel⟩, rfl, by decide +kernel, rfl, ⟨_, rfl⟩,
    by decide +kernel⟩
theorem witness_ResultsFallDue :
    selection (group0 []) vMov.pred ≠ 0 ∧ vMov.op ≠ .permute ∧ (∀ c f, vMov.op ≠ .cmp c f) ∧ selection (group0 []) sMov.pred ≠ 0 ∧
    selection { group0 [] with exec := 0 } vMov.pred = 0 ∧
    (let g := { group0 [] with pend := [⟨0, .vreg 1 [(0, 7)]⟩, ⟨4, .vreg 1 [(0, 8)]⟩], issue := 0 }
     g.pend = [⟨g.issue, .vreg 1 [(0, 7)]⟩, ⟨4, .vreg 1 [(0, 8)]⟩] ∧ ∀ p ∈ [(⟨4, .vreg 1 [(0, 8)]⟩ : Pending)], p.vis ≠ g.issue) :=
  ⟨by decide +kernel, by decide, (by intro c f h; cases h), by decide +kernel, by decide +kernel, by decide +kernel⟩
theorem witness_TagsOfAsynchronousOperations :
    (∀ o ∈ [MOp.ldG, .stG, .atG, .atfG, .ldF, .stF], mAsync o = true ∧ tagOut (tagged .remote (withM o 3)) 3 = true ∧ busy (withM o 3) = true) ∧
    (∀ o ∈ [XOp.mma, .fetch], tagOut (tagged .remote (withX o 3)) 3 = true ∧ busy (withX o 3) = true) ∧
    selection (tagged .remote withV) always ≠ 0 ∧
    (∀ op ∈ [AsyncOp.mma 0 0 0 0, .fetchStore [(0, 0, 16)]], let g := tagged op withV
      groupOf (resident g) 0 0 = some g ∧ herdOf (coreOf (resident g) 0) g.pass g.herd = some herd0 ∧
      g.tags.find? (·.tag == 3) = some ⟨3, 1, op, ⟨[], [], []⟩, []⟩ ∧ (⟨3, 1, op, ⟨[], [], []⟩, []⟩ : TagOp).left ≤ 1) ∧
    (∀ op ∈ [AsyncOp.loadF 1 4 [(0, 0, 0)], .storeF [(0, 0, 0, 7)]], let g := tagged op withV
      flockWaits g ⟨3, 1, op, ⟨[], [], []⟩, []⟩ = false ∧ (coreOf (resident g) 0).clockOn = true) ∧
    { Core.reset with clockOn := false }.clockOn = false := by decide +kernel

/-- A KERNEL of one image over n herds in slot 0, launched in flocks of f. -/
def image0 (f : Nat) : Image := ⟨0x3000, 2, if f = 1 then 0 else 1, 64, 1, f, 1, 1, 8, 0, 0, 1000, false, 7, [Bundle.empty]⟩
def kernelBody (f : Nat) : KernelBody := ⟨image0 f, [], 8, 0, 0, 0⟩
def launching (f : Nat) : State := withPass (pass0 (.kernel (kernelBody f)))
def waiting0 (f : Nat) : Waiting := ⟨0, 1, 0, 0, 0, some (image0 f), 1000⟩
theorem witness_LaunchesAndTimeBound :
    (∀ f ∈ [1, 8], passOf (launching f) 0 = some (pass0 (.kernel (kernelBody f))) ∧
      waitingOf (launching f) (pass0 (.kernel (kernelBody f))) = some (waiting0 f)) ∧
    launchSize (waiting0 1) = 1 ∧ fits (launching 1) 255 (waiting0 1) = true ∧ mayLaunch (launching 1) 31 (waiting0 1) = true ∧
    launchSize (waiting0 8) ≠ 1 ∧ fits (launching 1) 256 (waiting0 1) = false ∧
    flockCores (launching 8) 31 (waiting0 8) = some [248, 249, 250, 251, 252, 253, 254, 255] ∧ mayLaunch (launching 8) 31 (waiting0 8) = true ∧
    (∀ b ∈ [Body.search (searching 1), .trace (tracing 1), .stock work0],
      let s := folded b { Fold.reset with slices := [{ Slice.reset with openPens := [pen0] }, .reset, .reset, .reset] }
      passOf s 0 = some (pass0 b) ∧ ((waitingOf s (pass0 b)).any fun w => launchSize w = 1 && fits s 8 w && mayLaunch s 1 w) = true) ∧
    (let g := { issuing withV with issue := 1, bound := 1000, cycles := 999 }
     let s := resident g
     groupOf s 0 0 ≠ none ∧ (coreOf s 0).clockOn = true ∧ (coreOf (passCycles s 0 none 1) 0).groups.filter overBound = [] ∧
     (coreOf (passCycles s 0 none 2) 0).groups.filter overBound = [{ g with cycles := 1001 }] ∧
     (passOf (passCycles s 0 none 2) g.pass).isSome = true) := by decide +kernel

/-- Port 0 with what a clause needs, its burst of a read or a write. -/
def burst1 (k : ReqKind) : Burst := ⟨[req1 k], 0x40, 64⟩
def ported (p : Port) : State :=
  { withPass (pass0 .plain) with ports := [p] ++ live.ports.drop 1, streams := [⟨0, 0, 0, 0, [], []⟩] }
def beat1 (dir : Bool) (tag : Nat) : EppBeat := ⟨true, false, 0, dir, BitVec.ofNat 11 tag, 0⟩
theorem witness_PortTraffic :
    (Port.reset.readyRd.filter (readReady (ported .reset) .reset) = []) ∧ (ported .reset).pins.parked = false ∧
    { (ported .reset).pins with parked := true }.parked = true ∧
    (let p := { Port.reset with readyRd := [burst1 .read] }
     let s := { ported { p with cycle := 1 } with fabric := 1 }
     (ported p).fabric = p.cycle ∧ bestBy (readBefore s 1) (p.readyRd.filter (readReady s p)) = some (burst1 .read) ∧
     freeTags p.outRd (burstBeats (burst1 .read)) = some 0) ∧
    (let p := { Port.reset with readyWr := [burst1 .write] }
     bestBy writeBefore (p.readyWr.filter fun b => (freeTags p.outWr (burstBeats b)).isSome && inOrder p b) = some (burst1 .write) ∧
     freeTags p.outWr (burstBeats (burst1 .write)) = some 0) ∧
    { Port.reset with mergeRd := [burst1 .read] }.mergeRd = [burst1 .read] ∧ { Port.reset with mergeWr := [burst1 .write] }.mergeRd = [] ∧
    (let p := { Port.reset with outRd := [flight1 .read], outWr := [flight1 .write] }
     flightOf p.outRd (beat1 false 4).tag.toNat = none ∧ p.outWr.find? (fun f => f.tag == (beat1 true 4).tag.toNat) = none ∧
     p.outWr.find? (fun f => f.tag == (beat1 true 3).tag.toNat) = some (flight1 .write) ∧ (flight1 .write).orphan = false ∧
     { flight1 .write with orphan := true }.orphan = true ∧ (beat1 true 3).code = 0 ∧
     flightOf p.outRd (beat1 false 3).tag.toNat = some (flight1 .read) ∧ (flight1 .read).orphan = false ∧ (stageBeat (flight1 .read) (beat1 false 3) .ok).left = [] ∧
     (stageBeat { flight1 .read with left := [3, 4] } (beat1 false 3) .double).left ≠ [] ∧ ∀ r ∈ (flight1 .read).burst.parts, r.kind ≠ .atomic) := by
  decide +kernel

/-- A render pass over one triangle, TILED, in slot 0. -/
def tiledPar (n : Nat) : RenderParams := { parseRender (renderBlock false n) false with organisation := 0, saveSize := 65536 }
def tiledBody : RenderBody := newRender live (tiledPar 1) none []
def drawing (b : RenderBody) (rec : List Byte) : State :=
  { withPass (pass0 (.render b)) with chip := chipWrite live.chip 5 0x10000 rec false }
/-- A record with a NaN among its coordinates. -/
def badRecord : List Byte := layout 64 [(0, 4, 0x7FC00000)]
def sweep1 : Sweep := ⟨0, 0, 1, [0], none⟩
def sweeping (mask : U32) : State :=
  { withPass (pass0 (.search (searching 1))) with
    awl := ⟨[sweep1], [⟨1, 0, 0, 0, 0, 0, 0, none, none⟩, ⟨1, 0, 0, 0, 1, 0, 0, some (0, 0, false), some (0, 0)⟩], [0, 0, 0, 0]⟩,
    regs := { Regs.reset with dlFlockMask := mask } }
theorem witness_RasterAndRecallAtWork :
    (let s := drawing tiledBody badRecord
     renderOf s 0 = some (pass0 (.render tiledBody), tiledBody) ∧ tiledBody.tiled = true ∧ tiledBody.cursor ≠ tiledBody.par.primCount ∧
     (match (planRec s 1 0 tiledBody.par 0).out with | .go r => isCulled tiledBody.par r | _ => false) = true) ∧
    (match (planRec (drawing tiledBody []) 1 0 tiledBody.par 0).out with | .go r => !isCulled tiledBody.par r | _ => false) = true ∧
    (let s := drawing tiledBody []
     xlates (planRec { s with chip := { s.chip with unmapped := [(5 * 2 ^ 64 + 0x10000) / 4096] } } 1 0 tiledBody.par 0) = true ∧
     poisons (planRec { s with chip := { s.chip with poison := [(5 * 2 ^ 64 + 0x10000) / 64] } } 1 0 tiledBody.par 0) = true) ∧
    (let b := { tiledBody with cursor := 1, lists := [(0, [0])] }
     let u := (renderOrder (drawing b [])).foldl (fun s p => settleRender s p.slot) (drawing b [])
     nextTiles u 0 = some (0, false, [0]) ∧ (passOf u 0).isSome = true ∧ nextTiles u 7 = none) ∧
    (let s := sweeping 0x01010101
     s.awl.sweeps.find? (·.run.isNone) = some sweep1 ∧ noBackground s = false ∧
     sweepBody s sweep1 = some (pass0 (.search (searching 1)), searching 1) ∧
     ((List.range 32).find? (sweepFits s (sweepLaunch (pass0 (.search (searching 1))) sweep1))) = some 1) ∧
    noBackground (sweeping 0xFFFFFFFF) = true ∧ (∃ x, (sweeping 0).awl.samples.find? (·.complete) = some x) ∧ Ecc.single ≠ .double :=
  ⟨by decide +kernel, by decide +kernel, by decide +kernel, by decide +kernel, by decide +kernel, by decide +kernel, ⟨_, rfl⟩, by decide⟩
theorem witness_FlitRoundTrip : (flit 2 0xFFFF [1]).wf = true ∧ { flit 2 0 [] with payloadLen := 496 }.wf = true := by decide +kernel
theorem test_round_trip : flitHeader (flit 2 0 []) = natLe 12 (0xFFFF * 2 ^ 60 + 2 * 2 ^ 92) := by decide +kernel

end Sys2Proof.Tests
end

section
/-! No command stops the machine (R19). -/
namespace Sys2Proof.Machine

/-- Settles O7, command by command: every meaning has `.next` as its outermost constructor. Where a meaning tests the state, the
branches lie inside the state it answers, so no branch can fault or refuse. -/
theorem everyCommandCompletes : Obligations.EveryCommandCompletes := by
  intro c s
  cases c <;> exact ⟨_, rfl⟩

end Sys2Proof.Machine
end

section
/-! What an entry in force leaves in the store (R32, R434, R436): the MiB it grants read zero, the rings it tears down leave the store
alone, the calibration area it discards is marked in one byte. -/
namespace Sys2Proof.Machine

/-! ## A sparse table filtered by its keys -/

/-- A key that the filter drops reads as unlisted, whatever the order of the table. -/
theorem smGet_filter_dropped {α : Type} {d : α} {m : List (Nat × α)} {p : Nat → Bool} {k : Nat} (hk : p k = false) :
    smGet d (m.filter fun kv => p kv.1) k = d := by
  induction m with
  | nil => rfl
  | cons x r ih =>
    obtain ⟨a, v⟩ := x
    rw [List.filter_cons]
    split
    next ha =>
      have hne : k ≠ a := by rintro rfl; simp [hk] at ha
      simp [smGet, hne, ih]
    next => exact ih

/-- A key that the filter keeps reads as before, in a table in canonical form. -/
theorem smGet_filter_kept {α : Type} [DecidableEq α] {d : α} {m : List (Nat × α)} (h : smWf d m = true) {p : Nat → Bool} {k : Nat}
    (hk : p k = true) : smGet d (m.filter fun kv => p kv.1) k = smGet d m k := by
  induction m with
  | nil => rfl
  | cons x r ih =>
    obtain ⟨a, v⟩ := x
    obtain ⟨habove, -, hr⟩ := smWf_cons.1 h
    rw [List.filter_cons]
    split
    next => simp only [smGet, ih hr]
    next ha =>
      have hne : k ≠ a := by rintro rfl; exact ha hk
      rw [ih hr, smGet, if_neg hne]
      split
      next hlt => exact smGet_above habove (Nat.le_of_lt hlt)
      next => rfl

/-! ## Several MiB zeroed -/

/-- Zeroing several MiB drops what the store lists in any of them, and nothing else. -/
theorem foldl_storeZeroMib (l : List Nat) (st : Store) :
    l.foldl storeZeroMib st =
      { st with bytes := st.bytes.filter fun kv => !l.contains (kv.1 / mib),
                poison := st.poison.filter fun n => !l.contains (n * 128 / mib),
                flips := st.flips.filter fun kv => !l.contains (kv.1 * 128 / mib) } := by
  induction l generalizing st with
  | nil =>
    have hall : ∀ {α : Type} (m : List α), m.filter (fun _ => true) = m := fun _ => List.filter_eq_self.2 fun _ _ => rfl
    simp only [List.foldl_nil, List.contains_nil, Bool.not_false, hall]
  | cons u l ih =>
    rw [List.foldl_cons, ih]
    simp only [storeZeroMib, List.filter_filter, List.contains_cons, Bool.not_or, Bool.and_comm, bne]

theorem storeByte_zeroed {l : List Nat} {a : Nat} (st : Store) (h : a / mib ∈ l) : storeByte (l.foldl storeZeroMib st) a = 0 := by
  rw [foldl_storeZeroMib]
  exact smGet_filter_dropped (p := fun k => !l.contains (k / mib)) (by simp [h])

theorem storeByte_not_zeroed {l : List Nat} {a : Nat} {st : Store} (hw : Memory.wf st.bytes = true) (h : a / mib ∉ l) :
    storeByte (l.foldl storeZeroMib st) a = storeByte st a := by
  rw [foldl_storeZeroMib]
  exact smGet_filter_kept hw (p := fun k => !l.contains (k / mib)) (by simp [h])

theorem not_poisoned_of_zeroed {l : List Nat} {n : Nat} (st : Store) (h : n * 128 / mib ∈ l) :
    n ∉ (l.foldl storeZeroMib st).poison := by
  rw [foldl_storeZeroMib]
  simp [h]

/-- The MiB of a byte given as an offset in it. -/
theorem div_mib {u i : Nat} (hi : i < mib) : (u * mib + i) / mib = u := by
  unfold mib at *
  omega

/-- A line of 128 bytes lies in the MiB of each of its bytes. -/
theorem line_div_mib (a : Nat) : a / 128 * 128 / mib = a / mib := by
  unfold mib
  omega

/-! ## The end of a context -/

/-- A fold of updates that each leave a part of the state leaves that part. -/
theorem foldl_leaves {α β : Type} (part : State → β) {f : State → α → State} (h : ∀ s a, part (f s a) = part s) (l : List α)
    (s : State) : part (l.foldl f s) = part s := by
  induction l generalizing s with
  | nil => rfl
  | cons a r ih => rw [List.foldl_cons, ih, h]

@[simp] theorem cpPresent_store (s : State) (opcode asid cls a n : Nat) (b : List Byte) (opA : Nat) :
    (cpPresent s opcode asid cls a n b opA).store = s.store := by unfold cpPresent; split <;> rfl
@[simp] theorem cpPresent_ctxs (s : State) (opcode asid cls a n : Nat) (b : List Byte) (opA : Nat) :
    (cpPresent s opcode asid cls a n b opA).ctxs = s.ctxs := by unfold cpPresent; split <;> rfl

@[simp] theorem cpWriteRaw_store (s : State) (c a : Nat) (b : List Byte) : (cpWriteRaw s c a b).store = s.store := by
  unfold cpWriteRaw
  split
  · rfl
  · dsimp only
    split <;> simp
@[simp] theorem cpWriteRaw_ctxs (s : State) (c a : Nat) (b : List Byte) : (cpWriteRaw s c a b).ctxs = s.ctxs := by
  unfold cpWriteRaw
  split
  · rfl
  · dsimp only
    split <;> simp

@[simp] theorem endRing_store (s : State) (c r : Nat) : (endRing s c r).store = s.store := by
  unfold endRing idleRing
  dsimp only
  split
  · rfl
  · split <;> simp
@[simp] theorem endRing_ctxs (s : State) (c r : Nat) : (endRing s c r).ctxs = s.ctxs := by
  unfold endRing idleRing
  dsimp only
  split
  · rfl
  · split <;> simp

/-- An area given up has its active byte cleared (R429); without an area nothing changes. -/
theorem dropArea_store (s : State) (c : Nat) :
    (dropArea s c).store = ((ctxOf s c).bind (·.calib)).elim s.store fun a => storeWrite s.store (a.addr + 32) [0] false := by
  unfold dropArea
  cases (ctxOf s c).bind (·.calib) with
  | none => rfl
  | some a => simp [storeWrites, dropAwl, reapAwl]

/-- Of a context ended, the store sees the area given up alone. -/
theorem endContext_store (s : State) (c : Nat) : (endContext s c).store = (dropArea s c).store := by
  have hstore := foldl_leaves State.store (fun s r => endRing_store s c r) (List.range 16) s
  have hctxs := foldl_leaves State.ctxs (fun s r => endRing_ctxs s c r) (List.range 16) s
  simp only [endContext, dropArea_store, ctxOf, hstore, hctxs]

/-! ## An entry in force -/

theorem applyEntry_store_of_valid {y : Ctx} (hy : y.valid = true) (s : State) (c : Nat) :
    (applyEntry s c y).store = (addedMib (ctxOf s c) y).foldl storeZeroMib s.store := by
  simp [applyEntry, hy]

theorem applyEntry_store_of_cleared {y : Ctx} (hy : y.valid = false) (s : State) (c : Nat) :
    (applyEntry s c y).store = (dropArea s c).store := by
  cases hx : ctxOf s c with
  | none => simp [applyEntry, hy, hx, dropArea_store]
  | some x => simp [applyEntry, hy, hx, endContext_store]

/-- Settles O35: a valid entry filters the MiB it adds out of what the store lists; one that clears valid touches the store through the
area it gives up alone. -/
theorem grantedWindowReadsZero : Obligations.GrantedWindowReadsZero := by
  intro s c y u i hi
  refine ⟨fun hy hu => ?_, fun hy hw hu => ?_, fun hy ha => ?_, fun a hy ha => ?_⟩
  · rw [applyEntry_store_of_valid hy]
    exact ⟨storeByte_zeroed _ (by rwa [div_mib hi]), not_poisoned_of_zeroed _ (by rwa [line_div_mib, div_mib hi])⟩
  · rw [applyEntry_store_of_valid hy]
    exact storeByte_not_zeroed hw (by rwa [div_mib hi])
  · rw [applyEntry_store_of_cleared hy, dropArea_store, ha, Option.elim]
  · rw [applyEntry_store_of_cleared hy, dropArea_store, ha, Option.elim]

end Sys2Proof.Machine
end

section
/-! The scrubber's next line (R25, R26) and a failure that reaches the whole engine (R548). -/
namespace Sys2Proof.Machine

/-! ## Lines struck -/

theorem mem_setAdd {l : List Nat} {n k : Nat} : k ∈ setAdd l n ↔ k = n ∨ k ∈ l := by
  induction l with
  | nil => simp [setAdd]
  | cons a r ih =>
    unfold setAdd
    split
    next h => simp [h]
    next =>
      split
      next => simp
      next => simp [ih, or_left_comm]

theorem mem_poison_strikeLine {st : Store} {u : Nat × Bool} {l : Nat} :
    l ∈ (strikeLine st u).poison ↔ (l, true) = u ∨ l ∈ st.poison := by
  obtain ⟨n, double⟩ := u
  cases double <;> simp [strikeLine, mem_setAdd]

theorem mem_poison_foldl_strikeLine {us : List (Nat × Bool)} {st : Store} {l : Nat} :
    l ∈ (us.foldl strikeLine st).poison ↔ (l, true) ∈ us ∨ l ∈ st.poison := by
  induction us generalizing st with
  | nil => simp
  | cons u r ih => rw [List.foldl_cons, ih, mem_poison_strikeLine, List.mem_cons, or_assoc, or_left_comm]

/-- The poisoned lines after a strike: those poisoned before, and each line of the store struck by a double-bit error. -/
theorem mem_poison_strikeLines {st : Store} {us : List (Nat × Bool)} {l : Nat} :
    l ∈ (strikeLines st us).poison ↔ ((l, true) ∈ us ∧ l < storeLines) ∨ l ∈ st.poison := by
  simp [strikeLines, mem_poison_foldl_strikeLine, storeLines]

/-! ## A line read -/

/-- The store once line l has been read: what had flipped in it has been met. -/
def metLine (s : State) (l : Nat) : State :=
  { s with store := { s.store with flips := s.store.flips.filter fun kv => kv.1 ≠ l } }

theorem flippedIn_line (st : Store) (l : Nat) : flippedIn st (128 * l) 128 = st.flips.filter fun kv => kv.1 = l := by
  have hspan : ∀ n, 128 * l / 128 ≤ n ∧ n ≤ (128 * l + 128 - 1) / 128 ↔ n = l := by omega
  simp only [flippedIn, ← Bool.decide_and, hspan]
  rfl

/-- The read of a whole line: each error in it not yet met is met, and counted by its kind. -/
theorem seenLines_line (s : State) (l : Nat) :
    seenLines s (128 * l) 128 =
      let bad := s.store.flips.filter fun kv => kv.1 = l
      if bad.isEmpty then metLine s l
      else count (count (metLine s l) 40 (bad.filter fun kv => kv.2 = false).length) 41 (bad.filter (·.2)).length := by
  have hrest : s.store.flips.filter (fun kv => !(s.store.flips.filter fun kv => kv.1 = l).contains kv) =
      s.store.flips.filter fun kv => kv.1 ≠ l :=
    List.filter_congr fun kv hkv => by simp [hkv]
  unfold seenLines
  dsimp only
  rw [flippedIn_line]
  split
  next hnone =>
    have hkeep : s.store.flips.filter (fun kv => kv.1 ≠ l) = s.store.flips := by
      simpa [List.filter_eq_nil_iff] using hnone
    rw [metLine, hkeep]
  next =>
    rw [hrest]
    simp [metLine]

/-- The scrubber stands at the line after l, or at the first after the last. -/
def pastLine (s : State) (l : Nat) : State := { s with store := { s.store with scrub := (l + 1) % storeLines } }

/-- The scrubber's step without the count of a round: lines struck, its line read, the next one reached. -/
def scrubbed (s : State) (upsets : List (Nat × Bool)) : State :=
  pastLine (seenLines { s with store := strikeLines s.store upsets } (128 * s.store.scrub) 128) s.store.scrub

theorem scrubLine_initDone {s : State} (hr : running s = true) (hi : s.bring.initDone = true) (upsets : List (Nat × Bool)) :
    scrubLine s upsets =
      if s.store.scrub + 1 = storeLines then count (scrubbed s upsets) 42 else scrubbed s upsets := by
  simp [scrubLine, hr, hi, scrubbed, pastLine]

/-- The scrubber moves on alike whether it counts its errors before or after. -/
theorem scrubbed_eq (s : State) (upsets : List (Nat × Bool)) :
    scrubbed s upsets =
      let l := s.store.scrub
      let r := { s with store := strikeLines s.store upsets }
      let bad := r.store.flips.filter fun kv => kv.1 = l
      let u := pastLine (metLine r l) l
      if bad.isEmpty then u else count (count u 40 (bad.filter fun kv => kv.2 = false).length) 41 (bad.filter (·.2)).length := by
  rw [scrubbed, seenLines_line]
  dsimp only
  split <;> rfl

/-! ## The whole engine -/

theorem engineFatal_first {s : State} (hr : running s = true) (hf : s.bring.fatal = false) (code : Byte) (addr : U64) :
    engineFatal s code addr =
      let t := { s with bring := { s.bring with fatal := true } }
      let h := ((t.ctxs.map (·.1)).filter fun c => !(passesOf t c).isEmpty).foldl
        (fun s c => faultContext s c stPoison (poisonPayload 0xFFFF 5 addr.toNat) 256 0xFF true) t
      logWide { h with links := h.links.map absentLink } 0x0D code (natLe 8 addr.toNat) := by
  simp [engineFatal, hr, hf]

theorem engineFatal_again {s : State} (hf : s.bring.fatal = true) (code : Byte) (addr : U64) : engineFatal s code addr = s := by
  simp [engineFatal, hf]

/-- Settles O40: the scrubber's read of its line is `seenLines_line`, and the move to the next line commutes with what it counts; an
engine-fatal failure acts once. -/
theorem scrubberAndEngineFatal : Obligations.ScrubberAndEngineFatal := by
  intro s upsets code addr hr
  refine ⟨fun hi => ⟨?_, fun hu hl => mem_poison_strikeLines.2 (.inl ⟨hu, hl⟩)⟩, fun hf => ⟨?_, fun _ => rfl⟩, fun hf => ?_⟩
  · have hexec : exec (.scrubLine upsets) s = .next (scrubLine s upsets) := rfl
    rw [hexec, scrubLine_initDone hr hi, scrubbed_eq]
    rfl
  · exact congrArg Host.Outcome.next (engineFatal_first hr hf code addr)
  · exact congrArg Host.Outcome.next (engineFatal_again hf code addr)

end Sys2Proof.Machine
end

section
/-! How a descriptor whose admission a plan decides is dealt with, said once for every command of that form, and the passes of Work so
admitted (R54, R112, R330, R456). -/
namespace Sys2Proof.Machine

/-! ## Reads and input streams leave the passes in flight -/

theorem passOf_of_passes {s t : State} (h : t.passes = s.passes) (slot : Nat) : passOf t slot = passOf s slot := by
  rw [passOf, passOf, h]

@[simp] theorem seenLines_passes (s : State) (a n : Nat) : (seenLines s a n).passes = s.passes := by
  unfold seenLines
  dsimp only
  split <;> simp

@[simp] theorem cpRead_passes (s : State) (asid cls a n : Nat) : (cpRead s asid cls a n).passes = s.passes := by
  unfold cpRead cpPresent
  split
  · rfl
  · split <;> rfl

@[simp] theorem seeSpan_passes (asid : Nat) (s : State) (x : Span) : (seeSpan asid s x).passes = s.passes := by
  have hcounted := foldl_leaves State.passes (f := fun s (y : Nat × Nat × Nat) => count s (96 + 2 * streamPort y.1) y.2.2)
    (fun s _ => count_passes s ..) (pieces 512 x.addr x.len) s
  unfold seeSpan
  dsimp only
  split
  · simp
  · split
    · simp
    · split <;> exact hcounted

@[simp] theorem seeSpans_passes (s : State) (c : Nat) (l : List Span) : (seeSpans s c l).passes = s.passes :=
  foldl_leaves State.passes (seeSpan_passes _) l s

@[simp] theorem openLowest_passes (s : State) (quad lo n pass : Nat) (cls : BitVec 2) :
    (openLowest s quad lo n pass cls).passes = s.passes := by
  unfold openLowest openStream
  split <;> rfl

@[simp] theorem openInputs_passes (s : State) (p : Pass) (k : Nat) : (openInputs s p k).passes = s.passes :=
  foldl_leaves State.passes (fun s _ => openLowest_passes s ..) _ s

/-- A pass stays as it was admitted while its streams open and the reads of its admission are made. -/
theorem passOf_seeSpans_openInputs (s : State) (p : Pass) (k c : Nat) (l : List Span) (slot : Nat) :
    passOf (seeSpans (openInputs s p k) c l) slot = passOf s slot :=
  passOf_of_passes (by simp) slot

/-! ## A descriptor admitted by its plan -/

/-- A plan that does not refuse goes on from the pass admitted, its streams open. -/
theorem admitPlan_admitted {α : Type} {s : State} {c r : Nat} {f : Fetched} {body : Body} {z : Plan α} {p : Pass}
    (hz : z.refusal = none) (hp : passOf (admitPass s (newPass s c r f.desc body)) (freeSlot s) = some p) (arrays : Nat)
    (go : State → Nat → α → State) :
    admitPlan s c r f body arrays z go =
      onPlan (openInputs (admitPass s (newPass s c r f.desc body)) p arrays) p z fun u => go u (freeSlot s) := by
  unfold admitPlan
  split
  next hdeny => simp [Plan.refusal, hdeny] at hz
  next => simp [admitBody, hp]

/-- A command that picks the descriptor at a ring's head, checks it by its plan's refusal and else admits its pass by that plan deals
with it as the plan says: go' is what its go does to a state in which the pass stands as admitted. -/
theorem planned_admitWith {α : Type} {s : State} {c r : Nat} {o : Byte} {f : Fetched} {x : Ctx} {z : Plan α} {body : Body} {arrays : Nat}
    {sel : Fetched → Bool} {check : State → Ctx → Fetched → Option Deny} {accept : State → Fetched → State} {go : State → Nat → α → State}
    {go' : State → Pass → α → State} (h : s.heads c r o f x) (hsel : sel f = true) (hcheck : check s x f = z.refusal)
    (hadmit : accept s f = admitPlan s c r f body arrays z go)
    (hgo : ∀ u p y, passOf u (freeSlot s) = some p → go u (freeSlot s) y = go' u p y) :
    s.planned c r f body arrays z (.next (admitWith s c r sel check accept)) go' := by
  obtain ⟨hhead, hctx, -⟩ := h
  rw [admitWith_picked hhead hctx sel hsel, hcheck, hadmit]
  refine ⟨fun y hy => by simp [Plan.refusal, hy], fun p hp => ⟨fun rd v hz => ?_, fun n rd v hz => ?_, fun y hz => ?_⟩⟩
  all_goals
    have hgoes : z.refusal = none := by rw [Plan.refusal, hz]
    rw [hgoes, admitPlan_admitted hgoes hp, onPlan, hz]
  exact congrArg Host.Outcome.next (hgo _ p y (by rw [passOf_seeSpans_openInputs, hp]))

/-- The descriptor at a ring's head is picked by its opcode. -/
theorem State.heads.isOp {s : State} {c r : Nat} {o : Byte} {f : Fetched} {x : Ctx} (h : s.heads c r o f x) : isOp o f = true :=
  beq_iff_eq.2 h.2.2

/-! ## SEARCH, TRACE, RENDER_FWD, RENDER_BWD, KERNEL -/

/-- Whether a SEARCH at a ring's head waits is whether a tree that it names is still arriving (R51). -/
theorem searchHeld_heads {s : State} {c r : Nat} {f : Fetched} {x : Ctx} (h : s.heads c r opSearch f x) :
    searchHeld s c r = arriving s c (searchNames s (parseSearch f.block)) := by
  simp [searchHeld, h.1, h.isOp]

/-- A SEARCH holds its walk; its samples are formed and its end follows where the pass is in flight (R54, R82). -/
theorem searchGo_eq (f : Fetched) (u : State) (slot : Nat) (y : TreeRoot × U32) :
    searchGo f u slot y =
      let q := parseSearch f.block
      let v := modPass u slot fun p => { p with body := .search { par := q, root := y.1, delta := y.2, walk := newWalk q.queryCount } }
      match passOf v slot with
      | some p => finishSearch (formSamples v slot p q y.1) slot
      | none => v := by
  unfold searchGo
  dsimp only
  split <;> simp_all

/-- A render pass in flight: done where it is empty, else its body, with the touched flags of a reverse one cleared (R332, R352). -/
theorem renderGo_eq {bwd : Bool} {f : Fetched} {u : State} {slot : Nat} {q : Pass} (hq : passOf u slot = some q)
    (y : Option Image × List U64) :
    renderGo bwd f u slot y =
      let p := parseRender f.block bwd
      let v := if bwd then passWrite (scratchUse u q.ctx p.scratchAddr p.scratchSize) slot (flagBase p)
        (List.replicate (ceilDiv (p.primCount * p.gradLen) 8) 0) else u
      if emptyRender p then modPass u slot fun q => { q with status := some stOk }
      else modPass v slot fun q => { q with body := .render (newRender v p y.1 y.2) } := by
  cases bwd <;> simp only [renderGo, hq, if_true, Bool.false_eq_true, if_false]

/-- Settles O49: each of the five commands has the form of `planned_admitWith`, a SEARCH once no tree that it names is arriving; what is
left is what its go does to the pass as it was admitted. -/
theorem workPassesAdmitted : Obligations.WorkPassesAdmitted := by
  intro s c r f x
  refine ⟨fun h => ?_, fun h => ?_, fun i bwd o hi h => ?_, fun h => ?_⟩
  · have hexec : exec (.search c r) s = execSearch c r s := rfl
    rw [hexec, execSearch, searchHeld_heads h]
    refine ⟨fun ha => by rw [ha, if_pos rfl], fun ha => ?_⟩
    rw [ha, if_neg Bool.false_ne_true]
    exact planned_admitWith h h.isOp rfl (by rw [h.2.1]) fun u p y _ => searchGo_eq f u _ y
  · exact planned_admitWith h h.isOp rfl (by rw [h.2.1]) fun u p y _ => rfl
  · obtain ⟨rfl, rfl, rfl⟩ | ⟨rfl, rfl, rfl⟩ := by simpa using hi
    all_goals exact planned_admitWith h h.isOp rfl rfl fun u p y hp => renderGo_eq hp y
  · refine planned_admitWith h h.isOp rfl (by rw [h.2.1]) fun u p y _ => ?_
    cases y <;> rfl

end Sys2Proof.Machine
end

section
/-! The fold at work: what BATCH_ADMIT, RECORD_ACCEPT, PEN_REQUEST, RUNNING_BEST_MAX, CANDIDATE_APPEND, SETTLE_UPDATE and
QUERY_PLACEMENT do in each case that the manual tells apart (R153 to R167, R64, R66, R78). -/
namespace Sys2Proof.Machine

/-! ## BATCH_ADMIT -/

/-- A plan whose every read can be made now and that goes on: its reads are made, and k follows. -/
theorem onReads_go {α : Type} {s : State} {p : Pass} {z : Plan α} {y : α} (hfit : ∀ r ∈ z.reads, spanFits s p.slot p.cls r = true)
    (hgo : z.out = .go y) (k : State → α → State) : onReads s p z k = k (seeSpans s p.ctx z.reads) y := by
  rw [onReads, if_pos (List.all_eq_true.2 hfit), onPlan, hgo]

/-- The pass p of a slot admits batch b next, and nothing keeps it from doing so now (R156, R171). -/
structure AdmitsNext (s : State) (slot : Nat) (p : Pass) (b : Batch) : Prop where
  inFlight : passOf s slot = some p
  next     : (passWalk p).bind nextBatch = some b
  uncut    : p.cancelAt = none
  unended  : p.status = none
  fits     : batchFits s p = true

/-- What the queries of a batch read at their admission, through the streams of the root's home slice. -/
def batchQueries (s : State) (p : Pass) (x : SearchBody) (b : Batch) : Plan (List (Nat × Bool × List U32 × U32)) :=
  planList (fun j => (planLocator s p.ctx (homeSlice x.par.treeAddr) x.par j).bind fun y => .go (j, y))
    ((List.range b.count).map (b.first + ·))

/-- What the rays of a batch read at theirs. -/
def batchRays (s : State) (p : Pass) (x : TraceBody) (b : Batch) : Plan (List (Nat × List U32)) :=
  planList (fun j => (planRay s p.ctx (homeSlice x.par.treeAddr) x.par j).bind fun y => .go (j, y))
    ((List.range b.count).map (b.first + ·))

/-- Batch b on the admitted list of the pass of a slot, in the order of the batches formed. -/
def batchTaken (slot : Nat) (b : Batch) (s : State) : State :=
  modPass { s with formed := s.formed + 1 } slot (modWalk (takeBatch b s.formed))

section
variable {s : State} {slot : Nat} {p : Pass} {b : Batch}

theorem batchAdmit_search {x : SearchBody} (h : AdmitsNext s slot p b) (hx : p.body = .search x) :
    batchAdmit s slot = onReads s p (batchQueries s p x b) fun u ys => ys.foldl (admitQuery p x b.gen) (batchTaken slot b u) := by
  simp [batchAdmit, h.inFlight, h.next, h.uncut, h.unended, h.fits, hx, batchQueries, batchTaken]

theorem batchAdmit_trace {x : TraceBody} (h : AdmitsNext s slot p b) (hx : p.body = .trace x) :
    batchAdmit s slot = onReads s p (batchRays s p x b) fun u ys => ys.foldl (admitRay p x b.gen) (batchTaken slot b u) := by
  simp [batchAdmit, h.inFlight, h.next, h.uncut, h.unended, h.fits, hx, batchRays, batchTaken]

end

/-! ## RECORD_ACCEPT -/

@[simp] theorem countEcc_fold (s : State) (e : Ecc) : (countEcc s e).fold = s.fold := by cases e <;> rfl
@[simp] theorem countEcc_passes (s : State) (e : Ecc) : (countEcc s e).passes = s.passes := by cases e <;> rfl

/-- Items and slices are read from the fold alone. -/
theorem itemFor_of_fold {s t : State} (h : t.fold = s.fold) (pass index : Nat) (gen : U16) :
    itemFor t pass index gen = itemFor s pass index gen := by
  rw [itemFor, itemFor, itemOf, itemOf, h]
theorem sliceOf_of_fold {s t : State} (h : t.fold = s.fold) (q : Nat) : sliceOf t q = sliceOf s q := by rw [sliceOf, sliceOf, h]

/-- A record that needs no further block joins an open pen: only one that is open already holds a block with a free place. -/
theorem any_keyMatch_of_block {sl : Slice} {c : Nat} {cls : BitVec 2} {r : Record} (h : needsBlock sl c cls r = false) :
    sl.openPens.any (keyMatch c cls r) = true := by
  unfold needsBlock at h
  split at h
  next n hn => exact List.any_eq_true.2 ⟨n, List.mem_of_find?_eq_some hn, List.find?_some hn⟩
  next => contradiction

/-- A record of a pass and an item that stand, with a block for it: it is accepted and placed, and poisoned with its pen where the read
of the pen's directory entry reports a double-bit error (R154). -/
theorem acceptRecord_placed {s : State} {q : Nat} {r : Record} {p : Pass} {i : Item} (hp : passOf s r.pass = some p)
    (hcut : p.cancelAt = none) (hb : needsBlock (sliceOf s q) p.ctx p.cls r = false) (hi : itemFor s r.pass r.item r.gen = some i)
    (e : Ecc) :
    acceptRecord s q e r =
      let u := settleAccept (dropArrival s r) r.settle
      if e = .double then placeRecord (poisonPen u q p.ctx p.cls r) q p.ctx p.cls { r with settle := 0, poison := true }
      else placeRecord u q p.ctx p.cls { r with settle := 0 } := by
  have hopen : (sliceOf (settleAccept (dropArrival s r) r.settle) q).openPens.any (keyMatch p.ctx p.cls r) = true :=
    any_keyMatch_of_block hb
  unfold acceptRecord
  by_cases he : e = .double
  · simp [hp, hcut, hb, hi, hopen, he, -List.any_eq_true]
  · have hsound : (e == .double) = false := beq_false_of_ne he
    simp [hp, hcut, hb, hi, hsound, he]

/-! ## PEN_REQUEST -/

section
variable {s : State} {core slot : Nat} {g : Group} {up : FoldUpset}

section
variable (hg : groupOf s core slot = some g) (hon : (coreOf s core).clockOn = true)
include hg hon

/-- No pen of its context is left in any slice: the group ends (R165). -/
theorem penRequest_noPen (hw : g.stock = .walk []) (hf : findPen (ageSlices s) (core / 64) g.ctx = none) :
    penRequest s core slot up = finishGroup (ageSlices s) core slot := by
  simp [penRequest, hg, hw, hon, hf]

/-- A pen is left but its flock is reserved for work more urgent: the group ends (R474). -/
theorem penRequest_mayNot {q : Nat} {n : Pen} (hw : g.stock = .walk []) (hf : findPen (ageSlices s) (core / 64) g.ctx = some (q, n))
    (hm : mayTake (ageSlices s) core g n = false) : penRequest s core slot up = finishGroup (ageSlices s) core slot := by
  simp [penRequest, hg, hw, hon, hf, hm]

theorem penRequest_takes {q : Nat} {n : Pen} (hw : g.stock = .walk []) (hf : findPen (ageSlices s) (core / 64) g.ctx = some (q, n))
    (hm : mayTake (ageSlices s) core g n = true) : penRequest s core slot up = deliverPen (ageSlices s) core slot q n up := by
  simp [penRequest, hg, hw, hon, hf, hm]

theorem penRequest_builder (hw : g.stock = .builder) : penRequest s core slot up = builderStep s core slot g := by
  simp [penRequest, hg, hw, hon]

end

section
variable {p : Pass} {w : StockWork} (hp : passOf s g.pass = some p) (hw : p.body = .stock w)
include hp hw

/-- No unit of work is left: the group ends. -/
theorem builderStep_done (h0 : w.left = 0) : builderStep s core slot g = finishGroup s core slot := by
  simp [builderStep, hp, hw, h0]

/-- On a flock that is not reserved a unit of work is taken; the last one ends the stock kernel. -/
theorem builderStep_unit (h0 : w.left ≠ 0) (hr : reserved s (flockOfCore core) = false) :
    builderStep s core slot g =
      let v := modPass s g.pass fun p => { p with body := .stock { w with left := w.left - 1 } }
      if w.left = 1 then finishStock v g.pass w else v := by
  simp [builderStep, hp, hw, h0, hr]

end
end

/-! ## RUNNING_BEST_MAX and CANDIDATE_APPEND -/

/-- The scored key x no longer waiting to be raised. -/
def markRaised (s : State) (x : Scored) : State :=
  { s with fold := { s.fold with scored := modFirst (· == x) (fun x => { x with raised := true }) s.fold.scored } }

/-- The first scored key not yet raised, of an item that stands, raises its item's best. -/
theorem runningBest_raises {s : State} {x : Scored} {i : Item} (hx : s.fold.scored.find? (!·.raised) = some x)
    (hi : itemFor s x.pass x.item x.gen = some i) :
    runningBest s = modItem (markRaised s x) x.pass x.item (raiseBest (isTrace s x.pass) x.cand.val) := by
  have hitem : (itemFor (markRaised s x) x.pass x.item x.gen).isSome = true := Option.isSome_of_eq_some hi
  unfold runningBest
  rw [hx]
  exact if_pos hitem

theorem appendCandidate_found {s : State} {x : Scored} (hx : (s.fold.scored.filter (·.raised)).find? (canAppend s) = some x) :
    appendCandidate s = appendOne s x := by
  simp [appendCandidate, hx]

theorem appendOne_eq {s : State} {x : Scored} {p : Pass} {i : Item} (hp : passOf s x.pass = some p)
    (hi : itemFor s x.pass x.item x.gen = some i) :
    appendOne s x = if isCandidate p i x.cand then modItem (doneScored s x) x.pass x.item (appendTo p x.cand) else doneScored s x := by
  rw [appendOne, hp, hi]
  rfl

/-! ## SETTLE_UPDATE and QUERY_PLACEMENT -/

/-- The settle update x taken off the list. -/
def dropSettle (s : State) (x : Settle) : State :=
  { s with fold := { s.fold with settles := dropFirst (· == x) s.fold.settles } }

section
variable {s : State} {x : Settle} {p : Pass} {i : Item} (hx : s.fold.settles.find? (·.waiting == 0) = some x)
  (hp : passOf s x.pass = some p) (hi : itemFor s x.pass x.item x.gen = some i)
include hx hp hi

/-- The first settle update that waits for nothing, of an item that stands: the item's count takes it in, and at 0 the item retires. -/
theorem settleUpdate_eq :
    settleUpdate s =
      let j := { i with count := i.count + x.emitted - 1 }
      if j.count = 0 then retireItem (dropSettle s x) p j else modItem (dropSettle s x) x.pass x.item fun _ => j := by
  have hpass : passOf (dropSettle s x) x.pass = some p := hp
  have hitem : itemFor (dropSettle s x) x.pass x.item x.gen = some i := hi
  unfold settleUpdate
  rw [hx]
  dsimp only
  rw [← dropSettle, hpass, hitem]

theorem settleUpdate_counts (hn : i.count + x.emitted - 1 ≠ 0) :
    settleUpdate s = modItem (dropSettle s x) x.pass x.item fun _ => { i with count := i.count + x.emitted - 1 } :=
  (settleUpdate_eq hx hp hi).trans (if_neg hn)

theorem settleUpdate_retires (h0 : i.count + x.emitted - 1 = 0) :
    settleUpdate s = retireItem (dropSettle s x) p { i with count := 0 } := by
  have hretires := (settleUpdate_eq hx hp hi).trans (if_pos h0)
  rwa [h0] at hretires

end

section
variable {s : State} {slot : Nat} {p : Pass} {r : Retired} (hp : passOf s slot = some p) (hcut : p.cancelAt = none)
include hp hcut

theorem queryPlacement_search {x : SearchBody} (hx : p.body = .search x)
    (hr : x.walk.retired.find? (·.index == x.walk.placed) = some r) : queryPlacement s slot = placeQuery s slot x r := by
  simp [queryPlacement, hp, hcut, hx, hr]

theorem queryPlacement_trace {x : TraceBody} (hx : p.body = .trace x)
    (hr : x.walk.retired.find? (·.index == x.walk.placed) = some r) : queryPlacement s slot = placeRay s slot x r := by
  simp [queryPlacement, hp, hcut, hx, hr]

end

theorem passWalk_search {p : Pass} {x : SearchBody} (h : p.body = .search x) : passWalk p = some x.walk := by rw [passWalk, h]
theorem passWalk_trace {p : Pass} {x : TraceBody} (h : p.body = .trace x) : passWalk p = some x.walk := by rw [passWalk, h]

/-! ## The fold at work -/

/-- Settles O52: each clause is the case of its command that its premises pick, as the lemmas above say it. -/
theorem foldAtWork : Obligations.FoldAtWork := by
  intro s now slot p e up
  refine ⟨?batchAdmit, ?recordAccept, fun q => rfl, ?penRequest, ?runningBestMax, ?candidateAppend, ?settleUpdate, ?queryPlacement⟩
  case batchAdmit =>
    intro w b hp hw hb hcut hst hfit
    have hnext : AdmitsNext s slot.toNat p b := ⟨hp, by rw [hw, Option.bind_some, hb], hcut, hst, hfit⟩
    refine ⟨fun x hx ys hreads hgo => ?_, fun x hx ys hreads hgo => ?_⟩
    · exact congrArg Host.Outcome.next ((batchAdmit_search hnext hx).trans (onReads_go hreads hgo _))
    · exact congrArg Host.Outcome.next ((batchAdmit_trace hnext hx).trans (onReads_go hreads hgo _))
  case recordAccept =>
    intro q r i hr hp hcut hb hi
    have hpasses : (countEcc (atTime s now) e).passes = s.passes := by simp
    have hfold : (countEcc (atTime s now) e).fold = s.fold := by simp
    have haccept : exec (.recordAccept ⟨q, e⟩ now) s = .next (acceptRecord (countEcc (atTime s now) e) q.toNat e r) := by
      have hexec : exec (.recordAccept ⟨q, e⟩ now) s = execRecordAccept ⟨q, e⟩ now s := rfl
      simp [hexec, execRecordAccept, hr]
    have hplaced := acceptRecord_placed (by rwa [passOf_of_passes hpasses]) hcut (by rwa [sliceOf_of_fold hfold])
      (by rwa [itemFor_of_fold hfold]) e
    rw [haccept, hplaced]
    exact ⟨fun he => by rw [if_neg he]; rfl, fun he => by rw [if_pos he]; rfl⟩
  case penRequest =>
    intro core k g hg hon
    have hg' : groupOf (atTime s now) core.toNat k.toNat = some g := hg
    have hon' : (coreOf (atTime s now) core.toNat).clockOn = true := hon
    refine ⟨fun hw => ⟨fun q n hf => ⟨fun hm => ?_, fun hm => ?_⟩, fun hf => ?_⟩,
      fun w hw hp hbody => ⟨fun h0 => ?_, fun h0 hres => ?_⟩⟩
    · exact congrArg Host.Outcome.next (penRequest_mayNot hg' hon' hw hf hm)
    · exact congrArg Host.Outcome.next (penRequest_takes hg' hon' hw hf hm)
    · exact congrArg Host.Outcome.next (penRequest_noPen hg' hon' hw hf)
    · exact congrArg Host.Outcome.next ((penRequest_builder hg' hon' hw).trans (builderStep_done hp hbody h0))
    · exact congrArg Host.Outcome.next ((penRequest_builder hg' hon' hw).trans (builderStep_unit hp hbody h0 hres))
  case runningBestMax => exact fun x i hx hi => congrArg Host.Outcome.next (runningBest_raises hx hi)
  case candidateAppend =>
    exact fun x i hx hp hi => congrArg Host.Outcome.next ((appendCandidate_found hx).trans (appendOne_eq hp hi))
  case settleUpdate =>
    intro x i hx u hp hi
    exact ⟨fun hn => congrArg Host.Outcome.next (settleUpdate_counts hx hp hi hn),
      fun h0 => congrArg Host.Outcome.next (settleUpdate_retires hx hp hi h0)⟩
  case queryPlacement =>
    intro w r hp hcut hw hr
    refine ⟨fun x hx => ?_, fun x hx => ?_⟩
    · obtain rfl : x.walk = w := Option.some.inj ((passWalk_search hx).symm.trans hw)
      exact congrArg Host.Outcome.next (queryPlacement_search hp hcut hx hr)
    · obtain rfl : x.walk = w := Option.some.inj ((passWalk_trace hx).symm.trans hw)
      exact congrArg Host.Outcome.next (queryPlacement_trace hp hcut hx hr)

end Sys2Proof.Machine
end

section
/-! The 512 bytes of a flit (R198, R199, Table 6.3): each field of the header, the payload and the CRC is read back from where it was
written. -/
namespace Sys2Proof.Machine

/-! ## Little-endian bytes and parts of a byte list -/

@[simp] theorem length_natLe (n v : Nat) : (natLe n v).length = n := by
  induction n generalizing v with
  | zero => rfl
  | succ n ih => simp [natLe, ih]

/-- The value of the n little-endian bytes of v is v, as far as n bytes hold it. -/
theorem leNat_natLe (n v : Nat) : leNat (natLe n v) = v % 256 ^ n := by
  induction n generalizing v with
  | zero => simp [natLe, leNat, Nat.mod_one]
  | succ n ih => rw [natLe, leNat, ih, Nat.pow_succ', Nat.mod_mul, BitVec.toNat_ofNat]

@[simp] theorem length_slice (l : List Byte) (o n : Nat) : (slice l o n).length = n := by simp [slice]

/-- Bytes that follow the first o of a list. -/
theorem slice_append {a b c : List Byte} {o n : Nat} (ha : a.length = o) (hb : b.length = n) : slice (a ++ (b ++ c)) o n = b := by
  subst ha hb
  refine List.ext_getElem (length_slice ..) fun i _ hi => ?_
  simp only [slice, List.getElem_map, List.getElem_range, List.getD_eq_getElem?_getD]
  rw [List.getElem?_append_right (Nat.le_add_right ..), Nat.add_sub_cancel_left, List.getElem?_append_left hi,
    List.getElem?_eq_getElem hi, Option.getD_some]

/-- All bytes of a list. -/
theorem slice_all {b : List Byte} {n : Nat} (hb : b.length = n) : slice b 0 n = b := by
  simpa using slice_append (a := []) (c := []) rfl hb

/-! ## The bytes of a flit -/

/-- Bytes 0 to 11 of a flit as one number. -/
def headerWord (f : Flit) : Nat :=
  f.handoffId.toNat + f.dataKind.toNat * 2 ^ 32 + f.payloadLen.toNat * 2 ^ 34 + f.credData.toNat * 2 ^ 43 +
    f.credCtrl.toNat * 2 ^ 51 + bit f.poison * 2 ^ 58 + bit f.nak * 2 ^ 59 + f.ackSeq.toNat * 2 ^ 60 + f.seq.toNat * 2 ^ 76 +
    f.flitType.toNat * 2 ^ 92

section
variable {f : Flit} (hf : f.payload.length = 496)
include hf

theorem flitBytes_eq : flitBytes f = natLe 12 (headerWord f) ++ (f.payload ++ natLe 4 f.crc.toNat) := by
  rw [flitBytes, flitBody, slice_all hf, List.append_assoc]
  rfl

theorem slice_payload : slice (flitBytes f) 12 496 = f.payload := by
  rw [flitBytes_eq hf, slice_append (length_natLe ..) hf]

theorem field_header : field (flitBytes f) 0 12 = headerWord f % 2 ^ 96 := by
  have hfirst : slice (flitBytes f) 0 12 = natLe 12 (headerWord f) := by
    simpa [flitBytes_eq hf] using slice_append (a := []) (c := f.payload ++ natLe 4 f.crc.toNat) rfl (length_natLe 12 (headerWord f))
  have hpow : 256 ^ 12 = 2 ^ 96 := by decide
  rw [field, hfirst, leNat_natLe, hpow]

theorem field_crc : field (flitBytes f) 508 4 = f.crc.toNat := by
  have hlast := slice_append (a := natLe 12 (headerWord f) ++ f.payload) (c := []) (o := 508) (by simp [hf])
    (length_natLe 4 f.crc.toNat)
  rw [List.append_nil, List.append_assoc, ← flitBytes_eq hf] at hlast
  rw [field, hlast, leNat_natLe]
  exact Nat.mod_eq_of_lt f.crc.isLt

end

/-! ## The fields of the header -/

theorem bit_lt_two (b : Bool) : bit b < 2 := by cases b <;> decide

/-- A bit field of a number is read back from where it stands. -/
theorem ofNat_div {n w : Nat} {x : BitVec n} (k : Nat) (h : w / 2 ^ k % 2 ^ n = x.toNat) : BitVec.ofNat n (w / 2 ^ k) = x :=
  BitVec.eq_of_toNat_eq (by rw [BitVec.toNat_ofNat, h])

theorem bitOf_eq {w k : Nat} {b : Bool} (h : w / 2 ^ k % 2 = bit b) : bitOf w k = b := by
  rw [bitOf, Nat.testBit_eq_decide_div_mod_eq, h]
  cases b <;> rfl

/-- The fields of Table 6.3 do not overlap, and fill the 96 bits. -/
theorem headerWord_fields (f : Flit) :
    let h := headerWord f
    h < 2 ^ 96 ∧ h / 2 ^ 92 % 2 ^ 4 = f.flitType.toNat ∧ h / 2 ^ 76 % 2 ^ 16 = f.seq.toNat ∧ h / 2 ^ 60 % 2 ^ 16 = f.ackSeq.toNat ∧
      h / 2 ^ 59 % 2 = bit f.nak ∧ h / 2 ^ 58 % 2 = bit f.poison ∧ h / 2 ^ 51 % 2 ^ 7 = f.credCtrl.toNat ∧
      h / 2 ^ 43 % 2 ^ 8 = f.credData.toNat ∧ h / 2 ^ 34 % 2 ^ 9 = f.payloadLen.toNat ∧ h / 2 ^ 32 % 2 ^ 2 = f.dataKind.toNat ∧
      h % 2 ^ 32 = f.handoffId.toNat := by
  have hid := f.handoffId.isLt
  have hkind := f.dataKind.isLt
  have hlen := f.payloadLen.isLt
  have hdata := f.credData.isLt
  have hctrl := f.credCtrl.isLt
  have hpoison := bit_lt_two f.poison
  have hnak := bit_lt_two f.nak
  have hack := f.ackSeq.isLt
  have hseq := f.seq.isLt
  have htype := f.flitType.isLt
  unfold headerWord
  refine ⟨?_, ?_, ?_, ?_, ?_, ?_, ?_, ?_, ?_, ?_, ?_⟩ <;> omega

/-! ## The round trip -/

theorem parseFlit_flitBytes {f : Flit} (hf : f.payload.length = 496) : parseFlit (flitBytes f) = f := by
  obtain ⟨hw, htype, hseq, hack, hnak, hpoison, hctrl, hdata, hlen, hkind, hid⟩ := headerWord_fields f
  have hhandoff : BitVec.ofNat 32 (headerWord f) = f.handoffId := BitVec.eq_of_toNat_eq (by rw [BitVec.toNat_ofNat, hid])
  rw [parseFlit, field_header hf, Nat.mod_eq_of_lt hw, slice_payload hf, field_crc hf]
  simp only [ofNat_div 92 htype, ofNat_div 76 hseq, ofNat_div 60 hack, bitOf_eq hnak, bitOf_eq hpoison, ofNat_div 51 hctrl,
    ofNat_div 43 hdata, ofNat_div 34 hlen, ofNat_div 32 hkind, hhandoff, BitVec.ofNat_toNat, BitVec.setWidth_eq]

/-- Settles O60: parseFlit is a left inverse of flitBytes on flits of 496 payload bytes, so flitBytes is injective on them. -/
theorem flitRoundTrip : Obligations.FlitRoundTrip := by
  intro f hf
  have hlen : ∀ g : Flit, g.wf = true → g.payload.length = 496 := fun g hg => (Laws.Flits.length_of_wf g hg).1
  refine ⟨(Laws.Flits.length_of_wf f hf).2, parseFlit_flitBytes (hlen f hf), fun g hg hfg => ?_⟩
  calc g = parseFlit (flitBytes g) := (parseFlit_flitBytes (hlen g hg)).symm
    _ = parseFlit (flitBytes f) := by rw [hfg]
    _ = f := parseFlit_flitBytes (hlen f hf)

end Sys2Proof.Machine
end

section
/-! A link that goes down (R211, R219, R220, R498), and the alignment words of its bring-up (R203, R497, R501). -/
namespace Sys2Proof.Machine

/-! ## A link that goes down -/

/-- A link that is in any status but 0 stands in the list of links. -/
theorem linkIx_lt_of_status {s : State} {l : LinkSide} (h : (linkOf s l).status ≠ 0) : linkIx l < s.links.length :=
  Nat.lt_of_not_le fun hout => h (by rw [linkOf, List.getD_eq_getElem?_getD, List.getElem?_eq_none hout]; rfl)

/-- What follows the loss of a link that was up, in the state t that it is down in: RING_DOWN on the other link while that is up, and
LINK_LOST for the ring context. -/
def afterLoss (t : State) (l : LinkSide) (cause : Nat) : State :=
  let me := t.net.position.toNat
  ringLost (if (linkOf t (otherSide l)).status = 3 then sendCtrl t (otherSide l) (ringDownMsg t me cause) else t) me cause (linkIx l)

section
variable {s : State} {l : LinkSide} (hix : linkIx l < s.links.length) {f : Link → Link}
include hix

theorem dropLink_modLink_up (hf : (f (linkOf s l)).status = 3) (st : BitVec 2) (retrain : Bool) (cause : Nat) :
    dropLink (modLink s l f) l st retrain cause =
      afterLoss (modLink s l fun k => { downLink st (f k) with retrain := retrain }) l cause := by
  simp [dropLink, linkOf_modLink s l f hix, hf, modLink_modLink, afterLoss, Function.comp_def]

theorem dropLink_modLink_low (hf : (f (linkOf s l)).status ≠ 3) (st : BitVec 2) (retrain : Bool) (cause : Nat) :
    dropLink (modLink s l f) l st retrain cause = modLink s l fun k => { downLink st (f k) with retrain := retrain } := by
  have hlow : ((linkOf (modLink s l f) l).status == 3) = false := by rw [linkOf_modLink s l f hix, beq_false_of_ne hf]
  exact (if_pos (by rw [hlow]; rfl)).trans (modLink_modLink ..)

end

/-- Settles O16: each of the three events changes one field of the link and then drops it, which `dropLink_modLink_up` says once. -/
theorem linkLoss : Obligations.LinkLoss := by
  intro s l hrun hlen hup down lose
  have hix := linkIx_lt hlen l
  refine ⟨fun htrained => ?fall, fun hclock => ?stop, ?absent, fun t position cause link => rfl⟩
  case fall =>
    have hfall : trainedFall s l = afterLoss (modLink s l fun k =>
        down { k with trained := false } (if s.bring.released && k.clockOn then 1 else 0)) l 2 := by
      simp only [trainedFall, hrun, htrained, Bool.not_true, Bool.or_false, Bool.false_eq_true, if_false]
      rw [dropLink_modLink_up hix hup, linkOf_modLink s l _ hix]
      exact congrArg (afterLoss · l 2) (modLink_congr s l _ _ rfl)
    exact congrArg Host.Outcome.next hfall
  case stop =>
    have hstop : ringClockStop s l = afterLoss (modLink s l fun k => down { k with clockOn := false } 0) l 2 := by
      have hrun' : running (modLink s l fun k => { k with clockOn := false }) = true := hrun
      simp only [ringClockStop, hclock, hrun', Bool.not_true, Bool.false_eq_true, if_false, if_true]
      exact dropLink_modLink_up hix hup ..
    exact congrArg Host.Outcome.next hstop
  case absent =>
    have habsent : absentReceive s l = afterLoss (modLink s l fun k => down { k with neighbourAbsent := true } 0) l 3 := by
      have hnot : ¬ (linkOf s l).status.toNat < 2 := by rw [hup]; decide
      simp only [absentReceive, hrun, hnot, Bool.not_true, decide_false, Bool.or_false, Bool.false_eq_true, if_false]
      exact dropLink_modLink_up hix hup ..
    exact congrArg Host.Outcome.next habsent

/-! ## Alignment words -/

theorem alignGood_iff {lanes : List LaneWord} {skew : Nat} :
    alignGood lanes skew = true ↔ lanes = (List.range 16).map (fun i => ⟨1, BitVec.ofNat 8 i⟩) ∧ skew ≤ 64 := by
  simp [alignGood]

/-- A good alignment word-time holds alignment words. -/
theorem any_alignment_of_good {lanes : List LaneWord} {skew : Nat} (h : alignGood lanes skew = true) :
    (lanes.any fun w => w.type == 1 || w.type == 3) = true := by
  rw [(alignGood_iff.1 h).1]
  decide

/-- A link is not up before it holds the 64 CTRL credits of its neighbour (R501). -/
theorem checkUp_noCredit {s : State} {l : LinkSide} (h : (linkOf s l).credCtrl < 64) : checkUp s l = s :=
  if_neg fun hup => by
    simp only [Bool.and_eq_true, decide_eq_true_eq] at hup
    obtain ⟨⟨-, hctrl⟩, -⟩ := hup
    exact Nat.not_le.2 h hctrl

section
variable {s : State} {l : LinkSide} {lanes : List LaneWord} {skew : Nat} (hrun : running s = true) (hst : (linkOf s l).status = 2)
include hrun hst

/-- A word-time of a link that aligns, with an alignment word or an undefined word in it. -/
theorem alignReceive_aligning (hany : (lanes.any fun w => w.type == 1 || w.type == 3) = true) :
    alignReceive s l lanes skew =
      if alignGood lanes skew then
        if (linkOf s l).aligned = 1 then
          checkUp (modLink s l fun k => { k with aligned := 2, owedCtrl := 64, owedData := 256, grants := 2 }) l
        else modLink s l fun k => { k with aligned := k.aligned + 1 }
      else
        let t := count (modLink s l fun k => { k with alignErrs := laneErrors k.alignErrs lanes }) (linkCounter l 3)
        if (linkOf s l).aligned < 2 then modLink t l fun k => { k with aligned := 0 } else dropLink t l 0 true 1 := by
  exact if_neg (by rw [hrun, hst, hany]; decide)

theorem alignReceive_first (hgood : alignGood lanes skew = true) (h0 : (linkOf s l).aligned = 0) :
    alignReceive s l lanes skew = modLink s l fun k => { k with aligned := 1 } := by
  rw [alignReceive_aligning hrun hst (any_alignment_of_good hgood), if_pos hgood, h0, if_neg (by decide)]
  exact modLink_congr s l _ _ (by rw [h0])

/-- The second good word-time in a row owes the credits; the link is not up before it holds the neighbour's. -/
theorem alignReceive_second (hgood : alignGood lanes skew = true) (h1 : (linkOf s l).aligned = 1) (hc : (linkOf s l).credCtrl < 64) :
    alignReceive s l lanes skew = modLink s l fun k => { k with aligned := 2, owedCtrl := 64, owedData := 256, grants := 2 } := by
  have hix : linkIx l < s.links.length := linkIx_lt_of_status (by rw [hst]; decide)
  rw [alignReceive_aligning hrun hst (any_alignment_of_good hgood), if_pos hgood, if_pos h1, checkUp_noCredit]
  rwa [linkOf_modLink s l _ hix]

theorem alignReceive_bad (hgood : alignGood lanes skew = false) (hany : (lanes.any fun w => w.type == 1 || w.type == 3) = true)
    (hlow : (linkOf s l).aligned < 2) :
    alignReceive s l lanes skew =
      modLink (count (modLink s l fun k => { k with alignErrs := laneErrors k.alignErrs lanes }) (linkCounter l 3)) l
        fun k => { k with aligned := 0 } := by
  rw [alignReceive_aligning hrun hst hany, hgood, if_neg Bool.false_ne_true]
  exact if_pos hlow

theorem alignSend_due (h : 16383 ≤ (linkOf s l).words) :
    alignSend s l = modLink s l fun k => { k with words := 0, retrain := false, present := .alignment } := by
  simp [alignSend, hrun, hst, h]

theorem absentReceive_aligning :
    absentReceive s l = modLink s l fun k => { downLink 0 { k with neighbourAbsent := true } with retrain := false } := by
  have hix : linkIx l < s.links.length := linkIx_lt_of_status (by rw [hst]; decide)
  have hnot : ¬ (linkOf s l).status.toNat < 2 := by rw [hst]; decide
  have hlow : (linkOf s l).status ≠ 3 := by rw [hst]; decide
  simp only [absentReceive, hrun, hnot, Bool.not_true, decide_false, Bool.or_false, Bool.false_eq_true, if_false]
  exact dropLink_modLink_low hix hlow ..

end

/-- Settles O17: the branches of `alignReceive` that its premises pick, one lemma each. -/
theorem alignmentWords : Obligations.AlignmentWords := by
  intro s l lanes skew now hrun hst
  have hrun' : running (atTime s now) = true := hrun
  have hst' : (linkOf (atTime s now) l).status = 2 := hst
  refine ⟨alignGood_iff, fun hgood h0 => ?_, fun hgood h1 hc => ?_, fun hgood hany hlow => ?_, fun hw => ?_, ?_⟩
  · exact congrArg Host.Outcome.next (alignReceive_first hrun' hst' hgood h0)
  · exact congrArg Host.Outcome.next (alignReceive_second hrun' hst' hgood h1 hc)
  · exact congrArg Host.Outcome.next (alignReceive_bad hrun' hst' hgood (by simpa using hany) hlow)
  · exact congrArg Host.Outcome.next (alignSend_due hrun hst hw)
  · exact congrArg Host.Outcome.next (absentReceive_aligning hrun hst)

end Sys2Proof.Machine
end

section
/-! Flits and messages that a link takes, drops or discards (R199 to R206), and its timers (R200, R201, R204). -/
namespace Sys2Proof.Machine

/-! ## What becomes of a flit -/

section
variable {s : State} {l : LinkSide} {f : Flit} {now : U64} {is : Flit → Bool}

/-- A flit without a sequence number is handed to what it is for once its header has been taken. -/
theorem hearFlit_taken (h : s.takesFlit now l f) (hi : is f = true) (body : State → State) :
    hearFlit (atTime s now) l f is body = body (applyCredits (s.headerTaken now l f) l f) := by
  obtain ⟨hhears, hgood, hstill⟩ := h
  have hhears' : hears (atTime s now) l = true := hhears
  have hstill' : hears (applyAck (atTime s now) l f) l = true := hstill
  simp [hearFlit, hhears', hgood, hi, hstill', State.headerTaken]

theorem hearFlit_bad (hh : hears s l = true) (hb : badFlit f = true) (body : State → State) :
    hearFlit s l f is body = discardFlit s l := by
  simp [hearFlit, hh, hb]

theorem hearSeq_bad (hh : hears s l = true) (hb : badFlit f = true) (body : State → State) :
    hearSeq s l f is body = discardFlit s l := by
  simp [hearSeq, hh, hb]

/-- A flit out of sequence reaches no body: one that lies before the one expected is acknowledged again, one after it opens a gap. -/
theorem hearSeq_outOfSequence (h : s.takesFlit now l f) (hi : is f = true)
    (hd : (f.seq - (linkOf (s.headerTaken now l f) l).rxSeq).toNat ≠ 0) (body : State → State) :
    hearSeq (atTime s now) l f is body =
      let t := s.headerTaken now l f
      let d := (f.seq - (linkOf t l).rxSeq).toNat
      modLink t l fun k => if 32768 ≤ d then { k with ackOwed := true }
        else if k.rxDrop then k else { k with rxDrop := true, nakOwed := true } := by
  obtain ⟨hhears, hgood, hstill⟩ := h
  have hhears' : hears (atTime s now) l = true := hhears
  have hstill' : hears (applyAck (atTime s now) l f) l = true := hstill
  unfold State.headerTaken at hd ⊢
  simp only [hearSeq, hhears', hgood, hi, hstill', hd, Bool.not_true, Bool.false_eq_true, if_false, Nat.reducePow]
  split <;> rfl

end

/-! ## The commands that bring a control message -/

/-- The commands of Table 6.5, each with the code that its message carries. -/
def messageCommands (l : LinkSide) (f : Flit) (now : U64) : List (Nat × Instr) :=
  [(0x01, .census1 l f now), (0x02, .census2 l f now), (0x10, .handoffReady l f now), (0x11, .handoffEnd l f now),
   (0x12, .handoffAck l f now), (0x13, .handoffAbort l f now), (0x20, .epochVote l f now), (0x21, .epochHandover l f now),
   (0x22, .epochCommit l f now), (0x23, .epochAbort l f now), (0x24, .handoverBegin l f now), (0x25, .handoverEnd l f now),
   (0x26, .handoverAck l f now), (0x30, .ringDown l f now)]

/-- Each of them hears a message of its code. -/
theorem exec_messageCommand {l : LinkSide} {f : Flit} {now : U64} {code : Nat} {c : Instr} (h : (code, c) ∈ messageCommands l f now) :
    ∃ body, ∀ s, exec c s = .next (hearMsg (atTime s now) l f code body) := by
  simp only [messageCommands, List.mem_cons, Prod.mk.injEq, List.not_mem_nil, or_false] at h
  obtain ⟨rfl, rfl⟩ | ⟨rfl, rfl⟩ | ⟨rfl, rfl⟩ | ⟨rfl, rfl⟩ | ⟨rfl, rfl⟩ | ⟨rfl, rfl⟩ | ⟨rfl, rfl⟩ | ⟨rfl, rfl⟩ | ⟨rfl, rfl⟩ |
    ⟨rfl, rfl⟩ | ⟨rfl, rfl⟩ | ⟨rfl, rfl⟩ | ⟨rfl, rfl⟩ | ⟨rfl, rfl⟩ := h
  all_goals exact ⟨_, fun _ => rfl⟩

/-! ## A message for this engine -/

/-- A command that hears a message of a code does what its body does with the message it takes, and the buffer slot is freed. -/
theorem exec_takesMsg {s u : State} {now : U64} {l : LinkSide} {f : Flit} {code : Nat} {c : Instr} {body : State → State}
    (h : s.takesMsg now l f code) (hd : msgDefined code = true) (hexec : exec c s = .next (hearMsg (atTime s now) l f code body))
    (hbody : body (s.accepted now l f) = u) : exec c s = .next (freeSlotOf u l true) := by
  rw [hexec, hearMsg_taken h hd, hbody]

theorem State.takesMsg.hasCode {s : State} {now : U64} {l : LinkSide} {f : Flit} {code : Nat} (h : s.takesMsg now l f code) :
    msgCode f.payload = code := by
  obtain ⟨-, -, hcode, -⟩ := h
  exact hcode

/-! ## IDLE, ACK and MARGIN flits; flits discarded; flits out of sequence -/

theorem badFlit_of {f : Flit} (h : f.crc ≠ flitCrc f ∨ 5 ≤ f.flitType.toNat) : badFlit f = true := by
  simpa [badFlit] using h

/-- Settles O18: the three commands that name a flit without a sequence number are `hearFlit_taken`; a bad flit is discarded before any
command looks at what it carries. -/
theorem unsequencedFlits : Obligations.UnsequencedFlits := by
  intro s l f now hh
  have hh' : hears (atTime s now) l = true := hh
  refine ⟨fun h => ⟨fun ht => ?_, fun ht => ?_, fun ht => ?_⟩, fun hbad c hc => ?discard⟩
  · exact congrArg Host.Outcome.next (hearFlit_taken h (is := (·.flitType == 0)) (beq_iff_eq.2 ht) id)
  · exact congrArg Host.Outcome.next (hearFlit_taken h (is := (·.flitType == 3)) (beq_iff_eq.2 ht) id)
  · have hcounter : ∀ k, linkCounter l (8 + k) = 72 + 16 * linkIx l + k := fun k => by unfold linkCounter; omega
    have hmargin := hearFlit_taken h (is := (·.flitType == 4)) (beq_iff_eq.2 ht) (marginReport l f)
    simp only [marginReport, hcounter] at hmargin
    exact congrArg Host.Outcome.next hmargin
  case discard =>
    have hb := badFlit_of hbad
    have hsplit : c ∈ [Instr.idleFlitReceive l f now, .ackFlitReceive l f now, .marginFlitReceive l f now] ++
      [.handoffDataReceive l f now, .handoverDataReceive l f now] ++ (messageCommands l f now).map (·.2) := hc
    obtain (hplain | hdata) | hmsg := by simpa only [List.mem_append] using hsplit
    · obtain rfl | rfl | rfl := by simpa using hplain
      all_goals exact congrArg Host.Outcome.next (hearFlit_bad hh' hb _)
    · obtain rfl | rfl := by simpa using hdata
      all_goals exact congrArg Host.Outcome.next (hearSeq_bad hh' hb _)
    · obtain ⟨⟨code, _⟩, hcode, rfl⟩ := List.mem_map.1 hmsg
      obtain ⟨body, hexec⟩ := exec_messageCommand hcode
      rw [hexec]
      exact congrArg Host.Outcome.next (hearSeq_bad hh' hb _)

/-- Settles O19: a DATA flit is heard by the command of its data_kind, a CTRL flit by that of its message's code, and none of them
reaches its body. -/
theorem sequenceNumbers : Obligations.SequenceNumbers := by
  intro s l f now h t d hd c hc
  obtain ⟨htype, hkind, rfl⟩ | ⟨htype, hkind, rfl⟩ | ⟨htype, hcode⟩ := hc
  · exact congrArg Host.Outcome.next (hearSeq_outOfSequence h (by simpa [htype] using hkind) hd _)
  · exact congrArg Host.Outcome.next (hearSeq_outOfSequence h (by simp [htype, hkind]) hd _)
  · obtain ⟨body, hexec⟩ := exec_messageCommand hcode
    rw [hexec]
    exact congrArg Host.Outcome.next (hearSeq_outOfSequence h (by simp [htype]) hd _)

/-! ## Timers -/

theorem ringPort_of_hears {s : State} {l : LinkSide} (h : hears s l = true) : ringPort s = true := by
  simp only [hears, Bool.and_eq_true] at h
  exact h.1.1

section
variable {s : State} {l : LinkSide}

theorem replayLink_again (hr : (linkOf s l).replay ≠ []) (hlim : (linkOf s l).fruitless < s.regs.replayLimit.toNat) :
    replayLink s l = count (modLink s l fun k => { k with
      resend := k.replay, fruitless := k.fruitless + 1, ackAt := s.time, ackLimit := s.regs.linkAckTimeout.toNat }) (linkCounter l 1) := by
  simp [replayLink, hr, Nat.not_le.2 hlim]

/-- The replay_limit'th fruitless replay ends the link (R201). -/
theorem replayLink_ends (hr : (linkOf s l).replay ≠ []) (hlim : s.regs.replayLimit.toNat ≤ (linkOf s l).fruitless) :
    replayLink s l = dropLink s l 0 true 0 := by
  simp [replayLink, hr, hlim]

theorem ackTimeout_due (hh : hears s l = true) (hr : (linkOf s l).replay ≠ [])
    (hdue : 1000 * (linkOf s l).ackLimit ≤ (s.time - (linkOf s l).ackAt).toNat) : ackTimeout s l = replayLink s l := by
  simp [ackTimeout, hh, hr, hdue, -BitVec.toNat_sub]

theorem ackReturn_due (hh : hears s l = true) (hu : (linkOf s l).unacked ≠ 0)
    (hdue : 1000 ≤ (s.time - (linkOf s l).ackSentAt).toNat) : ackReturn s l = modLink s l fun k => { k with ackOwed := true } := by
  simp [ackReturn, hh, hu, hdue, -BitVec.toNat_sub]

theorem marginDue_due (hp : ringPort s = true) (hst : (linkOf s l).status = 3)
    (hdue : 100000 * s.regs.marginInterval.toNat ≤ (s.time - (linkOf s l).marginSentAt).toNat) (margins : List U16) :
    marginDue s l margins = modLink s l fun k => { k with marginOwed := some margins, marginSentAt := s.time } := by
  simp [marginDue, hp, hst, hdue, -BitVec.toNat_sub]

end

/-- Settles O20: each timer that is due acts, as its lemma above says. -/
theorem linkTimers : Obligations.LinkTimers := by
  intro s l now hh
  have hh' : hears (atTime s now) l = true := hh
  refine ⟨fun hr hdue hlim => ?_, fun hr hdue hlim => ?_, fun hu hdue => ?_, fun margins hst hdue => ?_⟩
  · have hreplay := (ackTimeout_due (s := atTime s now) hh' hr hdue).trans (replayLink_again hr hlim)
    exact congrArg Host.Outcome.next hreplay
  · have hends := (ackTimeout_due (s := atTime s now) hh' hr hdue).trans (replayLink_ends hr hlim)
    exact congrArg Host.Outcome.next hends
  · exact congrArg Host.Outcome.next (ackReturn_due (s := atTime s now) hh' hu hdue)
  · exact congrArg Host.Outcome.next (marginDue_due (s := atTime s now) (ringPort_of_hears hh') hst hdue margins)

end Sys2Proof.Machine
end

section
/-! What a link presents once the PHY has taken a word-time (R198 to R202, R496, R501). -/
namespace Sys2Proof.Machine

/-! ## A link beside a changed one -/

theorem modAt_getD_ne {α : Type} (xs : List α) {i j : Nat} (hij : i ≠ j) (f : α → α) (d : α) :
    (modAt xs i f).getD j d = xs.getD j d := by
  induction xs generalizing i j with
  | nil => rfl
  | cons a r ih =>
    cases i <;> cases j
    case zero.zero => contradiction
    case succ.succ i j => simpa [modAt] using ih (by omega)
    all_goals rfl

theorem linkIx_injective {l h : LinkSide} (e : linkIx l = linkIx h) : l = h := by cases l <;> cases h <;> simp_all [linkIx]

theorem linkOf_modLink_other (s : State) {l h : LinkSide} (hne : h ≠ l) (f : Link → Link) : linkOf (modLink s h f) l = linkOf s l :=
  modAt_getD_ne _ (fun e => hne (linkIx_injective e)) ..

/-- A slot freed of either link leaves of a link all but what it owes. -/
theorem linkOf_freeSlotOf {s : State} {l : LinkSide} (hix : linkIx l < s.links.length) (h : LinkSide) (ctrl : Bool) :
    ∃ a b, linkOf (freeSlotOf s h ctrl) l = { linkOf s l with owedCtrl := a, owedData := b } := by
  by_cases hl : h = l
  · subst hl
    rw [freeSlotOf, linkOf_modLink s h _ hix]
    cases ctrl <;> exact ⟨_, _, rfl⟩
  · exact ⟨_, _, linkOf_modLink_other s hl _⟩

/-! ## The header of a flit that is sent -/

/-- The header of a flit carries a link's ack_seq, its nak and as many of its owed credits as the fields hold, and its CRC is right. -/
def headedBy (k : Link) (f : Flit) : Prop :=
  f.ackSeq = k.rxSeq - 1 ∧ f.nak = k.nakOwed ∧ f.credCtrl = BitVec.ofNat 7 (min 127 k.owedCtrl) ∧
  f.credData = BitVec.ofNat 8 (min 255 k.owedData) ∧ f.crc = flitCrc { f with crc := 0 }

theorem mkFlit_headedBy (k : Link) (ty : BitVec 4) (seq : U16) (poison : Bool) (len : Nat) (kind : BitVec 2) (id : U32)
    (payload : List Byte) : headedBy k (mkFlit k ty seq poison len kind id payload) := ⟨rfl, rfl, rfl, rfl, rfl⟩

/-- The DATA or CTRL flit that presentOut presents. -/
def sentFlit (k : Link) (o : OutFlit) : Flit :=
  mkFlit k (if o.ctrl then 2 else 1) k.txSeq o.poison o.payloadLen o.dataKind o.handoffId o.payload

/-- The ACK or IDLE flit of a link that has nothing to send. -/
def idleFlit (k : Link) : Flit := mkFlit k (if k.ackOwed || k.nakOwed then 3 else 0) 0 false 0 0 0 (List.replicate 496 0)

/-! ## What is presented next -/

section
variable {k : Link} {now : U64} {limit : Nat}

theorem nextPresent_grant (h : k.grants ≠ 0) :
    nextPresent now limit k = { presentPlain now 3 0 (List.replicate 496 0) k with grants := k.grants - 1 } :=
  if_pos (bne_iff_ne.2 h)

/-- No initial credit to be sent, no MARGIN flit owed, no replay under way: the next flit of the queues, or an ACK or IDLE flit. -/
theorem nextPresent_quiet (hg : k.grants = 0) (hm : k.marginOwed = none) (hr : k.resend = []) :
    nextPresent now limit k = match nextOut k with
      | some o => presentOut now limit o.1 o.2 k
      | none => presentPlain now (if k.ackOwed || k.nakOwed then 3 else 0) 0 (List.replicate 496 0) k := by
  rw [nextPresent, hm, hr, hg]
  rfl

theorem presentOut_present (c : Bool) (o : OutFlit) : (presentOut now limit c o k).present = .flit (sentFlit k o) := by
  cases c <;> cases h : o.ctrl <;> simp [presentOut, sentFlit, h]

theorem presentOut_ctrl {o : OutFlit} (h : o.ctrl = true) :
    let n := presentOut now limit true o k
    n.outCtrl = k.outCtrl.drop 1 ∧ n.credCtrl = k.credCtrl - 1 ∧ n.txSeq = k.txSeq + 1 ∧ n.replay = k.replay ++ [sentFlit k o] := by
  simp [presentOut, sentFlit, h, sendHeader]

theorem presentOut_data {o : OutFlit} (h : o.ctrl = false) :
    let n := presentOut now limit false o k
    n.outData = k.outData.drop 1 ∧ n.credData = k.credData - 1 ∧ n.txSeq = k.txSeq + 1 ∧ n.replay = k.replay ++ [sentFlit k o] := by
  simp [presentOut, sentFlit, h, sendHeader]

end

section
variable {k : Link} {o : OutFlit} {r : List OutFlit}

theorem nextOut_up (hst : k.status = 3) (hab : k.neighbourAbsent = false) (hroom : k.replay.length < 512) :
    nextOut k = ((k.outCtrl.head?.filter (linkCredit k)).map (true, ·)).orElse
      fun _ => (k.outData.head?.filter (linkCredit k)).map (false, ·) := by
  simp [nextOut, hst, hab, Nat.not_le.2 hroom]

theorem nextOut_ctrl (hst : k.status = 3) (hab : k.neighbourAbsent = false) (hroom : k.replay.length < 512) (ho : k.outCtrl = o :: r)
    (hctrl : o.ctrl = true) (hcred : k.credCtrl ≠ 0) : nextOut k = some (true, o) := by
  simp [nextOut_up hst hab hroom, ho, linkCredit, hctrl, hcred]

theorem nextOut_data (hst : k.status = 3) (hab : k.neighbourAbsent = false) (hroom : k.replay.length < 512) (hno : k.outCtrl = [])
    (ho : k.outData = o :: r) (hdata : o.ctrl = false) (hcred : k.credData ≠ 0) : nextOut k = some (false, o) := by
  simp [nextOut_up hst hab hroom, hno, ho, linkCredit, hdata, hcred]

theorem nextOut_empty (hc : k.outCtrl = []) (hd : k.outData = []) : nextOut k = none := by
  simp [nextOut, hc, hd]

end

/-! ## TX_TAKE -/

/-- The word-time of a link that has been taken. -/
def tookWord (now : U64) (limit : Nat) (k : Link) : Link := { nextPresent now limit k with words := k.words + 1, retrain := false }

section
variable {s : State} {l : LinkSide} (hp : ringPort s = true) (hst : 2 ≤ (linkOf s l).status.toNat) (hw : (linkOf s l).words < 16383)
include hp hst hw

theorem txTake_eq :
    txTake s l =
      let k := linkOf s l
      let t := modLink s l (tookWord s.time s.regs.linkAckTimeout.toNat)
      match (if k.grants == 0 && k.marginOwed.isNone && k.resend.isEmpty
        then (nextOut k).bind fun o => o.2.held.map fun h => (h, o.2.ctrl) else none) with
      | some h => freeSlotOf t h.1 h.2
      | none => t :=
  if_neg (by simp [hp, Nat.not_lt.2 hst, Nat.not_le.2 hw])

/-- While initial credits remain to be sent no relayed flit leaves. -/
theorem txTake_grant (hg : (linkOf s l).grants ≠ 0) : txTake s l = modLink s l (tookWord s.time s.regs.linkAckTimeout.toNat) := by
  simp [txTake_eq hp hst hw, hg]

/-- In any case the link has presented its next word-time; a relayed flit that leaves changes what a link owes. -/
theorem txTake_presents :
    let t := txTake s l
    t.store = s.store ∧ t.chip = s.chip ∧ t.passes = s.passes ∧ t.net = s.net ∧
    ∃ a b, linkOf t l = { tookWord s.time s.regs.linkAckTimeout.toNat (linkOf s l) with owedCtrl := a, owedData := b } := by
  have hix : linkIx l < s.links.length := linkIx_lt_of_status fun h => by simp [h] at hst
  have hlink := linkOf_modLink s l (tookWord s.time s.regs.linkAckTimeout.toNat) hix
  have hlen : linkIx l < (modLink s l (tookWord s.time s.regs.linkAckTimeout.toNat)).links.length := by
    rwa [modLink_links, modAt_length]
  rw [txTake_eq hp hst hw]
  dsimp only
  split
  next h _ =>
    obtain ⟨a, b, hfreed⟩ := linkOf_freeSlotOf hlen h.1 h.2
    exact ⟨rfl, rfl, rfl, rfl, a, b, by rw [hfreed, hlink]⟩
  next => exact ⟨rfl, rfl, rfl, rfl, _, _, hlink⟩

end

/-- Settles O21: what TX_TAKE presents is `nextPresent` of the link; the queue that the flit leaves is read off `nextOut`. -/
theorem txTakePresentsNext : Obligations.TxTakePresentsNext := by
  intro s l hp hw i header
  refine ⟨fun hst hg => ?grant, fun hst hg hm hr hab => ?quiet⟩
  case grant =>
    have hix : linkIx l < s.links.length := linkIx_lt_of_status fun h => by simp [i, h] at hst
    have htaken : linkOf (txTake s l) l = tookWord s.time s.regs.linkAckTimeout.toNat i := by
      rw [txTake_grant hp hst hw hg, linkOf_modLink s l _ hix]
    rw [tookWord, nextPresent_grant hg] at htaken
    exact ⟨_, _, _, rfl, htaken, rfl, rfl, mkFlit_headedBy .., rfl, rfl, rfl⟩
  case quiet =>
    have hst2 : 2 ≤ i.status.toNat := by rw [hst]; decide
    obtain ⟨hstore, hchip, hpasses, hnet, a, b, hlink⟩ := txTake_presents hp hst2 hw
    rw [tookWord, nextPresent_quiet hg hm hr] at hlink
    cases hn : nextOut i with
    | some x =>
      obtain ⟨c, o⟩ := x
      rw [show nextOut (linkOf s l) = some (c, o) from hn] at hlink
      refine ⟨_, _, sentFlit i o, rfl, hlink, hstore, hchip, hpasses, hnet, presentOut_present c o, mkFlit_headedBy ..,
        fun o' r ho hcred hroom hctrl => ?_, fun o' r hno ho hcred hroom hdata => ?_, fun hc hd => ?_⟩
      · obtain ⟨rfl, rfl⟩ := Prod.mk.inj (Option.some.inj (hn.symm.trans (nextOut_ctrl hst hab hroom ho hctrl hcred)))
        obtain ⟨hout, hcr, hseq, hreplay⟩ := presentOut_ctrl (k := i) (now := s.time) (limit := s.regs.linkAckTimeout.toNat) hctrl
        exact ⟨hout.trans (by rw [ho]; rfl), hcr, hseq, hreplay, by simp [sentFlit, mkFlit, hctrl], rfl, rfl⟩
      · obtain ⟨rfl, rfl⟩ := Prod.mk.inj (Option.some.inj (hn.symm.trans (nextOut_data hst hab hroom hno ho hdata hcred)))
        obtain ⟨hout, hcr, hseq, hreplay⟩ := presentOut_data (k := i) (now := s.time) (limit := s.regs.linkAckTimeout.toNat) hdata
        exact ⟨hout.trans (by rw [ho]; rfl), hcr, hseq, hreplay, by simp [sentFlit, mkFlit, hdata], rfl, rfl⟩
      · rw [nextOut_empty hc hd] at hn
        contradiction
    | none =>
      rw [show nextOut (linkOf s l) = none from hn] at hlink
      refine ⟨_, _, idleFlit i, rfl, hlink, hstore, hchip, hpasses, hnet, rfl, mkFlit_headedBy ..,
        fun o' r ho hcred hroom hctrl => ?_, fun o' r hno ho hcred hroom hdata => ?_, fun _ _ => ⟨rfl, rfl, rfl⟩⟩
      · rw [nextOut_ctrl hst hab hroom ho hctrl hcred] at hn
        contradiction
      · rw [nextOut_data hst hab hroom hno ho hdata hcred] at hn
        contradiction

end Sys2Proof.Machine
end

section
/-! The handoff barrier at work: its messages, its bytes, its timeout (R189 to R193). -/
namespace Sys2Proof.Machine

/-! ## The handoff that a message matches -/

section
variable {s : State} {l : LinkSide} {p : List Byte}

theorem handoffMsgIn_taken {u : State} (h : tryHandoffMsg s l p = some u) : handoffMsgIn s l p = u := by
  rw [handoffMsgIn, h, Option.getD_some]

theorem handoffMsgIn_held (h : tryHandoffMsg s l p = none) :
    handoffMsgIn s l p = { s with net := { s.net with heldMsgs := s.net.heldMsgs ++ [(l, p)] } } := by
  rw [handoffMsgIn, h, Option.getD_none]

theorem tryHandoffMsg_ready (hc : msgCode p = cReady) :
    tryHandoffMsg s l p = (findHandoff s (msgField p 0 4) (msgField p 4 4) fun h => h.send == .waiting).map
      fun x => matchReady s x.1.slot x.2 (msgField p 8 8) := by
  simp [tryHandoffMsg, takeHandoffMsg, hc, cReady, cAbort]

theorem tryHandoffMsg_end (hc : msgCode p = cEnd) :
    tryHandoffMsg s l p = (findHandoff s (msgField p 0 4) (msgField p 4 4) readyOut).map
      fun x => retryReady (setHandoff s x.1.slot { x.2 with recv := .ended }) := by
  simp [tryHandoffMsg, takeHandoffMsg, hc, cReady, cEnd, cAbort]

theorem tryHandoffMsg_ack (hc : msgCode p = cAck) :
    tryHandoffMsg s l p = (findHandoff s (msgField p 0 4) (msgField p 4 4) fun h => h.send == .ended).map
      fun x => setHandoff s x.1.slot { x.2 with send := .done } := by
  simp [tryHandoffMsg, takeHandoffMsg, hc, cReady, cEnd, cAck, cAbort]

/-- The status that HANDOFF_ABORT gives the half that it ends (R193). -/
def abortStatus (p : List Byte) : Byte := if msgField p 8 1 = stDesc.toNat then stDesc else stCancelled

/-- From upstream it ends the receive half. -/
theorem tryHandoffMsg_abortUp (hc : msgCode p = cAbort) :
    tryHandoffMsg s .up p = (findHandoff s (msgField p 0 4) (msgField p 4 4) fun h => !halfDone h.recv).map fun x =>
      retryReady (setHandoff s x.1.slot { spoilHandoff x.2 (abortStatus p) with recv := .done }) := by
  rw [tryHandoffMsg, if_pos hc]
  rfl

/-- From downstream it ends the send half, and what was still to be sent for it is dropped. -/
theorem tryHandoffMsg_abortDown (hc : msgCode p = cAbort) :
    tryHandoffMsg s .down p = (findHandoff s (msgField p 0 4) (msgField p 4 4) fun h => !halfDone h.send).map fun x =>
      let h := spoilHandoff x.2 (abortStatus p)
      retryReady (setHandoff (modLink s .down fun k => { k with outData := k.outData.filter (!ofHandoff h ·) }) x.1.slot
        { h with send := .done }) := by
  rw [tryHandoffMsg, if_pos hc]
  rfl

end

/-! ## What the match does -/

@[simp] theorem seenLines_net (s : State) (a n : Nat) : (seenLines s a n).net = s.net := by
  unfold seenLines
  dsimp only
  split <;> simp

/-- The sender's bytes queued, with the HANDOFF_END that closes them. -/
theorem matchReady_fits {s : State} {h : HandoffBody} {n : Nat} (hroom : h.sendLen ≤ n) (slot : Nat) :
    matchReady s slot h n =
      setHandoff (sendClosing (queueData (seenLines s h.sendAddr h.sendLen) .down (dataFlits s.store 0 h.step h.sendAddr h.sendLen)) .down
        (handoffMsg s cEnd (downstream s) h [(8, h.sendLen)])) slot { h with send := .ended, sent := h.sendLen } := by
  simp [matchReady, Nat.not_lt.2 hroom, handoffMsg, downstream]

theorem matchReady_short {s : State} {h : HandoffBody} {n : Nat} (hshort : n < h.sendLen) (slot : Nat) :
    matchReady s slot h n = setHandoff (sendCtrl s .down (handoffMsg s cAbort (downstream s) h [(1, stDesc.toNat)])) slot
      { spoilHandoff h stDesc with send := .done } := if_pos hshort

/-- Settles O24: the message is taken by the handoff it names, as the lemma of its code says, or held. -/
theorem handoffMessages : Obligations.HandoffMessages := by
  intro s l f now a e k done
  refine ⟨fun c code hc h hnone => ?held, fun p h ht hfind => ⟨fun hroom => ?fits, fun hshort => ?short⟩, fun p h ht hfind => ?arrived,
    fun p h ht hfind => ?acked, fun p h ht hl hfind => ?abortUp, fun p h ht hl hfind => ?abortDown⟩
  case held =>
    have hcode := h.hasCode
    simp only [List.mem_cons, Prod.mk.injEq, List.not_mem_nil, or_false] at hc
    obtain ⟨rfl, rfl⟩ | ⟨rfl, rfl⟩ | ⟨rfl, rfl⟩ := hc
    · exact exec_takesMsg h rfl rfl (handoffMsgIn_held (by rw [tryHandoffMsg_ready hcode, hnone]; rfl))
    · exact exec_takesMsg h rfl rfl (handoffMsgIn_held (by rw [tryHandoffMsg_end hcode, hnone]; rfl))
    · exact exec_takesMsg h rfl rfl (handoffMsgIn_held (by rw [tryHandoffMsg_ack hcode, hnone]; rfl))
  case fits =>
    refine exec_takesMsg ht rfl rfl (handoffMsgIn_taken ?_)
    rw [tryHandoffMsg_ready ht.hasCode, hfind, Option.map_some, matchReady_fits hroom]
    rfl
  case short =>
    refine exec_takesMsg ht rfl rfl (handoffMsgIn_taken ?_)
    rw [tryHandoffMsg_ready ht.hasCode, hfind, Option.map_some, matchReady_short hshort]
    rfl
  case arrived => exact exec_takesMsg ht rfl rfl (handoffMsgIn_taken (by rw [tryHandoffMsg_end ht.hasCode, hfind]; rfl))
  case acked => exact exec_takesMsg ht rfl rfl (handoffMsgIn_taken (by rw [tryHandoffMsg_ack ht.hasCode, hfind]; rfl))
  case abortUp =>
    subst hl
    exact exec_takesMsg ht rfl rfl (handoffMsgIn_taken (by rw [tryHandoffMsg_abortUp ht.hasCode, hfind]; rfl))
  case abortDown =>
    subst hl
    exact exec_takesMsg ht rfl rfl (handoffMsgIn_taken (by rw [tryHandoffMsg_abortDown ht.hasCode, hfind]; rfl))

/-! ## The receive half and the timeout -/

/-- A DATA flit of a handoff from upstream at a member: its bytes follow those already got, within the receive length. -/
theorem handoffData_written {s : State} {f : Flit} {p : Pass} {h : HandoffBody} (hkind : f.dataKind = 0) (hm : isMember s = true)
    (hr : receiverOf s f.handoffId = some (p, h)) :
    handoffData s .up f =
      let b := (flitData f).take (h.recvLen - h.got)
      freeSlotOf (setHandoff { s with store := storeWrite s.store (h.recvAddr + h.got) b f.poison } p.slot
        { h with recv := .moving, got := h.got + b.length }) .up false := by
  simp [handoffData, hkind, hm, hr]

theorem handoffData_relayed {s : State} {f : Flit} (hkind : f.dataKind = 0) (hm : isMember s = false) (l : LinkSide) :
    handoffData s l f = relayFlit s l f := by
  simp [handoffData, hkind, hm]

/-- The handoff at work in a slot. -/
theorem bind_handoffOf {s : State} {slot : Nat} {p : Pass} {h : HandoffBody} (hp : passOf s slot = some p) (hh : handoffOf p = some h) :
    (passOf s slot).bind handoffOf = some h := by
  rw [hp, Option.bind_some, hh]

theorem recvDone_ended {s : State} {slot : Nat} {h : HandoffBody} (hh : (passOf s slot).bind handoffOf = some h) (he : h.recv = .ended) :
    recvDone s slot = setHandoff (sendCtrl s .up (handoffMsg s cAck (upstream s) h [])) slot { h with recv := .done } := by
  simp [recvDone, hh, he]

theorem unmatched_of {h : HandoffBody} (hu : h.send = .waiting ∨ h.recv = .waiting ∨ ∃ n, h.recv = .ready n) : unmatched h = true := by
  obtain hs | hr | ⟨n, hr⟩ := hu
  · simp [unmatched, hs]
  · simp [unmatched, hr]
  · simp [unmatched, hr]

theorem handoffTimeout_due {s : State} {slot : Nat} {p : Pass} {h : HandoffBody} (hp : passOf s slot = some p) (hh : handoffOf p = some h)
    (hu : unmatched h = true) (hdue : 1000000 * h.limit < (s.time - h.since).toNat) :
    handoffTimeout s slot = faultPass s p stTimeout
      (timeoutPayload 1 (h.epoch.toNat * 2 ^ 32 + h.step.toNat) (s.time - h.since).toNat) := by
  simp [handoffTimeout, hp, hh, hu, hdue, -BitVec.toNat_sub]

/-- Settles O25: the flit is the next of its series, so what it carries meets the receive half that its step names. -/
theorem handoffDataAndEnd : Obligations.HandoffDataAndEnd := by
  intro s l f now pass
  refine ⟨fun p h ht htype hkind hm hr => ?written, fun ht htype hkind hm => ?relayed, fun p h hp hh he => ?done,
    fun p h hp hh hu hdue => ?timeout⟩
  case written =>
    have hheard := hearSeq_next ht (fun f => f.flitType == 1 && f.dataKind != 1) (by simp [htype, hkind]) (handoffData · .up f)
    rw [handoffData_written hkind hm hr] at hheard
    exact congrArg Host.Outcome.next hheard
  case relayed =>
    have hheard := hearSeq_next ht (fun f => f.flitType == 1 && f.dataKind != 1) (by simp [htype, hkind]) (handoffData · l f)
    rw [handoffData_relayed hkind hm] at hheard
    exact congrArg Host.Outcome.next hheard
  case done =>
    have hdone := recvDone_ended (s := atTime s now) (bind_handoffOf (s := atTime s now) hp hh) he
    exact congrArg Host.Outcome.next hdone
  case timeout => exact congrArg Host.Outcome.next (handoffTimeout_due (s := atTime s now) hp hh (unmatched_of hu) hdue)

end Sys2Proof.Machine
end

section
/-! The census on the origin and on the others, and RING_DOWN received (R207 to R210, R219, R220, R532). -/
namespace Sys2Proof.Machine

section
variable {s : State}

theorem atOrigin (h : s.straps.ringOrigin = true) : ¬ (!isOrigin s) = true := by simp [isOrigin, h]

theorem notAtOrigin (h : s.straps.ringOrigin = false) : (!isOrigin s) = true := by simp [isOrigin, h]

/-! ## The origin -/

/-- A ring that is not ready has nothing to be declared not ready. -/
theorem ringAgain_notReady (h : s.net.censusState ≠ 2) : ringAgain s = s := if_neg (by simpa [ringReady] using h)

theorem censusStart_may (hm : mayStart s = true) (h2 : s.net.censusState ≠ 2) :
    censusStart s =
      let t := openCensus s (s.net.censusId + 1) false 0
      let u := startLap { t with net := { t.net with lastAssigned := 0 } } .census1 s.regs.censusTimeout.toNat
      sendCtrl u .down (censusMsg u cCensus1 [(2, 1), (4, s.straps.engineId.toNat)]) := by
  rw [censusStart, hm, ringAgain_notReady h2]
  rfl

theorem mayStart_of (hrun : running s = true) (ho : s.straps.ringOrigin = true) (hup : s.links.all (·.status == 3) = true)
    (h1 : s.net.censusState ≠ 1) (hd : s.drover.running = true) : mayStart s = true := by
  rw [mayStart, hrun, isOrigin, ho, hup, hd, bne_iff_ne.2 h1]
  rfl

theorem censusTimeout_due (hlap : s.net.lap = .census1 ∨ s.net.lap = .census2 ∨ s.net.lap = .broken)
    (hdue : 1000000 * s.net.lapLimit < (s.time - s.net.lapAt).toNat) :
    censusTimeout s = logWide { s with net := { s.net with censusState := 3, lap := .none } } 0x07 0
      (natLe 4 s.net.censusId.toNat ++ natLe 2 s.net.lastAssigned.toNat) := by
  obtain h | h | h := hlap <;> simp [censusTimeout, h, hdue, -BitVec.toNat_sub]

/-! ## Any engine that the census closes on -/

/-- An engine that took part records the number of positions, and is in epoch 0 without a member (R208). -/
theorem closeCensus_present (h : s.net.absent = false) (n : Nat) :
    closeCensus s n = { s with
      net := { s.net with positionCount := n, censusState := 2, heldMsgs := [], epoch := 0, members := [], shards := none,
                          state := .stable },
      bring := { s.bring with step := max s.bring.step 8 } } := by
  simp [closeCensus, h, reachStep]

/-! ## The others -/

theorem mayJoin_iff : mayJoin s = true ↔ s.bring.bootState = 2 ∧ s.bring.initDone = true := by
  simp [mayJoin]

/-- An engine that may join takes the position offered and offers the next one; another passes the message on, recorded absent. -/
theorem census1In_notReady (h2 : s.net.censusState ≠ 2) (f : Flit) :
    census1In s f =
      let p := f.payload
      let id := BitVec.ofNat 32 (msgField p 0 4)
      if mayJoin s then
        sendCtrl (openCensus s id false (BitVec.ofNat 16 (msgField p 4 2))) .down
          (mkMsg cCensus1 (msgSrc p) (msgDst p) [(4, msgField p 0 4), (2, msgField p 4 2 + 1), (4, msgField p 6 4)])
      else passLap (openCensus s id true 0) f := by
  have hkeeps : ∀ id absent position, mayJoin (openCensus s id absent position) = mayJoin s := fun _ _ _ => rfl
  simp only [census1In, ringAgain_notReady h2, hkeeps]
  cases mayJoin s <;> rfl

/-! ## RING_DOWN received -/

theorem ringDownIn_again (h : s.net.downSeen = true) (l : LinkSide) (f : Flit) :
    ringDownIn s l f = ringLost s (msgField f.payload 0 2) (msgField f.payload 2 1) (linkIx l) := by
  rw [ringDownIn, h]
  rfl

theorem ringDownIn_first (h : s.net.downSeen = false) (l : LinkSide) (f : Flit) :
    ringDownIn s l f =
      let b := { s with net := { s.net with downSeen := true } }
      ringLost (if (linkOf s (otherSide l)).status = 3 then passFlit b (otherSide l) f else b)
        (msgField f.payload 0 2) (msgField f.payload 2 1) (linkIx l) := by
  rw [ringDownIn, h]
  rfl

end

/-- Settles O22: each message is one for this engine, and the premises pick the branch of its command. -/
theorem censusOnTheOrigin : Obligations.CensusOnTheOrigin := by
  intro s l f now ho
  refine ⟨fun hrun hup h1 h2 hd => ?start, fun ht => ?firstBack, fun ht => ?secondBack,
    fun hlap hdue => ?timeout⟩
  case start =>
    have hmay : mayStart (atTime s now) = true := mayStart_of hrun ho hup h1 hd
    exact congrArg Host.Outcome.next (censusStart_may hmay h2)
  case firstBack =>
    intro a hao hlap hid
    have hback : (a.net.lap == .census1 && msgField f.payload 0 4 == a.net.censusId.toNat) = true := by simp [hlap, hid]
    exact exec_takesMsg ht rfl rfl ((if_neg (Nat.not_lt.2 (Nat.le_of_eq hid.symm))).trans ((if_neg (atOrigin hao)).trans (if_pos hback)))
  case secondBack =>
    intro a hao hlap habs hid
    have hclosed := closeCensus_present (s := { a with net := { a.net with lap := .none } }) habs (msgField f.payload 4 2)
    exact exec_takesMsg ht rfl rfl
      ((if_neg (Nat.not_lt.2 hid)).trans ((if_neg (atOrigin hao)).trans ((if_pos (beq_iff_eq.2 hlap)).trans hclosed)))
  case timeout => exact congrArg Host.Outcome.next (censusTimeout_due (s := atTime s now) hlap hdue)

/-- Settles O23: as for the origin; a RING_DOWN seen before is not passed on. -/
theorem censusOnTheOthers : Obligations.CensusOnTheOthers := by
  intro s l f now a p
  refine ⟨fun ht hao h2 hid => ?first, fun ht hao habs hid => ?second, fun c code hc ht hold => ?older, fun ht hseen => ?downAgain,
    fun ht hseen => ?down⟩
  case first =>
    refine exec_takesMsg ht rfl rfl ((if_neg (Nat.not_lt.2 hid)).trans ((if_pos (notAtOrigin hao)).trans ?_))
    rw [census1In_notReady h2]
    simp only [mayJoin_iff]
    rfl
  case second =>
    refine exec_takesMsg ht rfl rfl ((if_neg (Nat.not_lt.2 hid)).trans ((if_pos (notAtOrigin hao)).trans ?_))
    rw [closeCensus_present habs]
  case older =>
    simp only [List.mem_cons, Prod.mk.injEq, List.not_mem_nil, or_false] at hc
    obtain ⟨rfl, rfl⟩ | ⟨rfl, rfl⟩ := hc
    · exact exec_takesMsg ht rfl rfl (if_pos hold)
    · exact exec_takesMsg ht rfl rfl (if_pos hold)
  case downAgain => exact exec_takesMsg ht rfl rfl (ringDownIn_again hseen l f)
  case down => exact exec_takesMsg ht rfl rfl (ringDownIn_first hseen l f)

end Sys2Proof.Machine
end

section
/-! The laps of an epoch: the vote, the handover with its entries, the commit and the abort (R212 to R217). -/
namespace Sys2Proof.Machine

/-! ## The vote lap -/

section
variable {s : State}

/-- An engine that votes now. -/
def voting (s : State) : State :=
  { s with net := { s.net with state := .voted, voteSince := s.time, voteLimit := s.regs.epochTimeout.toNat } }

theorem epochDrained_drained {q : Pass} (hq : epochPassOf s = some q) (hst : s.net.state = .draining) (hd : epochDrainedNow s q = true) :
    epochDrained s =
      if isOrigin s then startVote (voting s)
      else match s.net.heldVote with
        | some v => voteIn (voting s) v
        | none => voting s := by
  rw [epochDrained, hq]
  exact if_neg (by rw [hst, hd]; decide)

section
variable {f : Flit}

theorem voteIn_voted (hh : holdsEpoch s f.payload = true) (hst : s.net.state = .voted) :
    voteIn s f = sendCtrl { s with net := { s.net with heldVote := none } } .down (addVote s f.payload) := by
  rw [voteIn, hh, hst]
  rfl

theorem voteIn_draining (hh : holdsEpoch s f.payload = true) (hst : s.net.state = .draining) :
    voteIn s f = { s with net := { s.net with heldVote := some f } } := by
  rw [voteIn, hh, hst]
  rfl

theorem voteIn_member (hh : holdsEpoch s f.payload = false) (hm : isMember s = true) :
    voteIn s f = { s with net := { s.net with heldVote := some f } } := by
  rw [voteIn, hh, hm]
  rfl

theorem voteIn_passes (hh : holdsEpoch s f.payload = false) (hm : isMember s = false) : voteIn s f = passLap s f := by
  rw [voteIn, hh, hm]
  rfl

end

/-- The vote is added where the digests agree; where they differ mismatch is set (Table 6.7). -/
theorem addVote_eq (s : State) (p : List Byte) :
    addVote s p = mkMsg cVote (msgSrc p) (msgDst p) [(4, msgField p 0 4), (4, msgField p 4 4),
      (2, if msgField p 4 4 = s.net.digest.toNat then msgField p 8 2 + 1 else msgField p 8 2),
      (1, if msgField p 4 4 = s.net.digest.toNat then msgField p 10 1 else 1)] := by
  by_cases h : msgField p 4 4 = s.net.digest.toNat <;> simp [addVote, h]

theorem voteReturned_eq (s : State) (p : List Byte) :
    voteReturned s p =
      if bitOf (msgField p 10 1) 0 = true ∨ voteCount s.net < msgField p 8 2 then originAbort s stDesc
      else if msgField p 8 2 = voteCount s.net then enterHandover s false
      else if 1000000 * s.net.voteLimit ≤ (s.time - s.net.voteSince).toNat then originAbort s stTimeout
      else startVote s := by
  simp only [voteReturned, Bool.or_eq_true, decide_eq_true_eq]

end

/-- Settles O26: an engine that drains, one that the vote passes, and the origin that it comes back to. -/
theorem epochVoteLap : Obligations.EpochVoteLap := by
  intro s l f now a p v
  refine ⟨fun q hq hst hd => ?drained, fun ht ho => ⟨fun hh hst => ?voted, fun hh hst => ?draining, fun hh hm => ?member,
    fun hh hm => ?passes⟩, fun ht ho hlap hh => ?returned⟩
  case drained =>
    have hdrained := epochDrained_drained (s := atTime s now) hq hst hd
    refine ⟨fun ho => congrArg Host.Outcome.next (hdrained.trans (if_pos ho)), fun ho hheld => ?_⟩
    have hheld' : (atTime s now).net.heldVote = none := hheld
    rw [hheld'] at hdrained
    exact congrArg Host.Outcome.next (hdrained.trans (if_neg (Bool.eq_false_iff.1 ho)))
  case voted => exact ⟨exec_takesMsg ht rfl rfl ((if_pos (notAtOrigin ho)).trans (voteIn_voted hh hst)), addVote_eq a p⟩
  case draining => exact exec_takesMsg ht rfl rfl ((if_pos (notAtOrigin ho)).trans (voteIn_draining hh hst))
  case member => exact exec_takesMsg ht rfl rfl ((if_pos (notAtOrigin ho)).trans (voteIn_member hh hm))
  case passes => exact exec_takesMsg ht rfl rfl ((if_pos (notAtOrigin ho)).trans (voteIn_passes hh hm))
  case returned =>
    have hback : (a.net.lap == .vote && holdsEpoch a f.payload) = true := by rw [hlap, hh]; rfl
    exact exec_takesMsg ht rfl rfl ((if_neg (atOrigin ho)).trans ((if_pos hback).trans (voteReturned_eq a p)))

/-! ## The handover, commit and abort laps -/

section
variable {s : State}

theorem enterHandover_other (ho : s.straps.ringOrigin = false) (failed : Bool) :
    enterHandover s failed = sendEntries { s with net := { s.net with state := .handover, entryNo := 0, failedIn := failed } } := by
  rw [enterHandover, isOrigin, ho]
  rfl

theorem handoverIn_voted {f : Flit} (hh : holdsEpoch s f.payload = true) (hst : s.net.state = .voted) :
    handoverIn s f = enterHandover s (bitOf (msgField f.payload 4 1) 0) :=
  if_pos (by rw [hh, hst]; rfl)

theorem endEpoch_atWork {q : Pass} (hq : epochPassOf s = some q) (st : Byte) :
    endEpoch s st = { modPass s q.slot (fun x => { x with status := some st }) with
      net := { s.net with state := .stable, epochPass := none, lap := .none, heldVote := none } } := by
  rw [endEpoch, hq]
  rfl

theorem commitEpoch_atWork {q : Pass} (hq : epochPassOf s = some q) :
    commitEpoch s = { modPass s q.slot (fun x => { x with status := some stOk }) with
      net := { s.net with epoch := s.net.newEpoch, members := s.net.newMembers, shards := some s.net.newShards, state := .stable,
                          epochPass := none, lap := .none, heldVote := none } } :=
  endEpoch_atWork (s := { s with net := { s.net with
    epoch := s.net.newEpoch, members := s.net.newMembers, shards := some s.net.newShards } }) hq stOk

theorem field_one_lt (l : List Byte) (o : Nat) : field l o 1 < 256 := by
  have hb := (l.getD o 0).isLt
  simpa [field, slice, leNat] using hb

theorem abortEpoch_other {q : Pass} (hq : epochPassOf s = some q) {p : List Byte} (ht : msgField p 4 1 ≠ stTimeout.toNat) :
    abortEpoch s (BitVec.ofNat 8 (msgField p 4 1)) =
      { modPass s q.slot (fun x => { x with status := some (BitVec.ofNat 8 (msgField p 4 1)) }) with
        net := { s.net with state := .stable, epochPass := none, lap := .none, heldVote := none } } := by
  have hother : BitVec.ofNat 8 (msgField p 4 1) ≠ stTimeout := fun h => ht (by
    rw [← h, BitVec.toNat_ofNat]
    exact (Nat.mod_eq_of_lt (field_one_lt ..)).symm)
  rw [abortEpoch, if_neg hother, endEpoch_atWork hq]

theorem epochTimeout_due (ho : s.straps.ringOrigin = true) (hlap : s.net.lap ∈ [Lap.vote, .handover, .commit])
    (hdue : 1000000 * s.net.lapLimit < (s.time - s.net.lapAt).toNat) : epochTimeout s = originAbort s stTimeout := by
  have hepoch : epochLap s.net.lap = true := by
    obtain h | h | h := by simpa using hlap
    all_goals rw [h]; rfl
  simp [epochTimeout, isOrigin, ho, hepoch, hdue, -BitVec.toNat_sub]

end

/-- Settles O27: each lap at an engine that it passes, and at the origin that it comes back to. -/
theorem epochHandoverAndCommitLaps : Obligations.EpochHandoverAndCommitLaps := by
  intro s l f now a p
  refine ⟨fun ht hh => ⟨fun ho hst => ?entered, fun ho hlap hsent => ?handedOver⟩, fun q ht hh hst hq => ?commit,
    fun ht hh ho => ?noted, fun q ht hh ho hq hst => ?aborted, fun ho hlap hdue => ?timeout⟩
  case entered =>
    exact exec_takesMsg ht rfl rfl ((if_pos (notAtOrigin ho)).trans ((handoverIn_voted hh hst).trans (enterHandover_other ho _)))
  case handedOver =>
    have hback : (a.net.lap == .handover && a.net.entries.length ≤ a.net.entryNo && holdsEpoch a f.payload) = true := by
      simp [hlap, hsent, show holdsEpoch a f.payload = true from hh]
    exact exec_takesMsg ht rfl rfl ((if_neg (atOrigin ho)).trans (if_pos hback))
  case commit =>
    have hmine : (holdsEpoch a f.payload && a.net.state == .handover) = true := by rw [hst, hh]; rfl
    have hcommit := commitEpoch_atWork hq
    refine ⟨fun ho hlap => ?_, fun ho => ?_⟩
    · have hback : (holdsEpoch a f.payload && a.net.state == .handover && a.net.lap == .commit) = true := by rw [hmine, hlap]; rfl
      exact exec_takesMsg ht rfl rfl ((if_pos ho).trans ((if_pos hback).trans hcommit))
    · exact exec_takesMsg ht rfl rfl ((if_neg (Bool.eq_false_iff.1 ho)).trans
        (congrArg (passLap · f) ((if_pos hmine).trans hcommit)))
  case noted =>
    have hnot : ¬ (holdsEpoch a f.payload && a.net.state == .handover) = true := by rw [hh]; exact Bool.false_ne_true
    exact exec_takesMsg ht rfl rfl ((if_neg (Bool.eq_false_iff.1 ho)).trans
      (congrArg (passLap · f) ((if_neg hnot).trans (if_neg (Bool.eq_false_iff.1 hh)))))
  case aborted =>
    exact exec_takesMsg ht rfl rfl ((if_neg (Bool.eq_false_iff.1 ho)).trans
      (congrArg (passLap · f) ((if_pos hh).trans (abortEpoch_other hq hst))))
  case timeout => exact congrArg Host.Outcome.next (epochTimeout_due (s := atTime s now) ho hlap hdue)

/-! ## Handover entries -/

section
variable {s : State} {o : HandoverOpen} (ho : s.net.openIn = some o)
include ho

theorem handoverData_written (he : o.ended = false) (hok : o.ok = true) (l : LinkSide) (f : Flit) :
    handoverData s l f =
      let b := (flitData f).take (o.len - o.got)
      freeSlotOf { s with store := storeWrite s.store (o.addr + o.got) b f.poison,
                          net := { s.net with openIn := some { o with got := o.got + b.length } } } l false := by
  simp [handoverData, ho, he, hok]

/-- HANDOVER_END of the entry that is open: its end waits for its writes, or is refused at once. -/
theorem handoverClose_matches {p : List Byte} (hep : o.epoch.toNat = msgField p 0 4) (hen : o.entry.toNat = msgField p 4 2)
    (hsrc : o.source.toNat = msgSrc p) :
    handoverClose s p =
      if o.ok then { s with net := { s.net with openIn := some { o with ended := true } } } else ackEntry s o stPermission := by
  simp [handoverClose, ho, hep, hen, hsrc]

theorem handoverDone_ended (he : o.ended = true) (hok : o.ok = true) : handoverDone s = ackEntry s o stOk := by
  simp [handoverDone, ho, he, hok]

end

theorem handoverData_relayed {s : State} (ho : s.net.openIn = none) (l : LinkSide) (f : Flit) :
    handoverData s l f = relayFlit s l f := by
  rw [handoverData, ho]

/-- HANDOVER_ACK of the entry that is under way. -/
theorem handoverAcked_current {s : State} {p : List Byte} (hh : holdsEpoch s p = true) (hst : s.net.state = .handover)
    (hlt : s.net.entryNo < s.net.entries.length) (hno : msgField p 4 2 = s.net.entryNo) :
    handoverAcked s p =
      if msgField p 6 1 = 0 then sendEntries { s with net := { s.net with entryNo := s.net.entryNo + 1 } }
      else sendEntries { s with net := { s.net with failedIn := true, entryNo := s.net.entries.length } } :=
  if_neg (by simp [hh, hst, hlt, hno])

/-- Settles O28: each message or DATA flit meets the entry that is open. -/
theorem handoverEntries : Obligations.HandoverEntries := by
  intro s l f now a p ack
  refine ⟨fun ht => exec_takesMsg ht rfl rfl rfl, fun ht htype hkind => ?data, fun o ht ho hep hen hsrc => ?close,
    fun o ho he hok => ?writesDone, fun ht hh hst hlt hno => ?acked⟩
  case data =>
    have hheard := hearSeq_next ht (fun f => f.flitType == 1 && f.dataKind == 1) (by simp [htype, hkind]) (handoverData · l f)
    refine ⟨fun o ho he hok => ?_, fun ho => ?_⟩
    · exact congrArg Host.Outcome.next (hheard.trans (handoverData_written ho he hok l f))
    · exact congrArg Host.Outcome.next (hheard.trans (handoverData_relayed ho l f))
  case close => exact exec_takesMsg ht rfl rfl (handoverClose_matches ho hep hen hsrc)
  case writesDone => exact congrArg Host.Outcome.next (handoverDone_ended (s := atTime s now) ho he hok)
  case acked => exact exec_takesMsg ht rfl rfl (handoverAcked_current hh hst hlt hno)

end Sys2Proof.Machine
end

section
/-! HANDOFF BARRIER and EPOCH admitted (R189 to R192, R212, R213, R451). -/
namespace Sys2Proof.Machine

/-! ## A handoff admitted -/

section
variable {s : State} {c r : Nat} {f : Fetched}

/-- The state in which a HANDOFF has entered flight. -/
def handoffAdmitted (s : State) (c r : Nat) (f : Fetched) : State :=
  admitPass s (newPass s c r f.desc (.handoff (parseHandoff s f.desc)))

theorem handoffGo_idle (hs : (parseHandoff s f.desc).send = .off) (hr : (parseHandoff s f.desc).recv = .off) :
    handoffGo s c r f = setHandoff (handoffAdmitted s c r f) (freeSlot s) (parseHandoff s f.desc) :=
  if_pos (by rw [hs, hr]; rfl)

/-- A half at least: within the engine on a ring of one member, else with the neighbours. -/
theorem handoffGo_half (hhalf : (parseHandoff s f.desc).send ≠ .off ∨ (parseHandoff s f.desc).recv ≠ .off) :
    handoffGo s c r f =
      let a := handoffAdmitted s c r f
      if a.net.members = [a.net.position.toNat] then copyHandoff a (freeSlot s) (parseHandoff s f.desc)
      else takeHeld (trySendReady a (freeSlot s)) :=
  if_neg fun hoff => by
    obtain ⟨hs, hr⟩ : (parseHandoff s f.desc).send = .off ∧ (parseHandoff s f.desc).recv = .off := by simpa using hoff
    exact hhalf.elim (· hs) (· hr)

end

section
variable {s : State} {h : HandoffBody}

theorem copyHandoff_oneHalf (hoff : h.send = .off ∨ h.recv = .off) (slot : Nat) :
    copyHandoff s slot h = setHandoff s slot { h with send := .done, recv := .done } :=
  if_pos (by simpa using hoff)

theorem copyHandoff_both (hs : h.send ≠ .off) (hr : h.recv ≠ .off) (slot : Nat) :
    copyHandoff s slot h =
      if h.recvLen < h.sendLen then setHandoff s slot { spoilHandoff h stDesc with send := .done, recv := .done }
      else
        let b := seenLines s h.sendAddr h.sendLen
        setHandoff { b with store := storeCopy b.store h.sendAddr h.recvAddr h.sendLen } slot
          { h with send := .done, recv := .done, sent := h.sendLen, got := h.sendLen } :=
  if_neg (by simp [hs, hr])

end

/-- Settles O51: the two commands pick the descriptor at the ring's head; a HANDOFF goes on by its halves and the ring's members, an
EPOCH has the form of `planned_admitWith`. -/
theorem ringPassesAdmitted : Obligations.RingPassesAdmitted := by
  intro s c r f x now t slot
  refine ⟨fun hheads hscope => ?handoff, fun hheads hturn => ?epoch⟩
  case handoff =>
    intro h a out
    obtain ⟨hhead, hctx, hop⟩ := hheads
    have hpicked : isBarrier 1 f = true := by simp [isBarrier, hop, hscope]
    have hout : out = .next (match handoffCheck t x f with
        | some y => refuse t c.toNat r.toNat f.desc y
        | none => handoffGo t c.toNat r.toNat f) :=
      congrArg Host.Outcome.next (admitWith_picked hhead hctx _ hpicked handoffCheck _)
    refine ⟨fun y hy => by rw [hout, hy], fun hgo => ?_⟩
    rw [hgo] at hout
    refine ⟨fun hs hr => ?_, fun hhalf hone => ⟨fun hoff => ?_, fun hs hr hfits => ?_, fun hs hr hshort => ?_⟩, fun hhalf hmany => ?_⟩
    · rw [hout, handoffGo_idle hs hr]
      rfl
    all_goals rw [hout, handoffGo_half hhalf]
    · exact congrArg Host.Outcome.next ((if_pos hone).trans (copyHandoff_oneHalf hoff _))
    · exact congrArg Host.Outcome.next ((if_pos hone).trans ((copyHandoff_both hs hr _).trans (if_neg (Nat.not_lt.2 hfits))))
    · exact congrArg Host.Outcome.next ((if_pos hone).trans ((copyHandoff_both hs hr _).trans (if_pos hshort)))
    · exact congrArg Host.Outcome.next (if_neg hmany)
  case epoch =>
    have ⟨_, hctx, _⟩ := hheads
    exact planned_admitWith hheads hturn rfl (by rw [hctx]) fun u p y _ => rfl

end Sys2Proof.Machine
end

section
/-! Why a command may leave the bundle that its core starts (R223, R268). BOUND_TEST, MMA and PRIMITIVE_TEST look at the group in their
slot as the command finds it, `State.starts` once the core has waited for its bound unit. While it waits, time bounds pass and contexts
fault (R280). In a table of cores with two entries for one core the groups that then end uncover the second entry, with another group in
the slot; the statement has no hypothesis that rules such a table out. -/
namespace Sys2Proof.Machine

/-- BOUND_TEST for a stock walk group that holds no record does nothing. -/
theorem exec_boundTest_emptyHanded {s : State} {core : BitVec 8} {slot : BitVec 4}
    (h : heldBy s core.toNat slot.toNat = some []) : exec (.boundTest core slot) s = .next s := by
  have hexec : exec (.boundTest core slot) s = execBoundTest core slot s := rfl
  rw [hexec, execBoundTest, stockStep, h]
  simp

/-! ## A core listed twice -/

/-- A B slot on the selection of exec. -/
def boxBundle : Bundle := { Bundle.empty with b := some ⟨⟨false, false, 0⟩, .rayBox, 0, .imm, .imm, .imm, 0, 0⟩ }

/-- A group in slot 0 without active threads, before its first bundle. -/
def maskedGroup (pass : Nat) (stock : Stock) (code : List Bundle) : Group :=
  { slot := 0, pass := pass, ctx := 1, herd := 0, number := 0, member := 0, width := 16, vregsR := 0, f1 := false, code := code, next := 0,
    issue := 0, exec := 0, stack := [], vregs := [], sregs := [], pend := [], tags := [], pendRegs := [], hold := .none, wait := .none,
    cycles := 0, bound := 0xFFFFFFFF, ended := false, stopping := false, halted := false, haltAsked := false, haltByHost := false,
    stepAsked := false, stock := stock, packet := none }

/-- The group of pass 1 that is ready to issue its B slot, and its herd. -/
def readyGroup : Group := maskedGroup 1 .user [boxBundle]
def readyHerd : Herd := ⟨1, 0, 0, 0, 1, 1, 1, 1, 1, [], []⟩

/-- The entry listed first: a stock walk group that holds no record, and in its slot a group of pass 0 above its time bound; the bound
unit is occupied. -/
def busyCore : Core :=
  { Core.reset with groups := [maskedGroup 256 (.walk []) [], { maskedGroup 0 .user [] with cycles := 1, bound := 0 }], boundBusy := 1 }

/-- The entry listed second. -/
def hiddenCore : Core := { Core.reset with groups := [readyGroup], herds := [readyHerd] }

/-- Core 0 listed twice, and the pass and the context that the group above its bound belongs to. -/
def twiceListed : State :=
  { State.reset with
    ctxs := [(1, ⟨true, false, false, false, 0, 0, 0, [], 0, [], false, none, false, none⟩)], passes := [newPass .reset 1 0 [] .plain],
    cores := [(0, busyCore), (0, hiddenCore)] }

/-- The fault of pass 0 ends both groups of the first entry; what is left of it is a core as after reset, which a table does not list. -/
theorem awaitBound_twiceListed_cores : (awaitBound twiceListed 0).cores = [(0, hiddenCore)] := rfl

theorem starts_twiceListed : twiceListed.starts 0 0 (awaitBound twiceListed 0) readyGroup readyHerd boxBundle :=
  ⟨rfl, rfl, rfl, rfl, rfl, rfl, rfl⟩

theorem performs_twiceListed : (awaitBound twiceListed 0).performs readyGroup readyHerd boxBundle false false := ⟨rfl, rfl⟩

theorem bundleDone_twiceListed_cores :
    ((awaitBound twiceListed 0).bundleDone 0 readyGroup readyHerd boxBundle).cores.length = 1 := rfl

/-- Refutes O53: in `twiceListed` the arbiter starts a group whose bundle holds a B slot, yet BOUND_TEST finds the stock walk group that
stood in the slot before and does nothing. -/
theorem not_bundleIssue : ¬ Obligations.BundleIssue := by
  intro hall
  have hissues := (hall twiceListed twiceListed (awaitBound twiceListed 0) 0 0 .ok .none [] readyGroup readyHerd boxBundle (.boundTest 0 0)
    holdsB false false).1 starts_twiceListed (.inr (.inl ⟨rfl, by simp⟩))
  have hdone := hissues.1 rfl performs_twiceListed
  rw [exec_boundTest_emptyHanded rfl] at hdone
  have hsame : twiceListed = (awaitBound twiceListed 0).bundleDone 0 readyGroup readyHerd boxBundle := Host.Outcome.next.inj hdone
  have hlength := bundleDone_twiceListed_cores
  rw [← hsame] at hlength
  exact absurd hlength (by decide)

end Sys2Proof.Machine
end

section
/-! A bundle's effect on its group: control flow (R227, R228, R241 to R243, R266) and results that fall due (R232, R260 to R264). -/
namespace Sys2Proof.Machine

/-! ## What a bundle changes in its group -/

/-- An X slot leaves its group but for what the group waits on. -/
theorem waitGroup_eq (g₀ : Group) (x : XSlot) (g : Group) : ∃ w, waitGroup g₀ x g = { g with wait := w } := by
  unfold waitGroup
  split
  · exact ⟨g.wait, rfl⟩
  · split <;> exact ⟨_, rfl⟩

/-- A bundle without a control operation: its results are on their way, the next bundle follows. -/
theorem issueGroup_of_noControl {g : Group} {h : Herd} {b : Bundle} (hc : b.c = none) :
    ∃ w, issueGroup g h b =
      { g with pend := g.pend ++ newResults g h b, next := g.next + 1, issue := g.issue + 1, stepAsked := false, wait := w } := by
  unfold issueGroup
  rw [hc]
  cases b.x with
  | none => exact ⟨g.wait, rfl⟩
  | some x => exact waitGroup_eq ..

/-- A bundle with a control operation: that operation decides exec, the mask stack, the hold, the end and the next bundle. -/
theorem issueGroup_of_control {g : Group} {h : Herd} {b : Bundle} {c : CSlot} (hc : b.c = some c) :
    ∃ w, issueGroup g h b =
      let k := controlGroup g c
      { g with exec := k.exec, stack := k.stack, hold := k.hold, ended := k.ended, next := (branchTarget g c).getD (g.next + 1),
               issue := g.issue + 1, pend := if k.ended then [] else g.pend ++ newResults g h b, stepAsked := false, wait := w } := by
  unfold issueGroup
  rw [hc]
  cases b.x with
  | none => exact ⟨g.wait, rfl⟩
  | some x => exact waitGroup_eq ..

theorem issueGroup_counts (g : Group) (h : Herd) (b : Bundle) :
    (issueGroup g h b).issue = g.issue + 1 ∧ (issueGroup g h b).cycles = g.cycles := by
  cases hc : b.c with
  | none => obtain ⟨w, hn⟩ := issueGroup_of_noControl (g := g) (h := h) hc; simp [hn]
  | some c => obtain ⟨w, hn⟩ := issueGroup_of_control (g := g) (h := h) hc; simp [hn]

/-- WAIT and FENCE of a selection that is not empty, beside any control operation, decide what the group waits on (R272, R298). -/
theorem issueGroup_wait {g : Group} {h : Herd} {b : Bundle} {x : XSlot} (hx : b.x = some x) (hsel : selection g x.pred ≠ 0) :
    (x.op = .wait → (issueGroup g h b).wait = .tag x.tag) ∧ (x.op = .fence → (issueGroup g h b).wait = .fence x.scope.toNat) := by
  constructor <;> intro hop <;> simp [issueGroup, waitGroup, hx, hsel, hop]

/-! ## Control operations -/

/-- When an operation on the masks acts (R227, log entry 16). -/
theorem cActs_of_mask {g : Group} {c : CSlot} (hop : c.op ∈ [COp.ifm, .elsem, .endifm, .brnone]) :
    cActs g c = true ↔
      selection g c.pred ≠ 0 ∨ (g.exec.toNat % 2 ^ g.width = 0 ∧ (c.pred.en = false ∨ predicate g c.pred ≠ 0)) := by
  simp only [List.mem_cons, List.not_mem_nil, or_false] at hop
  obtain hop | hop | hop | hop := hop <;> simp [cActs, hop]

theorem controlGroup_idle {g : Group} {c : CSlot} (h : cActs g c = false) : controlGroup g c = g := by simp [controlGroup, h]

theorem branchTarget_idle {g : Group} {c : CSlot} (h : cActs g c = false) : branchTarget g c = none := by simp [branchTarget, h]

theorem controlGroup_br {g : Group} {c : CSlot} (hop : c.op = .br) : controlGroup g c = g := by simp [controlGroup, hop]

theorem controlGroup_barH {g : Group} {c : CSlot} (hop : c.op = .barH) :
    controlGroup g c = { g with hold := .barH (bitsOf c.imm.toNat 1 0) } := by simp [controlGroup, cActs, hop]

theorem controlGroup_barF {g : Group} {c : CSlot} (hop : c.op = .barF) :
    controlGroup g c = { g with hold := .barF (bitsOf c.imm.toNat 2 0) } := by simp [controlGroup, cActs, hop]

theorem controlGroup_endg {g : Group} {c : CSlot} (hop : c.op = .endg) :
    controlGroup g c = { g with ended := true, pend := [] } := by simp [controlGroup, cActs, hop]

/-- BR is taken where its selection is not empty. -/
theorem branchTarget_br {g : Group} {c : CSlot} {n : Nat} (hop : c.op = .br) :
    (branchTarget g c).getD n = if selection g c.pred ≠ 0 then bitsOf c.imm.toNat 31 0 else n := by
  by_cases hsel : selection g c.pred = 0 <;> simp [branchTarget, cActs, hop, hsel]

/-- Every operation but BR and BRNONE leaves the following bundle the next. -/
theorem branchTarget_of_noBranch {g : Group} {c : CSlot} (hbr : c.op ≠ .br) (hbrnone : c.op ≠ .brnone) : branchTarget g c = none := by
  cases hop : c.op <;> simp_all [branchTarget]

section
variable {g : Group} {c : CSlot} (hact : cActs g c = true)
include hact

/-- BRNONE is taken where exec is zero. -/
theorem branchTarget_brnone {n : Nat} (hop : c.op = .brnone) :
    (branchTarget g c).getD n = if g.exec.toNat % 2 ^ g.width = 0 then bitsOf c.imm.toNat 31 0 else n := by
  by_cases hexec : g.exec.toNat % 2 ^ g.width = 0 <;> simp [branchTarget, hact, hop, hexec]

theorem controlGroup_ifm (hop : c.op = .ifm) :
    controlGroup g c =
      let v := (srcScalar g c.imm c.a).toNat % 2 ^ g.width
      { g with stack := g.exec :: g.stack,
               exec := BitVec.ofNat 64 (g.exec.toNat &&& if c.inv then fullMask g.width - v else v) } := by
  simp [controlGroup, hact, hop]

theorem controlGroup_elsem (hop : c.op = .elsem) : controlGroup g c = { g with exec := g.stack.headD 0 &&& ~~~g.exec } := by
  simp [controlGroup, hact, hop]

theorem controlGroup_endifm (hop : c.op = .endifm) :
    controlGroup g c = { g with exec := g.stack.headD 0, stack := g.stack.tail } := by
  simp [controlGroup, hact, hop]

end

/-- Settles O54: `issueGroup_of_noControl` and `issueGroup_of_control` give the group after its bundle, and each control operation has its
own equation of `controlGroup` and `branchTarget`. -/
theorem controlFlow : Obligations.ControlFlow := by
  intro g h b c x n masks
  obtain ⟨hissue, hcycles⟩ := issueGroup_counts g h b
  refine ⟨hissue, hcycles, cActs_of_mask, fun hc => ?_, fun hc => ?_, issueGroup_wait⟩
  · obtain ⟨w, hn⟩ := issueGroup_of_noControl (g := g) (h := h) hc
    simp only [n, hn, and_self]
  · obtain ⟨w, hn⟩ := issueGroup_of_control (g := g) (h := h) hc
    simp only [n, hn]
    refine ⟨fun hop => ?br, fun _ hidle => ?idle, fun hop hact => ?brnone, fun hop hact => ?ifm, fun e st hst hact => ?saved,
      fun hop => ?barH, fun hop => ?barF, fun hop => ?endg, fun hop => ?follows⟩
    case br => exact ⟨branchTarget_br hop, by rw [controlGroup_br hop], by rw [controlGroup_br hop]⟩
    case idle => simp [controlGroup_idle hidle, branchTarget_idle hidle]
    case brnone => exact branchTarget_brnone hact hop
    case ifm => simp [controlGroup_ifm hact hop, branchTarget_of_noBranch, hop]
    case saved => exact ⟨fun hop => by simp [controlGroup_elsem hact hop, hst], fun hop => by simp [controlGroup_endifm hact hop, hst]⟩
    case barH => rw [controlGroup_barH hop]
    case barF => rw [controlGroup_barF hop]
    case endg => simp [controlGroup_endg hop]
    case follows =>
      rw [branchTarget_of_noBranch (fun hbr => by simp [hbr] at hop) (fun hbr => by simp [hbr] at hop), Option.getD_none]

/-! ## Results on their way -/

section
variable {g : Group} {h : Herd}

/-- Without a control operation the new results join those on their way. -/
theorem issueGroup_pend {b : Bundle} (hc : b.c = none) : (issueGroup g h b).pend = g.pend ++ newResults g h b := by
  obtain ⟨w, hn⟩ := issueGroup_of_noControl (g := g) (h := h) hc
  rw [hn]

theorem newResults_v0 (v : VSlot) :
    newResults g h { Bundle.empty with v0 := some v } = if selection g v.pred ≠ 0 then [vResult g v] else [] := by
  by_cases hsel : selection g v.pred = 0 <;> simp [newResults, Bundle.empty, hsel]

theorem newResults_v1 (v : VSlot) :
    newResults g h { Bundle.empty with v1 := some v } = if selection g v.pred ≠ 0 then [vResult g v] else [] := by
  by_cases hsel : selection g v.pred = 0 <;> simp [newResults, Bundle.empty, hsel]

theorem newResults_s (x : SSlot) :
    newResults g h { Bundle.empty with s := some x } = if selection g x.pred ≠ 0 then [sResult g x] else [] := by
  by_cases hsel : selection g x.pred = 0 <;> simp [newResults, Bundle.empty, hsel]

end

theorem vResult_permute {g : Group} {v : VSlot} (hop : v.op = .permute) :
    vResult g v = ⟨g.issue + vLat v.op g.width g.f1, .vreg v.dst.toNat ((threadsOf g (selection g v.pred)).map fun t =>
      (t, srcVal g ((srcVal g t v.imm v.b).toNat % g.width) v.imm v.a))⟩ := by
  simp only [vResult, hop]

/-- A comparison writes one bit of a scalar register for each selected thread (R232). -/
theorem vResult_cmp {g : Group} {v : VSlot} {c : Cmp} {f : CmpType} (hop : v.op = .cmp c f) :
    vResult g v = ⟨g.issue + vLat v.op g.width g.f1, .sreg (v.dst.toNat % 128)
      (BitVec.ofNat 64 (2 ^ 64 - 2 ^ g.width + selection g v.pred))
      (BitVec.ofNat 64 ((threadsOf g (selection g v.pred)).map fun t =>
        if vEval v.op (srcVal g t v.imm v.a) (srcVal g t v.imm v.b) (srcVal g t v.imm v.c) = 0 then 0 else 2 ^ t).sum)⟩ := by
  simp only [vResult, hop]

/-- Any vector operation but a comparison and PERMUTE writes its value of each selected thread. -/
theorem vResult_value {g : Group} {v : VSlot} (hcmp : ∀ c f, v.op ≠ .cmp c f) (hperm : v.op ≠ .permute) :
    vResult g v = ⟨g.issue + vLat v.op g.width g.f1, .vreg v.dst.toNat ((threadsOf g (selection g v.pred)).map fun t =>
      (t, vEval v.op (srcVal g t v.imm v.a) (srcVal g t v.imm v.b) (srcVal g t v.imm v.c)))⟩ := by
  unfold vResult
  split
  next c f hop => exact absurd hop (hcmp c f)
  next hop => exact absurd hop hperm
  next => rfl

/-! ## Results that fall due -/

theorem filter_due_eq_nil {g : Group} {l : List Pending} (h : ∀ p ∈ l, p.vis ≠ g.issue) : l.filter (·.vis == g.issue) = [] := by
  simpa [List.filter_eq_nil_iff] using h

theorem filter_notDue_eq_self {g : Group} {l : List Pending} (h : ∀ p ∈ l, p.vis ≠ g.issue) : l.filter (·.vis != g.issue) = l := by
  simpa [List.filter_eq_self] using h

theorem dueGroup_of_noneDue {g : Group} (h : ∀ p ∈ g.pend, p.vis ≠ g.issue) : dueGroup g = g := by
  rw [dueGroup, dueNow, filter_due_eq_nil h, filter_notDue_eq_self h]
  rfl

theorem dueGroup_of_oneDue {g : Group} {d : Due} {rest : List Pending} (hp : g.pend = ⟨g.issue, d⟩ :: rest)
    (h : ∀ p ∈ rest, p.vis ≠ g.issue) : dueGroup g = { applyReg g d with pend := rest } := by
  simp [dueGroup, dueNow, hp, filter_due_eq_nil h, filter_notDue_eq_self h]

/-- Settles O55: the one result of the bundle is its slot's, and `dueGroup` writes those that fall due and keeps the others. -/
theorem resultsFallDue : Obligations.ResultsFallDue := by
  intro g h v x ts val one
  have hv0 : one { Bundle.empty with v0 := some v } = _ := issueGroup_pend rfl
  have hv1 : one { Bundle.empty with v1 := some v } = _ := issueGroup_pend rfl
  have hs : one { Bundle.empty with s := some x } = _ := issueGroup_pend rfl
  rw [newResults_v0] at hv0
  rw [newResults_v1] at hv1
  rw [newResults_s] at hs
  refine ⟨fun hsel => ⟨fun hcmp hperm => ?_, fun hop => ?_, fun c f hop => ?_⟩, fun hsel => ?_, fun hsel => ?_, dueGroup_of_noneDue,
    fun d rest => dueGroup_of_oneDue⟩
  · rw [hv0, if_pos hsel, vResult_value hcmp hperm]
  · rw [hv1, if_pos hsel, vResult_permute hop]
  · rw [hv1, if_pos hsel, vResult_cmp hop]
  · rw [hs, if_pos hsel]
    rfl
  · rw [hv0, if_neg (fun hne => hne hsel), List.append_nil]

end Sys2Proof.Machine
end

section
/-! Launches (R232, R237 to R240, R346, R472 to R477) and the time bound of a group (R279, R280). -/
namespace Sys2Proof.Machine

/-! ## Launches -/

section
variable {s : State} {slot core f : Nat} {p : Pass} {w : Waiting} (hp : passOf s slot = some p) (hw : waitingOf s p = some w)
include hp hw

theorem herdLaunch_refused (h : launchSize w ≠ 1 ∨ fits s core w = false ∨ mayLaunch s (flockOfCore core) w = false) :
    herdLaunch s slot core = s := by
  have hno : (launchSize w != 1 || !fits s core w || !mayLaunch s (flockOfCore core) w) = true := by simpa [or_assoc] using h
  simp only [herdLaunch, hp, hw, hno, if_true]

theorem flockLaunch_refused (h : flockCores s f w = none ∨ launchSize w = 1 ∨ mayLaunch s f w = false) : flockLaunch s slot f = s := by
  simp only [flockLaunch, hp, hw]
  split
  next => rfl
  next cs hcs =>
    have hno : (launchSize w = 1 || !mayLaunch s f w) = true := by simpa [hcs] using h
    rw [if_pos hno]

/-- A flock launch that may be made takes eight more counters of the flock and places its herds on the cores chosen (R239, R240). -/
theorem flockLaunch_made {cs : List Nat} (hcs : flockCores s f w = some cs) (h1 : launchSize w ≠ 1) (hmay : mayLaunch s f w = true) :
    flockLaunch s slot f =
      let u := serveFlock s f p.ctx
      launchOn { u with flocks := modAt u.flocks f fun x => { x with counters := x.counters + 8 } } p cs := by
  simp only [flockLaunch, hp, hw, hcs, h1, hmay, decide_false, Bool.not_true, Bool.or_self, Bool.false_eq_true, if_false]

section
variable (h1 : launchSize w = 1) (hfit : fits s core w = true) (hmay : mayLaunch s (flockOfCore core) w = true)
include h1 hfit hmay

theorem herdLaunch_kernel {k : KernelBody} (hb : p.body = .kernel k) :
    herdLaunch s slot core = launchKernel (serveFlock s (flockOfCore core) p.ctx) p k [core] := by
  simp [herdLaunch, hp, hw, h1, hfit, hmay, hb]

theorem herdLaunch_shader {b : RenderBody} {i : Image} (hb : p.body = .render b) (hi : b.shader = some i) :
    herdLaunch s slot core = launchShader (serveFlock s (flockOfCore core) p.ctx) p b i core 0 b.herds := by
  simp [herdLaunch, hp, hw, h1, hfit, hmay, hb, hi]

theorem herdLaunch_builder {k : StockWork} (hb : p.body = .stock k) :
    herdLaunch s slot core = launchStock (serveFlock s (flockOfCore core) p.ctx) p core .builder p.slot := by
  simp [herdLaunch, hp, hw, h1, hfit, hmay, hb]

theorem herdLaunch_walk (hb : (∃ k, p.body = .search k) ∨ ∃ k, p.body = .trace k) :
    herdLaunch s slot core = launchStock (serveFlock s (flockOfCore core) p.ctx) p core (.walk []) := by
  obtain ⟨k, hb⟩ | ⟨k, hb⟩ := hb <;> simp [herdLaunch, hp, hw, h1, hfit, hmay, hb]

end

end

/-! ## The time bound -/

theorem contractFault_inFlight {s : State} {g : Group} {p : Pass} (hp : passOf s g.pass = some p) (core : Nat) (f : Fail) :
    contractFault s core g f = faultPass (count s 50) p stContract
      (contractPayload f.kind f.slot core g.slot g.number f.detail g.herd g.next g.issue) := by
  simp only [contractFault, hp]

theorem timeFaults_none {s : State} {core : Nat} (h : (coreOf s core).groups.filter overBound = []) : timeFaults s core = s := by
  rw [timeFaults, h, List.foldl_nil]

theorem timeFaults_one {s : State} {core : Nat} {g : Group} (h : (coreOf s core).groups.filter overBound = [g]) :
    timeFaults s core = contractFault s core g ⟨0xF, 0x0B, g.cycles⟩ := by
  rw [timeFaults, h, List.foldl_cons, List.foldl_nil]

theorem timeBound_clockOff {s : State} {core : Nat} (h : (coreOf s core).clockOn = false) (slot n : Nat) :
    timeBound s core slot n = s := by
  simp [timeBound, h]

theorem timeBound_clockOn {s : State} {core slot : Nat} (h : (coreOf s core).clockOn = true) (hg : groupOf s core slot ≠ none)
    (n : Nat) : timeBound s core slot n = timeFaults (passCycles s core none n) core := by
  simp [timeBound, h, hg]

theorem groupReady_of_overBound {g : Group} (h : overBound g = true) (s : State) (core : Nat) : groupReady s core g = false := by
  simp [groupReady, h]

/-- Settles O57: a launch is made or refused as the equations of `herdLaunch` and `flockLaunch` say, by the pass's body; the groups above
their bound are those that `timeFaults` goes through, and none of them is ready. -/
theorem launchesAndTimeBound : Obligations.LaunchesAndTimeBound := by
  intro s slot core fl now p w t f
  refine ⟨fun hp hw => ⟨fun h1 hfit hmay => ?herd, fun hno => ?noHerd, fun cs hcs h1 hmay => ?flock, fun hno => ?noFlock⟩,
    fun q n hq => ?bound⟩
  case herd =>
    have hpt : passOf t slot.toNat = some p := hp
    exact ⟨fun k hb => congrArg Host.Outcome.next (herdLaunch_kernel hpt hw h1 hfit hmay hb),
      fun b i hb hi => congrArg Host.Outcome.next (herdLaunch_shader hpt hw h1 hfit hmay hb hi),
      fun k hb => congrArg Host.Outcome.next (herdLaunch_builder hpt hw h1 hfit hmay hb),
      fun k hb => congrArg Host.Outcome.next (herdLaunch_walk hpt hw h1 hfit hmay (.inl ⟨k, hb⟩)),
      fun k hb => congrArg Host.Outcome.next (herdLaunch_walk hpt hw h1 hfit hmay (.inr ⟨k, hb⟩))⟩
  case noHerd => exact congrArg Host.Outcome.next (herdLaunch_refused (s := t) hp hw hno)
  case flock =>
    have hflock : exec (.flockLaunch slot fl now) s = _ := congrArg Host.Outcome.next (flockLaunch_made (s := t) hp hw hcs h1 hmay)
    exact ⟨fun k hb => by rw [hflock, launchOn, hb]; rfl, fun b hb => by rw [hflock, launchOn, hb]⟩
  case noFlock => exact congrArg Host.Outcome.next (flockLaunch_refused (s := t) hp hw hno)
  case bound =>
    have hexec : exec (.timeBound core q n) s = .next (timeBound s core.toNat q.toNat n) := rfl
    refine ⟨fun hoff => ?_, fun hon hlate => ?_, fun g hon hlate hpg => ⟨?_, ?_⟩⟩
    · rw [hexec, timeBound_clockOff hoff]
    · rw [hexec, timeBound_clockOn hon hq, timeFaults_none hlate]
    · rw [hexec, timeBound_clockOn hon hq, timeFaults_one hlate, contractFault_inFlight hpg]
    · have hg : g ∈ [g] := List.mem_singleton_self g
      rw [← hlate] at hg
      exact groupReady_of_overBound (List.mem_filter.1 hg).2 _ _

end Sys2Proof.Machine
end

section
/-! Why MMA may leave the bundle that its core starts, though the bundle names a tag outstanding (R223, R271): as for BOUND_TEST above, it
finds the stock walk group that stands in the slot before the core has waited for its bound unit. -/
namespace Sys2Proof.Machine

/-- MMA for a stock walk group that holds no record does nothing. -/
theorem exec_mma_emptyHanded {s : State} {core : BitVec 8} {slot : BitVec 4}
    (h : heldBy s core.toNat slot.toNat = some []) : exec (.mma core slot) s = .next s := by
  have hexec : exec (.mma core slot) s = execMma core slot s := rfl
  rw [hexec, execMma, stockStep, h]
  simp

/-! ## An MMA on a tag outstanding, on the core listed twice -/

/-- An MMA that takes tag 3, on the selection of exec. -/
def mmaBundle : Bundle := { Bundle.empty with x := some ⟨⟨false, false, 0⟩, .mma, 0, .scl 0, .scl 0, 3, 0, false, 0⟩ }

/-- The group of pass 1 that is ready to issue its MMA, with tag 3 outstanding. -/
def taggedGroup : Group := { maskedGroup 1 .user [mmaBundle] with exec := 0xFFFF, tags := [⟨3, 1, .remote, ⟨[], [], []⟩, []⟩] }

/-- The entry listed second. -/
def taggedCore : Core := { Core.reset with groups := [taggedGroup], herds := [readyHerd] }

/-- The pass of the tagged group, in a context of its own. -/
def taggedPass : Pass := newPass twiceListed 2 0 [] .plain

/-- `twiceListed` with the tagged group in the entry listed second, and its pass. -/
def twiceListedTagged : State :=
  { twiceListed with passes := twiceListed.passes ++ [taggedPass], cores := [(0, busyCore), (0, taggedCore)] }

theorem starts_twiceListedTagged :
    twiceListedTagged.starts 0 0 (awaitBound twiceListedTagged 0) taggedGroup readyHerd mmaBundle :=
  ⟨rfl, rfl, rfl, rfl, rfl, rfl, rfl⟩

/-- The tag outstanding is the one check that the bundle fails. -/
theorem failing_taggedGroup : taggedGroup.failing readyHerd mmaBundle = [⟨7, 5, 3⟩] := by decide +kernel

theorem passOf_twiceListedTagged : passOf (awaitBound twiceListedTagged 0) taggedGroup.reading.pass = some taggedPass := rfl

/-- A fault of the tagged pass, whatever its payload, leaves one entry in the table of cores. -/
theorem faultPass_twiceListedTagged_cores (payload : List Byte) :
    (faultPass (count (awaitBound twiceListedTagged 0) 50) taggedPass stContract payload).cores.length = 1 := rfl

/-- Refutes O56: in `twiceListedTagged` the arbiter starts a group whose MMA names a tag outstanding, yet MMA finds the stock walk group
that stood in the slot before and does nothing, where the statement has the context fault with TAG_BUSY. -/
theorem not_tagsOfAsynchronousOperations : ¬ Obligations.TagsOfAsynchronousOperations := by
  intro hall
  obtain ⟨-, -, hbusy, -, -⟩ := hall twiceListedTagged twiceListedTagged 0 0 [] taggedGroup readyHerd mmaBundle
  have hfault := hbusy 7 3 (awaitBound twiceListedTagged 0) [] taggedPass (.mma 0 0) (holdsX .mma) starts_twiceListedTagged
    failing_taggedGroup passOf_twiceListedTagged (.inr ⟨rfl, by simp⟩) rfl
  rw [exec_mma_emptyHanded rfl] at hfault
  have hlength : twiceListedTagged.cores.length = 1 :=
    (congrArg (·.cores.length) (Host.Outcome.next.inj hfault)).trans (faultPass_twiceListedTagged_cores _)
  exact absurd hlength (by decide)

end Sys2Proof.Machine
end

section
/-! SCATTER and BUILD: what each does to its pass once admitted (R316 to R328, R105 to R111). -/
namespace Sys2Proof.Machine

/-- A SCATTER in flight: done where it has no contribution, else its elements and carries are written, with the watch record to follow
(R318, R321, R328). -/
theorem scatterGo_inFlight {u : State} {slot : Nat} {q : Pass} (hq : passOf u slot = some q) (y : ScatterParams × ScatterOut) :
    scatterGo u slot y =
      let p := y.1
      let o := y.2
      let b := scratchUse u q.ctx p.scratchAddr p.scratchSize
      let w := passWrites b slot (o.elems.map fun e => (p.targetAddr + e.1 * elemSize p.targetFmt, e.2.bytes))
      let v := if p.carry then passWrites w slot (o.elems.map fun e => (p.carryAddr + 2 * e.1, e.2.carry)) else w
      let n := countIf (·.2.overflow) o.elems
      if p.count = 0 then modPass u slot fun q => { q with status := some stOk }
      else modPass (if n = 0 then v else countCtx v q.ctx 0 n) slot fun q =>
        { q with status := some stOk, degrade := { q.degrade with input := q.degrade.input || decide (0 < o.dropped) },
                 lastWrites := if p.watch then [(p.watchAddr, o.record)] else [],
                 preEvents := if o.post then [(evSilent, silentPayload p.watchAddr o.record)] else [],
                 detail0 := BitVec.ofNat 64 o.elems.length, detail1 := BitVec.ofNat 64 (countIf (·.2.zeroEffect) o.elems),
                 detail2 := BitVec.ofNat 64 o.dropped } := by
  rw [scatterGo, hq]

/-- A BUILD in flight holds the work of its stock kernel; one with a key or primitive uses its scratch (R105, R107, log entry 22). -/
theorem buildGo_inFlight {u : State} {slot : Nat} {q : Pass} (hq : passOf u slot = some q) (y : BuildParams × BuildIn) :
    buildGo u slot y =
      modPass (if y.1.count = 0 then u else scratchUse u q.ctx y.1.scratchAddr y.1.scratchSize) slot fun q =>
        { q with body := .stock (buildWork y.1 y.2) } := by
  rw [buildGo, hq]

/-- The outputs of a BUILD are its primitive or key records, each in the space its flag names, then its nodes but the root (R109). -/
theorem foldl_outputs_buildWork (t : State) (slot : Nat) (p : BuildParams) (i : BuildIn) :
    (buildWork p i).outs.foldl (fun s o => outputs s slot o.1 o.2) t =
      outputs (if p.geometric then outputs t slot p.primStore (spread p.primOut (treeRecords p i))
          else outputs t slot p.keyStore (spread p.keyOut (treeRecords p i)))
        slot p.treeStore ((spread p.treeAddr (treeNodes p i)).drop 1) := by
  rw [buildWork, List.foldl_cons, List.foldl_cons, List.foldl_nil]
  cases p.geometric
  case true => rw [if_pos rfl, if_pos rfl]
  case false => rw [if_neg Bool.false_ne_true, if_neg Bool.false_ne_true]

/-- Settles O48: SCATTER and BUILD have the form of `planned_admitWith`, their go on a pass in flight said above; the last unit of a
BUILD's work writes what `foldl_outputs_buildWork` says and leaves the root to the pass. -/
theorem scatterAndBuild : Obligations.ScatterAndBuild := by
  intro s c r f x
  refine ⟨fun h => ?scatter, fun h => ?build, fun t n p i => ?lastUnit⟩
  case scatter => exact planned_admitWith h h.isOp rfl rfl fun u q y hq => scatterGo_inFlight hq y
  case build => exact planned_admitWith h h.isOp rfl (by rw [h.2.1]) fun u q y hq => buildGo_inFlight hq y
  case lastUnit =>
    intro w nodes u
    rw [finishStock, foldl_outputs_buildWork]
    rfl

end Sys2Proof.Machine
end

section
/-! Primitives binned and tiles taken up (R335, R353, R469, R543); sweeps and samples of the awl (R420 to R425, R477, R478). -/
namespace Sys2Proof.Machine

/-! ## How a plan of a pass at work ends -/

section
variable {α : Type} {s : State} {p : Pass} {z : Plan α} (k : State → α → State)

theorem onPlan_xlate {rd : Reader} {a : Nat} (hz : z.out = .xlate rd a) :
    onPlan s p z k = xlatePass (seeSpans s p.ctx z.reads) p rd a := by
  rw [onPlan, hz]

theorem onPlan_poison {n : Nat} {rd : Reader} {a : Nat} (hz : z.out = .poison n rd a) :
    onPlan s p z k = consumePoison (seeSpans s p.ctx z.reads) p n rd a := by
  rw [onPlan, hz]

theorem onPlan_go {y : α} (hz : z.out = .go y) : onPlan s p z k = k (seeSpans s p.ctx z.reads) y := by
  rw [onPlan, hz]

end

/-! ## PRIMITIVE_BIN -/

/-- A TILED pass that has a primitive left reads it, in walking order, and passes it over or bins it. -/
theorem primitiveBin_reads {s : State} {slot : Nat} {p : Pass} {b : RenderBody} (hr : renderOf s slot = some (p, b))
    (ht : b.tiled = true) (hc : b.cursor ≠ b.par.primCount) :
    primitiveBin s slot =
      let pos := if b.par.bwd then b.par.primCount - 1 - b.cursor else b.cursor
      onPlan s p (planRec s p.ctx 0 b.par pos) fun s r =>
        if isCulled b.par r then countCulled s p { b with cursor := b.cursor + 1 } 1
        else binTiles slot pos (footprint b.par r) (2 * (footprint b.par r).length + 2) s := by
  have hleft : ¬ (!b.tiled || decide (b.cursor = b.par.primCount)) = true := by simp [ht, hc]
  rw [primitiveBin, hr]
  exact if_neg hleft

/-! ## TILE_START -/

section
variable {s u : State} {unit : Nat} (hu : (renderOrder s).foldl (fun s p => settleRender s p.slot) s = u)
include hu

theorem tileStart_noTile (hn : nextTiles u unit = none) (ecc : Ecc) : tileStart s unit ecc = u := by
  simp only [tileStart, hu, hn]

/-- A unit that has tiles to take reads its tile state memory for them (R543). -/
theorem tileStart_takes {n : Nat} {w : Bool × List Nat} {p : Pass} (hn : nextTiles u unit = some (n, w)) (hp : passOf u n = some p)
    (ecc : Ecc) :
    tileStart s unit ecc =
      if ecc = .double then faultPass u p stPoison (poisonPayload 0xFFFF 2 (w.2.headD 0))
      else runTiles (directCull (countSingle u ecc) n) n w := by
  simp only [tileStart, hu, hn, hp]

end

/-! ## SWEEP_START -/

section
variable {s : State} {x : Sweep} (hx : s.awl.sweeps.find? (·.run.isNone) = some x)
include hx

theorem sweepStart_noBackground (hb : noBackground s = true) : sweepStart s = abandonSweep s x := by
  rw [sweepStart, hx]
  exact if_pos hb

/-- A queued sweep that finds a flock opens its stream in that flock's quadrant and reads on at once (R423, R424). -/
theorem sweepStart_onFlock {p : Pass} {z : SearchBody} {f : Nat} (hb : noBackground s = false) (hz : sweepBody s x = some (p, z))
    (hf : (List.range 32).find? (sweepFits s (sweepLaunch p x)) = some f) :
    sweepStart s =
      let u := serveFlock s f p.ctx
      let n := lowestStream u (f / 8) 1024 256
      let r : SweepRun := ⟨f, n, 0, chunkUnits z (sweepChunks z)⟩
      advanceSweep (setRun (openStream u (f / 8) n x.pass 2) x r) { x with run := some r } := by
  simp only [sweepStart, hx, hb, hz, hf, Bool.false_eq_true, if_false]

end

/-! ## SAMPLE_COMPLETE -/

theorem sampleComplete_found {s : State} {x : Sample} (hx : s.awl.samples.find? (·.complete) = some x) :
    sampleComplete s = recordSample s x := by
  rw [sampleComplete, hx]

/-- Settles O59: each command takes the branch that its equation above names; AWL_WINDOW has one branch only. -/
theorem rasterAndRecallAtWork : Obligations.RasterAndRecallAtWork := by
  intro s slot unit ecc now p b t
  refine ⟨fun hr ht hc => ?bin, ?tile, rfl, fun x hx => ⟨fun hb => ?abandoned, fun z f hb hz hf => ?started⟩, fun x hx => ?sample⟩
  case bin =>
    intro pos z u out
    have hout : out = .next _ := congrArg Host.Outcome.next (primitiveBin_reads hr ht hc)
    refine ⟨fun rd a hz => ?_, fun n rd a hz => ?_, fun rec_ hz => ⟨fun hcull => ?_, fun hcull => ?_⟩⟩
    · exact hout.trans (congrArg Host.Outcome.next (onPlan_xlate _ hz))
    · exact hout.trans (congrArg Host.Outcome.next (onPlan_poison _ hz))
    · exact hout.trans (congrArg Host.Outcome.next ((onPlan_go _ hz).trans (if_pos hcull)))
    · exact hout.trans (congrArg Host.Outcome.next ((onPlan_go _ hz).trans (if_neg (Bool.eq_false_iff.1 hcull))))
  case tile =>
    intro u
    refine ⟨fun hn => congrArg Host.Outcome.next (tileStart_noTile rfl hn ecc), fun n w hn hp => ?_⟩
    have htake : exec (.tileStart unit ecc) s = .next _ := congrArg Host.Outcome.next (tileStart_takes rfl hn hp ecc)
    refine ⟨?double, ?single, ?ok⟩
    all_goals
      rintro rfl
      exact htake
  case abandoned => exact congrArg Host.Outcome.next (sweepStart_noBackground (s := t) hx hb)
  case started => exact congrArg Host.Outcome.next (sweepStart_onFlock (s := t) hx hb hz hf)
  case sample => exact congrArg Host.Outcome.next (sampleComplete_found hx)

end Sys2Proof.Machine
end

section
/-! An XFER admitted (R383 to R386): nothing is read where a count is 0, every element is where none is. -/
namespace Sys2Proof.Machine

/-- An XFER has no element where a count below dims is 0. -/
theorem elemCount_eq_zero_iff (x : XferParams) : elemCount x = 0 ↔ 0 ∈ x.counts.take x.dims := by
  rw [elemCount, ← List.prod_eq_foldl, List.prod_eq_zero_iff_exists_zero_nat]
  simp only [exists_eq_right]

section
variable {s : State} {c r : Nat} {f : Fetched}

theorem xferGo_noElement (h : elemCount (parseXfer f.desc f.block) = 0) : xferGo c r s f = admitDone s c r f stOk := if_pos h

/-- An XFER that has elements opens its Transfer stream once in flight and reads them all in ascending linear number (R386). -/
theorem xferGo_reads {x : XferParams} {a : State} {p : Pass} (hx : parseXfer f.desc f.block = x) (hn : elemCount x ≠ 0)
    (ha : admitPass s (newPass s c r f.desc
      (.xfer ⟨x, (List.range (elemCount x)).map fun e => (e, x.elemBytes), none, destsOverlap x (elemCount x), []⟩)) = a)
    (hp : passOf a (freeSlot s) = some p) :
    xferGo c r s f =
      let b := openLowest a 0 1280 256 (freeSlot s) p.cls
      (List.range (elemCount x)).foldl (xferElem (freeSlot s) p x (xferStream b (freeSlot s))) b := by
  simp only [xferGo, admitBody, hx, if_neg hn, ha, hp]

end

/-- Settles O47: XFER picks the descriptor at the ring's head and its checks decide; then the product of its counts below dims, 0 just
where one of them is, decides whether it is done or reads its elements. -/
theorem transfersAndZeroCounts : Obligations.TransfersAndZeroCounts := by
  intro s c r f x hheads par out slot
  have ⟨hhead, hctx, _⟩ := hheads
  have hout : out = .next (match firstDeny (xferChecks x f par) with
      | some y => refuse s c.toNat r.toNat f.desc y
      | none => xferGo c.toNat r.toNat s f) :=
    congrArg Host.Outcome.next (admitWith_picked hhead hctx _ hheads.isOp _ _)
  refine ⟨fun y hy => by rw [hout, hy], fun hpass => ?_⟩
  rw [hpass] at hout
  refine ⟨fun k hk hzero => ?done, fun hcounts p hp => ?reads⟩
  case done =>
    have hmem : 0 ∈ par.counts.take par.dims := List.mem_of_getElem? (by rw [List.getElem?_take_of_lt hk, hzero])
    exact hout.trans (congrArg Host.Outcome.next (xferGo_noElement ((elemCount_eq_zero_iff par).2 hmem)))
  case reads =>
    have hn : elemCount par ≠ 0 := fun h => hcounts 0 ((elemCount_eq_zero_iff par).1 h) rfl
    exact hout.trans (congrArg Host.Outcome.next (xferGo_reads rfl hn rfl hp))

end Sys2Proof.Machine
end

section
/-! The ports at work: grants, merge stages and responses (R371, R374, R377, R378, R390, R488 to R490, R492, R546). -/
namespace Sys2Proof.Machine

/-- The state with one port changed. -/
def onPort (s : State) (port : Nat) (f : Port → Port) : State := { s with ports := modAt s.ports port f }

/-! ## Grants -/

/-- The fabric cycle in which a port's read grant chooses (log entry 15). -/
def grantCycle (s : State) (port : Nat) : Nat := if (s.ports.getD port .reset).cycle < s.fabric then s.fabric else s.fabric + 1

/-- The state in which it chooses: that cycle has come, and the port has chosen in it. -/
def atGrantCycle (s : State) (port : Nat) : State :=
  onPort { s with fabric := grantCycle s port } port fun p => { p with cycle := grantCycle s port }

section
variable {s : State} {port tag : Nat} {p : Port} {b : Burst} (hp : s.ports.getD port .reset = p)
include hp

theorem grantRead_noneReady (h : p.readyRd.filter (readReady (atGrantCycle s port) p) = []) :
    grantRead s port = atGrantCycle s port := by
  subst hp
  simp only [atGrantCycle, onPort, grantCycle] at h ⊢
  simp only [grantRead, h, bestBy]

/-- The first ready read goes into flight on its first free run of tags; its staging slots and its bytes are counted at the grant
(log entry 14). -/
theorem grantRead_issues
    (hb : bestBy (readBefore (atGrantCycle s port) (grantCycle s port)) (p.readyRd.filter (readReady (atGrantCycle s port) p)) = some b)
    (ht : freeTags p.outRd (burstBeats b) = some tag) :
    grantRead s port =
      let u := onPort (atGrantCycle s port) port fun p =>
        { p with readyRd := dropFirst (· == b) p.readyRd, outRd := p.outRd ++ [takeOff tag b], chan := burstChannel tag b }
      acceptTags (count { u with streams := s.streams.map (streamIssue port tag b) } (96 + 2 * port) b.len) b.parts := by
  subst hp
  simp only [atGrantCycle, onPort, grantCycle] at hb ⊢
  simp only [grantRead, hb, ht]

theorem grantWrite_noneReady (h : p.readyWr.filter (fun b => (freeTags p.outWr (burstBeats b)).isSome && inOrder p b) = []) :
    grantWrite s port = s := by
  simp only [grantWrite, hp, h, bestBy]

/-- The first ready write goes into flight; from then on its passes have begun to write. -/
theorem grantWrite_issues
    (hb : bestBy writeBefore (p.readyWr.filter fun b => (freeTags p.outWr (burstBeats b)).isSome && inOrder p b) = some b)
    (ht : freeTags p.outWr (burstBeats b) = some tag) :
    grantWrite s port =
      let u := onPort s port fun p =>
        { p with readyWr := dropFirst (· == b) p.readyWr, outWr := p.outWr ++ [takeOff tag b], chan := burstChannel tag b }
      let v := b.parts.foldl (fun s r => modPass s r.pass fun p => { p with wrote := true }) u
      acceptTags (count v (97 + 2 * port) b.len) b.parts := by
  simp only [grantWrite, hp, hb, ht, onPort]

end

section
variable {s : State} {port : Nat}

theorem portReadGrant_parked (h : s.pins.parked = true) : portReadGrant s port = s := if_pos h
theorem portReadGrant_unparked (h : s.pins.parked = false) : portReadGrant s port = grantRead s port := if_neg (by simp [h])
theorem portWriteGrant_parked (h : s.pins.parked = true) : portWriteGrant s port = s := if_pos h
theorem portWriteGrant_unparked (h : s.pins.parked = false) : portWriteGrant s port = grantWrite s port := if_neg (by simp [h])

end

/-! ## Responses -/

@[simp] theorem countEcc_ports (s : State) (e : Ecc) : (countEcc s e).ports = s.ports := by cases e <;> rfl
@[simp] theorem countEcc_streams (s : State) (e : Ecc) : (countEcc s e).streams = s.streams := by cases e <;> rfl
@[simp] theorem countEcc_fabric (s : State) (e : Ecc) : (countEcc s e).fabric = s.fabric := by cases e <;> rfl

/-- The flight that a response is for: a write is answered under its first tag, a read beat by beat under each of its tags. -/
def answered (p : Port) (b : EppBeat) : Option Flight :=
  if b.dir then p.outWr.find? (fun f => f.tag == b.tag.toNat) else flightOf p.outRd b.tag.toNat

section
variable {s : State} {port : Nat} {b : EppBeat} {f : Flight}

theorem eppResponse_eq (s : State) (port : Nat) (b : EppBeat) (ecc : Ecc) :
    eppResponse s port b ecc = match answered (s.ports.getD port .reset) b with
      | none => count s 44
      | some f =>
        if f.orphan then orphanBack s port b.dir f b.tag.toNat
        else if b.dir then writeResponse s port f b else readBeat s port f b ecc := by
  unfold eppResponse answered
  cases b.dir <;> rfl

theorem orphanBack_write (s : State) (port : Nat) (f : Flight) (tag : Nat) :
    orphanBack s port true f tag = count (onPort s port fun p => { p with outWr := p.outWr.filter (·.tag != f.tag) }) 44 := rfl

/-- A write response OKAY: its tags are free, its requests are performed, and older requests no longer write over them (R492). -/
theorem writeResponse_okay (hc : b.code = 0) :
    writeResponse s port f b = maskOlder (f.burst.parts.foldl (fun s r => writeDone s f 0 r)
      (onPort s port fun p => { p with outWr := p.outWr.filter (·.tag != f.tag) })) port f.burst := by
  unfold writeResponse
  rw [hc]
  rfl

/-- A beat OKAY of a read reports nothing but what staging's decoder found: the flight goes on, or ends with its last beat. -/
theorem readBeat_okay (hc : b.code = 0) (ecc : Ecc) :
    readBeat s port f b ecc =
      let g := stageBeat f b ecc
      let t := if staged f then countEcc s ecc else s
      if g.left.isEmpty then
        let u := onPort t port fun p => { p with outRd := p.outRd.filter (·.tag != f.tag) }
        f.burst.parts.foldl
          (fun s r => if r.kind = .atomic then atomicBack s port g r (b.data.toNat % 2 ^ (8 * r.len)) else deliver s g r)
          (xferBeats { u with streams := t.streams.map (streamTake t.fabric port f.tag) } g)
      else onPort t port fun p => { p with outRd := p.outRd.map fun x => if x.tag = f.tag then g else x } := by
  unfold readBeat
  rw [hc]
  rfl

theorem readBeat_earlier (hc : b.code = 0) {ecc : Ecc} (hleft : (stageBeat f b ecc).left ≠ []) :
    readBeat s port f b ecc = onPort (if staged f then countEcc s ecc else s) port fun p =>
      { p with outRd := p.outRd.map fun x => if x.tag = f.tag then stageBeat f b ecc else x } :=
  (readBeat_okay hc ecc).trans (if_neg (by simpa using hleft))

/-- The last beat of a read that serves no atomic: its tags and staging slots are free, and each of its requests takes its data. -/
theorem readBeat_last (hc : b.code = 0) {ecc : Ecc} (hleft : (stageBeat f b ecc).left = [])
    (hread : ∀ r ∈ f.burst.parts, r.kind ≠ .atomic) :
    readBeat s port f b ecc =
      let g := stageBeat f b ecc
      let u := onPort (if staged f then countEcc s ecc else s) port fun p => { p with outRd := p.outRd.filter (·.tag != f.tag) }
      f.burst.parts.foldl (fun s r => deliver s g r)
        (xferBeats { u with streams := s.streams.map (streamTake s.fabric port f.tag) } g) := by
  have hstreams : (if staged f then countEcc s ecc else s).streams = s.streams := by split <;> simp
  have hfabric : (if staged f then countEcc s ecc else s).fabric = s.fabric := by split <;> simp
  refine (readBeat_okay hc ecc).trans ((if_pos (by simp [hleft])).trans ?_)
  rw [hstreams, hfabric]
  exact List.foldl_rel rfl fun r hr v w hvw => by rw [if_neg (hread r hr), hvw]

end

/-! ## The statement -/

/-- Settles O58: an unparked port's grant takes the branch that its equation above names, with or without a ready request; a response
takes that of the flight that it is for and, OKAY, that of a write, of an earlier beat or of the last beat of a read. -/
theorem portTraffic : Obligations.PortTraffic := by
  intro s q now b ecc n p t set cyc cycled
  refine ⟨fun hparked => ?parked, fun hup => ⟨fun hnone => ?noRead, fun r tag hbest htag => ?read, fun hnone => ?noWrite,
    fun r tag hbest htag => ?write⟩, ?merge, fun hup => ?response⟩
  case parked =>
    exact ⟨congrArg Host.Outcome.next (portReadGrant_parked hparked), congrArg Host.Outcome.next (portWriteGrant_parked hparked),
      congrArg Host.Outcome.next (if_pos hparked)⟩
  case noRead => exact congrArg Host.Outcome.next ((portReadGrant_unparked hup).trans (grantRead_noneReady rfl hnone))
  case read => exact congrArg Host.Outcome.next ((portReadGrant_unparked hup).trans (grantRead_issues rfl hbest htag))
  case noWrite => exact congrArg Host.Outcome.next ((portWriteGrant_unparked hup).trans (grantWrite_noneReady rfl hnone))
  case write => exact congrArg Host.Outcome.next ((portWriteGrant_unparked hup).trans (grantWrite_issues rfl hbest htag))
  case merge =>
    exact ⟨rfl, fun r rest hrd hwr => by rw [mergeExpire, hrd, hwr], fun w rest hwr hrd => by rw [mergeExpire, hrd, hwr]⟩
  case response =>
    have hout : exec (.eppResponse ⟨q, b⟩ ecc now) s = .next (match answered p b with
        | none => count t 44
        | some f =>
          if f.orphan then orphanBack t n b.dir f b.tag.toNat
          else if b.dir then writeResponse t n f b else readBeat t n f b ecc) :=
      congrArg Host.Outcome.next ((if_neg (by simp [atTime, hup])).trans (eppResponse_eq t n b ecc))
    refine ⟨fun hnone => ?unknown, fun f hdir hf horphan => ?orphan, fun f hdir hf hown hcode => ?written,
      fun f hdir hf hown hcode => ⟨fun hleft => ?earlier, fun hleft hread => ?last⟩⟩
    case unknown => rw [hout, answered, hnone]
    all_goals
      have hfor : answered p b = some f := by simp only [answered, hdir, if_true, Bool.false_eq_true, if_false, hf]
      rw [hout, hfor]
    case orphan =>
      rw [hdir]
      exact congrArg Host.Outcome.next ((if_pos horphan).trans (orphanBack_write ..))
    all_goals
      refine congrArg Host.Outcome.next ((if_neg (by simp [hown])).trans ?_)
    case written => exact (if_pos hdir).trans (writeResponse_okay hcode)
    case earlier => exact (if_neg (by simp [hdir])).trans (readBeat_earlier hcode hleft)
    case last => exact (if_neg (by simp [hdir])).trans (readBeat_last hcode hleft hread)

end Sys2Proof.Machine
end

section
/-! The seven CALIB operations (R414, R427 to R430): each is dealt with by its plan, does its work on the pass as admitted and ends it OK. -/
namespace Sys2Proof.Machine

section
variable {s : State} {c r : Nat} {f : Fetched} {x : Ctx}

/-- A CALIB at a ring's head is picked by the command of its own operation. -/
theorem isCalib_heads (h : s.heads c r opCalib f x) {op : Nat} (hop : (parseCalib f.desc).op = op) : isCalib op f = true := by
  simp [isCalib, h.isOp, hop]

/-- A CALIB goes by its plan: after the operation's own work its pass has status OK and, unless it is a SAVE, has begun to write
(R430, R566). -/
theorem planned_admitCalib {α : Type} (h : s.heads c r opCalib f x) {op : Nat} (hop : (parseCalib f.desc).op = op)
    (plan : State → Ctx → Fetched → Plan α) (go : CalibParams → State → Nat → α → State) :
    s.planned c r f .plain 1 (plan s x f) (.next (admitCalib s c r op plan go)) fun u _ y =>
      modPass (go (parseCalib f.desc) u (freeSlot s) y) (freeSlot s) fun p => { p with status := some stOk, wrote := op != 4 } := by
  have ⟨_, hctx, _⟩ := h
  exact planned_admitWith h (isCalib_heads h hop) rfl (by rw [hctx]) fun _ _ _ _ => rfl

end

/-- Settles O50: each command is `planned_admitCalib` with its own plan and its own work, which the statement writes out. -/
theorem calibrationPasses : Obligations.CalibrationPasses := by
  intro s c r f x h p slot op done
  refine ⟨fun hop => ?setup, fun hop => ?exportSamples, fun hop => ?propose, fun hop => ?commit, fun hop => ?save,
    fun hop => ?restore, fun hop => ?disable⟩
  case setup => exact planned_admitCalib h hop (fun s x f => planSetup s c.toNat x f) (setupGo c.toNat)
  case exportSamples => exact planned_admitCalib h hop planExport exportGo
  case propose => exact planned_admitCalib h hop (fun s x f => planPropose s c.toNat x f) (proposeGo c.toNat)
  case commit => exact planned_admitCalib h hop (fun s x f => planCommit s c.toNat x f) commitGo
  case save => exact planned_admitCalib h hop planSave saveGo
  case restore => exact planned_admitCalib h hop (fun s x f => planRestore s c.toNat x f) restoreGo
  case disable => exact planned_admitCalib h hop planDisable fun _ s _ _ => dropArea s c.toNat

end Sys2Proof.Machine
end

section
/-! What every command keeps, from the lemmas of Laws/Kept…: the canonical forms and the shape (O5), and, for a command of the engine's own
units, the boundary (O6). -/
namespace Sys2Proof.Machine

/-- Where an outcome goes on, its state has a property. -/
def EndsIn (P : State → Prop) : Host.Outcome State Fault Refusal → Prop
  | .next t => P t
  | _ => True

theorem EndsIn.of_next {P : State → Prop} {o : Host.Outcome State Fault Refusal} {t : State} (h : EndsIn P o) (ho : o = .next t) : P t := by
  subst ho
  exact h

/-- What a command keeps, by its kind: at the edge the memories and the shape; an access of the host all but the answer; any other
everything of Kept. -/
def keptBy (c : Instr) : State → State → Prop :=
  if Instr.atEdge c then MemKept else if Instr.answered c then EdgeKept else Kept

theorem ite_kept {u s t : State} {p : Prop} [Decidable p] (hs : Kept u s) (ht : Kept u t) : Kept u (if p then s else t) := by
  split
  · exact hs
  · exact ht

/-- A descriptor that a plan of its context admits. -/
theorem ctxPlan_kept {u s : State} {α : Type} (c ring arrays : Nat) (f : Fetched) (body : Body) (plan : Ctx → Plan α)
    (go : State → Nat → α → State) (hgo : ∀ s n y, Kept u s → Kept u (go s n y)) (h : Kept u s) :
    Kept u (match ctxOf s c with | some x => admitPlan s c ring f body arrays (plan x) go | none => s) := by
  split
  · exact admitPlan_kept _ _ _ _ _ _ _ _ hgo h
  · exact h

/-- An access of the host through Keeper's mailbox, whose body keeps everything. -/
theorem kmServe_kept {u s : State} (code : U16) (args : List U64) (body : State → State) (hbody : ∀ s, Kept s (body s))
    (h : EdgeKept u s) : EdgeKept u (kmServe s code args body) :=
  kmServe_edge _ _ _ _ (fun x hx => hx.trans (hbody x).toEdgeKept) h

/-- A request in the mailbox whose body keeps the memories and the shape. -/
theorem kmServe_mem {u s : State} (code : U16) (args : List U64) (body : State → State) (hbody : ∀ s, MemKept s (body s))
    (h : MemKept u s) : MemKept u (kmServe s code args body) := by
  have ha := h.trans (hostAnswer_edge s .host (.refl s)).toMemKept
  have hs := ha.trans (kmStart_kept _ code args (.refl _)).toMemKept
  unfold kmServe
  dsimp only
  split
  · exact ha
  · split
    · exact hs.trans (kmEnd_kept _ _ (.refl _)).toMemKept
    · exact hs.trans (hbody _)

/-- A doorbell whose body keeps everything. -/
theorem doorbell_kept {u s : State} (c ring : Nat) (asid : BitVec 20) (v : U32) (body : State → State) (hbody : ∀ s, Kept s (body s))
    (h : EdgeKept u s) : EdgeKept u (doorbell s c ring asid v body) :=
  doorbell_edge _ _ _ _ _ _ (fun x hx => hx.trans (hbody x).toEdgeKept) h

theorem ite_edgeKept {u s t : State} {p : Prop} [Decidable p] (hs : EdgeKept u s) (ht : EdgeKept u t) :
    EdgeKept u (if p then s else t) := by
  split
  · exact hs
  · exact ht

/-- Every command keeps what its kind keeps. -/
theorem exec_keeps (c : Instr) (s : State) : EndsIn (keptBy c s) (exec c s) := by
  have hr := Kept.refl s
  have he := EdgeKept.refl s
  have hm := MemKept.refl s
  have ht (now : U64) : Kept s (atTime s now) := atTime_kept s now hr
  have hw (l : List (Nat × Byte)) : Kept s (agentsWrite s l) := agentsWrite_kept s l hr
  have hc (e : Ecc) : Kept s (countSingle s e) := countSingle_kept s e hr
  cases c with
  -- reset, power, park and supply events
  | resetAssert => exact resetAssert_mem _ hm
  | resetRelease => exact resetRelease_mem _ hm
  | parkEnter _ => exact parkEnter_mem _ _ hm
  | parkExit _ => exact parkExit_mem _ _ hm
  | parkResponse _ =>
    change MemKept s (ite _ _ _)
    split
    · exact .leaf hm
    · exact hm
  | supplyWarningFall now => exact warningFall_mem _ (ht now).toMemKept
  | supplyWarningRise now => exact warningRise_mem _ (ht now).toMemKept
  | throttleRecoveryEnd now => exact recoveryEnd_mem _ (ht now).toMemKept
  | dutyStop _ _ => exact dutyStop_mem _ _ _ hm
  | dutyRun _ _ => exact dutyRun_kept _ _ _ hr
  | powerUp => exact powerUp_mem _ hm
  | powerDown => exact powerDown_mem _ hm
  | governorLimiting _ => exact governor_mem _ _ hm
  -- ring links
  | linkTrainedRise _ now => exact trainedRise_kept _ _ (ht now)
  | linkTrainedFall _ => exact trainedFall_kept _ _ hr
  | linkBringupTimeout _ now => exact bringupTimeout_kept _ _ (ht now)
  | ringLinkClockStop _ => exact ringClockStop_kept _ _ hr
  | ringLinkClockStart _ => exact ringClockStart_kept _ _ hr
  | alignmentWordReceive _ _ _ now => exact alignReceive_kept _ _ _ _ (ht now)
  | alignmentWordSend _ => exact alignSend_kept _ _ hr
  | memberAbsentReceive _ => exact absentReceive_kept _ _ hr
  | idleFlitReceive _ _ now | ackFlitReceive _ _ now => exact hearFlit_kept _ _ _ _ _ (fun _ h => h) (ht now)
  | marginFlitReceive _ _ now => exact hearFlit_kept _ _ _ _ _ (fun _ h => marginReport_kept _ _ _ h) (ht now)
  | ackTimeoutReplay _ now => exact ackTimeout_kept _ _ (ht now)
  | ackReturnTimer _ now => exact ackReturn_kept _ _ (ht now)
  | marginIntervalSend _ _ now => exact marginDue_kept _ _ _ (ht now)
  | txTake _ => exact txTake_kept _ _ hr
  -- handoffs, epochs, the census
  | handoffDataReceive _ _ now => exact hearSeq_kept _ _ _ _ _ (fun _ h => handoffData_kept _ _ _ h) (ht now)
  | handoffReady _ _ now | handoffEnd _ _ now | handoffAck _ _ now | handoffAbort _ _ now =>
    exact hearMsg_kept _ _ _ _ _ (fun _ h => handoffMsgIn_kept _ _ _ h) (ht now)
  | handoffRecvDone _ now => exact recvDone_kept _ _ (ht now)
  | handoffTimeout _ now => exact handoffTimeout_kept _ _ (ht now)
  | epochVote _ _ now =>
    exact hearMsg_kept _ _ _ _ _
      (fun _ h => ite_kept (voteIn_kept _ _ h) (ite_kept (voteReturned_kept _ _ h) h)) (ht now)
  | epochHandover _ _ now =>
    exact hearMsg_kept _ _ _ _ _
      (fun _ h => ite_kept (handoverIn_kept _ _ h) (ite_kept (handoverReturned_kept _ _ h) h)) (ht now)
  | epochCommit _ _ now =>
    exact hearMsg_kept _ _ _ _ _ (fun _ h => ite_kept (ite_kept (commitEpoch_kept _ h) h)
      (passLap_kept _ _ (ite_kept (commitEpoch_kept _ h) (ite_kept h (noteEpoch_kept _ _ h))))) (ht now)
  | epochAbort _ _ now =>
    exact hearMsg_kept _ _ _ _ _
      (fun _ h => ite_kept h (passLap_kept _ _ (ite_kept (abortEpoch_kept _ _ h) h))) (ht now)
  | epochDrained now => exact epochDrained_kept _ (ht now)
  | epochTimeout now => exact epochTimeout_kept _ (ht now)
  | handoverDataReceive _ _ now => exact hearSeq_kept _ _ _ _ _ (fun _ h => handoverData_kept _ _ _ h) (ht now)
  | handoverBegin _ _ now => exact hearMsg_kept _ _ _ _ _ (fun _ h => handoverOpen_kept _ _ h) (ht now)
  | handoverEnd _ _ now => exact hearMsg_kept _ _ _ _ _ (fun _ h => handoverClose_kept _ _ h) (ht now)
  | handoverWritesDone now => exact handoverDone_kept _ (ht now)
  | handoverAck _ _ now => exact hearMsg_kept _ _ _ _ _ (fun _ h => handoverAcked_kept _ _ h) (ht now)
  | census1 _ _ now =>
    exact hearMsg_kept _ _ _ _ _ (fun _ h => ite_kept h (ite_kept (census1In_kept _ _ h) (ite_kept (census1Back_kept _ _ h) h)))
      (ht now)
  | census2 _ _ now =>
    exact hearMsg_kept _ _ _ _ _ (fun _ h => ite_kept h (ite_kept (passLap_kept _ _ (closeCensus_kept _ _ h))
      (ite_kept (closeCensus_kept _ _ (.leaf h)) h))) (ht now)
  | censusTimeout now => exact censusTimeout_kept _ (ht now)
  | censusStart now => exact (censusStart_kept _ (ht now)).toEdgeKept
  | ringDown _ _ now => exact hearMsg_kept _ _ _ _ _ (fun _ h => ringDownIn_kept _ _ _ h) (ht now)
  -- accesses of the host, Keeper and Drover
  | registerWrite by_ _ _ _ => exact (hostAnswer_edge s by_ he).trans (registerWrite_kept _ _ _ _ _ (.refl _)).toEdgeKept
  | completerAddrErr _ => exact completerTake_edge _ _ he
  | ctxCommit _ agents => exact (commitWrite_kept _ _ (hw agents)).toEdgeKept
  | ctxCommitDeferred => exact commitLater_kept _ hr
  | kmBoot _ agents now => exact kmBoot_edge _ _ (agentsWrite_kept _ _ (ht now)).toEdgeKept
  | firmwareVerified _ now => exact firmwareVerified_mem _ _ (ht now).toMemKept
  | quadrantRelease _ now => exact quadrantRelease_mem _ _ (ht now).toMemKept
  | bootTimeout now => exact bootTimeout_mem _ (ht now).toMemKept
  | droverReadyTimeout now => exact droverReadyTimeout_mem _ (ht now).toMemKept
  | ctxWrite _ _ agents =>
    exact kmServe_kept _ _ _ (fun _ => entryRequest_kept _ _ _ (fun _ h => copyEntry_kept _ _ _ h) (.refl _)) (hw agents).toEdgeKept
  | ctxRetire _ => exact kmServe_kept _ _ _ (fun _ => entryRequest_kept _ _ _ (fun _ h => clearValid_kept _ _ h) (.refl _)) he
  | msgSet _ _ _ _ => exact kmServe_kept _ _ _ (fun _ => msgSet_kept _ _ _ _ _ (.refl _)) he
  | debugAuth _ _ => exact kmServe_kept _ _ _ (fun _ => debugAuth_kept _ _ _ (.refl _)) he
  | govLimit _ => exact kmServe_kept _ _ _ (fun _ => ite_kept (kmEnd_kept _ _ (.refl _)) (kmEnd_kept _ _ (.leaf (.refl _)))) he
  | droverRestart now =>
    exact kmServe_mem _ _ _ (fun _ => .trans (.leaf (.refl _)) (kmEnd_kept _ _ (logDrover_kept _ _ _ (.refl _))).toMemKept)
      (ht now).toMemKept
  | kmRequestUnknown _ => exact ite_edgeKept he (kmServe_kept _ _ _ (fun _ => kmEnd_kept _ _ (.refl _)) he)
  | halt _ => exact debugHalt_edge _ _ he
  | debugHaltTaken => exact haltTaken_kept _ hr
  | debugStep _ | debugResume _ => exact dbgOp_edge _ _ _ _ (fun _ _ h => h.trans (dbgTarget_kept _ _ _ (.refl _)).toEdgeKept) he
  | snap by_ now =>
    exact have h := hostAnswer_edge _ by_ (ht now).toEdgeKept
      ite_edgeKept (h.trans (takeSnap_kept _ (.refl _)).toEdgeKept) h
  | droverReport now =>
    change MemKept s (ite _ _ _)
    split
    · exact .leaf (ht now).toMemKept
    · exact (ht now).toMemKept
  | droverWatchdog now =>
    change MemKept s (ite _ _ _)
    split
    · exact stopDrover_mem _ _ _ (ht now).toMemKept
    · exact (ht now).toMemKept
  | droverSandboxViolation _ => exact stopDrover_mem _ _ _ hm
  | droverNote _ _ => exact droverNote_kept _ _ _ hr
  | engineFatal _ _ => exact engineFatal_kept _ _ _ hr
  | scrubLine _ => exact scrubLine_kept _ _ hr
  -- doorbells
  | index _ _ _ _ agents =>
    exact ite_edgeKept he (doorbell_kept _ _ _ _ _ (fun _ => indexBody_kept _ _ _ _ (.refl _)) (hw agents).toEdgeKept)
  | setup _ _ _ _ agents =>
    exact ite_edgeKept he (doorbell_kept _ _ _ _ _
      (fun _ => ite_kept (setupBody_kept _ _ _ (.refl _)) (badDoorbell_kept _ _ _ _ (.refl _))) (hw agents).toEdgeKept)
  | teardown _ _ _ _ =>
    exact ite_edgeKept he (doorbell_kept _ _ _ _ _
      (fun _ => ite_kept (teardownBody_kept _ _ _ (.refl _)) (badDoorbell_kept _ _ _ _ (.refl _))) he)
  | ringTeardownComplete _ _ => exact teardownDone_kept _ _ _ hr
  | doorbellDiscard _ _ _ _ => exact ite_edgeKept he (okWrite_edge _ (discardDoorbell_kept _ hr).toEdgeKept)
  -- descriptors
  | descriptorFetch _ _ now => exact fetchDescriptor_kept _ _ _ (ht now)
  | nop _ _ => exact admitWith_kept _ _ _ _ _ _ (fun _ _ h => admitDone_kept _ _ _ _ _ h) hr
  | fence _ _ => exact admitWith_kept _ _ _ _ _ _ (fun _ _ h => admitBody_kept _ _ _ _ _ h) hr
  | fenceRelease _ => exact fenceRelease_kept _ _ hr
  | barrierCounter _ _ now =>
    exact admitWith_kept _ _ _ _ _ _ (fun _ _ h => barrierArrive_kept _ _ (admitBody_kept _ _ _ _ _ h)) (ht now)
  | barrierPoll _ now => exact barrierPoll_kept _ _ (ht now)
  | barrierTimeout _ now => exact barrierTimeout_kept _ _ (ht now)
  | barrierHandoff _ _ now => exact admitWith_kept _ _ _ _ _ _ (fun _ _ h => handoffGo_kept _ _ _ _ h) (ht now)
  | cancelPass _ _ now | cancelRing _ _ now => exact admitWith_kept _ _ _ _ _ _ (fun _ _ h => cancelGo_kept _ _ _ _ _ h) (ht now)
  | cancelComplete _ now => exact cancelComplete_kept _ _ (ht now)
  | cancelTimeout _ now => exact cancelTimeout_kept _ _ (ht now)
  | passCompletion _ now => exact passCompletion_kept _ _ (ht now)
  | completionRingSpace _ now => exact ringSpace_kept _ _ (ht now)
  | messageWrite _ _ now => exact messageWrite_kept _ _ (ht now)
  | contextDrained _ now => exact contextDrained_kept _ _ (ht now)
  | drainStalled _ now => exact drainStalled_kept _ _ (ht now)
  | xfer _ _ => exact admitWith_kept _ _ _ _ _ _ (fun _ _ h => xferGo_kept _ _ _ _ h) hr
  | scatter _ _ =>
    exact admitWith_kept _ _ _ _ _ _ (fun _ _ h => admitPlan_kept _ _ _ _ _ _ _ _ (fun _ _ _ => scatterGo_kept _ _ _) h) hr
  | renderFwd _ _ | renderBwd _ _ =>
    exact admitWith_kept _ _ _ _ _ _ (fun _ _ h => admitPlan_kept _ _ _ _ _ _ _ _ (fun _ _ _ => renderGo_kept _ _ _ _ _) h) hr
  | epoch _ _ =>
    exact admitWith_kept _ _ _ _ _ _ (fun _ _ h => ctxPlan_kept _ _ _ _ _ _ _ (fun _ _ _ => epochGo_kept _ _ _ _) h) hr
  | build _ _ =>
    exact admitWith_kept _ _ _ _ _ _ (fun _ _ h => ctxPlan_kept _ _ _ _ _ _ _ (fun _ _ _ => buildGo_kept _ _ _) h) hr
  | search _ _ =>
    exact ite_kept hr
      (admitWith_kept _ _ _ _ _ _ (fun _ _ h => ctxPlan_kept _ _ _ _ _ _ _ (fun _ _ _ => searchGo_kept _ _ _ _) h) hr)
  | trace _ _ =>
    exact admitWith_kept _ _ _ _ _ _ (fun _ _ h => ctxPlan_kept _ _ _ _ _ _ _ (fun _ _ _ => traceGo_kept _ _ _ _) h) hr
  | kernel _ _ =>
    exact admitWith_kept _ _ _ _ _ _ (fun _ _ h => ctxPlan_kept _ _ _ _ _ _ _ (fun _ _ _ => kernelGo_kept _ _ _ _) h) hr
  | calibSetup _ _ => exact admitCalib_kept _ _ _ _ _ _ (fun _ _ _ _ => setupGo_kept _ _ _ _ _) hr
  | calibExport _ _ => exact admitCalib_kept _ _ _ _ _ _ (fun _ _ _ _ => exportGo_kept _ _ _ _) hr
  | calibPropose _ _ => exact admitCalib_kept _ _ _ _ _ _ (fun _ _ _ _ => proposeGo_kept _ _ _ _ _) hr
  | calibCommit _ _ => exact admitCalib_kept _ _ _ _ _ _ (fun _ _ _ _ => commitGo_kept _ _ _ _) hr
  | calibSave _ _ => exact admitCalib_kept _ _ _ _ _ _ (fun _ _ _ _ => saveGo_kept _ _ _ _) hr
  | calibRestore _ _ => exact admitCalib_kept _ _ _ _ _ _ (fun _ _ _ _ => restoreGo_kept _ _ _ _) hr
  | calibDisable _ _ => exact admitCalib_kept _ _ _ _ _ _ (fun _ _ _ _ => dropArea_kept _ _) hr
  -- the fold, launches, walker cores
  | batchAdmit _ => exact batchAdmit_kept _ _ hr
  | recordAccept read now =>
    change Kept s (match (atTime s now).fold.arrivals.find? fun r => homeSlice r.target == read.slice.toNat with
      | some r => acceptRecord (countEcc (atTime s now) read.ecc) read.slice.toNat read.ecc r
      | none => atTime s now)
    split
    · exact acceptRecord_kept _ _ _ _ (countEcc_kept _ _ (ht now))
    · exact ht now
  | penAgeLimit _ now => exact ageSlice_kept _ _ (ht now)
  | penRequest _ _ now => exact penRequest_kept _ _ _ _ (ht now)
  | settleUpdate => exact settleUpdate_kept _ hr
  | runningBestMax => exact runningBest_kept _ hr
  | candidateAppend => exact appendCandidate_kept _ hr
  | queryPlacement _ => exact queryPlacement_kept _ _ hr
  | herdLaunch _ _ now => exact herdLaunch_kept _ _ _ (ht now)
  | flockLaunch _ _ now => exact flockLaunch_kept _ _ _ (ht now)
  | br _ _ | brnone _ _ | ifMask _ _ | elseMask _ _ | endifMask _ _ | barH _ _ | barF _ _ | endGroup _ _ | wait _ _ | kernelFence _ _
  | stL _ _ | ldF _ _ | stF _ _ | ldG _ _ | stG _ _ | atG _ _ | atfG _ _ | scalarAlu _ _ => exact issueIf_kept _ _ _ _ _ _ hr
  | ldL _ _ ecc => exact issueIf_kept _ _ _ _ _ _ (hc ecc)
  | fetch _ upsets =>
    exact issueIf_kept _ _ _ _ _ _ (.set id (fun h => by rw [strikeLines_bytes]; exact h) id id id id hr)
  | vectorAlu _ _ upset => exact ite_kept (poisonedBundle_kept _ _ _ hr) (issueIf_kept _ _ _ _ _ _ (hc _))
  | boundTest _ _ | mma _ _ | primitiveTest _ _ => exact stockStep_kept _ _ _ _ _ (fun _ h => issueIf_kept _ _ _ _ _ _ h) hr
  | tagComplete _ _ _ => exact completeTag_kept _ _ _ _ hr
  | timeBound _ _ _ => exact timeBound_kept _ _ _ _ hr
  -- memory ports, raster path, awl
  | portReadGrant _ => exact portReadGrant_kept _ _ hr
  | portWriteGrant _ => exact portWriteGrant_kept _ _ hr
  | mergeWindowExpire _ => exact .set id id (fun h => by rw [modAt_length]; exact h) id id id hr
  | eppResponse _ _ now => exact ite_kept (ht now) (eppResponse_kept _ _ _ _ (ht now))
  | awlWindow => exact awlWindow_kept _ hr
  | sweepStart now => exact sweepStart_kept _ (ht now)
  | sampleComplete => exact sampleComplete_kept _ hr
  | primitiveBin _ => exact primitiveBin_kept _ _ hr
  | tileStart _ _ => exact tileStart_kept _ _ _ hr
  -- the test wrapper
  | wsBypass | wsExtest | wsPreload | wsIntestScan | wsClamp | mldIdcode | mldIjtag => exact loadWir_mem _ _ hm
  | wrapperReset => exact wrapperReset_mem _ hm
  | wrapperShift phase _ =>
    change MemKept s (ite _ _ _)
    split
    · exact hm
    · cases phase with
      | capture => exact captureWr_mem _ hm
      | shift => exact shiftWr_mem _ _ hm
      | update => exact updateWr_mem _ hm
  | bistStart _ => exact bistStart_mem _ _ hm
  | bistDone _ _ _ _ _ _ => exact bistDone_mem _ _ _ hm

/-- Every command keeps the memories canonical and the shape. -/
theorem exec_memKept {c : Instr} {s t : State} (h : exec c s = .next t) : MemKept s t := by
  have hk := (exec_keeps c s).of_next h
  rw [keptBy] at hk
  split at hk
  · exact hk
  · split at hk
    · exact hk.toMemKept
    · exact hk.toMemKept

/-- What is kept of a canonical state is canonical. -/
theorem MemKept.canonical {s t : State} (h : MemKept s t) (hs : s.canonical) : t.canonical := by
  obtain ⟨hchip, hstore, hports, hlinks, hflocks, hslices⟩ := hs
  exact ⟨h.chip hchip, h.store hstore, h.ports hports, h.links hlinks, h.flocks hflocks, h.slices hslices⟩

/-- Settles O5: an idle tick and every command keep the memories and the lengths; the queue is no part of them. -/
theorem stepKeepsCanonicalForm : Obligations.StepKeepsCanonicalForm := by
  intro s t hs h
  unfold step at h
  split at h
  · cases h
    exact (idleTick_kept s (.refl s)).toMemKept.canonical hs
  · exact (exec_memKept h).canonical hs

/-- Settles O6: a command that is not at the edge keeps EdgeKept's fields, and Kept's where the host does not make it. -/
theorem engineCommandsKeepBoundary : Obligations.EngineCommandsKeepBoundary := by
  intro c s t hc h
  have hk := (exec_keeps c s).of_next h
  rw [keptBy, if_neg (by simp [hc])] at hk
  have he : EdgeKept s t := by
    split at hk
    · exact hk
    · exact hk.toEdgeKept
  refine ⟨⟨he.pending, he.pins, he.straps, he.thr, he.drover, he.wrapper⟩, fun ha => ?_⟩
  rw [if_neg (by simp [ha])] at hk
  exact hk.answer

end Sys2Proof.Machine
end

section
/-! The step and the state after reset (O1 to O4). -/
namespace Sys2Proof.Machine

/-- Settles O1: step takes the queue apart and runs its front. -/
theorem frontCommandRuns : Obligations.FrontCommandRuns := by
  intro s c rest h
  simp only [step, h]

/-- Settles O2: with an empty queue step is the idle tick. -/
theorem emptyQueueTicks : Obligations.EmptyQueueTicks := by
  intro s h
  simp only [step, h, idleTick]

/-- Settles O3: the reset state written out; of the links both sides are read. -/
theorem resetValues : Obligations.ResetValues := by
  refine ⟨rfl, rfl, rfl, rfl, rfl, rfl, rfl, rfl, rfl, rfl, rfl, rfl, rfl, rfl, rfl, rfl, rfl, rfl, rfl, rfl, rfl, rfl, rfl, rfl, rfl,
    rfl, rfl, rfl, rfl, rfl, rfl, rfl, rfl, rfl, rfl, rfl, rfl, rfl, rfl, rfl, rfl, rfl, fun l => ?_⟩
  cases l <;> rfl

/-- Settles O4: at reset both memories list nothing, and the fixed lists have their lengths. -/
theorem resetIsCanonical : Obligations.ResetIsCanonical :=
  ⟨rfl, rfl, rfl, rfl, rfl, rfl⟩

end Sys2Proof.Machine
end

section
/-! Reset, power, park and the supply warning (O8 to O12). -/
namespace Sys2Proof.Machine

theorem running_iff {s : State} :
    running s = true ↔ s.pins.powered = true ∧ s.pins.rstN = true ∧ (strapsNow s).present = true := by
  simp [running, and_assoc]

/-- An engine in reset does not run. -/
theorem running_of_inReset {s : State} (h : s.pins.rstN = false) : running s = false := by
  simp [running, h]

/-- Settles O8: both rails' events leave the engine without state, and set the power pin. -/
theorem powerUpAndDown : Obligations.PowerUpAndDown := by
  intro s hr
  refine ⟨fun hp hi => ?_, fun hp => ?_⟩
  · simp [exec, execPowerUp, powerUp, unpowered, resetState, hr, hp, hi, State.reset, Bringup.reset]
  · simp [exec, execPowerDown, powerDown, running_of_inReset hr, unpowered, resetState, hp, State.reset, Bringup.reset]

/-- With no request in flight a reset catches none. -/
theorem catchFlights_idle {s : State} (h : ∀ p ∈ s.ports, p.outRd = [] ∧ p.outWr = []) : catchFlights s = s := by
  have hnone : (s.ports.flatMap fun p => p.outRd ++ p.outWr) = [] := by
    simp only [List.flatMap_eq_nil_iff, List.append_eq_nil_iff]
    exact h
  simp only [catchFlights, hnone, List.foldl_nil]

/-- Settles O9: mld_rst_n falls on an engine without requests in flight, which resetState alone then changes; it rises on one whose wrapper
holds no barred instruction and whose log is kept. -/
theorem resetAssertAndRelease : Obligations.ResetAssertAndRelease := by
  intro s hp hw
  refine ⟨fun hr hpres hidle => ?_, fun hr hpres hcold howed hlog => ?_⟩
  · have hrun : running s = true := running_iff.2 ⟨hp, hr, hpres⟩
    simp [exec, execResetAssert, resetAssert, hr, hrun, catchFlights_idle hidle, resetState, testEffect, hw, wirBarred, State.reset]
  · simp [exec, execResetRelease, resetRelease, hr, hp, hw, wrapperOnRelease, wirBarred, running, strapsNow, hpres, hcold, howed, hlog,
      resetState, bootLog, State.reset, Bringup.reset]

/-- Settles O10, cause by cause: whether the cause that arises or ends leaves a park condition. -/
theorem parkValues : Obligations.ParkValues := by
  intro s
  refine ⟨fun hs => ?_, fun hs hp hi hr => ?_, ?_, fun hr => ?_, fun hk hr hi hp => ?_, fun hk hr hi hu hp => ?_, fun req hk hm => ?_⟩
  · simp [exec, execParkEnter, parkEnter, parkHolds, pinsPark, strapsNow, hs]
  · simp [exec, execParkEnter, parkEnter, parkHolds, pinsPark, strapsNow, hs, hp, hi, hr]
  · simp [exec, execParkEnter, parkEnter, parkHolds, pinsPark]
  · simp [exec, execParkEnter, parkEnter, parkHolds, pinsPark, hr]
  · simp [exec, execParkExit, parkExit, parkHolds, pinsUnpark, hk, hr, hi, hp]
  · simp [exec, execParkExit, parkExit, parkHolds, pinsUnpark, hk, hr, hu]
    exact hp
  · simp [exec, execParkResponse, hk, hm, addrErr]

/-- Settles O11: of the guards of each event the one left is the engine's running, which no pin of the warning changes. -/
theorem supplyWarningThrottle : Obligations.SupplyWarningThrottle := by
  intro s now hrun
  obtain ⟨hp, hr, hs⟩ := running_iff.1 hrun
  refine ⟨fun hw hrel => ?_, fun hw hd => ?_, fun hd ht => ?_⟩
  · have hrun' : running { s with time := now, pins := { s.pins with pwrWarnN := false } } = true := running_iff.2 ⟨hp, hr, hs⟩
    simp [exec, execSupplyWarningFall, warningFall, atTime, hw, hrun', hrel, startDip, count]
  · have hrun' : running { s with time := now, pins := { s.pins with pwrWarnN := true } } = true := running_iff.2 ⟨hp, hr, hs⟩
    simp [exec, execSupplyWarningRise, warningRise, atTime, hw, hrun', hd, evThrottle]
  · have hrun' : running { s with time := now } = true := hrun
    simp [exec, execThrottleRecoveryEnd, recoveryEnd, atTime, hrun', hd, ht, -BitVec.toNat_sub]

/-- A core whose run is within its bounds is stopped; what core 0 ran is counted. -/
theorem dutyStop_stops {s : State} {core ran : Nat} (hrun : running s = true) (hd : s.thr.duty ≠ 0) (hc : (coreOf s core).clockOn = true)
    (hlo : 16 ≤ ran) (hhi : ran ≤ 19) :
    let t := modCore s core fun k => { k with clockOn := false, ranFor := ran }
    dutyStop s core ran = if core = 0 then
      { count t 53 ran with thr := if s.thr.duty = 1 then { s.thr with ran0 := s.thr.ran0 + ran } else s.thr } else t := by
  change s.thr.duty ≠ 0#2 at hd
  by_cases h0 : core = 0
  · subst h0
    by_cases h1 : s.thr.duty = 1#2
    · simp [dutyStop, hrun, hc, Nat.not_lt.2 hlo, Nat.not_lt.2 hhi, h1]
    · simp [dutyStop, hrun, hd, hc, Nat.not_lt.2 hlo, Nat.not_lt.2 hhi, h1]
      rfl
  · simp [dutyStop, hrun, hd, hc, Nat.not_lt.2 hlo, Nat.not_lt.2 hhi, h0]

/-- Settles O12: a stop within the run's bounds, a start at three times the run, the governor's two edges. -/
theorem dutyAndGovernor : Obligations.DutyAndGovernor := by
  intro s core ran hrun
  refine ⟨fun hd hc hlo hhi => ⟨fun h0 => ?_, fun h0 => ?_⟩, fun n hc hn => ?_, fun hg => ?_, fun hg => ?_⟩
  · have hne : core.toNat ≠ 0 := fun h => h0 (BitVec.eq_of_toNat_eq h)
    simp only [exec, execDutyStop, dutyStop_stops hrun hd hc hlo hhi, if_neg hne]
  · have hz : core.toNat = 0 := by rw [h0]; rfl
    simp only [exec, execDutyStop, dutyStop_stops hrun hd hc hlo hhi, if_pos hz]
    rfl
  · simp [exec, execDutyRun, dutyRun, hc, hn]
  · simp [exec, execGovernorLimiting, governor, hrun, hg]
  · simp [exec, execGovernorLimiting, governor, hrun, hg, fresh, count]

end Sys2Proof.Machine
end

section
/-! The test wrapper (O13, O14). -/
namespace Sys2Proof.Machine

theorem wrapperUp_iff {s : State} : wrapperUp s = true ↔ s.pins.powered = true ∧ (strapsNow s).present = true := by
  simp [wrapperUp]

theorem wirBarred_eq : ∀ w : BitVec 4, wirBarred w = decide (w ∈ [(1 : BitVec 4), 2, 3, 4]) := by decide

/-- The two instructions that drive the outputs are barred ones. -/
theorem wirBarred_of_wirDrives : ∀ w : BitVec 4, (wirBarred w && wirDrives w) = (w == 1 || w == 4) := by decide

theorem testEffect_wrapper (s : State) : (testEffect s).wrapper =
    { s.wrapper with driving := wirBarred s.wrapper.wir && !s.pins.rstN && s.pins.powered && wirDrives s.wrapper.wir } := rfl

/-- The WIR of a working wrapper takes an instruction. -/
theorem loadWir_up {s : State} (hp : s.pins.powered = true) (hs : (strapsNow s).present = true) (w : BitVec 4) :
    loadWir s w = { s with
      wrapper := { s.wrapper with wir := w, driving := !s.pins.rstN && (w == 1 || w == 4) },
      bring := { s.bring with scanOwed := s.bring.scanOwed || (!s.pins.rstN && w ∈ [1, 2, 3, 4]) } } := by
  have ho : (wirBarred w && !s.pins.rstN && s.pins.powered) = (!s.pins.rstN && decide (w ∈ [(1 : BitVec 4), 2, 3, 4])) := by
    rw [hp, Bool.and_true, wirBarred_eq, Bool.and_comm]
  have hd : (!s.pins.rstN && decide (w ∈ [(1 : BitVec 4), 2, 3, 4]) && wirDrives w) = (!s.pins.rstN && (w == 1 || w == 4)) := by
    rw [Bool.and_assoc, ← wirBarred_eq, wirBarred_of_wirDrives]
  rw [loadWir, if_pos (wrapperUp_iff.2 ⟨hp, hs⟩)]
  simp only [testEffect, ho, hd]

theorem bootLog_wrapper (s : State) (zeroed cold : Bool) : (bootLog s zeroed cold).wrapper = s.wrapper :=
  (bootLog_kept s zeroed cold (.refl s)).wrapper

/-- mld_rst_n rises: the wrapper changes as wrapperOnRelease says, whatever else follows. -/
theorem resetRelease_wrapper {s : State} (h : s.pins.rstN = false) : (resetRelease s).wrapper = wrapperOnRelease s.wrapper := by
  simp only [resetRelease, h, Bool.false_eq_true, if_false]
  split
  · split
    · rfl
    · rw [bootLog_wrapper]
      rfl
  · split
    · rfl
    · rw [bootLog_wrapper]
      rfl

/-- mld_rst_n falls: of the wrapper only what it drives changes. -/
theorem resetAssert_wrapper (s : State) :
    ∃ d, (resetAssert s).wrapper = { s.wrapper with driving := d } := by
  unfold resetAssert
  split
  · exact ⟨_, rfl⟩
  · have hw : (if running s then resetState (catchFlights s) else s).wrapper = s.wrapper := by
      split
      · exact (catchFlights_kept s (.refl s)).wrapper
      · rfl
    rw [← hw]
    exact ⟨_, rfl⟩

/-- Out of reset a barred instruction acts as WS_BYPASS. -/
theorem wirNow_barred {s : State} (hr : s.pins.rstN = true) (hb : s.wrapper.wir ∈ [(1 : BitVec 4), 2, 3, 4]) : wirNow s = 0 := by
  rw [wirNow, if_pos (by rw [wirBarred_eq, hr, decide_eq_true hb]; rfl)]

/-- Settles O13: loading, by `loadWir_up`; what the two edges of mld_rst_n leave of the wrapper; mld_wrstn. -/
theorem wrapperInstructions : Obligations.WrapperInstructions := by
  intro s hp hs
  refine ⟨fun c w hc => ?_, fun hr => ⟨_, rfl, ?_⟩, wirNow_barred, fun t ht => ?_, ?_⟩
  · have hload : exec c s = .next (loadWir s w) := by
      simp only [List.mem_cons, List.not_mem_nil, or_false, Prod.mk.injEq] at hc
      obtain ⟨rfl, rfl⟩ | ⟨rfl, rfl⟩ | ⟨rfl, rfl⟩ | ⟨rfl, rfl⟩ | ⟨rfl, rfl⟩ | ⟨rfl, rfl⟩ | ⟨rfl, rfl⟩ := hc
      all_goals rfl
    rw [hload, loadWir_up hp hs]
  · rw [resetRelease_wrapper hr, wrapperOnRelease, wirBarred_eq]
    simp only [decide_eq_true_eq]
  · obtain ⟨d, hd⟩ := resetAssert_wrapper s
    cases ht
    rw [hd]
    exact ⟨rfl, rfl, rfl, rfl⟩
  · have hwir : Wrapper.reset.wir = 0 := rfl
    simp [exec, execWrapperReset, wrapperReset, wrapperUp_iff.2 ⟨hp, hs⟩, testEffect, hwir, wirBarred]
    rfl

/-- A pulse of mld_wrck reaches a working wrapper. -/
theorem execWrapperShift_up {s : State} (h : wrapperUp s = true) (phase : WrapperPhase) (wsi : Bool) :
    exec (.wrapperShift phase wsi) s =
      .next (match phase with | .capture => captureWr s | .shift => shiftWr s wsi | .update => updateWr s) := by
  cases phase <;> simp only [exec, execWrapperShift, h, Bool.not_true, Bool.false_eq_true, if_false]

/-- Settles O14, instruction by instruction: the one in effect picks the branch of each of the three phases. -/
theorem wrapperRegistersAndBist : Obligations.WrapperRegistersAndBist := by
  intro s hp hs
  have hup : wrapperUp s = true := wrapperUp_iff.2 ⟨hp, hs⟩
  refine ⟨fun hw wsi => ?_, fun hw wsi => ?_, fun hw wsi => ?_, fun hw wsi => ?_, fun sib hlo hhi hw ho => ?_,
    fun sib n bank line bit mask hrun => ?_⟩
  · simp only [execWrapperShift_up hup, captureWr, shiftWr, updateWr, hw, and_self]
  · simp only [execWrapperShift_up hup, captureWr, shiftWr, hw, idBits, shiftReg, and_self]
  · obtain hw | hw := hw
    · simp only [execWrapperShift_up hup, updateWr, shiftWr, hw, shiftReg, and_self]
    · simp only [execWrapperShift_up hup, updateWr, shiftWr, hw, shiftReg, and_self]
  · simp only [execWrapperShift_up hup, updateWr, shiftWr, hw, shiftReg, and_self]
  · have hopen : bistOpen s sib.toNat = true := by
      simp only [bistOpen, hup, hw, hlo, hhi, ho]
      rfl
    simp only [exec, execBistStart, bistStart, hopen, Bool.not_true, Bool.false_eq_true, if_false]
    split <;> rfl
  · simp only [exec, execBistDone, bistDone, hup, hrun, Bool.and_self, if_true]

end Sys2Proof.Machine
end

section
/-! The training of a link and its clock (O15). -/
namespace Sys2Proof.Machine

/-- Settles O15: each event changes fields of one link, which is not up, so that dropping it loses nothing. -/
theorem linkTraining : Obligations.LinkTraining := by
  intro s l now hrun hlen
  have hix := linkIx_lt hlen l
  refine ⟨fun k => ⟨rfl, rfl, rfl⟩, fun ht => ?rise, fun ht hst => ?fall, fun hc hst => ?stop, fun hc => ?start, fun hst hlate => ?timeout⟩
  case rise =>
    have hrise : trainedRise (atTime s now) l = modLink (atTime s now) l fun k =>
        if ringPort s && (linkOf s l).clockOn && !(linkOf s l).neighbourAbsent then bringLink now k else { k with trained := true } := by
      have hrun' : running (atTime s now) = true := hrun
      have ht' : (linkOf (atTime s now) l).trained = false := ht
      have hmay : mayBring (atTime s now) (linkOf (atTime s now) l) =
        (ringPort s && (linkOf s l).clockOn && !(linkOf s l).neighbourAbsent) := rfl
      simp only [trainedRise, hrun', ht', hmay, Bool.not_true, Bool.or_self, Bool.false_eq_true, if_false]
      split <;> rfl
    exact congrArg Host.Outcome.next hrise
  case fall =>
    have hfall : trainedFall s l = modLink s l fun k =>
        { downLink (if s.bring.released && (linkOf s l).clockOn then 1 else 0) { k with trained := false } with retrain := false } := by
      simp only [trainedFall, hrun, ht, Bool.not_true, Bool.or_self, Bool.false_eq_true, if_false]
      rw [dropLink_modLink_low hix hst, linkOf_modLink s l _ hix]
      rfl
    exact congrArg Host.Outcome.next hfall
  case stop =>
    have hstop : ringClockStop s l = modLink s l fun k => { downLink 0 { k with clockOn := false } with retrain := false } := by
      have hrun' : running (modLink s l fun k => { k with clockOn := false }) = true := hrun
      simp only [ringClockStop, hc, hrun', Bool.not_true, Bool.false_eq_true, if_false, if_true]
      exact dropLink_modLink_low hix hst ..
    exact congrArg Host.Outcome.next hstop
  case start =>
    have hstart : ringClockStart s l = modLink s l fun k =>
        if ringPort s && !(linkOf s l).neighbourAbsent && (linkOf s l).trained then bringLink s.time k
        else { k with clockOn := true, status := if s.bring.released then 1 else 0 } := by
      let u := modLink s l fun k => { k with clockOn := true }
      have hrun' : running u = true := hrun
      have hu : linkOf u l = { linkOf s l with clockOn := true } := linkOf_modLink s l _ hix
      have hmay : (mayBring u (linkOf u l) && (linkOf u l).trained) =
          (ringPort s && !(linkOf s l).neighbourAbsent && (linkOf s l).trained) := by
        have hport : ringPort u = ringPort s := rfl
        simp only [mayBring, hu, hport, Bool.and_true]
      have hopen : ringClockStart s l = if mayBring u (linkOf u l) && (linkOf u l).trained then modLink u l (bringLink s.time)
          else modLink u l fun k => { k with status := restStatus s k } := by
        rw [ringClockStart, if_neg (by simp [hc])]
        exact if_neg (show ¬ (!running u) = true by simp [hrun'])
      rw [hopen, hmay]
      split
      · exact modLink_modLink ..
      · refine (modLink_modLink ..).trans (modLink_congr _ _ _ _ ?_)
        simp [restStatus]
    exact congrArg Host.Outcome.next hstart
  case timeout =>
    have hrun' : running (atTime s now) = true := hrun
    have hst' : (linkOf (atTime s now) l).status = 2 := hst
    have hlate' : ¬ ((atTime s now).time - (linkOf (atTime s now) l).upSince).toNat ≤ 100000 := Nat.not_le.2 hlate
    have htimeout : bringupTimeout (atTime s now) l =
        count (modLink (atTime s now) l fun k => { bringLink now k with retrain := true }) (linkCounter l 4) :=
      if_neg (by rw [hrun', hst', decide_eq_false hlate']; decide)
    exact congrArg Host.Outcome.next htimeout

end Sys2Proof.Machine
end

section
/-! Writes to the setup space (O31 to O33): which write reaches a register, then what the register does with it. -/
namespace Sys2Proof.Machine

@[simp] theorem hostAnswer_host {s : State} (h : reaches s .host = true) : hostAnswer s .host = okWrite s := by
  simp [hostAnswer, h]

/-- Keeper and Drover write without the completer. -/
theorem hostAnswer_other (s : State) {who : Requester} (h : who ≠ .host) : hostAnswer s who = s := by
  cases who with
  | host => exact absurd rfl h
  | keeper => rfl
  | drover => rfl

theorem hostAnswer_regs (s : State) (who : Requester) : (hostAnswer s who).regs = s.regs := by
  unfold hostAnswer
  split <;> rfl

theorem hostAnswer_bring (s : State) (who : Requester) : (hostAnswer s who).bring = s.bring := by
  unfold hostAnswer
  split <;> rfl

theorem reaches_hostAnswer (s : State) (by_ who : Requester) : reaches (hostAnswer s by_) who = reaches s who := by
  unfold hostAnswer
  split <;> rfl

section
variable {s : State} {who : Requester} {off : BitVec 20} (hr : reaches s who = true)
include hr

/-- A 4-byte write at an aligned offset, to no half of a 64-bit register. -/
theorem exec_registerWrite_word (ha : off.toNat % 4 = 0) (hl : inLong off.toNat = false) (v : U64) :
    exec (.registerWrite who off false v) s = .next (writeWord (hostAnswer s who) who off.toNat (v.setWidth 32)) := by
  simp [exec, execRegisterWrite, registerWrite, reaches_hostAnswer, hr, ha, hl]

/-- An 8-byte write to a 64-bit register. -/
theorem exec_registerWrite_long (ha : off.toNat % 8 = 0) (hl : isLong off.toNat = true) (v : U64) :
    exec (.registerWrite who off true v) s = .next (writeLong (hostAnswer s who) who off.toNat v) := by
  have ha4 : off.toNat % 4 = 0 := by omega
  simp [exec, execRegisterWrite, registerWrite, reaches_hostAnswer, hr, ha4, ha, hl]

end

/-! ## The bounds of delta -/

/-- Nothing above the upper end is in range. -/
theorem inRange_above {lo hi v : U32} (h : flt hi v = true) : inRange lo hi v = false := by
  simp [inRange, h]

/-- Nothing below the lower end is in range. -/
theorem inRange_below {lo hi v : U32} (h : flt v lo = true) : inRange lo hi v = false := by
  simp [inRange, h]

section
variable {s : State} {who : Requester} (hr : reaches s who = true) (hw : who ≠ .host)
include hr hw

/-- MLD_AWL_DMIN takes a value between 0 and delta_max. -/
theorem exec_write_dMin (v : U32) : exec (.registerWrite who 0x4518 false (v.setWidth 64)) s =
    .next { s with regs := { s.regs with awlDMin := keepIf (inRange 0 s.regs.awlDMax v) s.regs.awlDMin v } } := by
  rw [exec_registerWrite_word hr rfl rfl, hostAnswer_other s hw, BitVec.setWidth_setWidth_of_le _ (by decide), BitVec.setWidth_eq]
  simp [writeWord, mayWrite, hw, writeParams]

/-- MLD_AWL_DMAX takes a value between delta_min and 2^20. -/
theorem exec_write_dMax (v : U32) : exec (.registerWrite who 0x451C false (v.setWidth 64)) s =
    .next { s with regs := { s.regs with awlDMax := keepIf (inRange s.regs.awlDMin 0x49800000 v) s.regs.awlDMax v } } := by
  rw [exec_registerWrite_word hr rfl rfl, hostAnswer_other s hw, BitVec.setWidth_setWidth_of_le _ (by decide), BitVec.setWidth_eq]
  simp [writeWord, mayWrite, hw, writeParams]

end

/-- Settles O31: each bound is checked against the other as it stands at its own write, so the order decides. -/
theorem awlDeltaBounds : Obligations.AwlDeltaBounds := by
  intro s who lo hi hr hw
  refine ⟨fun hlo => ?_, fun hhi => ?_, fun hlo hhi t ht => ?_, fun hlo hhi t ht => ?_⟩
  · rw [exec_write_dMin hr hw, inRange_above hlo]
    rfl
  · rw [exec_write_dMax hr hw, inRange_below hhi]
    rfl
  · rw [exec_write_dMax hr hw, hhi] at ht
    cases ht
    rw [exec_write_dMin (by exact hr) hw]
    simp only [keepIf, hlo, if_true]
  · rw [exec_write_dMin hr hw, hlo] at ht
    cases ht
    rw [exec_write_dMax (by exact hr) hw]
    simp only [keepIf, hhi, if_true]

/-! ## The page of the log -/

theorem writeWord_logPage (s : State) (who : Requester) (v : U32) :
    writeWord s who 0x8004 v = { s with regs := setLogPage s.regs who v } := by
  simp [writeWord, mayWrite]

/-- Settles O32: the write sets the writer's copy, and the window reads by the reader's. -/
theorem logPagePerRequester : Obligations.LogPagePerRequester := by
  intro s v
  refine ⟨fun hr => ?_, fun hr => ?_, fun hr => ?_, fun who off hlo hhi => ?_⟩
  · rw [exec_registerWrite_word hr rfl rfl, hostAnswer_host hr]
    exact congrArg Host.Outcome.next (writeWord_logPage ..)
  · rw [exec_registerWrite_word hr rfl rfl]
    exact congrArg Host.Outcome.next (writeWord_logPage ..)
  · rw [exec_registerWrite_word hr rfl rfl]
    exact congrArg Host.Outcome.next (writeWord_logPage ..)
  · have hread : readSetup s who off = readLog s who off := by
      simp (disch := omega) only [readSetup, if_neg, if_pos, Bool.or_eq_true, Bool.and_eq_true, decide_eq_true_eq]
    have hwindow : readLog s who off =
        field (logEntryBytes s.log (256 * logPage s.regs who + (off - 0xC000) / 64)) (off % 64) 4 := by
      simp (disch := omega) only [readLog, if_neg, if_pos, Bool.or_eq_true, Bool.and_eq_true, decide_eq_true_eq]
    rw [hread, hwindow]
    rfl

/-! ## The other registers -/

theorem ranged_eq {w : Nat} (old : BitVec w) (lo hi v : Nat) :
    ranged old lo hi v = if lo ≤ v ∧ v ≤ hi then BitVec.ofNat w v else old := by
  simp [ranged]

/-- Settles O33, register by register: who may write it, and the range or alignment it keeps. -/
theorem otherRegisterWrites : Obligations.OtherRegisterWrites := by
  intro s who v now
  refine ⟨fun hr hw => ?_, fun hr => ⟨?_, ?_, fun n hn => ?_⟩, fun hr hw => ?_, fun hr hw => ?_, ?_⟩
  · rw [exec_registerWrite_word hr rfl rfl, hostAnswer_other s hw]
    simp [writeWord, mayWrite, hw, ranged_eq]
  · rw [exec_registerWrite_word hr rfl rfl, hostAnswer_other s (by decide)]
    simp [writeWord, mayWrite, ranged_eq]
  · rw [exec_registerWrite_long hr rfl rfl, hostAnswer_other s (by decide)]
    simp [writeLong, mayWrite]
  · have hoff : (BitVec.ofNat 20 (0x2100 + 16 * n)).toNat = 0x2100 + 16 * n := by
      rw [BitVec.toNat_ofNat]
      omega
    have hlong : isLong (0x2100 + 16 * n) = true := by
      have h16 : (0x2100 + 16 * n) % 16 = 0 := by omega
      have hend : 0x2100 + 16 * n < 0x2500 := by omega
      simp [isLong, h16, hend]
    have hkeeper : mayWrite s .keeper (0x2100 + 16 * n) = true := by
      simp (disch := omega) [mayWrite, if_neg, if_pos]
    have hentry : (0x2100 + 16 * n - 0x2100) / 16 = n := by omega
    rw [exec_registerWrite_long hr (by rw [hoff]; omega) (by rw [hoff]; exact hlong), hostAnswer_other s (by decide), hoff]
    simp only [writeLong, hkeeper, hentry, Bool.not_true, Bool.false_eq_true, if_false]
    rw [if_neg (by omega), if_pos (by omega)]
  · rw [exec_registerWrite_word hr rfl rfl]
    simp [writeWord, mayWrite, hw, hostAnswer_bring]
  · have hr' : reaches (atTime s now) who = true := hr
    simp [exec, execSnap, hostAnswer_other _ hw, hr', mayWrite, hw]
    rfl
  · simp [exec, execSnap, mayWrite]
    rfl

end Sys2Proof.Machine
end

section
/-! The commit of a context entry (O34). -/
namespace Sys2Proof.Machine

section
variable {u : State} {c : Nat}

/-- A commit that a check of R434 refuses. -/
theorem commitEntry_refused {r : BitVec 3} (h : commitRefusal (cpRead u 0 3 (u.regs.ctxBase.toNat + 256 * c) 256) c (readEntry u c) = some r) :
    commitEntry u c = refuseCommit (cpRead u 0 3 (u.regs.ctxBase.toNat + 256 * c) 256) c r := by
  simp only [commitEntry, h]

variable (h : commitRefusal (cpRead u 0 3 (u.regs.ctxBase.toNat + 256 * c) 256) c (readEntry u c) = none)
include h

/-- Whether a change of the entry in force waits for the passes of its context (R435). -/
def commitWaits (t : State) (c : Nat) (y : Ctx) : Prop :=
  (passesOf t c).isEmpty = false ∧ ∃ x, ctxOf t c = some x ∧ onlyAdds t c x y = false

theorem commitEntry_taken (hw : ¬ commitWaits (cpRead u 0 3 (u.regs.ctxBase.toNat + 256 * c) 256) c (parseCtx (readEntry u c).bytes)) :
    commitEntry u c = applyEntry (commitStatus (cpRead u 0 3 (u.regs.ctxBase.toNat + 256 * c) 256) c false 0) c
      (parseCtx (readEntry u c).bytes) := by
  simp only [commitEntry, h]
  refine if_pos ?_
  cases hp : (passesOf (cpRead u 0 3 (u.regs.ctxBase.toNat + 256 * c) 256) c).isEmpty with
  | true => rfl
  | false =>
    cases hx : ctxOf (cpRead u 0 3 (u.regs.ctxBase.toNat + 256 * c) 256) c with
    | none => rfl
    | some x => exact Bool.of_not_eq_false fun hadds => hw ⟨hp, x, hx, hadds⟩

theorem commitEntry_waits (hw : commitWaits (cpRead u 0 3 (u.regs.ctxBase.toNat + 256 * c) 256) c (parseCtx (readEntry u c).bytes)) :
    commitEntry u c = modCtx (commitStatus (cpRead u 0 3 (u.regs.ctxBase.toNat + 256 * c) 256) c true 5) c
      fun x => { x with commitWaits := true } := by
  obtain ⟨hp, x, hx, hadds⟩ := hw
  simp only [commitEntry, h, hp, hx, hadds, Bool.or_self, Bool.false_eq_true, if_false]

end

/-- Settles O34: the two commands reach `commitEntry`, whose three cases are above. -/
theorem commitDecides : Obligations.CommitDecides := by
  intro s c w
  refine ⟨fun hrun hbusy => ?_, fun hbusy => ?_, fun hbusy hpass => ?_, fun hidle => ?_⟩
  · have hexec : exec (.ctxCommit c w) s = .next (commitEntry
        { agentsWrite s w with regs := { (agentsWrite s w).regs with commitCtx := c } } c.toNat) := by
      simp [exec, execCtxCommit, commitWrite, hrun, hbusy]
    rw [hexec]
    exact ⟨fun r hr => congrArg Host.Outcome.next (commitEntry_refused hr),
      fun hnone hw => congrArg Host.Outcome.next (commitEntry_taken hnone hw),
      fun hnone hw => congrArg Host.Outcome.next (commitEntry_waits hnone hw)⟩
  · simp [exec, execCtxCommit, commitWrite, hbusy]
  · have hexec : exec .ctxCommitDeferred s = .next (commitEntry s s.regs.commitLast.toNat) := by
      simp [exec, execCtxCommitDeferred, commitLater, hbusy, hpass]
    rw [hexec]
    exact ⟨fun r hr => congrArg Host.Outcome.next (commitEntry_refused hr),
      fun hnone hw => congrArg Host.Outcome.next (commitEntry_taken hnone hw),
      fun hnone hw => congrArg Host.Outcome.next (commitEntry_waits hnone hw)⟩
  · obtain hbusy | hpass := hidle
    · simp [exec, execCtxCommitDeferred, commitLater, hbusy]
    · simp [exec, execCtxCommitDeferred, commitLater, hpass]

end Sys2Proof.Machine
end

section
/-! Doorbells (O42, O43). A doorbell is noted in its ring's word before anything looks at the ring. A word that is not zero lists the ring
in its table; a zero may leave the ring as an idle one, which a table does not list, and in a table with two entries for one ring that
uncovers the second. -/
namespace Sys2Proof.Machine

/-- A word that is not zero is read back with the ring, whatever the table. -/
theorem ringOf_rung {v : U32} (hv : v ≠ 0) (s : State) (c r : Nat) :
    ringOf (s.rung c r v) (ringKey c r) = { ringOf s (ringKey c r) with doorbell := v } := by
  have hne : ({ ringOf s (ringKey c r) with doorbell := v } : Ring) ≠ .idle := fun h => hv (congrArg Ring.doorbell h)
  have hput : (s.rung c r v).rings = smPut s.rings (ringKey c r) { ringOf s (ringKey c r) with doorbell := v } := if_neg hne
  rw [ringOf, hput, smGet_put, if_pos rfl]

theorem ctxOf_rung (s : State) (c r n : Nat) (v : U32) : ctxOf (s.rung c r v) n = ctxOf s n := rfl

/-- A doorbell that R446 accepts: noted, then counted against a halted context where its ring is a submission ring, else processed. -/
theorem doorbell_open {s : State} {c r : Nat} {asid : BitVec 20} (hup : engineUp s = true) (hrel : s.bring.released = true)
    (ha : asidMatches s c asid = true) (v : U32) (body : State → State) :
    doorbell s c r asid v body =
      if (match ctxOf (s.rung c r v) c with | some x => x.halted | none => false) &&
          (ringOf (s.rung c r v) (ringKey c r)).active && (ringOf (s.rung c r v) (ringKey c r)).kind = 0
      then countCtx (s.rung c r v) c 2 else body (s.rung c r v) := by
  simp only [doorbell, hup, hrel, ha, Bool.not_true, Bool.or_self, Bool.false_eq_true, if_false]
  rfl

/-- A doorbell with a word that is not zero, of a context that may ring it, is processed. -/
theorem doorbell_processed {s : State} {c r : Nat} {asid : BitVec 20} {v : U32} (hv : v ≠ 0) (h : s.rings446 c r asid)
    (body : State → State) : doorbell s c r asid v body = body (s.rung c r v) := by
  obtain ⟨hup, hrel, ha, hsub⟩ := h
  rw [doorbell_open hup hrel ha, if_neg]
  rw [ctxOf_rung, ringOf_rung hv]
  cases hx : ctxOf s c with
  | none => simp
  | some x =>
    simp only [Bool.and_eq_true, decide_eq_true_eq, not_and, and_imp]
    exact hsub x hx

/-! ## A ring listed twice -/

/-- A context that is halted, and an active submission ring. -/
def haltedCtx : Ctx := ⟨true, false, false, false, 0, 5, 0, [], 0, [], true, none, false, none⟩
def subRing : Ring := { Ring.idle with active := true, sizeLog2 := 4 }

/-- Ring 0 of context 1 listed twice: first an inactive ring whose doorbell word reads 1, then an active submission ring. -/
def ringListedTwice : State :=
  { State.reset with
    bring := { Bringup.reset with released := true }, ctxs := [(1, haltedCtx)], rings := [(16, { Ring.idle with doorbell := 1 }), (16, subRing)] }

theorem rings446_ringListedTwice : (agentsWrite ringListedTwice []).rings446 1 0 5 :=
  ⟨rfl, rfl, rfl, fun _ _ _ hactive => absurd hactive (by decide)⟩

/-- INDEX 0 leaves the first entry idle; the second is then a submission ring of a halted context. -/
theorem exec_index_ringListedTwice :
    exec (.index 1 0 5 0 []) ringListedTwice = .next (countCtx (ringListedTwice.rung 1 0 0) 1 2) := rfl

/-- Refutes O42: in `ringListedTwice` the ring that the hypothesis looks at is inactive, the one that the doorbell meets is a submission
ring of a halted context, and INDEX is counted against the context where the statement has its index applied. -/
theorem not_doorbellsAccepted : ¬ Obligations.DoorbellsAccepted := by
  intro hall
  obtain ⟨hindex, -⟩ := hall ringListedTwice 1 0 5 0 [] ⟨0, 0, 0, 0, 0, 0, 0⟩
  have happlied := (hindex rfl rings446_ringListedTwice).1 rfl rfl
  rw [show (1 : BitVec 12).toNat = 1 from rfl] at happlied
  have hcounters := congrArg State.ctxCounters (Host.Outcome.next.inj (exec_index_ringListedTwice.symm.trans happlied))
  exact absurd hcounters (by decide)

/-! ## SETUP and TEARDOWN -/

theorem word_ne_zero {v : U32} {n : Nat} (h : doorbellOp v = n) (hn : n ≠ 0) : v ≠ 0 := by
  rintro rfl
  exact hn (h.symm.trans rfl)

section
variable {s : State} {c : BitVec 12} {r : BitVec 4} {asid : BitVec 20} {v : U32}

theorem exec_setup_processed {w : List (Nat × Byte)} (hop : doorbellOp v = 1) (h : (agentsWrite s w).rings446 c.toNat r.toNat asid) :
    exec (.setup c r asid v w) s = .next
      (let b := (agentsWrite s w).rung c.toNat r.toNat v
       if plainDoorbell v then setupBody c.toNat r.toNat b else badDoorbell b c.toNat r.toNat v) := by
  simp only [exec, execSetup, hop, bne_self_eq_false, Bool.false_eq_true, if_false]
  rw [doorbell_processed (word_ne_zero hop (by decide)) h]

theorem exec_teardown_processed (hop : doorbellOp v = 2) (h : s.rings446 c.toNat r.toNat asid) :
    exec (.teardown c r asid v) s = .next
      (let b := s.rung c.toNat r.toNat v
       if plainDoorbell v then teardownBody c.toNat r.toNat b else badDoorbell b c.toNat r.toNat v) := by
  simp only [exec, execTeardown, hop, bne_self_eq_false, Bool.false_eq_true, if_false]
  rw [doorbell_processed (word_ne_zero hop (by decide)) h]

end

section
variable (u : State) (c r h : Nat) {m : MemRead}

theorem headerFault_xlate {p : Nat} (hp : m.xlate = some p) :
    headerFault u c r h m = some (faultContext u c stXlate (xlatePayload 0xFFFF false p []) 256 (BitVec.ofNat 8 r)) := by
  simp only [headerFault, hp]

theorem headerFault_poison {p : Nat} (hp : m.xlate = none) (hb : m.bad = some p) :
    headerFault u c r h m = some (faultContext u c stPoison (poisonPayload 0xFFFF 0 h) 256 (BitVec.ofNat 8 r)) := by
  simp only [headerFault, hp, hb]

theorem headerFault_none (hp : m.xlate = none) (hb : m.bad = none) : headerFault u c r h m = none := by
  simp only [headerFault, hp, hb]

end

/-- A SETUP whose header b has been read at h (R439). -/
def setUp (u : State) (c r h : Nat) (b : List Byte) : State :=
  if headerWrong u c r b then writeResult u c h stDesc
  else if versionWrong b then writeResult u c h stVersion
  else cpWrite (cpWrite (modRing u (ringKey c r) fun k => { parseRing b (BitVec.ofNat 64 h) with doorbell := k.doorbell })
    c (h + 36) (natLe 4 0)) c (h + 32) [0, 1]

section
variable {b : State} {c r : Nat} {x : Ctx} (hx : ctxOf b c = some x)
include hx

theorem setupBody_barred (h : x.halted = true ∨ bitOf x.ringAllow.toNat r = false) :
    setupBody c r b = writeResult b c (headerOf x r) stPermission := by
  simp only [setupBody, hx]
  refine if_pos ?_
  obtain h | h := h <;> simp [h]

section
variable (hh : x.halted = false) (hr : bitOf x.ringAllow.toNat r = true)
include hh hr

/-- A SETUP that the context may make reads the header; a read that fails halts the context. -/
theorem setupBody_fault {t : State} (hf : headerFault (cpRead b x.asid.toNat 0 (headerOf x r) 64) c r (headerOf x r)
    (chipRead (cpRead b x.asid.toNat 0 (headerOf x r) 64).chip x.asid.toNat (headerOf x r) 64) = some t) : setupBody c r b = t := by
  simp only [setupBody, hx, hh, hr, hf, Bool.not_true, Bool.or_self, Bool.false_eq_true, if_false]

theorem setupBody_header (hf : headerFault (cpRead b x.asid.toNat 0 (headerOf x r) 64) c r (headerOf x r)
    (chipRead (cpRead b x.asid.toNat 0 (headerOf x r) 64).chip x.asid.toNat (headerOf x r) 64) = none) :
    setupBody c r b = setUp (cpRead b x.asid.toNat 0 (headerOf x r) 64) c r (headerOf x r)
      (chipRead (cpRead b x.asid.toNat 0 (headerOf x r) 64).chip x.asid.toNat (headerOf x r) 64).bytes := by
  simp only [setupBody, hx, hh, hr, hf, Bool.not_true, Bool.or_self, Bool.false_eq_true, if_false]
  rfl

end
end

/-- Settles O43: SETUP by its checks in R439's order, TEARDOWN by the state of the ring. -/
theorem ringSetupAndTeardown : Obligations.RingSetupAndTeardown := by
  intro s c r asid v w x
  refine ⟨fun hop hplain h446 hx => ?setup, fun hplain => ⟨fun hop h446 => ?_, fun hop h446 => ?_⟩, fun hop hplain h446 hx => ?down,
    fun hactive htear hpasses => ?done⟩
  case setup =>
    rw [exec_setup_processed hop h446, hplain, if_pos rfl]
    refine ⟨fun hbar => congrArg Host.Outcome.next (setupBody_barred hx hbar), fun hh hr => ?_⟩
    refine ⟨fun p hp => ?_, fun p hp hb => ?_, fun hp hb => ?_⟩
    · exact congrArg Host.Outcome.next (setupBody_fault hx hh hr (headerFault_xlate _ _ _ _ hp))
    · exact congrArg Host.Outcome.next (setupBody_fault hx hh hr (headerFault_poison _ _ _ _ hp hb))
    · rw [setupBody_header hx hh hr (headerFault_none _ _ _ _ hp hb)]
      exact ⟨fun hwrong => congrArg Host.Outcome.next (if_pos hwrong),
        fun hright hver => congrArg Host.Outcome.next ((if_neg (Bool.eq_false_iff.1 hright)).trans (if_pos hver)),
        fun hright hver => congrArg Host.Outcome.next
          ((if_neg (Bool.eq_false_iff.1 hright)).trans (if_neg (Bool.eq_false_iff.1 hver)))⟩
  case down =>
    rw [exec_teardown_processed hop h446, hplain, if_pos rfl]
    refine ⟨fun hi => ?_, fun ha hk => ?_, fun ha hk hn => ?_, fun ha hk hn => ?_⟩
    · simp only [teardownBody, hi, hx]
      rfl
    · simp [teardownBody, ha, hk]
    · simp only [teardownBody, ha, hn, if_neg hk, Bool.not_true, Bool.false_eq_true, if_false, if_true]
      rfl
    · simp only [teardownBody, ha, hn, if_neg hk, Bool.not_true, Bool.false_eq_true, if_false]
  case done =>
    have hall : s.passes.all (fun p => !(p.ctx == c.toNat && p.ring == r.toNat)) = true := by
      simp only [List.all_eq_true, Bool.not_eq_true', Bool.and_eq_false_imp, beq_iff_eq, beq_eq_false_iff_ne]
      exact hpasses
    simp only [exec, execRingTeardownComplete, teardownDone, hactive, htear, hall, Bool.and_self, if_true]
  · rw [exec_setup_processed hop h446, hplain]
    rfl
  · rw [exec_teardown_processed hop h446, hplain]
    rfl

end Sys2Proof.Machine
end

section
/-! Descriptors fetched, NOP and FENCE (O44). -/
namespace Sys2Proof.Machine

/-- Equal states are equal outcomes. -/
theorem next_congr {s t : State} (h : s = t) : (.next s : Host.Outcome State Fault Refusal) = .next t := congrArg _ h

/-! ## What the command port's requests leave -/

/-- A request of the command port changes its channel alone. -/
theorem cpPresent_eq (s : State) (opcode asid cls a n : Nat) (b : List Byte) (opA : Nat) :
    ∃ k, cpPresent s opcode asid cls a n b opA = { s with cmdChan := k } := by
  unfold cpPresent
  split
  · exact ⟨s.cmdChan, rfl⟩
  · exact ⟨_, rfl⟩

theorem cpRead_eq (s : State) (asid cls a n : Nat) : ∃ k, cpRead s asid cls a n = { s with cmdChan := k } := by
  unfold cpRead
  split
  · exact ⟨s.cmdChan, rfl⟩
  · exact cpPresent_eq ..

@[simp] theorem cpRead_ctxs (s : State) (asid cls a n : Nat) : (cpRead s asid cls a n).ctxs = s.ctxs := by
  obtain ⟨k, h⟩ := cpRead_eq s asid cls a n
  rw [h]

@[simp] theorem ctxOf_cpRead (s : State) (asid cls a n c : Nat) : ctxOf (cpRead s asid cls a n) c = ctxOf s c := by
  rw [ctxOf, cpRead_ctxs, ctxOf]

@[simp] theorem ringOf_cpRead (s : State) (asid cls a n key : Nat) : ringOf (cpRead s asid cls a n) key = ringOf s key := by
  obtain ⟨k, h⟩ := cpRead_eq s asid cls a n
  rw [h]
  rfl

/-! ## A read of the command processor that fails -/

section
variable (s : State) (c ring : Nat) {m : MemRead}

theorem fetchFault_xlate {p : Nat} (hp : m.xlate = some p) :
    fetchFault s c ring m = some (faultContext s c stXlate (xlatePayload 0xFFFF false p []) 256 (BitVec.ofNat 8 ring)) := by
  simp only [fetchFault, hp]

theorem fetchFault_poison {p : Nat} (hx : m.xlate = none) (hp : m.bad = some p) :
    fetchFault s c ring m = some (faultContext s c stPoison (poisonPayload 0xFFFF 0 p) 256 (BitVec.ofNat 8 ring)) := by
  simp only [fetchFault, hx, hp, Option.map_some]

theorem fetchFault_none (hx : m.xlate = none) (hp : m.bad = none) : fetchFault s c ring m = none := by
  simp only [fetchFault, hx, hp, Option.map_none]

end

/-! ## The descriptor at the head of a ring -/

/-- The state in which the descriptor at the head of a ring has been asked for, and what the read answers. -/
def headAsked (s : State) (c ring : Nat) : State :=
  let r := ringOf s (ringKey c ring)
  cpRead s (asidOf s c) 0 (r.slotAddr r.consumer) (entrySize 0 r.version.toNat)
def headRead (s : State) (c ring : Nat) : MemRead :=
  let r := ringOf s (ringKey c ring)
  let u := headAsked s c ring
  chipRead u.chip (asidOf u c) (r.slotAddr r.consumer) (entrySize 0 r.version.toNat)

/-- The descriptor in its v2 form. -/
def headDesc (s : State) (c ring : Nat) : List Byte :=
  let b := (headRead s c ring).bytes
  if (ringOf s (ringKey c ring)).version = 1 then v1ToV2 b else b

section
variable {s : State} {c ring : Nat} {x : Ctx} (hrun : ringRuns s c ring = true) (hfill : (ringOf s (ringKey c ring)).fill ≠ 0)
  (hhead : (ringOf s (ringKey c ring)).head = none) (hroom : s.passes.length < 256)
include hrun hfill hhead hroom

theorem fetchDescriptor_fault {t : State} (hf : fetchFault (headAsked s c ring) c ring (headRead s c ring) = some t) :
    fetchDescriptor s c ring = t := by
  have hgo : ¬ 256 ≤ s.passes.length := Nat.not_le.2 hroom
  unfold headRead headAsked at hf
  simp [fetchDescriptor, hrun, hfill, hhead, hgo, hf]

variable (hf : fetchFault (headAsked s c ring) c ring (headRead s c ring) = none) (hx : ctxOf s c = some x)
include hf hx

/-- A descriptor that a check of R451 refuses is refused once a slot is free for its pass. -/
theorem fetchDescriptor_refused {y : Deny}
    (hy : descChecks x ((ringOf s (ringKey c ring)).version = 1) (headRead s c ring).bytes (headDesc s c ring)
      ((ringOf s (ringKey c ring)).slotAddr (ringOf s (ringKey c ring)).consumer) = some y) :
    fetchDescriptor s c ring = if slotFor (headAsked s c ring) (dClass (headDesc s c ring)) then
      refuse (headAsked s c ring) c ring (headDesc s c ring) y else headAsked s c ring := by
  have hgo : ¬ 256 ≤ s.passes.length := Nat.not_le.2 hroom
  simp only [headDesc, headRead, headAsked] at hy hf ⊢
  simp only [fetchDescriptor, hrun, hfill, hhead, hgo, hf, hx, hy, ctxOf_cpRead, Bool.not_true, Option.isSome_none, decide_false,
    Bool.or_self, Bool.false_eq_true, if_false]
  rfl

/-- One that no check refuses is taken up. -/
theorem fetchDescriptor_taken
    (hy : descChecks x ((ringOf s (ringKey c ring)).version = 1) (headRead s c ring).bytes (headDesc s c ring)
      ((ringOf s (ringKey c ring)).slotAddr (ringOf s (ringKey c ring)).consumer) = none) :
    fetchDescriptor s c ring = takeHead (headAsked s c ring) c ring ((ringOf s (ringKey c ring)).version = 1) (headDesc s c ring)
      (headRead s c ring).bytes ((ringOf s (ringKey c ring)).slotAddr (ringOf s (ringKey c ring)).consumer) := by
  have hgo : ¬ 256 ≤ s.passes.length := Nat.not_le.2 hroom
  simp only [headDesc, headRead, headAsked] at hy hf ⊢
  simp only [fetchDescriptor, hrun, hfill, hhead, hgo, hf, hx, hy, ctxOf_cpRead, Bool.not_true, Option.isSome_none, decide_false,
    Bool.or_self, Bool.false_eq_true, if_false]

end

/-! ## What is held at the head -/

/-- A descriptor held at the head of its ring with its parameter block. -/
def holdHead (s : State) (c ring : Nat) (d block : List Byte) (addr : Nat) : State :=
  modRing s (ringKey c ring) fun r =>
    { r with head := some ⟨d, BitVec.ofNat 64 addr, block, BitVec.ofNat 64 (dParam d), r.version = 1⟩ }

/-- The read of a descriptor's parameter block. -/
def blockAsked (s : State) (c : Nat) (d : List Byte) : State := cpRead s (asidOf s c) 0 (dParam d) (blockSize (dOpcode d))
def blockRead (s : State) (c : Nat) (d : List Byte) : MemRead :=
  let w := blockAsked s c d
  chipRead w.chip (asidOf w c) (dParam d) (blockSize (dOpcode d))

section
variable {s : State} {c ring : Nat} {v1 : Bool} {d raw : List Byte} {addr : Nat}
  (hv1 : v1 = decide ((ringOf s (ringKey c ring)).version = 1))
include hv1

theorem takeHead_noBlock (h : opHasBlock (dOpcode d) = false) : takeHead s c ring v1 d raw addr = holdHead s c ring d [] addr := by
  have hne : dOpcode d ≠ opXfer := fun hop => by rw [hop] at h; exact absurd h (by decide)
  subst hv1
  simp only [takeHead, h, hne, decide_false, Bool.and_false, Bool.false_eq_true, if_false]
  rfl

theorem takeHead_v1Xfer (hv : v1 = true) (h : dOpcode d = opXfer) :
    takeHead s c ring v1 d raw addr = holdHead s c ring d (v1XferBlock raw) addr := by
  subst hv1
  rw [takeHead, if_pos (by rw [hv, h]; rfl)]
  rfl

section
variable (h : opHasBlock (dOpcode d) = true) (hv : ¬ (v1 = true ∧ dOpcode d = opXfer))
include h hv

omit hv1 in
theorem takeHead_blockFault {t : State} (hf : fetchFault (blockAsked s c d) c ring (blockRead s c d) = some t) :
    takeHead s c ring v1 d raw addr = t := by
  simp only [blockRead, blockAsked] at hf
  rw [takeHead, if_neg (by simpa using hv), if_pos h]
  simp only [hf]

theorem takeHead_block (hf : fetchFault (blockAsked s c d) c ring (blockRead s c d) = none) :
    takeHead s c ring v1 d raw addr = holdHead (blockAsked s c d) c ring d (blockRead s c d).bytes addr := by
  simp only [blockRead, blockAsked] at hf
  rw [takeHead, if_neg (by simpa using hv), if_pos h]
  simp only [hf, hv1, holdHead, blockRead, blockAsked, modRing, ringOf_cpRead]

end
end

/-! ## NOP and FENCE -/

/-- A FENCE in flight holds back its ring. -/
theorem ringRuns_fenced {s : State} {c ring : Nat} {p : Pass} (hp : p ∈ s.passes) (hc : p.ctx = c) (hr : p.ring = ring)
    (hb : p.body = .fence) : ringRuns s c ring = false := by
  have hblocked : ringBlocked s c ring = true := List.any_eq_true.2 ⟨p, hp, by simp [hc, hr, blocksRing, hb]⟩
  simp [ringRuns, hblocked]

theorem fetchDescriptor_stopped {s : State} {c ring : Nat} (h : ringRuns s c ring = false) : fetchDescriptor s c ring = s := by
  simp [fetchDescriptor, h]

theorem fenceRelease_fence {s : State} {slot : Nat} {p : Pass} (hp : passOf s slot = some p) (hb : p.body = .fence)
    (hs : p.status = none) :
    fenceRelease s slot = if earlierDone s p then modPass s slot fun p => { p with status := some stOk } else s := by
  simp [fenceRelease, hp, hb, hs]

/-- Settles O44: a fetch by what its two reads answer and what the checks say; NOP and FENCE as admitted; FENCE_RELEASE. -/
theorem descriptorsFetched : Obligations.DescriptorsFetched := by
  intro s c r now x
  refine ⟨fun hrun hfill hhead hroom hx => ?fetch, fun f h => ?nop, fun f h => ?fence, fun p hp hc hr hb => ?fenced,
    fun slot p hp hb hs => ?release⟩
  case fetch =>
    have hexec : exec (.descriptorFetch c r now) s = .next (fetchDescriptor (atTime s now) c.toNat r.toNat) := rfl
    rw [hexec]
    refine ⟨⟨fun p hp => ?_, fun p hxl hp => ?_⟩, fun hxl hbad => ?_⟩
    · exact next_congr (fetchDescriptor_fault hrun hfill hhead hroom (fetchFault_xlate _ _ _ hp))
    · exact next_congr (fetchDescriptor_fault hrun hfill hhead hroom (fetchFault_poison _ _ _ hxl hp))
    have hver : decide ((ringOf (atTime s now) (ringKey c.toNat r.toNat)).version = 1) =
        decide ((ringOf (headAsked (atTime s now) c.toNat r.toNat) (ringKey c.toNat r.toNat)).version = 1) := by
      rw [headAsked, ringOf_cpRead]
    have hread := fetchFault_none (headAsked (atTime s now) c.toNat r.toNat) c.toNat r.toNat hxl hbad
    refine ⟨fun y hy => ?_, fun hy => ?_⟩
    · have hrefused := fetchDescriptor_refused (s := atTime s now) hrun hfill hhead hroom hread hx hy
      exact ⟨fun hslot => next_congr (hrefused.trans (if_pos hslot)),
        fun hslot => next_congr (hrefused.trans (if_neg (Bool.eq_false_iff.1 hslot)))⟩
    · have htaken := fetchDescriptor_taken (s := atTime s now) hrun hfill hhead hroom hread hx hy
      refine ⟨fun hb => next_congr (htaken.trans (takeHead_noBlock hver hb)),
        fun hv hop => next_congr (htaken.trans (takeHead_v1Xfer hver (decide_eq_true hv) hop)), fun hb hv => ?_⟩
      have hv' : ¬ (decide ((ringOf (atTime s now) (ringKey c.toNat r.toNat)).version = 1) = true ∧
          dOpcode (headDesc (atTime s now) c.toNat r.toNat) = opXfer) := by
        rw [decide_eq_true_eq]
        exact fun ⟨hver, hop⟩ => hv.elim (· hver) (· hop)
      exact ⟨⟨fun p hp => next_congr (htaken.trans (takeHead_blockFault hb hv' (fetchFault_xlate _ _ _ hp))),
        fun p hxl' hp => next_congr (htaken.trans (takeHead_blockFault hb hv' (fetchFault_poison _ _ _ hxl' hp)))⟩,
        fun hxl' hbad' => next_congr (htaken.trans (takeHead_block hver hb hv' (fetchFault_none _ _ _ hxl' hbad')))⟩
  case nop =>
    exact next_congr (admitWith_picked h.1 h.2.1 _ h.isOp noCheck _)
  case fence =>
    exact next_congr (admitWith_picked h.1 h.2.1 _ h.isOp noCheck _)
  case fenced =>
    have hstop : ringRuns s c.toNat r.toNat = false := ringRuns_fenced hp hc hr hb
    exact ⟨hstop, next_congr (fetchDescriptor_stopped hstop)⟩
  case release =>
    exact next_congr (fenceRelease_fence hp hb hs)

end Sys2Proof.Machine
end

section
/-! COUNTER BARRIER and CANCEL (O45). -/
namespace Sys2Proof.Machine

/-! ## COUNTER BARRIER -/

theorem isBarrier_heads {s : State} {c r scope : Nat} {f : Fetched} {x : Ctx} (h : s.heads c r opBarrier f x)
    (hscope : field f.desc 16 1 = scope) : isBarrier scope f = true := by
  simp [isBarrier, h.2.2, hscope]

theorem isCancel_heads {s : State} {c r scope : Nat} {f : Fetched} {x : Ctx} (h : s.heads c r opCancel f x)
    (hscope : field f.desc 16 1 = scope) : isCancel scope f = true := by
  simp [isCancel, h.2.2, hscope]

theorem wordFault_none {m : MemRead} (s : State) (p : Pass) (write : Bool) (hx : m.xlate = none) (hb : m.bad = none) :
    wordFault s p write m = none := by
  simp only [wordFault, hx, hb, Option.map_none]

/-- A BARRIER whose wait begins now. -/
def beginWait (s : State) (slot a : Nat) (arrive wait : U64) : State :=
  modPass s slot fun p => { p with body := .barrier a arrive wait true s.time s.regs.barrierTimeout.toNat none }

section
variable {s : State} {slot a : Nat} {arrive wait since : U64} {limit : Nat} {read : Option (U64 × Nat)} {p : Pass}
  (hp : passOf s slot = some p)
include hp

theorem barrierArrive_waiting (hb : p.body = .barrier a arrive wait true since limit read) : barrierArrive s slot = s := by
  simp only [barrierArrive, hp, hb]

section
variable (hb : p.body = .barrier a arrive wait false since limit read)
include hb

theorem barrierArrive_early (hd : earlierDone s p = false) : barrierArrive s slot = s := by
  simp [barrierArrive, hp, hb, hd]

theorem barrierPoll_early (hd : earlierDone s p = false) : barrierPoll s slot = s := by
  simp only [barrierPoll, barrierArrive_early hp hb hd, hp, hb]

variable (hd : earlierDone s p = true) (hc : p.cancelAt = none)
include hd hc

theorem barrierArrive_zero (h0 : arrive = 0) : barrierArrive s slot = beginWait s slot a arrive wait := by
  simp only [barrierArrive, hp, hb, hd, hc, h0, Bool.not_true, Option.isSome_none, Bool.or_self, Bool.false_eq_true, if_false, if_true]
  rfl

/-- The arrival adds arrive_value to the counter word. -/
theorem barrierArrive_adds (h0 : arrive ≠ 0) (hx : (chipRead (cpPresent s 2 (asidOf s p.ctx) 0 a 8 [] arrive.toNat).chip
      (asidOf (cpPresent s 2 (asidOf s p.ctx) 0 a 8 [] arrive.toNat) p.ctx) a 8).xlate = none)
    (hbad : (chipRead (cpPresent s 2 (asidOf s p.ctx) 0 a 8 [] arrive.toNat).chip
      (asidOf (cpPresent s 2 (asidOf s p.ctx) 0 a 8 [] arrive.toNat) p.ctx) a 8).bad = none) :
    barrierArrive s slot =
      let u := cpPresent s 2 (asidOf s p.ctx) 0 a 8 [] arrive.toNat
      let w := chipRead u.chip (asidOf u p.ctx) a 8
      beginWait { u with chip := chipWrite u.chip (asidOf u p.ctx) a (natLe 8 ((leNat w.bytes + arrive.toNat) % 2 ^ 64)) false }
        slot a arrive wait := by
  simp only [barrierArrive, hp, hb, hd, hc, if_neg h0, wordFault_none _ _ _ hx hbad, Bool.not_true, Option.isSome_none, Bool.or_self,
    Bool.false_eq_true, if_false]
  rfl

end

section
variable (hb : p.body = .barrier a arrive wait true since limit read)
include hb

theorem barrierPoll_notDue (hdue : pollDue s.time read = false) : barrierPoll s slot = s := by
  simp [barrierPoll, barrierArrive_waiting hp hb, hp, hb, hdue]

variable (hs : p.status = none) (hc : p.cancelAt = none)
include hs hc

theorem barrierPoll_due (hdue : pollDue s.time read = true)
    (hx : (chipRead (cpRead s (asidOf s p.ctx) 0 a 8).chip (asidOf (cpRead s (asidOf s p.ctx) 0 a 8) p.ctx) a 8).xlate = none)
    (hbad : (chipRead (cpRead s (asidOf s p.ctx) 0 a 8).chip (asidOf (cpRead s (asidOf s p.ctx) 0 a 8) p.ctx) a 8).bad = none) :
    barrierPoll s slot =
      let u := cpRead s (asidOf s p.ctx) 0 a 8
      let v : U64 := BitVec.ofNat 64 (leNat (chipRead u.chip (asidOf u p.ctx) a 8).bytes)
      modPass u slot fun p =>
        { p with body := .barrier a arrive wait true since limit (some (u.time, u.regs.barrierPoll.toNat)),
                 detail0 := v, status := if wait.toNat ≤ v.toNat then some stOk else none } := by
  simp only [barrierPoll, barrierArrive_waiting hp hb, hp, hb, hs, hc, hdue, wordFault_none _ _ _ hx hbad, Bool.not_true,
    Option.isSome_none, Bool.or_self, Bool.false_eq_true, if_false]

theorem barrierTimeout_late (ht : limit * 1000000 < (s.time - since).toNat) :
    barrierTimeout s slot = faultPass s p stTimeout (timeoutPayload 3 a (s.time - since).toNat) := by
  simp [barrierTimeout, hp, hb, hs, hc, ht, -BitVec.toNat_sub]

end

/-! ## CANCEL -/

theorem cancelTimeout_late {at_ : U64} (hc : p.cancelAt = some at_) (hheld : tagsHeld s slot ≠ 0)
    (ht : 1000 * s.regs.cancelTimeout.toNat < (s.time - at_).toNat) :
    cancelTimeout s slot = faultPass s p stTimeout (timeoutPayload 0 0 (s.time - at_).toNat) := by
  simp [cancelTimeout, hp, hc, hheld, ht, -BitVec.toNat_sub]

section
variable {x : Ctx} (hc : p.cancelAt.isSome = true) (hx : ctxOf s p.ctx = some x) (hh : x.halted = false) (hf : x.fault = none)
  (hheld : p.held = false) (htags : tagsHeld s slot = 0) (hgroups : groupsOfPass s slot = 0) (habort : abortQueued s p = false)
include hc hx hh hf hheld htags hgroups habort

theorem cancelComplete_cancelled (hlate : lateFault p = none) :
    cancelComplete s slot = completePass (modPass s slot xferDetail) slot stCancelled := by
  simp [cancelComplete, hp, hc, hx, hh, hf, hheld, htags, hgroups, habort, hlate, chooseStatus]

theorem cancelComplete_faulted {y : List Byte} (hlate : lateFault p = some y) : cancelComplete s slot = faultPass s p stXlate y := by
  simp [cancelComplete, hp, hc, hx, hh, hf, hheld, htags, hgroups, habort, hlate]

end
end

/-- Settles O45: a barrier from its admission to its limit; a cancel from its admission to its end. -/
theorem barrierAndCancel : Obligations.BarrierAndCancel := by
  intro s c r now x f slot p
  refine ⟨fun h hscope => ?admission, fun a arrive wait since limit read hp hs hc => ?wait, fun i scope sel h hscope hi => ?cancel,
    fun at_ hp hc => ?cut⟩
  case admission =>
    have hpicked := admitWith_picked h.1 h.2.1 _ (isBarrier_heads h hscope) barrierCheck fun s f =>
      barrierArrive (admitBody s c.toNat r.toNat f (barrierBody f)) (freeSlot s)
    refine ⟨fun hn => next_congr (hpicked.trans ?_), fun hn => next_congr (hpicked.trans ?_)⟩
    · simp only [barrierCheck, hn, bne_self_eq_false, Bool.false_eq_true, if_false]
      rfl
    · simp only [barrierCheck, bne_iff_ne.2 hn, if_true]
  case wait =>
    have hpt : passOf { s with time := now } slot.toNat = some p := hp
    refine ⟨fun hb => ⟨fun hd => ⟨barrierArrive_early hpt hb hd, next_congr (barrierPoll_early hpt hb hd)⟩,
      fun hd h0 => barrierArrive_zero hpt hb hd hc h0, fun hd h0 hx hbad => ?_⟩,
      fun hb => ⟨fun hdue => next_congr (barrierPoll_notDue hpt hb hdue), fun hdue hx hbad => ?_,
        fun ht => next_congr (barrierTimeout_late hpt hb hs hc ht)⟩⟩
    · obtain ⟨k, hk⟩ := cpPresent_eq { s with time := now } 2 (asidOf { s with time := now } p.ctx) 0 a 8 [] arrive.toNat
      have hadds := barrierArrive_adds hpt hb hd hc h0 hx hbad
      rw [hk] at hadds ⊢
      exact hadds
    · obtain ⟨k, hk⟩ := cpRead_eq { s with time := now } (asidOf { s with time := now } p.ctx) 0 a 8
      have hpolls := barrierPoll_due hpt hb hs hc hdue hx hbad
      rw [hk] at hpolls ⊢
      exact next_congr hpolls
  case cancel =>
    obtain ⟨rfl, rfl, rfl⟩ | ⟨rfl, rfl, rfl⟩ := hi
    · exact next_congr (admitWith_picked h.1 h.2.1 _ (isCancel_heads h hscope) noCheck _)
    · exact next_congr (admitWith_picked h.1 h.2.1 _ (isCancel_heads h hscope) noCheck _)
  case cut =>
    have hpt : passOf { s with time := now } slot.toNat = some p := hp
    have hc' : p.cancelAt.isSome = true := Option.isSome_of_eq_some hc
    exact ⟨fun hx hh hf hheld htags hgroups habort =>
        ⟨fun hlate => next_congr (cancelComplete_cancelled hpt hc' hx hh hf hheld htags hgroups habort hlate),
         fun y hlate => next_congr (cancelComplete_faulted hpt hc' hx hh hf hheld htags hgroups habort hlate)⟩,
      fun hheld ht => next_congr (cancelTimeout_late hpt hc hheld ht)⟩

end Sys2Proof.Machine
end

section
/-! Passes that complete, held records, messages and the drain of a faulting context (O46). -/
namespace Sys2Proof.Machine

/-! ## A pass with its status -/

theorem endStatus_eq (p : Pass) (st : Byte) :
    endStatus p st = if st = stOk then (if p.truncated then stTruncated else if p.degrade.any then stDegraded else stOk) else st := by
  simp [endStatus, chooseStatus]

/-- A pass of the order in which held records are written: its record, where it still is held. -/
def writeHeld (u : State) (q : Pass) : State :=
  match passOf u q.slot with
  | some q => (match q.status with | some st => if q.held then writeCompletion u q st else u | none => u)
  | none => u

theorem passOf_slot {s : State} {slot : Nat} {p : Pass} (hp : passOf s slot = some p) : p.slot = slot :=
  beq_iff_eq.1 (List.find?_some hp :)

section
variable {s : State} {slot : Nat} {p : Pass} {st : Byte} (hp : passOf s slot = some p)
include hp

section
variable (hs : p.status = some st) (hclear : passClear s p = true) (hout : p.writesOut = 0) (hgroups : groupsOfPass s slot = 0)
include hs hclear hout hgroups

theorem passCompletion_done (hw : p.lastWrites = []) (hst : p.lastStore = []) :
    passCompletion s slot = completePass s slot (endStatus p st) := by
  simp [passCompletion, hp, hs, hclear, hout, hgroups, hw, hst]

theorem passCompletion_writes (hw : p.lastWrites ≠ [] ∨ p.lastStore ≠ []) :
    passCompletion s slot = passWrites
      (let u := modPass s slot fun p => { p with lastWrites := [], lastStore := [] }
       { u with store := storeWrites u.store p.lastStore }) slot p.lastWrites := by
  have hleft : (p.lastWrites.isEmpty && p.lastStore.isEmpty) = false := by
    simpa only [Bool.and_eq_false_iff, List.isEmpty_eq_false_iff] using hw
  simp [passCompletion, hp, hs, hclear, hout, hgroups, hleft]

end

theorem ringSpace_held (hheld : p.held = true) :
    ringSpace s slot =
      (sortBy (fun x y => decide (x.heldSeq ≤ y.heldSeq)) (p :: heldBefore s p)).foldl writeHeld s := by
  rw [ringSpace, hp]
  exact if_neg (by simp [hheld])

/-- A held record that no other goes before is written alone. -/
theorem ringSpace_first (hheld : p.held = true) (hs : p.status = some st) (hfirst : heldBefore s p = []) :
    ringSpace s slot = writeCompletion s p st := by
  have hslot : passOf s p.slot = some p := by rw [passOf_slot hp, hp]
  rw [ringSpace_held hp hheld, hfirst]
  simp only [sortBy, insertBy, List.foldl_cons, List.foldl_nil, writeHeld, hslot, hs, hheld, if_true]

end

/-! ## Messages -/

theorem ringKey_ctx (c : Nat) (r : BitVec 4) : ringKey c r.toNat / 16 = c := by
  simp only [ringKey]
  omega

theorem ringKey_ring (c : Nat) (r : BitVec 4) : ringKey c r.toNat % 16 = r.toNat := by
  simp only [ringKey]
  omega

/-- Whether the hold-off after a ring's last message is over. -/
def holdoffOver (s : State) (k : Ring) : Bool :=
  match k.lastMsg with
  | some t => t.toNat + 1000 * k.msgHoldoff.toNat ≤ s.time.toNat
  | none => true

theorem holdoffOver_of {s : State} {k : Ring}
    (h : k.lastMsg = none ∨ ∃ t, k.lastMsg = some t ∧ t.toNat + 1000 * k.msgHoldoff.toNat ≤ s.time.toNat) : holdoffOver s k = true := by
  obtain hnone | ⟨t, ht, hle⟩ := h
  · simp only [holdoffOver, hnone]
  · simp only [holdoffOver, ht, hle, decide_true]

section
variable {s : State} {key n : Nat} {x : Ctx} (hx : ctxOf s (key / 16) = some x) (hn : msgEntry x (key % 16) = some n)
  (hactive : (ringOf s key).active = true) (hen : (ringOf s key).msgEn = true) (howed : (ringOf s key).msgOwed = true)
  (hpark : s.pins.parked = false) (hdue : holdoffOver s (ringOf s key) = true)
include hx hn hactive hen howed hpark hdue

/-- A message that is due is written, or announced on the wire. -/
theorem messageWrite_due : messageWrite s key =
    if isWire s n then setRing s key { ringOf s key with msgOwed := false }
    else
      let d := natLe 4 (smGet 0 s.regs.msgData n).toNat
      let a := (smGet 0 s.regs.msgAddr n).toNat
      let u := cpPresent s 1 0 0 a 4 d
      setRing { u with chip := chipWrite u.chip 0 a d false } key { ringOf s key with msgOwed := false, lastMsg := some u.time } := by
  have hgo : ¬ ((!((ringOf s key).active && (ringOf s key).msgEn && (ringOf s key).msgOwed && holdoffOver s (ringOf s key)) ||
      s.pins.parked) = true) := by
    simp [hactive, hen, howed, hdue, hpark]
  simp only [messageWrite, hx, hn]
  exact if_neg hgo

end

/-! ## The drain of a faulting context -/

section
variable {s : State} {c : Nat} {x : Ctx} {f : FaultRec} (hx : ctxOf s c = some x) (hf : x.fault = some f)
include hx hf

theorem contextDrained_halts (hflights : ctxFlights s c = [])
    (hpasses : ∀ p ∈ passesOf s c, abortQueued s p = false ∧ (calibBegun p = true → p.writesOut = 0)) :
    contextDrained s c = haltContext s c f false := by
  have hall : ((passesOf s c).all fun p => !abortQueued s p && (!calibBegun p || p.writesOut = 0)) = true := by
    rw [List.all_eq_true]
    intro p hp
    obtain ⟨habort, hcalib⟩ := hpasses p hp
    cases hbegun : calibBegun p with
    | false => simp [habort]
    | true => simp [habort, hcalib hbegun]
  simp [contextDrained, hx, hf, hflights, hall]

/-- The state of a context whose missing tags are orphaned. -/
def orphaned (s : State) (c : Nat) : State :=
  { s with ports := s.ports.map fun q => { q with outRd := q.outRd.map (orphanOf c), outWr := q.outWr.map (orphanOf c) } }

theorem drainStalled_halts (hflights : ctxFlights s c ≠ []) (hlate : 1000 * s.regs.cancelTimeout.toNat < (s.time - f.since).toNat) :
    drainStalled s c = logCtx (haltContext (orphaned s c) c f true) 0x02 0x23 c
      (layout 36 [(0, 4, ((ctxFlights s c).map (·.left.length)).sum),
        (4, 4, ((List.range 32).map fun q =>
          if ((s.ports.getD q .reset).outRd ++ (s.ports.getD q .reset).outWr).any
            (fun f => !f.orphan && f.burst.parts.any (·.ctx == c)) then 2 ^ q else 0).sum),
        (8, 8, (s.time - f.since).toNat)]) := by
  have hgo : ¬ (((ctxFlights s c).isEmpty || decide ((s.time - f.since).toNat ≤ 1000 * s.regs.cancelTimeout.toNat)) = true) := by
    simp [hflights, hlate, -BitVec.toNat_sub]
  simp only [drainStalled, hx, hf, if_neg hgo]
  rfl

end

/-- Settles O46: completion, held records, messages and the drain, each by the case of its own lemma. -/
theorem passesEnd : Obligations.PassesEnd := by
  intro s slot now p st c r x
  refine ⟨fun hp hs => ?pass, fun n => ?message, fun f hx hf => ?drain⟩
  case pass =>
    have hpt : passOf { s with time := now } slot.toNat = some p := hp
    refine ⟨fun hclear hout hgroups => ⟨fun hw hst => ?_, fun hw => ?_⟩, fun hheld hfirst => ?_, fun hheld => ?_⟩
    · rw [← endStatus_eq]
      exact next_congr (passCompletion_done hpt hs hclear hout hgroups hw hst)
    · exact next_congr (passCompletion_writes hpt hs hclear hout hgroups hw)
    · exact next_congr (ringSpace_first hpt hheld hs hfirst)
    · exact next_congr (ringSpace_held hpt hheld)
  case message =>
    intro k hx hn hactive hen howed hpark hlast
    have hdue : holdoffOver { s with time := now } k = true := holdoffOver_of hlast
    rw [← ringKey_ctx c.toNat r] at hx
    rw [← ringKey_ring c.toNat r] at hn
    have hwritten := messageWrite_due (s := { s with time := now }) hx hn hactive hen howed hpark hdue
    refine ⟨fun hw => next_congr (hwritten.trans (if_pos hw)), fun hw => ?_⟩
    have hentry := hwritten.trans (if_neg (Bool.eq_false_iff.1 hw))
    obtain ⟨ch, hch⟩ := cpPresent_eq { s with time := now } 1 0 0 (smGet 0 s.regs.msgAddr n).toNat 4
      (natLe 4 (smGet 0 s.regs.msgData n).toNat) 0
    simp only [hch] at hentry ⊢
    exact next_congr hentry
  case drain =>
    have hxt : ctxOf { s with time := now } c.toNat = some x := hx
    exact ⟨fun hflights hpasses => next_congr (contextDrained_halts hxt hf hflights hpasses),
      fun hflights hlate => next_congr (drainStalled_halts hxt hf hflights hlate)⟩

end Sys2Proof.Machine
end

section
/-! The boot and the store's initialisation (O36, O37), Keeper's mailbox (O38) and Drover (O39). -/
namespace Sys2Proof.Machine

/-! ## Boot -/

/-- The boot write that is accepted starts verification. -/
theorem kmBoot_accepted {s : State} (hr : reaches s .host = true) (hw : s.bring.bootWritten = false) (hf : s.bring.fatal = false)
    (image : U64) :
    kmBoot s image = reachStep { okWrite s with bring := { s.bring with
      bootWritten := true, bootAddr := BitVec.ofNat 64 (image.toNat / 128 * 128), bootState := 1, bootAt := s.time } } 2 := by
  have hr' : reaches (okWrite s) .host = true := hr
  have hw' : (okWrite s).bring.bootWritten = false := hw
  have hf' : (okWrite s).bring.fatal = false := hf
  rw [kmBoot, hostAnswer_host hr, if_neg (by simp [hr', hw', hf'])]
  rfl

theorem kmBoot_again {s : State} (hw : s.bring.bootWritten = true) (image : U64) : kmBoot s image = hostAnswer s .host := by
  have hw' : (hostAnswer s .host).bring.bootWritten = true := by rw [hostAnswer_bring, hw]
  rw [kmBoot, if_pos (by simp [hw'])]

section
variable {s : State} (hrun : running s = true) (hstate : s.bring.bootState = 1)
include hrun hstate

/-- The state in which the image has been asked for. -/
def imageAsked (s : State) : State := cpRead s 0 3 s.bring.bootAddr.toNat (max 128 (imageTotal s))

theorem firmwareVerified_failed {v : CryptoVerdict} {code : Byte} (hf : bootFailure (imageAsked s) v = some code) :
    firmwareVerified s v = failBoot (imageAsked s) code := by
  unfold imageAsked at *
  simp only [firmwareVerified, hrun, hstate, hf, Bool.not_true, bne_self_eq_false, Bool.or_self, Bool.false_eq_true, if_false]

theorem firmwareVerified_booted {v : CryptoVerdict} (hf : bootFailure (imageAsked s) v = none) :
    firmwareVerified s v =
      let r := imageAsked s
      let id : U64 := BitVec.ofNat 64 (field (imageRead r 0 128).bytes 16 8)
      takePartition (logWide { r with
        bring := { r.bring with bootState := 2, buildId := id, keeperLocked := true, step := max r.bring.step 3 },
        drover := ⟨true, false, r.time, r.time⟩ } 0x08 0 (natLe 8 r.bring.bootAddr.toNat ++ natLe 8 id.toNat)) := by
  unfold imageAsked at *
  simp only [firmwareVerified, hrun, hstate, hf, Bool.not_true, bne_self_eq_false, Bool.or_self, Bool.false_eq_true, if_false]
  rfl

theorem bootTimeout_late (ht : 8000000 < (s.time - s.bring.bootAt).toNat) : bootTimeout s = failBoot s 0x08 := by
  simp [bootTimeout, hrun, hstate, ht, -BitVec.toNat_sub]

end

theorem droverReadyTimeout_late {s : State} (hrun : running s = true) (hstate : s.bring.bootState = 2) (hd : s.drover.running = true)
    (hready : s.drover.ready = false) (ht : 1000000 < (s.time - s.drover.startedAt).toNat) :
    droverReadyTimeout s = failBoot s 0x07 := by
  simp [droverReadyTimeout, hrun, hstate, hd, hready, ht, -BitVec.toNat_sub]

/-- Settles O36: each event of the boot by the branch that its premises pick. -/
theorem firmwareBoot : Obligations.FirmwareBoot := by
  intro s image w v now
  refine ⟨fun hr hw hf => next_congr (kmBoot_accepted hr hw hf image), fun hw => next_congr (kmBoot_again hw image),
    fun hrun hstate => ⟨fun code hf => ?_, fun hf => ?_, fun ht => ?_⟩, fun hrun hstate hd hready ht => ?_⟩
  · obtain ⟨k, hk⟩ := cpRead_eq { s with time := now } 0 3 s.bring.bootAddr.toNat (max 128 (imageTotal { s with time := now }))
    have hfail := firmwareVerified_failed hrun hstate hf
    rw [imageAsked, hk] at hfail
    rw [hk]
    exact next_congr hfail
  · obtain ⟨k, hk⟩ := cpRead_eq { s with time := now } 0 3 s.bring.bootAddr.toNat (max 128 (imageTotal { s with time := now }))
    have hboot := firmwareVerified_booted hrun hstate hf
    rw [imageAsked, hk] at hboot
    rw [hk]
    exact next_congr hboot
  · exact next_congr (bootTimeout_late hrun hstate ht)
  · exact next_congr (droverReadyTimeout_late hrun hstate hd hready ht)

/-! ## Store initialisation -/

section
variable {s : State} (hrun : running s = true) (hboot : s.bring.bootState = 2) (hheld : s.bring.held = false)
  (hinit : s.bring.initDone = false)
include hrun hboot hheld hinit

theorem quadrantRelease_failed (bank : Byte) (line : BitVec 14) (bitNo : BitVec 7) :
    quadrantRelease s (some (bank, line, bitNo)) = lineFailed { s with store := ⟨[], [], s.store.scrub, []⟩ } bank line bitNo := by
  simp only [quadrantRelease, hrun, hboot, hheld, hinit, Bool.not_true, bne_self_eq_false, Bool.or_self, Bool.false_eq_true, if_false]

theorem quadrantRelease_done (hf : s.bring.fatal = false) :
    quadrantRelease s none =
      let q := { s with store := ⟨[], [], s.store.scrub, []⟩, links := s.links.map (linkReleased s.time),
                        bring := { s.bring with initDone := true, released := true, step := max s.bring.step 5 } }
      if s.pins.pwrWarnN then q else startDip q := by
  simp only [quadrantRelease, reachStep, hrun, hboot, hheld, hinit, hf, Bool.not_true, bne_self_eq_false, Bool.or_self,
    Bool.false_eq_true, if_false]

end

/-- Settles O37: the partition as it is taken, then the two ends of initialisation. -/
theorem storeInitialisation : Obligations.StoreInitialisation := by
  intro s now
  refine ⟨fun hok => if_pos hok, fun hbad => if_neg (Bool.eq_false_iff.1 hbad), fun hrun hboot hheld hinit =>
    ⟨fun bank line bitNo => next_congr (quadrantRelease_failed (s := atTime s now) hrun hboot hheld hinit bank line bitNo),
      fun hf => next_congr (quadrantRelease_done (s := atTime s now) hrun hboot hheld hinit hf)⟩⟩

/-! ## The mailbox -/

/-- A request on a table entry while no commit waits writes the entry and commits it. -/
theorem entryRequest_commits {s : State} {c : U64} (hc : c.toNat < 4096) (hb : s.regs.commitBusy = false) (write : State → State) :
    entryRequest s c write = kmEnd (commitWrite (write s) c.toNat) (commitAnswer (commitWrite (write s) c.toNat)) := by
  have hfree : busyResult s c true = none := by simp [busyResult, hb]
  simp only [entryRequest, if_neg (Nat.not_le.2 hc), hfree]

theorem entryRequest_range {s : State} {c : U64} (hc : 4096 ≤ c.toNat) (write : State → State) :
    entryRequest s c write = kmEnd s 0x02 := by
  simp only [entryRequest, if_pos hc]

/-- A copied entry: the read of the command port changes its channel, the table takes the 256 bytes. -/
theorem copyEntry_eq (c entry : U64) (s : State) :
    copyEntry c entry s =
      let m := chipRead s.chip 0 entry.toNat 256
      { cpRead s 0 3 entry.toNat 256 with
        chip := chipWrite s.chip 0 (s.regs.ctxBase.toNat + 256 * c.toNat) m.bytes m.bad.isSome } := by
  obtain ⟨k, hk⟩ := cpRead_eq s 0 3 entry.toNat 256
  simp only [copyEntry, hk, entryAddr]

theorem msgSet_inRange {n data wire : U64} (hn : n.toNat < 64) (hd : data.toNat < 2 ^ 32) (hw : wire.toNat < 2) (s : State)
    (addr : U64) :
    msgSet s n addr data wire = kmEnd (writeWord (writeWord (writeLong s .keeper (0x2100 + 16 * n.toNat) addr)
      .keeper (0x2108 + 16 * n.toNat) (data.setWidth 32)) .keeper (0x210C + 16 * n.toNat) (wire.setWidth 32)) 0x00 := by
  have hgo : ¬ ((decide (64 ≤ n.toNat) || decide (2 ^ 32 ≤ data.toNat) || decide (2 ≤ wire.toNat)) = true) := by
    simp only [Bool.or_eq_true, decide_eq_true_eq]
    omega
  have h8 : 0x2100 + 16 * n.toNat + 8 = 0x2108 + 16 * n.toNat := by omega
  have h12 : 0x2100 + 16 * n.toNat + 12 = 0x210C + 16 * n.toNat := by omega
  rw [msgSet, if_neg hgo]
  simp only [h8, h12]

theorem debugAuth_inRange {s : State} {c on : U64} (hb : s.regs.commitBusy = false) (hc : c.toNat < 4096) (hon : on.toNat < 2) :
    debugAuth s c on = kmEnd (logCtx (setAuth s (c.setWidth 12) (on == 1)) 0x0A (on.setWidth 8) c.toNat []) 0x00 := by
  have hgo : ¬ ((decide (4096 ≤ c.toNat) || decide (2 ≤ on.toNat)) = true) := by
    simp only [Bool.or_eq_true, decide_eq_true_eq]
    omega
  have hfree : busyResult s c false = none := by simp [busyResult, hb]
  rw [debugAuth, if_neg hgo, hfree]

/-- Settles O38: a request before the boot, then each request served after it. -/
theorem mailboxRequests : Obligations.MailboxRequests := by
  intro s c now w
  refine ⟨fun i code args hi ⟨hr, hk, hf⟩ h2 => ?early, fun code ⟨⟨hr, hk, hf⟩, h2⟩ hcode => ?unknown,
    fun entry ⟨⟨hr, hk, hf⟩, h2⟩ hb hc => ?write, fun ⟨⟨hr, hk, hf⟩, h2⟩ hb hc => ?retire,
    fun ⟨⟨hr, hk, hf⟩, h2⟩ hc => ?retireRange, fun addr data wire ⟨⟨hr, hk, hf⟩, h2⟩ hn hd hw => ?msg,
    fun on ⟨⟨hr, hk, hf⟩, h2⟩ hb hc hon => ?auth, fun ⟨⟨hr, hk, hf⟩, h2⟩ hlo hhi => ?limit,
    fun ⟨⟨hr, hk, hf⟩, h2⟩ hout => ?limitRange, fun ⟨⟨hr, hk, hf⟩, h2⟩ => ?restart⟩
  case early =>
    simp only [List.mem_cons, Prod.mk.injEq, List.not_mem_nil, or_false] at hi
    obtain ⟨rfl, rfl, rfl⟩ | ⟨rfl, rfl, rfl⟩ := hi
    · exact next_congr (kmServe_early hr hk hf h2 _ _ _)
    · exact next_congr (kmServe_early hr hk hf h2 _ _ _)
  case unknown =>
    have hgo : ¬ ((decide (1 ≤ code.toNat) && decide (code.toNat ≤ 6)) = true) := by
      simp only [Bool.and_eq_true, decide_eq_true_eq]
      omega
    exact next_congr ((if_neg hgo).trans (kmServe_booted hr hk hf h2 _ _ _))
  case write =>
    have hserved := (kmServe_booted hr hk hf h2 0x0001 [c, entry] fun s => entryRequest s c (copyEntry c entry)).trans
      (entryRequest_commits (s := kmStart (okWrite (agentsWrite s w)) 0x0001 [c, entry]) hc hb _)
    rw [copyEntry_eq] at hserved
    exact next_congr hserved
  case retire =>
    exact next_congr ((kmServe_booted hr hk hf h2 _ _ _).trans
      (entryRequest_commits (s := kmStart (okWrite s) 0x0002 [c]) hc hb _))
  case retireRange =>
    exact next_congr ((kmServe_booted hr hk hf h2 _ _ _).trans (entryRequest_range hc _))
  case msg =>
    exact next_congr ((kmServe_booted hr hk hf h2 _ _ _).trans (msgSet_inRange hn hd hw _ addr))
  case auth =>
    exact next_congr ((kmServe_booted hr hk hf h2 _ _ _).trans
      (debugAuth_inRange (s := kmStart (okWrite s) 0x0004 [c, on]) hb hc hon))
  case limit =>
    have hgo : ¬ ((decide (c.toNat < 100) || decide (300 < c.toNat)) = true) := by
      simp only [Bool.or_eq_true, decide_eq_true_eq]
      omega
    exact next_congr ((kmServe_booted hr hk hf h2 _ _ _).trans (if_neg hgo))
  case limitRange =>
    exact next_congr ((kmServe_booted hr hk hf h2 _ _ _).trans (if_pos (by simpa using hout)))
  case restart =>
    exact next_congr (kmServe_booted (s := atTime s now) hr hk hf h2 _ _ _)

/-! ## Drover -/

theorem stopDrover_running {s : State} (hrun : running s = true) (hd : s.drover.running = true) (code : Byte) (addr : U64) :
    stopDrover s code addr = logWide { s with drover := { s.drover with running := false } } 0x0B code (natLe 8 addr.toNat) := by
  simp only [stopDrover, hrun, hd, Bool.and_self, if_true]
  rfl

/-- Settles O39: a report, the watchdog, the sandbox and a note of a running Drover. -/
theorem droverWatched : Obligations.DroverWatched := by
  intro s now addr code p hd
  refine ⟨fun hrun => next_congr (if_pos ?_), fun hrun hlate => next_congr ((if_pos hlate).trans ?_),
    fun hrun => next_congr (stopDrover_running hrun hd 2 addr), fun hrun => next_congr (if_pos ?_)⟩
  · exact Bool.and_eq_true_iff.2 ⟨hrun, hd⟩
  · exact stopDrover_running (s := atTime s now) hrun hd 1 0
  · exact Bool.and_eq_true_iff.2 ⟨hrun, hd⟩

end Sys2Proof.Machine
end

section
/-! The debugger's operations (O41): which are refused, and what the others leave. -/
namespace Sys2Proof.Machine

/-! ## What the answer to the host leaves for the operation -/

theorem dbgGroup_hostAnswer (s : State) (who : Requester) : dbgGroup (hostAnswer s who) = dbgGroup s := by
  unfold hostAnswer
  split <;> rfl

theorem dbgRefuses_hostAnswer (s : State) (by_ who : Requester) : dbgRefuses (hostAnswer s by_) who = dbgRefuses s who := by
  unfold hostAnswer
  split <;> rfl

theorem groupReady_dbgAnswer (s : State) (who : Requester) (refused : Bool) (core : Nat) (g : Group) :
    groupReady (dbgAnswer (hostAnswer s who) refused) core g = groupReady s core g := by
  unfold hostAnswer
  split <;> rfl

/-- The debug block's status after an operation (R535). -/
def dbgStatus (s : State) (busy refused : Bool) : State := { s with regs := { s.regs with dbgBusy := busy, dbgRefused := refused } }

theorem dbgAnswer_status (s : State) (who : Requester) (refused : Bool) :
    dbgAnswer (hostAnswer s who) refused = dbgStatus (hostAnswer s who) s.regs.dbgBusy refused := by
  rw [dbgStatus, ← hostAnswer_regs s who, dbgAnswer]

theorem dbgTarget_status (s : State) (who : Requester) (busy refused : Bool) (f : Group → Group) :
    dbgTarget (dbgAnswer (hostAnswer s who) refused) busy f =
      dbgStatus (modGroup (hostAnswer s who) s.regs.dbgCore.toNat s.regs.dbgSlot.toNat f) busy refused := by
  unfold hostAnswer
  split <;> rfl

/-! ## Which operation is refused -/

theorem dbgRefuses_host {s : State} (h : s.regs.dbgEnabled = false) : dbgRefuses s .host = true := by
  simp [dbgRefuses, h]

theorem dbgRefuses_noGroup {s : State} (h : dbgGroup s = none) (who : Requester) : dbgRefuses s who = true := by
  simp only [dbgRefuses, h, Bool.or_true]

section
variable {s : State} {who : Requester} {g : Group} (hg : dbgGroup s = some g)
include hg

theorem dbgRefuses_otherCtx (hc : g.ctx ≠ s.regs.dbgCtx.toNat) : dbgRefuses s who = true := by
  simp [dbgRefuses, hg, hc]

theorem dbgRefuses_target (hc : g.ctx = s.regs.dbgCtx.toNat) (hauth : who = .host → s.regs.dbgEnabled = true) :
    dbgRefuses s who = false := by
  simp only [dbgRefuses, hg, hc, bne_self_eq_false, Bool.or_false, Bool.and_eq_false_iff, beq_eq_false_iff_ne, Bool.not_eq_false']
  exact Classical.or_iff_not_imp_left.2 fun h => hauth (Classical.not_not.1 h)

end

theorem dbgOp_drover (s : State) (bad : Group → Bool) (body : State → Group → State) : dbgOp s .drover bad body = s := rfl

section
variable {s : State} {who : Requester} (hr : reaches s who = true) (hw : who ≠ .drover) {bad : Group → Bool}
  {body : State → Group → State}
include hr hw

theorem dbgOp_refused (h : ∀ g, dbgGroup s = some g → dbgRefuses s who = true ∨ bad g = true) :
    dbgOp s who bad body = dbgStatus (hostAnswer s who) s.regs.dbgBusy true := by
  simp only [dbgOp, beq_eq_false_iff_ne.2 hw, reaches_hostAnswer, hr, dbgGroup_hostAnswer, dbgRefuses_hostAnswer, ← dbgAnswer_status,
    Bool.not_true, Bool.or_self, Bool.false_eq_true, if_false]
  cases hg : dbgGroup s with
  | none => rfl
  | some g => exact if_pos (Bool.or_eq_true_iff.2 (h g hg))

theorem dbgOp_done {g : Group} (hg : dbgGroup s = some g) (hok : dbgRefuses s who = false) (hbad : bad g = false) :
    dbgOp s who bad body = body (dbgAnswer (hostAnswer s who) false) g := by
  simp only [dbgOp, beq_eq_false_iff_ne.2 hw, reaches_hostAnswer, hr, dbgGroup_hostAnswer, dbgRefuses_hostAnswer, hg, hok, hbad,
    Bool.not_true, Bool.or_self, Bool.false_eq_true, if_false]

/-! ## HALT -/

section
variable {g : Group} (hg : dbgGroup s = some g) (hok : dbgRefuses s who = false) (hrun : g.halted = false) (huser : g.stock = .user)
include hg hok hrun huser

theorem debugHalt_issuing (h : groupReady s s.regs.dbgCore.toNat g = true) :
    debugHalt s who = dbgStatus (modGroup (hostAnswer s who) s.regs.dbgCore.toNat s.regs.dbgSlot.toNat
      fun g => { g with haltAsked := true, haltByHost := who == .host }) true false := by
  have hregs : (dbgAnswer (hostAnswer s who) false).regs.dbgCore = s.regs.dbgCore := by rw [dbgAnswer, hostAnswer_regs]
  rw [debugHalt, dbgOp_done hr hw hg hok (by simp [hrun, huser]), hregs, groupReady_dbgAnswer, if_pos h, dbgTarget_status]

theorem debugHalt_held (h : groupReady s s.regs.dbgCore.toNat g = false) :
    debugHalt s who = dbgStatus (modGroup (hostAnswer s who) s.regs.dbgCore.toNat s.regs.dbgSlot.toNat
      (haltGroup (who == .host))) false false := by
  have hregs : (dbgAnswer (hostAnswer s who) false).regs.dbgCore = s.regs.dbgCore := by rw [dbgAnswer, hostAnswer_regs]
  rw [debugHalt, dbgOp_done hr hw hg hok (by simp [hrun, huser]), hregs, groupReady_dbgAnswer, if_neg (Bool.eq_false_iff.1 h),
    dbgTarget_status]

end
end

/-- A target group that reaches its boundary with a HALT asked is halted. -/
theorem haltTaken_asked {s : State} {g : Group} (hg : dbgGroup s = some g) (ha : g.haltAsked = true) (he : g.ended = false)
    (hs : g.stopping = false) : haltTaken s = dbgTarget s false (haltGroup g.haltByHost) := by
  simp [haltTaken, hg, ha, he, hs]

/-- Settles O41: an operation is refused, or changes the target group alone. -/
theorem debuggerOperations : Obligations.DebuggerOperations := by
  intro s who g hr hw a say put
  refine ⟨fun i hi h => ?refused, fun i hi => ?drover, fun hg hc hauth => ?target, fun hg ha he hs => ?taken⟩
  case refused =>
    have hall : ∀ g, dbgGroup s = some g → dbgRefuses s who = true := by
      intro g' hg'
      obtain hnone | ⟨hg, hc⟩ | ⟨rfl, hoff⟩ := h
      · exact dbgRefuses_noGroup hnone who
      · exact dbgRefuses_otherCtx hg hc
      · exact dbgRefuses_host hoff
    simp only [List.mem_cons, List.not_mem_nil, or_false] at hi
    obtain rfl | rfl | rfl := hi
    · exact next_congr (dbgOp_refused hr hw fun g hg => .inl (hall g hg))
    · exact next_congr (dbgOp_refused hr hw fun g hg => .inl (hall g hg))
    · exact next_congr (dbgOp_refused hr hw fun g hg => .inl (hall g hg))
  case drover =>
    simp only [List.mem_cons, List.not_mem_nil, or_false] at hi
    obtain rfl | rfl | rfl := hi
    · exact next_congr (dbgOp_drover ..)
    · exact next_congr (dbgOp_drover ..)
    · exact next_congr (dbgOp_drover ..)
  case target =>
    have hok : dbgRefuses s who = false := dbgRefuses_target hg hc hauth
    refine ⟨fun hrun huser h => next_congr (debugHalt_issuing hr hw hg hok hrun huser h),
      fun hrun huser h => next_congr (debugHalt_held hr hw hg hok hrun huser h), fun hbad => next_congr (dbgOp_refused hr hw ?_),
      fun hh => next_congr ((dbgOp_done hr hw hg hok (by simp [hh])).trans (dbgTarget_status ..)),
      fun hh => next_congr ((dbgOp_done hr hw hg hok (by simp [hh])).trans (dbgTarget_status ..)), fun hh i hi => ?_⟩
    · intro g' hg'
      cases hg.symm.trans hg'
      exact .inr (by simpa using hbad)
    · have hbad : ∀ g', dbgGroup s = some g' → dbgRefuses s who = true ∨ (!g'.halted) = true := by
        intro g' hg'
        cases hg.symm.trans hg'
        exact .inr (by simp [hh])
      simp only [List.mem_cons, List.not_mem_nil, or_false] at hi
      obtain rfl | rfl := hi
      · exact next_congr (dbgOp_refused hr hw hbad)
      · exact next_congr (dbgOp_refused hr hw hbad)
  case taken =>
    exact next_congr (haltTaken_asked hg ha he hs)

end Sys2Proof.Machine
end
